-- ==== Sys2Proof/Word.lean ====
section
/-! DEFINITION. The word and byte types (00_scope.md R7: the register word is 32 bits). Slices and field
updates stand in Machine/Fields.lean. -/

namespace Sys2Proof

/-- A register word, 32 bits; bit 0 is the least significant (R7, R9). -/
abbrev Word := BitVec 32

/-- One payload byte, also one byte of the mailbox file as `Host.Cell` holds it. -/
abbrev Byte := BitVec 8

end Sys2Proof
end

