-- ==== Sys2Proof/Machine/Values.lean ====
section
/-! DEFINITION. The plain-data types of the machine: the value types of the operand and result ports (10_state.md
R45 to R50), the operands as the port carries them before they are checked (60_exceptions.md R217), the sequencer's
positions (10_state.md R24), the outcomes an operation can have (60_exceptions.md R210), the registers (20_memory.md
R61) and the moves of the three agents (10_state.md R20 to R22). -/

namespace Sys2Proof

/-! ## Value types (10_state.md R45 to R50) -/

/-- The five receive states (R47). -/
inductive RxState where
  | inactive
  | empty
  | full
  | overrun
  | remoteAnswer
  deriving DecidableEq, Repr, Inhabited

/-- The four transmit states (R47). -/
inductive TxState where
  | inactive
  | abort
  | dataOrRemotePending
  | remoteAnswerPending
  deriving DecidableEq, Repr, Inhabited

/-- The 14-valued mailbox code (R47). -/
inductive MessageBufferCode where
  | receive (state : RxState) (busy : Bool)
  | transmit (state : TxState)
  deriving DecidableEq, Repr, Inhabited

/-- R45: a base identifier has 11 bits, an extended one 29, so the invariant holds by the type. -/
inductive CanIdentifier where
  | base (b : BitVec 11)
  | extended (e : BitVec 29)
  deriving DecidableEq, Repr, Inhabited

/-- R46. The bound of 8 on the payload is `CanFrame.wf`, tested at admission. -/
inductive CanFrame where
  | data (id : CanIdentifier) (payload : List Byte)
  | remote (id : CanIdentifier)
  deriving DecidableEq, Repr, Inhabited

/-- The identifier of a frame of either kind (R46). -/
def CanFrame.id : CanFrame → CanIdentifier
  | .data id _ => id
  | .remote id => id

/-- R46: `length <= 8`. -/
def CanFrame.wf : CanFrame → Bool
  | .data _ payload => decide (payload.length ≤ 8)
  | .remote _ => true

/-- R48. -/
structure MailboxHeader where
  errorStateIndicator : Bool
  code : MessageBufferCode
  timestamp : BitVec 16
  priority : BitVec 3
  deriving DecidableEq, Repr, Inhabited

/-- R49. The fields are the exact naturals of the calculation; that they fit their register fields is R134 (c). -/
structure BitTiming where
  presdiv : Nat
  propseg : Nat
  pseg1 : Nat
  pseg2 : Nat
  rjw : Nat
  deriving DecidableEq, Repr, Inhabited

/-- R50. `clockSource` is the 1-bit selector. -/
structure CanSettings where
  sourceFrequency : BitVec 32
  canFrequency : BitVec 32
  selfReception : Bool
  individualMasking : Bool
  loopbackMode : Bool
  clockSource : Bool
  fifoEnabled : Bool
  dmaEnable : Bool
  deriving DecidableEq, Repr, Inhabited

/-! ## Operands as the port carries them

The port can carry bits that are the value of no type above (R217, 92_eei_decisions.md D24). Where R91 gives a
field no more room than its type has (frequencies, settings, timestamp) the value type itself is used. -/

/-- A message-buffer code on the port: one of the 14 values, or a 5-bit pattern of R91 that is the value of none. -/
inductive CodeOperand where
  | value (c : MessageBufferCode)
  | malformed (raw : BitVec 5)
  deriving DecidableEq, Repr, Inhabited

/-- An identifier on the port; its number may exceed the bound of its kind. -/
inductive IdOperand where
  | base (v : Nat)
  | extended (v : Nat)
  deriving DecidableEq, Repr, Inhabited

/-- A frame on the port; its payload may be too long. -/
inductive FrameOperand where
  | data (id : IdOperand) (payload : List Byte)
  | remote (id : IdOperand)
  deriving DecidableEq, Repr, Inhabited

/-- A header on the port; its priority may exceed 7 and its code may be malformed or busy. -/
structure HeaderOperand where
  errorStateIndicator : Bool
  code : CodeOperand
  timestamp : BitVec 16
  priority : Nat
  deriving DecidableEq, Repr, Inhabited

/-- The operand port, one line for each operand shape of R91. A command reads only the lines of its own operands. -/
structure OperandPort where
  /-- `BTCALC`'s two frequencies. -/
  sourceFrequency : BitVec 32
  canFrequency : BitVec 32
  /-- `ENCODE`'s operand. -/
  code : CodeOperand
  /-- `DECODE`'s operand, a 4-bit value; above 15 it is not one. -/
  bits4 : Nat
  /-- `INIT`'s operands. -/
  settings : CanSettings
  headers : List HeaderOperand
  /-- `TRANSMIT`'s operand. -/
  frame : FrameOperand
  deriving DecidableEq, Repr, Inhabited

/-! ## The register block (20_memory.md R61) -/

/-- The four words of a mailbox (10_state.md R31). -/
inductive MbWord where
  | cs
  | id
  | d0
  | d1
  deriving DecidableEq, Repr, Inhabited

/-- The word index of R31. -/
def MbWord.index : MbWord → Nat
  | .cs => 0
  | .id => 1
  | .d0 => 2
  | .d1 => 3

/-- The registers by name (R61, 00_scope.md R11). -/
inductive Reg where
  | gcr
  | btr
  | timer
  | rxmask
  | iflag
  | mb (i : Nat) (w : MbWord)
  deriving DecidableEq, Repr, Inhabited

/-- One event of the history a model records: a register access of the engine (00_scope.md R11). -/
inductive Event where
  | read (r : Reg) (v : Word)
  | write (r : Reg) (v : Word)
  deriving DecidableEq, Repr, Inhabited

/-! ## The sequencer (10_state.md R24) -/

/-- The controller modes, in order of progress (10_state.md R27). -/
inductive Mode where
  | disabled
  | reset
  | enabled
  | frozen
  | running
  deriving DecidableEq, Repr, Inhabited

/-- The seven operations (30_encoding.md R90). -/
inductive Op where
  | btcalc
  | encode
  | decode
  | init
  | transmit
  | receive
  | abort
  deriving DecidableEq, Repr, Inhabited

/-- The one label of `BTCALC`, `ENCODE` and `DECODE`: they make no register access, and the whole operation is evaluated
as one step (40_bit_timing.md R130, 41_mailbox_codec.md R142, R143). -/
inductive SingleStep where
  | s0
  deriving DecidableEq, Repr, Inhabited

/-- The labels of `INIT`: V0 to V3 of `Validate` (42_controller_init.md R161), then those of R162 to R168. A field update
`F <- v` is two accesses (20_memory.md R66), so its label stands twice: `…r` for the read, `…w` for the write. -/
inductive InitStep where
  | v0 | v1 | v2 | v3
  | a1r | a1w | a2 | a3r | a3w | a4r | a4w | a5 | a6r | a6w | a7 | a8r | a8w | a9
  | b1r | b1w | b2
  | c1r | c1w | c2
  | d1r | d1w | d2r | d2w | d3
  | e1 | e2 | e3
  | w1 | w2 | w3 | w4 | w5
  | f1r | f1w | f2
  deriving DecidableEq, Repr, Inhabited

/-- The labels of `TRANSMIT` (43_transmit.md R183). -/
inductive TransmitStep where
  | s0 | s1 | s2 | s3 | s4 | s5 | s6 | s7 | s8
  deriving DecidableEq, Repr, Inhabited

/-- The labels of `RECEIVE` (44_receive.md R190). -/
inductive ReceiveStep where
  | s0 | s1 | s2 | s3 | s4 | s5 | s6 | s7 | s8 | s9
  deriving DecidableEq, Repr, Inhabited

/-- The labels of `ABORT` (45_abort.md R200). -/
inductive AbortStep where
  | s0 | s1 | s2 | s3 | s4
  deriving DecidableEq, Repr, Inhabited

/-- An operation and a label of its rule (00_scope.md R14, 10_state.md R24). -/
inductive Position where
  | btcalc (l : SingleStep)
  | encode (l : SingleStep)
  | decode (l : SingleStep)
  | init (l : InitStep)
  | transmit (l : TransmitStep)
  | receive (l : ReceiveStep)
  | abort (l : AbortStep)
  deriving DecidableEq, Repr, Inhabited

/-- The operation a position belongs to. -/
def Position.op : Position → Op
  | .btcalc _ => .btcalc
  | .encode _ => .encode
  | .decode _ => .decode
  | .init _ => .init
  | .transmit _ => .transmit
  | .receive _ => .receive
  | .abort _ => .abort

/-- The first label of an operation (10_state.md R25); `INIT` begins at V0 of `Validate` (42_controller_init.md R161). -/
def Op.start : Op → Position
  | .btcalc => .btcalc .s0
  | .encode => .encode .s0
  | .decode => .decode .s0
  | .init => .init .v0
  | .transmit => .transmit .s0
  | .receive => .receive .s0
  | .abort => .abort .s0

/-- The sequencer position, the engine's program counter (R24): `run p i n` is `Run(op, step, i, n)`, `i` the 5-bit
mailbox index (R26: no arithmetic on it wraps), `n` the wait counter, a natural number. -/
inductive Seq where
  | idle
  | faulted
  | run (p : Position) (i : Fin 32) (n : Nat)
  deriving DecidableEq, Repr, Inhabited

/-! ## Outcomes (60_exceptions.md R210) -/

/-- An entry of the report port (10_state.md R29, 43_transmit.md R184). -/
inductive ReportEntry where
  | none
  | mailboxBusy
  | mailboxConfigurationError
  deriving DecidableEq, Repr, Inhabited

/-- The value of an `Ok` result, of the type the operation returns (10_state.md R29). -/
inductive OkValue where
  | unit
  | bitTiming (bt : BitTiming)
  | code4 (v : BitVec 4)
  | code (c : MessageBufferCode)
  | received (h : MailboxHeader) (f : CanFrame)
  | optionalFrame (f : Option CanFrame)
  deriving DecidableEq, Repr, Inhabited

/-- The recoverable results; `BufferFull` records the report vector (R210). -/
inductive Err where
  | settingsError
  | mailboxBusy
  | bufferFull (report : List ReportEntry)
  | mailboxConfigurationError
  | mailboxEmpty
  deriving DecidableEq, Repr, Inhabited

/-- The fatal causes with the value each records (R210): the pattern and, inside a mailbox operation, the mailbox
index; `tqs`; the label of the wait; the length code. -/
inductive Fatal where
  | undecodableCode (pattern : BitVec 4) (mailbox : Option Nat)
  | tqsOutOfRange (tqs : Nat)
  | waitLimitExceeded (at_ : Position)
  | dlcOutOfRange (dlc : BitVec 4)
  deriving DecidableEq, Repr, Inhabited

/-- The refusals the result port can show (R210, R216). They are results of this machine, not the model's own
refusals: the engine goes on and the next command is served. -/
inductive Refused where
  | illegalCommand
  | invalidOperand
  | mailboxIndexOutOfRange
  | notInitialised
  | alreadyInitialised
  | canFrequencyZero
  | presdivOutOfRange
  | fifoNotModelled
  | engineFaulted
  deriving DecidableEq, Repr, Inhabited

/-- The result port: class, cause and value (10_state.md R29). -/
inductive Result where
  | ok (v : OkValue)
  | err (e : Err)
  | fatal (f : Fatal)
  | refused (r : Refused)
  deriving DecidableEq, Repr, Inhabited

/-! ## The agents' moves (10_state.md R20 to R22, 20_memory.md R73) -/

/-- What the controller does in a move on one mailbox, with the values the spec leaves to a draw. Which of these is
possible is decided by the mailbox's code (20_memory.md R83 to R87); a move the code does not allow changes nothing. -/
inductive MbMove where
  /-- The move the code itself names: transmission complete (R83), reception begins (R84), reception ends (R85),
  abort complete (R86). `alt` is the draw of R83 (remote frame: `Receive{Empty}`) and R86 (the frame was sent). -/
  | act (alt : Bool)
  /-- R84: while busy, the ID or a data word takes any value. -/
  | writeId (v : Word)
  | writeD0 (v : Word)
  | writeD1 (v : Word)
  /-- R84: while busy, the fields `IDE`, `RTR`, `DLC`, `ESI`, `TIMESTAMP` of the control word take any value. -/
  | writeCsFields (v : Word)
  /-- R87: any word of the mailbox and its flag take any value. -/
  | scramble (cs id d0 d1 : Word) (flag : Bool)
  deriving DecidableEq, Repr, Inhabited

/-- One turn: which agent moves next, and how. -/
inductive Turn where
  /-- The engine takes one step of its operation (R20). -/
  | engine
  /-- The host issues a command word with its operands (R22, 60_exceptions.md R239). -/
  | host (word : Word) (ops : OperandPort)
  /-- Low-power acknowledgment (R80). -/
  | lowPower
  /-- Soft reset, with the values the other register fields take (R81). -/
  | softReset (gcr btr rxmask iflag timer : Word)
  /-- Freeze acknowledgment; `draw` where `FRZACK` is unspecified (R82). -/
  | freeze (draw : Bool)
  /-- A move on mailbox `i` (R83 to R87). -/
  | mailbox (i : Nat) (m : MbMove)
  /-- The timer's count changes (R88); bits 31:16 are unspecified on read (10_state.md R38). -/
  | timer (v : Word)
  /-- The IFLAG bits at and above `NUM_MB`, unspecified on read, change (10_state.md R37). -/
  | floating (v : Word)
  deriving DecidableEq, Repr, Inhabited

end Sys2Proof
end

