-- ==== Sys2Proof/Machine/Fields.lean ====
section
/-! DEFINITION. Bit fields of a 32-bit register word, and every decided layout and constant of 00_scope.md R8 in one
place: GCR_LAYOUT (D4), BTR_LAYOUT (D5), CS_LAYOUT (D6), the ID word (30_encoding.md R104), REG_OFFSETS (D3),
ACCEPT_ALL_MASK (D14), FILLER_FRAME (D15), the default headers (D16) and RESULT_CODES (D2). -/

namespace Sys2Proof.Machine

/-- A field of a register word: its lowest bit and its width (R9: bits `lo + width - 1` down to `lo`). -/
structure Field where
  lo : Nat
  width : Nat
  deriving DecidableEq, Repr

/-- Ones in the field's bits, zeros elsewhere. -/
def Field.mask (f : Field) : Word :=
  BitVec.ofNat 32 (2 ^ f.width - 1) <<< f.lo

/-- `w[hi:lo]` as a number (R9). -/
def Field.get (f : Field) (w : Word) : Nat :=
  (w.extractLsb' f.lo f.width).toNat

/-- A one-bit field as a truth value. -/
def Field.bit (f : Field) (w : Word) : Bool :=
  w.getLsbD f.lo

/-- `a` with the bits of mask `m` taken from `v`. -/
def blend (m a v : Word) : Word :=
  (a &&& ~~~m) ||| (v &&& m)

/-- `w[hi:lo] := v` (R9): those bits replaced, the others left. -/
def Field.set (f : Field) (w : Word) (v : Nat) : Word :=
  blend f.mask w (BitVec.ofNat 32 v <<< f.lo)

/-! ## GCR (10_state.md R34) -/

def Gcr.mdis : Field := ⟨31, 1⟩
def Gcr.frz : Field := ⟨30, 1⟩
def Gcr.rfen : Field := ⟨29, 1⟩
def Gcr.halt : Field := ⟨28, 1⟩
def Gcr.softrst : Field := ⟨25, 1⟩
def Gcr.frzack : Field := ⟨24, 1⟩
def Gcr.lpmack : Field := ⟨20, 1⟩
def Gcr.srxdis : Field := ⟨17, 1⟩
def Gcr.irmq : Field := ⟨16, 1⟩
def Gcr.dma : Field := ⟨15, 1⟩
def Gcr.maxmb : Field := ⟨0, 7⟩

/-- The fields a write changes in every mode, `SOFTRST` apart (R34). -/
def Gcr.alwaysMask : Word :=
  Gcr.mdis.mask ||| Gcr.frz.mask ||| Gcr.halt.mask

/-- The `Frozen`-only fields of GCR (R34). -/
def Gcr.frozenMask : Word :=
  Gcr.rfen.mask ||| Gcr.srxdis.mask ||| Gcr.irmq.mask ||| Gcr.dma.mask ||| Gcr.maxmb.mask

/-! ## BTR (10_state.md R35) -/

def Btr.presdiv : Field := ⟨24, 8⟩
def Btr.rjw : Field := ⟨22, 2⟩
def Btr.pseg1 : Field := ⟨19, 3⟩
def Btr.pseg2 : Field := ⟨16, 3⟩
def Btr.clksrc : Field := ⟨13, 1⟩
def Btr.lpb : Field := ⟨12, 1⟩
def Btr.propseg : Field := ⟨0, 3⟩

/-- The `Frozen`-only fields of BTR (R35). -/
def Btr.frozenMask : Word :=
  Btr.presdiv.mask ||| Btr.rjw.mask ||| Btr.pseg1.mask ||| Btr.pseg2.mask ||| Btr.lpb.mask ||| Btr.propseg.mask

/-! ## The control word (30_encoding.md R100) and the ID word (R104) -/

def Cs.esi : Field := ⟨29, 1⟩
def Cs.code : Field := ⟨24, 4⟩
def Cs.ide : Field := ⟨21, 1⟩
def Cs.rtr : Field := ⟨20, 1⟩
def Cs.dlc : Field := ⟨16, 4⟩
def Cs.timestamp : Field := ⟨0, 16⟩

/-- The control-word fields the controller may write while it receives (20_memory.md R84). -/
def Cs.receptionMask : Word :=
  Cs.ide.mask ||| Cs.rtr.mask ||| Cs.dlc.mask ||| Cs.esi.mask ||| Cs.timestamp.mask

/-- The code of a control word, bits 27:24. -/
def codeOf (c : Word) : BitVec 4 :=
  c.extractLsb' 24 4

/-- `c with [27:24] := v`. -/
def withCode (c : Word) (v : BitVec 4) : Word :=
  Cs.code.set c v.toNat

/-! ## Addresses (20_memory.md R61) -/

/-- The byte address of a register in a block that begins at `base` (R61, R62). -/
def regAddr (base : Nat) : Reg → Nat
  | .gcr => base + 0x00
  | .btr => base + 0x04
  | .timer => base + 0x08
  | .rxmask => base + 0x10
  | .iflag => base + 0x30
  | .mb i w => base + 0x80 + 16 * i + 4 * w.index

/-! ## Constants -/

/-- `ACCEPT_ALL_MASK` (D14). -/
def acceptAllMask : Word := 0x00000000#32

/-- `FILLER_FRAME` (D15). -/
def fillerFrame : CanFrame := .data (.base 0#11) []

/-- `TX_DEFAULT` (10_state.md R48, D16). -/
def txDefault : MailboxHeader := ⟨false, .transmit .inactive, 0#16, 0#3⟩

/-- `RX_DEFAULT` (R48, D16). -/
def rxDefault : MailboxHeader := ⟨false, .receive .empty false, 0#16, 0#3⟩

/-! ## Result codes (60_exceptions.md R210) -/

/-- The classes of the result port (10_state.md R29). -/
inductive ResultClass where
  | ok
  | err
  | fatal
  | refused
  deriving DecidableEq, Repr

/-- The class the result port shows. -/
def resultClass : Result → ResultClass
  | .ok _ => .ok
  | .err _ => .err
  | .fatal _ => .fatal
  | .refused _ => .refused

def errCode : Err → BitVec 8
  | .settingsError => 0x01#8
  | .mailboxBusy => 0x02#8
  | .bufferFull _ => 0x03#8
  | .mailboxConfigurationError => 0x04#8
  | .mailboxEmpty => 0x05#8

def fatalCode : Fatal → BitVec 8
  | .undecodableCode _ _ => 0x10#8
  | .tqsOutOfRange _ => 0x11#8
  | .waitLimitExceeded _ => 0x12#8
  | .dlcOutOfRange _ => 0x13#8

def refusedCode : Refused → BitVec 8
  | .illegalCommand => 0x20#8
  | .invalidOperand => 0x21#8
  | .mailboxIndexOutOfRange => 0x22#8
  | .notInitialised => 0x23#8
  | .alreadyInitialised => 0x24#8
  | .canFrequencyZero => 0x25#8
  | .presdivOutOfRange => 0x26#8
  | .fifoNotModelled => 0x27#8
  | .engineFaulted => 0x28#8

/-- The code the result port shows (R210). -/
def resultCode : Result → BitVec 8
  | .ok _ => 0x00#8
  | .err e => errCode e
  | .fatal f => fatalCode f
  | .refused r => refusedCode r

end Sys2Proof.Machine
end

