-- ==== Sys2Proof/Machine/Operands.lean ====
section
/-! DEFINITION. Every operand form and every register image: the mailbox-code values (41_mailbox_codec.md R140), the
tests an operand must pass (60_exceptions.md R217), and the packing and unpacking of the control word (30_encoding.md
R101, R102), the ID word (R105, R106), the data words (R109, R110), GCR (R111) and BTR (R112). -/

namespace Sys2Proof.Machine

/-! ## The mailbox code: CODE_TABLE (R140, D7) -/

/-- `state3` of R142. -/
def rxBits : RxState → BitVec 3
  | .inactive => 0b000#3
  | .full => 0b001#3
  | .empty => 0b010#3
  | .overrun => 0b011#3
  | .remoteAnswer => 0b101#3

/-- `encode` of R142: a receive code is `state3 ++ busy`, a transmit code one of four fixed patterns. -/
def codeBits : MessageBufferCode → BitVec 4
  | .transmit .inactive => 0b1000#4
  | .transmit .abort => 0b1001#4
  | .transmit .dataOrRemotePending => 0b1100#4
  | .transmit .remoteAnswerPending => 0b1110#4
  | .receive st busy => rxBits st ++ BitVec.ofBool busy

/-- The receive state of bits 3:1, if it is one (R143). -/
def rxStateOf (s3 : BitVec 3) : Option RxState :=
  match s3.toNat with
  | 0 => some .inactive
  | 1 => some .full
  | 2 => some .empty
  | 3 => some .overrun
  | 5 => some .remoteAnswer
  | _ => none

/-- `decode` of R143: the four transmit patterns first, then state and busy; `none` is `Fatal(UndecodableCode)`. -/
def codeValue (v : BitVec 4) : Option MessageBufferCode :=
  if v = 0b1000#4 then some (.transmit .inactive)
  else if v = 0b1001#4 then some (.transmit .abort)
  else if v = 0b1100#4 then some (.transmit .dataOrRemotePending)
  else if v = 0b1110#4 then some (.transmit .remoteAnswerPending)
  else (rxStateOf (v.extractLsb' 1 3)).map fun st => .receive st (v.getLsbD 0)

/-- A receive code with busy set (R154 (d)). -/
def MessageBufferCode.isBusy : MessageBufferCode → Bool
  | .receive _ busy => busy
  | .transmit _ => false

/-- A receive code, busy or not. -/
def MessageBufferCode.isReceive : MessageBufferCode → Bool
  | .receive _ _ => true
  | .transmit _ => false

/-- The inactive code of a header's kind (42_controller_init.md R167). -/
def inactiveBits (c : MessageBufferCode) : BitVec 4 :=
  if MessageBufferCode.isReceive c then 0b0000#4 else 0b1000#4

/-! ## Admission of operands (60_exceptions.md R217) -/

/-- R45: a `Base` value above 0x7FF or an `Extended` value above 0x1FFFFFFF is no identifier. -/
def checkId : IdOperand → Option CanIdentifier
  | .base v => if v ≤ 0x7FF then some (.base (BitVec.ofNat 11 v)) else none
  | .extended v => if v ≤ 0x1FFFFFFF then some (.extended (BitVec.ofNat 29 v)) else none

/-- R46: an identifier and at most 8 payload bytes. -/
def checkFrame : FrameOperand → Option CanFrame
  | .data id payload =>
    if payload.length ≤ 8 then (checkId id).map fun i => .data i payload else none
  | .remote id => (checkId id).map .remote

/-- R47: one of the 14 values. -/
def checkCode : CodeOperand → Option MessageBufferCode
  | .value c => some c
  | .malformed _ => none

/-- R48: a code that is a value and not busy, and a priority of at most 7. -/
def checkHeader (h : HeaderOperand) : Option MailboxHeader :=
  match checkCode h.code with
  | some c =>
    if !MessageBufferCode.isBusy c && decide (h.priority ≤ 7) then
      some ⟨h.errorStateIndicator, c, h.timestamp, BitVec.ofNat 3 h.priority⟩
    else none
  | none => none

/-- The whole header sequence, if every header passes. -/
def checkHeaders : List HeaderOperand → Option (List MailboxHeader)
  | [] => some []
  | h :: hs =>
    match checkHeader h, checkHeaders hs with
    | some a, some as => some (a :: as)
    | _, _ => none

/-- R161 V0: `1 <= len(headers) <= NUM_MB` and every header well formed. -/
def checkHeaderSequence (numMb : Nat) (hs : List HeaderOperand) : Option (List MailboxHeader) :=
  if 1 ≤ hs.length ∧ hs.length ≤ numMb then checkHeaders hs else none

/-- R217: a 4-bit operand of `DECODE` above 15 is none. -/
def checkBits4 (n : Nat) : Option (BitVec 4) :=
  if n ≤ 15 then some (BitVec.ofNat 4 n) else none

/-! ## The control word (30_encoding.md R100 to R102) -/

/-- `dlc` of R101. -/
def dlcOf : CanFrame → Nat
  | .data _ payload => payload.length
  | .remote _ => 0

/-- Whether a frame's identifier is `Extended`. -/
def isExtended : CanIdentifier → Bool
  | .base _ => false
  | .extended _ => true

/-- Whether a frame is a `RemoteFrame`. -/
def isRemote : CanFrame → Bool
  | .data _ _ => false
  | .remote _ => true

/-- `pack_cs` (R101); every reserved bit is 0. -/
def packCs (h : MailboxHeader) (f : CanFrame) : Word :=
  (BitVec.ofNat 32 h.errorStateIndicator.toNat <<< 29)
    ||| ((codeBits h.code).setWidth 32 <<< 24)
    ||| (BitVec.ofNat 32 (isExtended f.id).toNat <<< 21)
    ||| (BitVec.ofNat 32 (isRemote f).toNat <<< 20)
    ||| (BitVec.ofNat 32 (dlcOf f) <<< 16)
    ||| h.timestamp.setWidth 32

/-- The fields of a control word (R102). -/
structure CsFields where
  esi : Bool
  code4 : BitVec 4
  ide : Bool
  rtr : Bool
  dlc : BitVec 4
  timestamp : BitVec 16
  deriving DecidableEq, Repr

/-- `unpack_cs` (R102); reserved bits are ignored. -/
def unpackCs (c : Word) : CsFields where
  esi := c.getLsbD 29
  code4 := c.extractLsb' 24 4
  ide := c.getLsbD 21
  rtr := c.getLsbD 20
  dlc := c.extractLsb' 16 4
  timestamp := c.extractLsb' 0 16

/-! ## The ID word (30_encoding.md R104 to R106) -/

/-- `pack_id` (R105). -/
def packId (prio : BitVec 3) : CanIdentifier → Word
  | .base b => (prio.setWidth 32 <<< 29) ||| (b.setWidth 32 <<< 18)
  | .extended e => (prio.setWidth 32 <<< 29) ||| e.setWidth 32

/-- `unpack_id` (R106). -/
def unpackId (ide : Bool) (w : Word) : CanIdentifier :=
  if ide then .extended (w.extractLsb' 0 29) else .base (w.extractLsb' 18 11)

/-- The priority of an ID word, `w[31:29]` (R106). -/
def priorityOf (w : Word) : BitVec 3 :=
  w.extractLsb' 29 3

/-! ## The data words (30_encoding.md R108 to R110) -/

/-- The payload of a frame; a remote frame has none. -/
def payloadOf : CanFrame → List Byte
  | .data _ payload => payload
  | .remote _ => []

/-- Payload byte `k`, or 0 at or beyond the payload length (R109). -/
def laneOf (f : CanFrame) (k : Nat) : Byte :=
  (payloadOf f).getD k 0#8

/-- `pack_data(f, j)` (R109): byte `4j` in the most significant lane (R108). -/
def packData (f : CanFrame) (j : Nat) : Word :=
  laneOf f (4 * j) ++ laneOf f (4 * j + 1) ++ laneOf f (4 * j + 2) ++ laneOf f (4 * j + 3)

/-- Lane `k` of the two data words (R108): bits `[31 - 8*(k mod 4) : 24 - 8*(k mod 4)]` of word `2 + k div 4`. -/
def laneAt (d0 d1 : Word) (k : Nat) : Byte :=
  (if k / 4 = 0 then d0 else d1).extractLsb' (24 - 8 * (k % 4)) 8

/-- `unpack_data(d0, d1, n)` (R110). -/
def unpackData (d0 d1 : Word) (n : Nat) : List Byte :=
  (List.range n).map (laneAt d0 d1)

/-! ## The global registers (30_encoding.md R111, R112) -/

/-- The five fields step D1 of `INIT` replaces in GCR (R111, 42_controller_init.md R165). -/
def configureGcr (s : CanSettings) (n : Nat) (w : Word) : Word :=
  Gcr.maxmb.set
    (Gcr.dma.set
      (Gcr.irmq.set
        (Gcr.srxdis.set (Gcr.rfen.set w s.fifoEnabled.toNat) (!s.selfReception).toNat)
        s.individualMasking.toNat)
      s.dmaEnable.toNat)
    (n - 1)

/-- The six fields step D2 of `INIT` replaces in BTR (R112). -/
def configureBtr (s : CanSettings) (bt : BitTiming) (w : Word) : Word :=
  Btr.lpb.set
    (Btr.propseg.set
      (Btr.pseg2.set
        (Btr.pseg1.set (Btr.rjw.set (Btr.presdiv.set w bt.presdiv) bt.rjw) bt.pseg1)
        bt.pseg2)
      bt.propseg)
    s.loopbackMode.toNat

end Sys2Proof.Machine
end

