-- ==== Sys2Proof/Config.lean ====
section
/-! DEFINITION. What one implementation fixes: the three parameters the spec leaves OPEN (00_scope.md R8) as a record
that the model takes as an argument (it stands in State and no step changes it), and the one free choice no
document fixes, which agent moves next. The decided layouts and constants of R8 stand in Machine/Fields.lean. -/

namespace Sys2Proof

/-- The OPEN parameters of R8. -/
structure Params where
  /-- `NUM_MB`, the number of mailboxes, 1 to 32 (D8). -/
  numMb : Nat
  /-- `WAIT_LIMIT`, the bound on failing reads of one wait; `none` is `inf` (D9). -/
  waitLimit : Option Nat
  /-- `BASE`, the byte address of the register block (D3). -/
  base : Nat
  deriving DecidableEq, Repr

/-- The range of `NUM_MB` (R8, D8), and a word-aligned base (20_memory.md R64). -/
def Params.wf (p : Params) : Bool :=
  decide (1 ≤ p.numMb) && decide (p.numMb ≤ 32) && decide (p.base % 4 = 0)

/-- FREE VALUE: the turn taken when the script of turns has run out, as a function of the turn's number. Between any
two engine steps the controller may make any number of its moves and the host may issue a command (20_memory.md
R73); no document says which, so nothing may be proved about this function. See notes/assumptions/5.md. -/
opaque Config.freeTurn : Nat → Turn

end Sys2Proof
end

