-- ==== Sys2Proof/Machine/State.lean ====
section
/-! DEFINITION. The state of the machine as plain data: the engine's own registers (10_state.md R24 to R29), the two
input ports, the register block of the controller (R30 to R38), the controller's hidden state (R42, R43), and the
model's own fields: the parameters, the history (00_scope.md R11), the refusal mark (60_exceptions.md R216) and the
script that says which agent moves next. -/

namespace Sys2Proof.Machine

/-- Why the model stops. Neither can happen in a state that keeps the invariant of Safety.lean; both are safe (the
model stops where the spec gives no move). -/
inductive Fault where
  /-- The engine addresses a mailbox with index at or above `NUM_MB`: no such register exists (20_memory.md R61).
  Raised by a register access. Safe. -/
  | noSuchRegister (addr : Nat)
  /-- A command reaches the engine while its sequencer is inside another operation: the host has no such move
  (60_exceptions.md R227, R239). Raised by a command's meaning. Safe. -/
  | commandWhileRunning
  deriving DecidableEq, Repr

/-- Reasons the model itself declines an instruction. The refusals of the spec (60_exceptions.md R216) are results
of the machine and stand in `Result`, not here. -/
inductive Refusal where
  /-- The instruction has no meaning in this model yet. Raised by `exec` only. Safe. -/
  | notModelled (mnemonic : String)
  deriving DecidableEq, Repr

/-- What an operation keeps between its own steps and drops when it ends (10_state.md R23, R33): its checked operands,
the bit timing computed at validation, the words read so far, and the report under construction. -/
structure Work where
  settings : CanSettings
  headers : List MailboxHeader
  bt : BitTiming
  frame : CanFrame
  header : MailboxHeader
  /-- The control word read. -/
  c : Word
  /-- The ID word read. -/
  w : Word
  d0 : Word
  d1 : Word
  /-- The word read by the first half of a read-modify-write (20_memory.md R66). -/
  t : Word
  report : List ReportEntry
  deriving DecidableEq, Repr

/-- Nothing kept. -/
def Work.empty : Work where
  settings := ⟨0#32, 0#32, false, false, false, false, false, false⟩
  headers := []
  bt := ⟨0, 0, 0, 0, 0⟩
  frame := .remote (.base 0#11)
  header := ⟨false, .receive .inactive false, 0#16, 0#3⟩
  c := 0#32
  w := 0#32
  d0 := 0#32
  d1 := 0#32
  t := 0#32
  report := []

/-- The operand port with every line low. -/
def OperandPort.low : OperandPort where
  sourceFrequency := 0#32
  canFrequency := 0#32
  code := .value (.receive .inactive false)
  bits4 := 0
  settings := ⟨0#32, 0#32, false, false, false, false, false, false⟩
  headers := []
  frame := .remote (.base 0)

structure State where
  /-- The OPEN parameters (00_scope.md R8); no step changes them. -/
  params : Params
  /-- The sequencer position, the engine's program counter (10_state.md R24). -/
  seq : Seq
  /-- The Controller State Machine's state (R27). -/
  mode : Mode
  /-- The 5-bit latch of R28. -/
  maxMailbox : BitVec 5
  /-- The result port (R29). -/
  result : Result
  /-- The report port (R29). -/
  report : List ReportEntry
  /-- The operation's own latches, empty between operations. -/
  work : Work
  /-- The mark a refusal leaves for the rest of the run (60_exceptions.md R216). -/
  refusalMark : Bool
  /-- The command port: the word of the command being served, if any (30_encoding.md R90). -/
  cmd : Option Word
  /-- The operand port, held stable until the operation ends (R91). -/
  ops : OperandPort
  /-- Global control register (10_state.md R34). -/
  gcr : Word
  /-- Bus-timing register (R35). -/
  btr : Word
  /-- Receive mask (R36). -/
  rxmask : Word
  /-- Pending-interrupt flags (R37). -/
  iflag : Word
  /-- Free-running timer; the count is bits 15:0 (R38). -/
  timer : Word
  /-- The mailbox file (R30, R31), byte by byte at the byte addresses of 20_memory.md R61. -/
  mem : List Host.Cell
  /-- The lock (R42). -/
  lock : Option Nat
  /-- The abort requests (R43), as a rising list of mailbox indices. -/
  abortReq : List Nat
  /-- The receptions the controller has begun and not ended (20_memory.md R82, R84), as a rising list. -/
  rxBegun : List Nat
  /-- The engine's register accesses so far, the latest first (00_scope.md R11). -/
  history : List Event
  /-- The turns to come; when it is empty the next turn is a free value. -/
  script : List Turn
  /-- How many turns have been taken. -/
  tick : Nat
  deriving DecidableEq, Repr

/-- The parameters `State.reset` carries: the most mailboxes, no bound on waits (the spec's default), the suggested
base. See notes/assumptions/4.md. -/
def Params.atReset : Params where
  numMb := 32
  waitLimit := none
  base := 0x40024000

/-- The machine right after power-on with given parameters (10_state.md R52, 70_reset_and_hazards.md R250). `seq`,
`mode`, `lock` and `abortReq` are the spec's values; every other value is the model's choice where the spec says
`unspecified` (notes/assumptions/1.md to 5.md). -/
def State.resetWith (p : Params) : State where
  params := p
  seq := .idle
  mode := .disabled
  maxMailbox := 0#5
  result := .ok .unit
  report := []
  work := Work.empty
  refusalMark := false
  cmd := none
  ops := OperandPort.low
  gcr := 0#32
  btr := 0#32
  rxmask := 0#32
  iflag := 0#32
  timer := 0#32
  mem := []
  lock := none
  abortReq := []
  rxBegun := []
  history := []
  script := []
  tick := 0

/-- The machine right after reset. -/
def State.reset : State := State.resetWith Params.atReset

end Sys2Proof.Machine
end

