-- ==== Sys2Proof/Machine/Flags.lean ====
section
/-! DEFINITION. Every flag and status bit, read from the registers that hold it (10_state.md R39 to R44), and how each
is set and cleared. -/

namespace Sys2Proof.Machine

/-! ## Acknowledgment and request bits of GCR (R34, R41) -/

def State.mdis (s : State) : Bool := Gcr.mdis.bit s.gcr
def State.frz (s : State) : Bool := Gcr.frz.bit s.gcr
def State.halt (s : State) : Bool := Gcr.halt.bit s.gcr
def State.softrst (s : State) : Bool := Gcr.softrst.bit s.gcr
def State.frzack (s : State) : Bool := Gcr.frzack.bit s.gcr
def State.lpmack (s : State) : Bool := Gcr.lpmack.bit s.gcr

/-- The `MAXMB` field of GCR (R34). -/
def State.maxmb (s : State) : Nat := Gcr.maxmb.get s.gcr

/-- R44: the controller may touch mailboxes and flags only while this holds. -/
def State.active (s : State) : Bool := !s.lpmack && !s.frzack && !s.softrst

/-! ## The pending-interrupt flags (R37, R39) -/

/-- The word with bit `i` set and no other. -/
def flagMask (i : Nat) : Word := 1#32 <<< i

/-- `IFLAG[i]`. -/
def State.flag (s : State) (i : Nat) : Bool := s.iflag.getLsbD i

/-- The controller sets `IFLAG[i]` (20_memory.md R83, R85, R86). -/
def State.setFlag (i : Nat) (s : State) : State := { s with iflag := s.iflag ||| flagMask i }

/-- `IFLAG[i]` takes any value (R87). -/
def State.assignFlag (i : Nat) (b : Bool) (s : State) : State :=
  { s with iflag := if b then s.iflag ||| flagMask i else s.iflag &&& ~~~flagMask i }

/-- Write-one-to-clear (R68): a written 1 clears that bit, a written 0 leaves it. -/
def clearFlags (iflag v : Word) : Word := iflag &&& ~~~v

/-- The IFLAG bits of the mailboxes that exist, `i < NUM_MB` (R37). -/
def flagBits (numMb : Nat) : Word := BitVec.ofNat 32 (2 ^ numMb - 1)

/-! ## The write check (43_transmit.md R180) -/

/-- The verdict of `MbCheck` on a code. -/
inductive Verdict where
  | free
  | busy
  | mismatch
  deriving DecidableEq, Repr

/-- R180: the verdict on a decoded code; `acceptRx` admits the inactive receive code. -/
def mbVerdict (acceptRx : Bool) : MessageBufferCode → Verdict
  | .transmit .inactive => .free
  | .receive .inactive false => if acceptRx then .free else .mismatch
  | .transmit .dataOrRemotePending => .busy
  | .receive .inactive true => .mismatch
  | .receive .empty _ => .mismatch
  | .receive .full _ => .mismatch
  | .receive .overrun _ => .mismatch
  | .receive .remoteAnswer _ => .mismatch
  | .transmit .abort => .mismatch
  | .transmit .remoteAnswerPending => .mismatch

end Sys2Proof.Machine
end

