-- ==== Sys2Proof/Machine/Ops.lean ====
section
/-! DEFINITION. The named operations every meaning is written over: the mailbox file as memory, the register accesses
with their side effects (20_memory.md R60 to R71), waiting (00_scope.md R13), and the four ways an operation ends
(60_exceptions.md R216, R224, R225). -/

namespace Sys2Proof.Machine

/-- The three outcomes of a step of this machine. -/
abbrev Out := Host.Outcome State Fault Refusal

/-! ## The mailbox file as memory

A list of address and byte pairs in one canonical form: addresses rising, no entry equal to what an unlisted address
reads as. Every access is one aligned 32-bit word (20_memory.md R64), so the order of the four bytes inside a word is
not observable; the model lays the most significant byte at the lowest address, which puts payload byte `k` at byte
`k` of the two data words (R63). See notes/assumptions/10.md. -/

/-- What a byte of the mailbox file that nothing has written reads as (notes/assumptions/2.md). -/
def unlistedByte : Byte := 0#8

/-- The byte at address `a`. -/
def readByte : List Host.Cell → Nat → Byte
  | [], _ => unlistedByte
  | (b, v) :: m, a => if a = b then v else if a < b then unlistedByte else readByte m a

/-- The memory with byte `v` at address `a`; writing the unlisted byte removes the entry. -/
def writeByte (a : Nat) (v : Byte) : List Host.Cell → List Host.Cell
  | [] => if v = unlistedByte then [] else [(a, v)]
  | (b, u) :: m =>
    if a < b then (if v = unlistedByte then (b, u) :: m else (a, v) :: (b, u) :: m)
    else if a = b then (if v = unlistedByte then m else (a, v) :: m)
    else (b, u) :: writeByte a v m

/-- The canonical form from address `lo` on. -/
def memWfFrom : Nat → List Host.Cell → Bool
  | _, [] => true
  | lo, (a, v) :: m => decide (lo ≤ a) && decide (v ≠ unlistedByte) && memWfFrom (a + 1) m

/-- The canonical form: addresses strictly rising, no entry equal to the unlisted byte. -/
def Memory.wf (m : List Host.Cell) : Bool := memWfFrom 0 m

/-- The word at address `a` (R65: all 32 bits at one point). -/
def readWord (m : List Host.Cell) (a : Nat) : Word :=
  readByte m a ++ readByte m (a + 1) ++ readByte m (a + 2) ++ readByte m (a + 3)

/-- The memory with word `v` at address `a`. -/
def writeWord (a : Nat) (v : Word) (m : List Host.Cell) : List Host.Cell :=
  writeByte (a + 3) (v.extractLsb' 0 8)
    (writeByte (a + 2) (v.extractLsb' 8 8)
      (writeByte (a + 1) (v.extractLsb' 16 8) (writeByte a (v.extractLsb' 24 8) m)))

/-- The byte address of a mailbox word (R61, R62). -/
def State.mbAddr (s : State) (i : Nat) (w : MbWord) : Nat := regAddr s.params.base (.mb i w)

/-- Word `w` of mailbox `i`. -/
def State.mbWord (s : State) (i : Nat) (w : MbWord) : Word := readWord s.mem (s.mbAddr i w)

/-- Mailbox `i`'s word `w` replaced, with no other effect. -/
def State.setMbWord (i : Nat) (w : MbWord) (v : Word) (s : State) : State :=
  { s with mem := writeWord (s.mbAddr i w) v s.mem }

/-- The live 4-bit code of mailbox `i` (10_state.md R33). -/
def State.mbCode (s : State) (i : Nat) : BitVec 4 := codeOf (s.mbWord i .cs)

/-! ## Sets of mailbox indices (10_state.md R43) -/

/-- `i` put into a rising list. -/
def insertIndex (i : Nat) : List Nat → List Nat
  | [] => [i]
  | j :: l => if i < j then i :: j :: l else if i = j then j :: l else j :: insertIndex i l

/-- `i` taken out. -/
def removeIndex (i : Nat) (l : List Nat) : List Nat := l.filter fun j => decide (j ≠ i)

/-! ## Register accesses (20_memory.md R64 to R72) -/

/-- Whether the register exists: a mailbox's index is below `NUM_MB` (R61). -/
def Params.has (p : Params) : Reg → Bool
  | .mb i _ => decide (i < p.numMb)
  | .gcr | .btr | .timer | .rxmask | .iflag => true

/-- The value a read of the register returns (R72). -/
def State.peek (s : State) : Reg → Word
  | .gcr => s.gcr
  | .btr => s.btr
  | .timer => s.timer
  | .rxmask => s.rxmask
  | .iflag => s.iflag
  | .mb i w => s.mbWord i w

/-- The effect of a read: an event, and for TIMER the release of the lock (R67, R69). -/
def State.afterRead (r : Reg) (s : State) : State :=
  match r with
  | .timer => { s with history := .read r (s.peek r) :: s.history, lock := none }
  | .gcr | .btr | .rxmask | .iflag | .mb _ _ => { s with history := .read r (s.peek r) :: s.history }

/-- `RegRead(r)`, then what follows (R66: one access). -/
def readReg (r : Reg) (k : Word → State → Out) (s : State) : Out :=
  if Params.has s.params r then k (s.peek r) (s.afterRead r)
  else .fault (.noSuchRegister (regAddr s.params.base r))

/-- The GCR bits a write changes now: `FRZACK` and `LPMACK` never, the `Frozen`-only fields only while `FRZACK = 1`
(R70, 10_state.md R34). -/
def State.gcrMask (s : State) : Word :=
  if s.frzack then Gcr.alwaysMask ||| Gcr.frozenMask else Gcr.alwaysMask

/-- The BTR bits a write changes now: `CLKSRC` only while `LPMACK = 1`, the others only while `FRZACK = 1` (R70,
10_state.md R35). -/
def State.btrMask (s : State) : Word :=
  (if s.lpmack then Btr.clksrc.mask else 0#32) ||| (if s.frzack then Btr.frozenMask else 0#32)

/-- GCR after a write of `v`; a written 1 sets `SOFTRST`, a written 0 leaves it to the controller (R34). -/
def State.gcrAfter (s : State) (v : Word) : Word :=
  blend s.gcrMask s.gcr v ||| (v &&& Gcr.softrst.mask)

/-- BTR after a write of `v`. -/
def State.btrAfter (s : State) (v : Word) : Word := blend s.btrMask s.btr v

/-- What an engine write of a control word does to the controller's hidden state: `i` enters `abort_req` when
`Transmit{Abort}` is written over an armed mailbox (10_state.md R43), and a reception in progress is over, its busy
bit being overwritten (notes/assumptions/13.md). -/
def State.noteCsWrite (i : Nat) (v : Word) (s : State) : State :=
  { s with
    abortReq :=
      if codeValue (codeOf v) = some (.transmit .abort) ∧
          codeValue (s.mbCode i) = some (.transmit .dataOrRemotePending)
      then insertIndex i s.abortReq else s.abortReq
    rxBegun := removeIndex i s.rxBegun }

/-- The mailbox file after an engine write: mailbox words are not writable while the module is disabled
(60_exceptions.md R230). -/
def State.pokeMb (i : Nat) (w : MbWord) (v : Word) (s : State) : State :=
  if s.lpmack then s
  else
    match w with
    | .cs => (s.noteCsWrite i v).setMbWord i .cs v
    | .id => s.setMbWord i .id v
    | .d0 => s.setMbWord i .d0 v
    | .d1 => s.setMbWord i .d1 v

/-- The effect of a write on the register itself (R68, R70). The engine never writes TIMER (10_state.md R38). -/
def State.poke (r : Reg) (v : Word) (s : State) : State :=
  match r with
  | .gcr => { s with gcr := s.gcrAfter v }
  | .btr => { s with btr := s.btrAfter v }
  | .timer => s
  | .rxmask => if s.frzack then { s with rxmask := v } else s
  | .iflag => { s with iflag := clearFlags s.iflag v }
  | .mb i w => s.pokeMb i w v

/-- The effect of a write: an event and the new value. -/
def State.afterWrite (r : Reg) (v : Word) (s : State) : State :=
  { s.poke r v with history := .write r v :: s.history }

/-- `RegWrite(r, v)`, then what follows (R66: one access). -/
def writeReg (r : Reg) (v : Word) (k : State → Out) (s : State) : Out :=
  if Params.has s.params r then k (s.afterWrite r v)
  else .fault (.noSuchRegister (regAddr s.params.base r))

/-- `FlagClear(i)`: the single write of `1 << i` to IFLAG (R68). -/
def flagClear (i : Nat) (k : State → Out) (s : State) : Out :=
  writeReg .iflag (flagMask i) k s

/-- R71: `RECEIVE`'s read of a control word engages the lock when the code is a receive code other than inactive. -/
def State.engageLock (i : Nat) (c : Word) (s : State) : State :=
  match codeValue (codeOf c) with
  | some (.receive .empty _) => { s with lock := some i }
  | some (.receive .full _) => { s with lock := some i }
  | some (.receive .overrun _) => { s with lock := some i }
  | some (.receive .remoteAnswer _) => { s with lock := some i }
  | some (.receive .inactive _) => s
  | some (.transmit _) => s
  | none => s

/-! ## Sequencing (10_state.md R25) -/

/-- The operation's latches replaced. -/
def State.keep (w : Work) (s : State) : State := { s with work := w }

/-- `mode <- m` (10_state.md R27). -/
def State.setMode (m : Mode) (s : State) : State := { s with mode := m }

/-- `seq <- Run(op, step, i, 0)`. -/
def State.goto (p : Position) (i : Fin 32) (s : State) : State := { s with seq := .run p i 0 }

/-- Whether `n` failing reads are more than the limit (00_scope.md R13). -/
def exceeds (limit : Option Nat) (n : Nat) : Bool :=
  match limit with
  | none => false
  | some l => decide (l < n)

/-- R29, R184: `TRANSMIT` writes the report port when it ends; every other operation leaves it as it is. -/
def State.publishedReport (s : State) : List ReportEntry :=
  match s.seq with
  | .run (.transmit _) _ _ => s.work.report
  | .run (.btcalc _) _ _ => s.report
  | .run (.encode _) _ _ => s.report
  | .run (.decode _) _ _ => s.report
  | .run (.init _) _ _ => s.report
  | .run (.receive _) _ _ => s.report
  | .run (.abort _) _ _ => s.report
  | .idle => s.report
  | .faulted => s.report

/-- The end of an operation: the ports are written, what the operation kept is dropped, the command is served. -/
def State.close (r : Result) (q : Seq) (s : State) : State :=
  { s with
    seq := q
    result := r
    report := s.publishedReport
    work := Work.empty
    cmd := none }

/-- `return Ok(v)` or `return Err(e)` (60_exceptions.md R225). -/
def finish (r : Result) (s : State) : Out := .next (s.close r .idle)

/-- TAKING AN EXCEPTION: `raise Fatal(f)` (60_exceptions.md R224). The result port shows the cause and its value, the
sequencer goes to `Faulted`, and every register, `mode`, `max_mailbox`, the lock and the abort requests keep the values
they have. Nothing returns from it: `Faulted` is left only by a power-on reset. -/
def raiseFatal (f : Fatal) (s : State) : Out := .next (s.close (.fatal f) .faulted)

/-- Where a refusal leaves the sequencer: `Idle`, or `Faulted` where it was (60_exceptions.md R216, 10_state.md R25). -/
def afterRefusal : Seq → Seq
  | .idle => .idle
  | .faulted => .faulted
  | .run _ _ _ => .idle

/-- `refuse(r)` (60_exceptions.md R216): nothing is read or written, `seq` is `Idle` (or `Faulted`), the result port shows
the refusal, what the operation kept is dropped, and the mark is kept for the rest of the run. -/
def State.refuse (r : Refused) (s : State) : State :=
  { s with
    seq := afterRefusal s.seq
    result := .refused r
    work := Work.empty
    cmd := none
    refusalMark := true }

/-- `refuse(r)` as the outcome of an operation. -/
def refuse (r : Refused) (s : State) : Out := .next (s.refuse r)

/-- A command reaching the engine (60_exceptions.md R223: `EngineFaulted` before everything else): accepted in `Idle`,
which sets `seq <- Run(op, S0, 0, 0)` and nothing else (10_state.md R25); at its position while it runs, its admission S0
being the first of its steps. -/
def serve (op : Op) (continue_ : Position → Fin 32 → Nat → Out) (s : State) : Out :=
  match s.seq with
  | .faulted => refuse .engineFaulted s
  | .idle => .next (s.goto op.start 0)
  | .run p i n => continue_ p i n

/-- A command word that is no command (30_encoding.md R118), after the test for `Faulted` (60_exceptions.md R223). -/
def State.rejectWord (s : State) : State :=
  match s.seq with
  | .faulted => s.refuse .engineFaulted
  | .idle => s.refuse .illegalCommand
  | .run _ _ _ => s.refuse .illegalCommand

/-! ## Waiting (00_scope.md R13) -/

/-- `seq <- Run(op, step, i, n)` on the label of a wait. -/
def State.stay (p : Position) (i : Fin 32) (n : Nat) (s : State) : State := { s with seq := .run p i n }

/-- A failing read at a wait: the label is kept and `n` counted, unless the limit is exceeded. -/
def waitAgain (p : Position) (i : Fin 32) (n : Nat) (s : State) : Out :=
  if exceeds s.params.waitLimit (n + 1) then raiseFatal (.waitLimitExceeded p) s
  else .next (s.stay p i (n + 1))

/-- One round of `WaitUntil(reg, b, val)`: one read, then on, or again. -/
def waitUntil (r : Reg) (b : Nat) (val : Bool) (p : Position) (i : Fin 32) (n : Nat) (done : State → Out) (s : State) : Out :=
  readReg r (fun v t => if v.getLsbD b = val then done t else waitAgain p i n t) s

end Sys2Proof.Machine
end

