-- ==== Sys2Proof/Machine/CodeReading.lean ====
section
/-! DEFINITION. What each agent does when it reads a mailbox code: the engine at the four places where its rules decode
one (the write check of `INIT`, the scan of `TRANSMIT`, the busy test of `RECEIVE`, the test of `ABORT`; 41_mailbox_codec.md
section 3), and the controller in its moves (20_memory.md R83 to R89). -/

namespace Sys2Proof.Machine

/-! ## The engine -/

/-- After a mailbox the scan skipped: the next index, or `BufferFull` past `max_mailbox` (43_transmit.md R183 S2). -/
def scanNext (i : Fin 32) (s : State) : Out :=
  if i.val < s.maxMailbox.toNat then .next (s.goto (.transmit .s1) (i + 1))
  else finish (.err (.bufferFull s.work.report)) s

/-- `report[i] <- e` (R184). -/
def State.noteSkipped (i : Nat) (e : ReportEntry) (s : State) : State :=
  s.keep { s.work with report := s.work.report.set i e }

/-- `TRANSMIT` S2: the scan's verdict on the code of mailbox `i` (R183). -/
def scanOn (i : Fin 32) (c : MessageBufferCode) (s : State) : Out :=
  match mbVerdict false c with
  | .free => .next (s.goto (.transmit .s3) i)
  | .busy => scanNext i (s.noteSkipped i .mailboxBusy)
  | .mismatch => scanNext i (s.noteSkipped i .mailboxConfigurationError)

/-- `INIT`: the write check on the code of mailbox `i` (42_controller_init.md R166, 43_transmit.md R182). -/
def writeCheckOn (i : Fin 32) (c : MessageBufferCode) (s : State) : Out :=
  match mbVerdict true c with
  | .free => .next (s.goto (.init .w1) i)
  | .busy => finish (.err .mailboxBusy) s
  | .mismatch => finish (.err .mailboxConfigurationError) s

/-- `RECEIVE` S2: a busy receive code is read again, any other ends the loop (44_receive.md R190). -/
def busyTestOn (i : Fin 32) (n : Nat) (c : MessageBufferCode) (s : State) : Out :=
  if MessageBufferCode.isBusy c then waitAgain (.receive .s2) i n s
  else .next (s.goto (.receive .s3) i)

/-- `ABORT` S1: only an armed mailbox is acted on (45_abort.md R200). -/
def abortTestOn (i : Fin 32) (c : MessageBufferCode) (s : State) : Out :=
  if c = .transmit .dataOrRemotePending then .next (s.goto (.abort .s2) i)
  else finish (.ok (.optionalFrame none)) s

/-- The engine's decode of the code it read at mailbox `i`: an undecodable pattern is fatal, before anything else is
looked at (30_encoding.md R116, 60_exceptions.md R218). -/
def decodedAt (i : Nat) (v : BitVec 4) (k : MessageBufferCode → Out) (s : State) : Out :=
  match codeValue v with
  | some c => k c
  | none => raiseFatal (.undecodableCode v (some i)) s

/-- What the engine does on having read code pattern `v`, by where its sequencer stands. Nowhere else does the engine
look at a code. -/
def engineOnCode (v : BitVec 4) (s : State) : Out :=
  match s.seq with
  | .run (.init .e3) i _ => decodedAt i v (fun c => writeCheckOn i c s) s
  | .run (.transmit .s1) i _ => decodedAt i v (fun _ => .next (s.goto (.transmit .s2) i)) s
  | .run (.transmit .s2) i _ => decodedAt i v (fun c => scanOn i c s) s
  | .run (.receive .s2) i n => decodedAt i v (fun c => busyTestOn i n c s) s
  | .run (.abort .s1) i _ => decodedAt i v (fun c => abortTestOn i c s) s
  | _ => .next s

/-! ## The controller -/

/-- The controller may change mailbox `i`: it is active, and the mailbox exists and is in use (20_memory.md R89). -/
def State.mbLive (i : Nat) (s : State) : Bool :=
  s.active && decide (i ≤ s.maxmb) && decide (i < s.params.numMb)

/-- The code of mailbox `i` replaced by the controller, the other 28 bits kept. -/
def State.setMbCode (i : Nat) (v : BitVec 4) (s : State) : State :=
  s.setMbWord i .cs (withCode (s.mbWord i .cs) v)

/-- `TIMESTAMP` of mailbox `i` set to the timer's count (R83, 10_state.md R38, 60_exceptions.md R236). -/
def State.stampMb (i : Nat) (s : State) : State :=
  s.setMbWord i .cs (blend Cs.timestamp.mask (s.mbWord i .cs) s.timer)

/-- `i` leaves `abort_req` (10_state.md R43). -/
def State.dropAbort (i : Nat) (s : State) : State := { s with abortReq := removeIndex i s.abortReq }

/-- A reception into mailbox `i` is in progress (R84). -/
def State.markBegun (i : Nat) (s : State) : State := { s with rxBegun := insertIndex i s.rxBegun }

/-- It has ended (R85). -/
def State.markEnded (i : Nat) (s : State) : State := { s with rxBegun := removeIndex i s.rxBegun }

/-- R87: every word of mailbox `i` and its flag take the drawn values. -/
def State.scrambleMb (i : Nat) (cs id d0 d1 : Word) (flag : Bool) (s : State) : State :=
  ((((s.setMbWord i .cs cs).setMbWord i .id id).setMbWord i .d0 d0).setMbWord i .d1 d1).assignFlag i flag

/-- R89: the controller never changes a mailbox with this code. -/
def inert (_i : Nat) (_m : MbMove) (s : State) : State := s

/-- R83: the code after a transmission, `Receive{Empty}` only for a remote frame and by the draw. -/
def sentCode (rtr alt : Bool) : BitVec 4 :=
  if rtr && alt then codeBits (.receive .empty false) else codeBits (.transmit .inactive)

/-- R86: the code after an abort, `Transmit{Inactive}` when the frame was sent, by the draw. -/
def abortedCode (alt : Bool) : BitVec 4 :=
  if alt then codeBits (.transmit .inactive) else codeBits (.transmit .abort)

/-- R83: transmission complete. For a remote frame `alt` draws the code `Receive{Empty}`. -/
def completeTransmission (i : Nat) (m : MbMove) (s : State) : State :=
  match m with
  | .act alt =>
    if s.mbLive i then
      ((((s.setMbCode i (sentCode (Cs.rtr.bit (s.mbWord i .cs)) alt)).stampMb i).setFlag i).dropAbort i)
    else s
  | .writeId _ | .writeD0 _ | .writeD1 _ | .writeCsFields _ | .scramble _ _ _ _ _ => s

/-- R84: a reception begins in a mailbox whose receive state is `st`, unless the lock holds it. -/
def beginReception (st : RxState) (i : Nat) (m : MbMove) (s : State) : State :=
  match m with
  | .act _ =>
    if s.mbLive i && decide (s.lock ≠ some i) then
      (s.setMbCode i (codeBits (.receive st true))).markBegun i
    else s
  | .writeId _ | .writeD0 _ | .writeD1 _ | .writeCsFields _ | .scramble _ _ _ _ _ => s

/-- R84, R85 (and R87 for a busy code no reception of R84 produced): a busy mailbox whose reception ends in state
`st`. Ending a reception already begun needs no `active` (R85, R89); the timer's count is stamped into `TIMESTAMP` when the
reception is finished (10_state.md R38, 60_exceptions.md R236). DESIGN CHOICE (notes/assumptions/26.md): it needs no index
at most `MAXMB` either, since R85 sets no such condition and R89's exception names only its clause on `active`; no state
with the invariant has a reception above `MAXMB` (`State.HiddenOk`). -/
def receiving (st : RxState) (i : Nat) (m : MbMove) (s : State) : State :=
  match m with
  | .act _ =>
    if (decide (i ∈ s.rxBegun) && decide (i < s.params.numMb)) || s.mbLive i then
      (((s.setMbCode i (codeBits (.receive st false))).stampMb i).setFlag i).markEnded i
    else s
  | .writeId v => if s.mbLive i then s.setMbWord i .id v else s
  | .writeD0 v => if s.mbLive i then s.setMbWord i .d0 v else s
  | .writeD1 v => if s.mbLive i then s.setMbWord i .d1 v else s
  | .writeCsFields v =>
    if s.mbLive i then s.setMbWord i .cs (blend Cs.receptionMask (s.mbWord i .cs) v) else s
  | .scramble cs id d0 d1 flag =>
    if s.mbLive i && decide (i ∉ s.rxBegun) then s.scrambleMb i cs id d0 d1 flag else s

/-- The reception begun in mailbox `i` ends, whichever state it was begun in (R85). -/
def State.finishReception (i : Nat) (s : State) : State :=
  match codeValue (s.mbCode i) with
  | some (.receive .empty true) => receiving .full i (.act false) s
  | some (.receive .full true) => receiving .overrun i (.act false) s
  | some (.receive .overrun true) => receiving .overrun i (.act false) s
  | _ => s

/-- Every reception begun ends, and none is in progress (R82: the controller "first finishes every reception it has
begun"). -/
def State.finishReceptions (s : State) : State :=
  { s.rxBegun.foldl (fun t i => t.finishReception i) s with rxBegun := [] }

/-- The control word of mailbox `i` stamped when the frame went out before the abort took hold. DESIGN CHOICE
(notes/assumptions/24.md): R38 and 60_exceptions.md R236 have the controller stamp `TIMESTAMP` when it finishes a
transmission, R86 does not list it; the model stamps it. A frame that was not sent leaves `TIMESTAMP` as it is. -/
def State.stampIfSent (i : Nat) (sent : Bool) (s : State) : State := if sent then s.stampMb i else s

/-- R86: abort complete. `alt` draws whether the frame was sent. -/
def completeAbort (i : Nat) (m : MbMove) (s : State) : State :=
  match m with
  | .act alt =>
    if s.mbLive i && decide (i ∈ s.abortReq) then
      (((s.setMbCode i (abortedCode alt)).stampIfSent i alt).setFlag i).dropAbort i
    else s
  | .writeId _ | .writeD0 _ | .writeD1 _ | .writeCsFields _ | .scramble _ _ _ _ _ => s

/-- R87: the controller may do anything to the mailbox's words and flag. -/
def unconstrained (i : Nat) (m : MbMove) (s : State) : State :=
  match m with
  | .scramble cs id d0 d1 flag => if s.mbLive i then s.scrambleMb i cs id d0 d1 flag else s
  | .act _ | .writeId _ | .writeD0 _ | .writeD1 _ | .writeCsFields _ => s

end Sys2Proof.Machine
end

