-- ==== Sys2Proof/Machine/Abort.lean ====
section
/-! DEFINITION. `ABORT` (45_abort.md R200, R201). -/

namespace Sys2Proof.Machine

/-- S0 (R200): admission, then label S1 at mailbox `mbx`. -/
def startAbort (mbx : Nat) (s : State) : Out :=
  if s.mode ≠ .running then refuse .notInitialised s
  else if s.maxMailbox.toNat < mbx then refuse .mailboxIndexOutOfRange s
  else .next ((s.keep Work.empty).goto (.abort .s1) (Fin.ofNat 32 mbx))

/-- One step of `ABORT mbx` at label `l`, mailbox index `i`, wait counter `n`. -/
def abortStep (mbx : Nat) (l : AbortStep) (i : Fin 32) (n : Nat) (s : State) : Out :=
  match l with
  | .s0 => startAbort mbx s
  | .s1 => readReg (.mb i .cs) (fun v t => engineOnCode (codeOf v) (t.keep { t.work with c := v })) s
  | .s2 => flagClear i (fun t => .next (t.goto (.abort .s3) i)) s
  | .s3 => writeReg (.mb i .cs) (withCode s.work.c (codeBits (.transmit .abort)))
      (fun t => .next (t.goto (.abort .s4) i)) s
  | .s4 => waitUntil .iflag i true (.abort .s4) i n (finish (.ok (.optionalFrame none))) s

/-- `ABORT MBX` (R200). -/
def execAbort (mbx : Nat) (s : State) : Out :=
  serve .abort (fun p i n =>
    match p with
    | .abort l => abortStep mbx l i n s
    | .btcalc _ | .encode _ | .decode _ | .init _ | .transmit _ | .receive _ => .fault .commandWhileRunning) s

end Sys2Proof.Machine
end

