-- ==== Sys2Proof/Machine/BitTimingCalc.lean ====
section
/-! DEFINITION. `BTCALC`, the Bit-Timing Calculator (40_bit_timing.md R130 to R135). -/

namespace Sys2Proof.Machine

/-- How the calculation can end (R130). -/
inductive BtOutcome where
  | ok (bt : BitTiming)
  | settingsError
  | tqsOutOfRange (tqs : Nat)
  | refused (r : Refused)
  deriving DecidableEq, Repr

/-- `TqTable` (R132): `(pseg2, rjw)`. -/
def tqTable (tqs : Nat) : Option (Nat × Nat) :=
  if 8 ≤ tqs ∧ tqs < 10 then some (1, 1)
  else if 10 ≤ tqs ∧ tqs < 15 then some (3, 2)
  else if 15 ≤ tqs ∧ tqs < 20 then some (6, 2)
  else if 20 ≤ tqs ∧ tqs < 26 then some (7, 3)
  else none

/-- R130 S6: the segments for one row of the table. -/
def segments (presdiv tqs pseg2 rjw : Nat) : BitTiming :=
  let pseg1 := (tqs - (pseg2 + 1)) / 2 - 1
  let propseg := tqs - (pseg2 + 1) - (pseg1 + 1) - 2
  ⟨presdiv, propseg, pseg1, pseg2, rjw⟩

/-- R130 S0 to S7, in exact natural arithmetic (R133): nothing wraps. -/
def btcalc (source can : Nat) : BtOutcome :=
  if can = 0 then .refused .canFrequencyZero
  else if source % can ≠ 0 ∨ source < 5 * can then .settingsError
  else
    let presdiv := source / can / 25
    if 255 < presdiv then .refused .presdivOutOfRange
    else
      let tqs := source / (presdiv + 1) / can
      match tqTable tqs with
      | none => .tqsOutOfRange tqs
      | some (pseg2, rjw) => .ok (segments presdiv tqs pseg2 rjw)

/-- The calculation's outcome as the end of `BTCALC` (R130). -/
def endBtcalc (o : BtOutcome) (s : State) : Out :=
  match o with
  | .ok bt => finish (.ok (.bitTiming bt)) s
  | .settingsError => finish (.err .settingsError) s
  | .tqsOutOfRange tqs => raiseFatal (.tqsOutOfRange tqs) s
  | .refused r => refuse r s

/-- `BTCALC source_frequency, can_frequency` (R130): no register access, evaluated as one step. -/
def execBtcalc (s : State) : Out :=
  serve .btcalc (fun p _ _ =>
    match p with
    | .btcalc .s0 => endBtcalc (btcalc s.ops.sourceFrequency.toNat s.ops.canFrequency.toNat) s
    | .encode _ | .decode _ | .init _ | .transmit _ | .receive _ | .abort _ => .fault .commandWhileRunning) s

end Sys2Proof.Machine
end

