-- ==== Sys2Proof/Machine/Codec.lean ====
section
/-! DEFINITION. `ENCODE` and `DECODE`, the Mailbox Code Codec (41_mailbox_codec.md R142, R143). -/

namespace Sys2Proof.Machine

/-- The one step of `ENCODE`. A port pattern that is none of the 14 values is no operand (60_exceptions.md R210, R217). -/
def encodeStep (s : State) : Out :=
  match checkCode s.ops.code with
  | some c => finish (.ok (.code4 (codeBits c))) s
  | none => refuse .invalidOperand s

/-- `ENCODE code` (R142). -/
def execEncode (s : State) : Out :=
  serve .encode (fun p _ _ =>
    match p with
    | .encode .s0 => encodeStep s
    | .btcalc _ | .decode _ | .init _ | .transmit _ | .receive _ | .abort _ => .fault .commandWhileRunning) s

/-- The one step of `DECODE`: a verdict on every pattern, two of them fatal. -/
def decodeStep (s : State) : Out :=
  match checkBits4 s.ops.bits4 with
  | some v =>
    match codeValue v with
    | some c => finish (.ok (.code c)) s
    | none => raiseFatal (.undecodableCode v none) s
  | none => refuse .invalidOperand s

/-- `DECODE bits4` (R143). -/
def execDecode (s : State) : Out :=
  serve .decode (fun p _ _ =>
    match p with
    | .decode .s0 => decodeStep s
    | .btcalc _ | .encode _ | .init _ | .transmit _ | .receive _ | .abort _ => .fault .commandWhileRunning) s

end Sys2Proof.Machine
end

