-- ==== Sys2Proof/Syntax.lean ====
section
/-! DEFINITION. The instruction set: one constructor per row of spec/opcode_table.json.

The table has two formats. `CMD` rows are the seven commands the host issues to the engine (30_encoding.md R90);
their typed operands travel beside the command word, on the operand port (R91), so a constructor carries only
what the word itself encodes. `CODE4` rows are the sixteen patterns of a mailbox's 4-bit code (R93): they are
read from bits 27:24 of a mailbox's control word by whichever agent looks at that mailbox. -/

namespace Sys2Proof

/-- The rows of the opcode table. `mbx` is the `MBX` field, an unsigned 8-bit index used as is (R92). -/
inductive Instr where
  /-- `OP = 0x1` (R130). -/
  | btcalc
  /-- `OP = 0x2` (R142). -/
  | encode
  /-- `OP = 0x3` (R143). -/
  | decode
  /-- `OP = 0x4` (R160). -/
  | init
  /-- `OP = 0x5` (R183). -/
  | transmit
  /-- `OP = 0x6` (R190). -/
  | receive (mbx : Nat)
  /-- `OP = 0x7` (R200). -/
  | abort (mbx : Nat)
  /-- `0000` (R144). -/
  | codeRxInactive
  /-- `0001` (R145). -/
  | codeRxInactiveBusy
  /-- `0010` (R146). -/
  | codeRxFull
  /-- `0011` (R146). -/
  | codeRxFullBusy
  /-- `0100` (R147). -/
  | codeRxEmpty
  /-- `0101` (R147). -/
  | codeRxEmptyBusy
  /-- `0110` (R148). -/
  | codeRxOverrun
  /-- `0111` (R148). -/
  | codeRxOverrunBusy
  /-- `1000` (R150). -/
  | codeTxInactive
  /-- `1001` (R151). -/
  | codeTxAbort
  /-- `1010` (R149). -/
  | codeRxRemoteAnswer
  /-- `1011` (R149). -/
  | codeRxRemoteAnswerBusy
  /-- `1100` (R152). -/
  | codeTxDataOrRemotePending
  /-- `1101` (R153). -/
  | codeUndecodable1101
  /-- `1110` (R153). -/
  | codeTxRemoteAnswerPending
  /-- `1111` (R153). -/
  | codeUndecodable1111
  deriving DecidableEq, Repr

end Sys2Proof
end

