-- ==== Sys2Proof/WellFormed.lean ====
section
/-! DEFINITION. Which instructions the encoding can hold: the one check is the width of `MBX` (30_encoding.md
R90, R92). Operand values that break a type invariant (60_exceptions.md R217) are not a matter of syntax: they are
tested when the operation is admitted, in Machine/Operands.lean. -/

namespace Sys2Proof

/-- R92: `MBX` is an unsigned 8-bit field. -/
def Instr.wf : Instr → Bool
  | .receive mbx => decide (mbx < 256)
  | .abort mbx => decide (mbx < 256)
  | .btcalc | .encode | .decode | .init | .transmit => true
  | .codeRxInactive | .codeRxInactiveBusy | .codeRxFull | .codeRxFullBusy => true
  | .codeRxEmpty | .codeRxEmptyBusy | .codeRxOverrun | .codeRxOverrunBusy => true
  | .codeTxInactive | .codeTxAbort | .codeRxRemoteAnswer | .codeRxRemoteAnswerBusy => true
  | .codeTxDataOrRemotePending | .codeUndecodable1101 => true
  | .codeTxRemoteAnswerPending | .codeUndecodable1111 => true

end Sys2Proof
end

