-- ==== Sys2Proof/Decode.lean ====
section
/-! DEFINITION. Decoding and encoding of the two instruction formats: the 32-bit command word (30_encoding.md R90,
R118) and the 4-bit mailbox code (R93). Both decoders are total. A command word outside the map is rejected by
name; every one of the sixteen code patterns is a row of the table, so the code decoder rejects nothing (that
two patterns are the value of no `MessageBufferCode` is a matter of their meaning, R116). -/

namespace Sys2Proof

/-- Why a command word is no command (R118). Every reason leads to the refusal `IllegalCommand`. -/
inductive DecodeReject where
  /-- `OP` in {0x0, 0x8 .. 0xF}. -/
  | reservedSelector (op : BitVec 4)
  /-- A non-zero bit in 27:8. -/
  | nonZeroReserved
  /-- `MBX` not 0 for an operation that takes no mailbox index. -/
  | unexpectedMailbox (mbx : BitVec 8)
  deriving DecidableEq, Repr

/-- An operation that takes no mailbox index requires `MBX = 0` (R90). -/
def withoutMailbox (i : Instr) (mbx : BitVec 8) : Except DecodeReject Instr :=
  if mbx = 0#8 then .ok i else .error (.unexpectedMailbox mbx)

/-- The operation a selector names, once bits 27:8 are known to be 0 (R90). -/
def decodeSelector (op : BitVec 4) (mbx : BitVec 8) : Except DecodeReject Instr :=
  match op.toNat with
  | 1 => withoutMailbox .btcalc mbx
  | 2 => withoutMailbox .encode mbx
  | 3 => withoutMailbox .decode mbx
  | 4 => withoutMailbox .init mbx
  | 5 => withoutMailbox .transmit mbx
  | 6 => .ok (.receive mbx.toNat)
  | 7 => .ok (.abort mbx.toNat)
  | _ => .error (.reservedSelector op)

/-- R90, R118: `OP` in 31:28, zero in 27:8, `MBX` in 7:0. -/
def decodeWord (w : Word) : Except DecodeReject Instr :=
  if w.extractLsb' 8 20 = 0#20 then decodeSelector (w.extractLsb' 28 4) (w.extractLsb' 0 8)
  else .error .nonZeroReserved

/-- R93: the row of the table each 4-bit code pattern is. -/
def decodeCode (v : BitVec 4) : Instr :=
  match v.toNat with
  | 0 => .codeRxInactive
  | 1 => .codeRxInactiveBusy
  | 2 => .codeRxFull
  | 3 => .codeRxFullBusy
  | 4 => .codeRxEmpty
  | 5 => .codeRxEmptyBusy
  | 6 => .codeRxOverrun
  | 7 => .codeRxOverrunBusy
  | 8 => .codeTxInactive
  | 9 => .codeTxAbort
  | 10 => .codeRxRemoteAnswer
  | 11 => .codeRxRemoteAnswerBusy
  | 12 => .codeTxDataOrRemotePending
  | 13 => .codeUndecodable1101
  | 14 => .codeTxRemoteAnswerPending
  | _ => .codeUndecodable1111

/-- What encodes an instruction: a command word on the command port, or a code in bits 27:24 of a control word. -/
inductive Encoding where
  | command (w : Word)
  | code (v : BitVec 4)
  deriving DecidableEq, Repr

/-- Decoding of either format. -/
def decode : Encoding → Except DecodeReject Instr
  | .command w => decodeWord w
  | .code v => .ok (decodeCode v)

/-- The command word of selector `op` and mailbox index `mbx` (R90). -/
def commandWord (op : BitVec 4) (mbx : Nat) : Word :=
  op ++ 0#20 ++ BitVec.ofNat 8 mbx

/-- The encoding of an instruction, from the tables of R90 and R93. -/
def encode : Instr → Encoding
  | .btcalc => .command (commandWord 0x1#4 0)
  | .encode => .command (commandWord 0x2#4 0)
  | .decode => .command (commandWord 0x3#4 0)
  | .init => .command (commandWord 0x4#4 0)
  | .transmit => .command (commandWord 0x5#4 0)
  | .receive mbx => .command (commandWord 0x6#4 mbx)
  | .abort mbx => .command (commandWord 0x7#4 mbx)
  | .codeRxInactive => .code 0b0000#4
  | .codeRxInactiveBusy => .code 0b0001#4
  | .codeRxFull => .code 0b0010#4
  | .codeRxFullBusy => .code 0b0011#4
  | .codeRxEmpty => .code 0b0100#4
  | .codeRxEmptyBusy => .code 0b0101#4
  | .codeRxOverrun => .code 0b0110#4
  | .codeRxOverrunBusy => .code 0b0111#4
  | .codeTxInactive => .code 0b1000#4
  | .codeTxAbort => .code 0b1001#4
  | .codeRxRemoteAnswer => .code 0b1010#4
  | .codeRxRemoteAnswerBusy => .code 0b1011#4
  | .codeTxDataOrRemotePending => .code 0b1100#4
  | .codeUndecodable1101 => .code 0b1101#4
  | .codeTxRemoteAnswerPending => .code 0b1110#4
  | .codeUndecodable1111 => .code 0b1111#4

/-- The decoder on a row of spec/opcode_table.json, its bits numbered as the table numbers them: a `CODE4` row has
4 bits (one byte, the upper four 0), a `CMD` row 32. -/
def decodeTableWord (nbits w : Nat) : Option Instr :=
  if nbits ≤ 8 then
    if w < 16 then some (decodeCode (BitVec.ofNat 4 w)) else none
  else if nbits ≤ 32 ∧ w < 2 ^ 32 then
    match decodeWord (BitVec.ofNat 32 w) with
    | .ok i => some i
    | .error _ => none
  else none

end Sys2Proof
end

