-- ==== Sys2Proof/Machine/Environment.lean ====
section
/-! DEFINITION. The turn a step takes, the moves that run no instruction (the host's, and the controller's moves on its
own registers, 20_memory.md R80 to R82, R88), and the fetch: which instruction the turn's agent reads. -/

namespace Sys2Proof.Machine

/-- The turn to be taken: the head of the script, or a free value when the script has run out. -/
def State.turn (s : State) : Turn :=
  match s.script with
  | t :: _ => t
  | [] => Config.freeTurn s.tick

/-- The turn is over. -/
def State.endTurn (s : State) : State := { s with script := s.script.tail, tick := s.tick + 1 }

/-! ## The controller's own registers -/

/-- R80: `LPMACK` follows `MDIS`. -/
def State.ackLowPower (s : State) : State := { s with gcr := Gcr.lpmack.set s.gcr s.mdis.toNat }

/-- R81: the soft reset, one move. `MDIS`, `CLKSRC` and every mailbox word keep their values, `SOFTRST` is cleared, every
other register field takes the drawn value, the hidden state is cleared. -/
def State.softReset (gcr btr rxmask iflag timer : Word) (s : State) : State :=
  if s.softrst && !s.lpmack then
    { s with
      gcr := Gcr.softrst.set (Gcr.mdis.set gcr s.mdis.toNat) 0
      btr := Btr.clksrc.set btr (Btr.clksrc.bit s.btr).toNat
      rxmask := rxmask
      iflag := iflag
      timer := timer
      lock := none
      abortReq := []
      rxBegun := [] }
  else s

/-- `FRZACK <- b`. -/
def State.setFrzack (b : Bool) (s : State) : State := { s with gcr := Gcr.frzack.set s.gcr b.toNat }

/-- `FRZACK` takes any value where R82 calls it unspecified. When it becomes 1 no reception may be unfinished
(10_state.md R44, 42_controller_init.md R164), so the move that draws 1 finishes those begun first (DEDUCED,
notes/assumptions/14.md). -/
def State.drawFrzack (draw : Bool) (s : State) : State :=
  if draw then s.finishReceptions.setFrzack true else s.setFrzack false

/-- R82: `FRZACK` follows `FRZ` and `HALT`, once every reception begun has ended (10_state.md R44). Where it is
unspecified, while `LPMACK = 1` and when `FRZ` and `HALT` differ, it takes the drawn value. While `SOFTRST = 1` with `FRZ`
and `HALT` alike no clause of R82 applies, and it stays (DEDUCED, notes/assumptions/14.md). -/
def State.ackFreeze (draw : Bool) (s : State) : State :=
  if s.lpmack then s.drawFrzack draw
  else if s.frz ≠ s.halt then s.drawFrzack draw
  else if s.softrst then s
  else if s.frz then s.setFrzack (s.frzack || s.rxBegun.isEmpty)
  else s.setFrzack false

/-- R88 and 10_state.md R38: the timer shows any value. -/
def State.tickTimer (v : Word) (s : State) : State := { s with timer := v }

/-- 10_state.md R37: the IFLAG bits of no mailbox show any value. -/
def State.floatFlags (v : Word) (s : State) : State :=
  { s with iflag := blend (~~~flagBits s.params.numMb) s.iflag v }

/-! ## The host -/

/-- The host issues one command at a time, and only while no operation runs (60_exceptions.md R239); while `Faulted` it
may still issue one, which is refused (R224). It has no other move. -/
def State.issue (word : Word) (ops : OperandPort) (s : State) : State :=
  match s.seq, s.cmd with
  | .idle, none => { s with cmd := some word, ops := ops }
  | .faulted, none => { s with cmd := some word, ops := ops }
  | .run _ _ _, none => s
  | _, some _ => s

/-- The moves that run no instruction of the table. -/
def State.environment (s : State) : State :=
  match s.turn with
  | .host word ops => s.issue word ops
  | .lowPower => s.ackLowPower
  | .softReset gcr btr rxmask iflag timer => s.softReset gcr btr rxmask iflag timer
  | .freeze draw => s.ackFreeze draw
  | .timer v => s.tickTimer v
  | .floating v => s.floatFlags v
  | .engine => s
  | .mailbox _ _ => s

/-! ## Fetch -/

/-- What the turn's agent finds to execute. -/
inductive Fetched where
  /-- An instruction of the table. -/
  | instr (i : Instr)
  /-- A command word that is no command (30_encoding.md R118). -/
  | illegal
  /-- No instruction: the engine has no command, or the turn is a move of `State.environment`. -/
  | nothing
  deriving DecidableEq, Repr

/-- The command the engine serves (R90): the word on the command port, held until the operation ends. -/
def fetchCommand (s : State) : Fetched :=
  match s.cmd with
  | none => .nothing
  | some w =>
    match decodeWord w with
    | .ok i => .instr i
    | .error _ => .illegal

/-- The code the controller reads: bits 27:24 of a mailbox's control word (R93). -/
def fetchCode (i : Nat) (s : State) : Fetched :=
  if i < s.params.numMb then .instr (decodeCode (s.mbCode i)) else .nothing

/-- The instruction the turn's agent reads. -/
def fetch (s : State) : Fetched :=
  match s.turn with
  | .engine => fetchCommand s
  | .mailbox i _ => fetchCode i s
  | .host _ _ | .lowPower | .softReset _ _ _ _ _ | .freeze _ | .timer _ | .floating _ => .nothing

/-! ## Placing one instruction -/

/-- The control word of mailbox 0 with code `w`, and the controller's turn on mailbox 0 next. -/
def State.placeCode (w : Nat) (s : State) : State :=
  { s.setMbCode 0 (BitVec.ofNat 4 w) with script := .mailbox 0 (.act false) :: s.script }

/-- The operation of a command; a mailbox code is no command. -/
def commandOp : Instr → Option Op
  | .btcalc => some .btcalc
  | .encode => some .encode
  | .decode => some .decode
  | .init => some .init
  | .transmit => some .transmit
  | .receive _ => some .receive
  | .abort _ => some .abort
  | .codeRxInactive | .codeRxInactiveBusy | .codeRxFull | .codeRxFullBusy | .codeRxEmpty | .codeRxEmptyBusy
  | .codeRxOverrun | .codeRxOverrunBusy | .codeTxInactive | .codeTxAbort | .codeRxRemoteAnswer
  | .codeRxRemoteAnswerBusy | .codeTxDataOrRemotePending | .codeUndecodable1101 | .codeTxRemoteAnswerPending
  | .codeUndecodable1111 => none

/-- Where the sequencer stands when the engine has accepted the command word `w` (10_state.md R25); a word that is no
command is not accepted. -/
def acceptedSeq (w : Word) : Seq :=
  match decodeWord w with
  | .error _ => .idle
  | .ok i =>
    match commandOp i with
    | some op => .run op.start 0 0
    | none => .idle

/-- The command word `w` on the command port and accepted, the engine's turn next, no other operation in progress. -/
def State.placeCommand (w : Nat) (s : State) : State :=
  { s with
    cmd := some (BitVec.ofNat 32 w)
    script := .engine :: s.script
    seq := (match s.seq with
      | .run _ _ _ => acceptedSeq (BitVec.ofNat 32 w)
      | .idle => acceptedSeq (BitVec.ofNat 32 w)
      | .faulted => .faulted) }

end Sys2Proof.Machine
end

