-- ==== Sys2Proof/Machine/Codes.lean ====
section
/-! DEFINITION. The sixteen mailbox codes, one meaning each (41_mailbox_codec.md R144 to R153). A code is executed by the
agent that reads it: on the controller's turn it is the controller's move on that mailbox (20_memory.md R83 to R89), on
any other turn it is what the engine does at the label where its rule decodes a code (section 3 of 41_mailbox_codec.md,
`engineOnCode`). The engine's own operations reach the second through the word they read. -/

namespace Sys2Proof.Machine

/-- A code pattern with the controller's move on it. -/
def codeRow (v : BitVec 4) (controller : Nat → MbMove → State → State) (s : State) : Out :=
  match s.turn with
  | .mailbox i m => .next (controller i m s)
  | .engine | .host _ _ | .lowPower | .softReset _ _ _ _ _ | .freeze _ | .timer _ | .floating _ => engineOnCode v s

/-- `0000` (R144): takes no part in reception. -/
def execCodeRxInactive (s : State) : Out := codeRow 0b0000#4 inert s

/-- `0001` (R145): produced by no rule; the controller is unconstrained (R87). -/
def execCodeRxInactiveBusy (s : State) : Out := codeRow 0b0001#4 unconstrained s

/-- `0010` (R146): a frame not yet read; the next reception begins. -/
def execCodeRxFull (s : State) : Out := codeRow 0b0010#4 (beginReception .full) s

/-- `0011` (R146): updating a mailbox that was `Full`; it ends as `Overrun` (R85). -/
def execCodeRxFullBusy (s : State) : Out := codeRow 0b0011#4 (receiving .overrun) s

/-- `0100` (R147): waits for a frame. -/
def execCodeRxEmpty (s : State) : Out := codeRow 0b0100#4 (beginReception .empty) s

/-- `0101` (R147): the first frame is being written; it ends as `Full` (R85). -/
def execCodeRxEmptyBusy (s : State) : Out := codeRow 0b0101#4 (receiving .full) s

/-- `0110` (R148): an unread frame was replaced; the next reception begins. -/
def execCodeRxOverrun (s : State) : Out := codeRow 0b0110#4 (beginReception .overrun) s

/-- `0111` (R148): it ends as `Overrun` again (R85). -/
def execCodeRxOverrunBusy (s : State) : Out := codeRow 0b0111#4 (receiving .overrun) s

/-- `1000` (R150): free; the controller never changes it. -/
def execCodeTxInactive (s : State) : Out := codeRow 0b1000#4 inert s

/-- `1001` (R151): an abort request completes, or the mailbox stays as it is. -/
def execCodeTxAbort (s : State) : Out := codeRow 0b1001#4 completeAbort s

/-- `1010` (R149): unconstrained (R87). -/
def execCodeRxRemoteAnswer (s : State) : Out := codeRow 0b1010#4 unconstrained s

/-- `1011` (R149): unconstrained (R87). -/
def execCodeRxRemoteAnswerBusy (s : State) : Out := codeRow 0b1011#4 unconstrained s

/-- `1100` (R152): armed; the controller may send it. -/
def execCodeTxDataOrRemotePending (s : State) : Out := codeRow 0b1100#4 completeTransmission s

/-- `1101` (R153): the value of no code; every engine decode is fatal, the controller is unconstrained (R87). -/
def execCodeUndecodable1101 (s : State) : Out := codeRow 0b1101#4 unconstrained s

/-- `1110` (R153): unconstrained (R87). -/
def execCodeTxRemoteAnswerPending (s : State) : Out := codeRow 0b1110#4 unconstrained s

/-- `1111` (R153): as `1101`. -/
def execCodeUndecodable1111 (s : State) : Out := codeRow 0b1111#4 unconstrained s

end Sys2Proof.Machine
end

