-- ==== Sys2Proof/Machine/WriteMailbox.lean ====
section
/-! DEFINITION. The five writes of `MbWrite(i, h, f)` (43_transmit.md R181), each one step; `INIT` makes them at W1 to W5
and `TRANSMIT` at S4 to S8. -/

namespace Sys2Proof.Machine

/-- W1. -/
def mbWriteFlag (i : Fin 32) (next : Position) (s : State) : Out :=
  flagClear i (fun t => .next (t.goto next i)) s

/-- W2. -/
def mbWriteId (i : Fin 32) (prio : BitVec 3) (f : CanFrame) (next : Position) (s : State) : Out :=
  writeReg (.mb i .id) (packId prio f.id) (fun t => .next (t.goto next i)) s

/-- W3. -/
def mbWriteD0 (i : Fin 32) (f : CanFrame) (next : Position) (s : State) : Out :=
  writeReg (.mb i .d0) (packData f 0) (fun t => .next (t.goto next i)) s

/-- W4. -/
def mbWriteD1 (i : Fin 32) (f : CanFrame) (next : Position) (s : State) : Out :=
  writeReg (.mb i .d1) (packData f 1) (fun t => .next (t.goto next i)) s

/-- W5, the write that arms the mailbox when the header's code says so. -/
def mbWriteCs (i : Fin 32) (h : MailboxHeader) (f : CanFrame) (k : State → Out) (s : State) : Out :=
  writeReg (.mb i .cs) (packCs h f) k s

end Sys2Proof.Machine
end

