-- ==== Sys2Proof/Machine/Init.lean ====
section
/-! DEFINITION. `INIT` (42_controller_init.md R160 to R169): validation, then one register access a step through the
phases `RESET`, `ENABLE`, `FREEZE`, `CONFIGURE_GLOBAL`, `CONFIGURE_MAILBOXES` and `RUN`. -/

namespace Sys2Proof.Machine

/-! ## `Validate` (R161): one label a step; it touches no register -/

/-- V0: `mode`, then the operands, which the operation keeps. -/
def validateAdmission (s : State) : Out :=
  if s.mode = .running then refuse .alreadyInitialised s
  else
    match checkHeaderSequence s.params.numMb s.ops.headers with
    | none => refuse .invalidOperand s
    | some hs => .next ((s.keep { Work.empty with settings := s.ops.settings, headers := hs }).goto (.init .v1) 0)

/-- V1: DMA without FIFO. -/
def validateDma (i : Fin 32) (s : State) : Out :=
  if s.work.settings.dmaEnable && !s.work.settings.fifoEnabled then finish (.err .settingsError) s
  else .next (s.goto (.init .v2) i)

/-- V2: the bit timing, which the operation keeps; every other outcome of the calculation is the operation's. -/
def validateTiming (i : Fin 32) (s : State) : Out :=
  match btcalc s.work.settings.sourceFrequency.toNat s.work.settings.canFrequency.toNat with
  | .settingsError => finish (.err .settingsError) s
  | .tqsOutOfRange tqs => raiseFatal (.tqsOutOfRange tqs) s
  | .refused r => refuse r s
  | .ok bt => .next ((s.keep { s.work with bt := bt }).goto (.init .v3) i)

/-- V3: a FIFO is not modelled; else the first label of `RESET` follows (R162). -/
def validateFifo (i : Fin 32) (s : State) : Out :=
  if s.work.settings.fifoEnabled then refuse .fifoNotModelled s
  else .next (s.goto (.init .a1r) i)

/-! ## The phases -/

/-- First half of a field update (20_memory.md R66): the register's word is read and kept. -/
def rmwRead (r : Reg) (next : InitStep) (i : Fin 32) (s : State) : Out :=
  readReg r (fun v t => .next ((t.keep { t.work with t := v }).goto (.init next) i)) s

/-- Second half: the kept word with its fields replaced is written. -/
def rmwWrite (r : Reg) (f : Word → Word) (next : InitStep) (i : Fin 32) (s : State) : Out :=
  writeReg r (f s.work.t) (fun t => .next (t.goto (.init next) i)) s

/-- After a wait that ends a phase: `mode <- m`, on to the next label (R162 to R164). -/
def enterMode (m : Mode) (next : InitStep) (s : State) : Out :=
  .next ((s.setMode m).goto (.init next) 0)

/-- `max_mailbox <- n - 1` at D1 (R165, 10_state.md R28). -/
def State.latchMaxMailbox (s : State) : State :=
  { s with maxMailbox := BitVec.ofNat 5 (s.work.headers.length - 1) }

/-- The loop of R166 at mailbox `i`: past the last header the phase `RUN` begins. -/
def withHeader (i : Nat) (k : MailboxHeader → Out) (s : State) : Out :=
  match s.work.headers[i]? with
  | some h => k h
  | none => .next (s.goto (.init .f1r) 0)

/-- After mailbox `i` is configured: the next one, or `RUN`. -/
def nextMailbox (i : Fin 32) (s : State) : Out :=
  if i.val + 1 < s.work.headers.length then .next (s.goto (.init .e1) (i + 1))
  else .next (s.goto (.init .f1r) 0)

/-- One step of `INIT` at label `l`, mailbox index `i`, wait counter `n` (R161 to R168). -/
def initStep (l : InitStep) (i : Fin 32) (n : Nat) (s : State) : Out :=
  match l with
  | .v0 => validateAdmission s
  | .v1 => validateDma i s
  | .v2 => validateTiming i s
  | .v3 => validateFifo i s
  | .a1r => rmwRead .gcr .a1w i s
  | .a1w => rmwWrite .gcr (Gcr.mdis.set · 1) .a2 i s
  | .a2 => waitUntil .gcr Gcr.lpmack.lo true (.init .a2) i n (fun t => .next (t.goto (.init .a3r) i)) s
  | .a3r => rmwRead .btr .a3w i s
  | .a3w => rmwWrite .btr (Btr.clksrc.set · s.work.settings.clockSource.toNat) .a4r i s
  | .a4r => rmwRead .gcr .a4w i s
  | .a4w => rmwWrite .gcr (Gcr.mdis.set · 0) .a5 i s
  | .a5 => waitUntil .gcr Gcr.lpmack.lo false (.init .a5) i n (fun t => .next (t.goto (.init .a6r) i)) s
  | .a6r => rmwRead .gcr .a6w i s
  | .a6w => rmwWrite .gcr (Gcr.softrst.set · 1) .a7 i s
  | .a7 => waitUntil .gcr Gcr.softrst.lo false (.init .a7) i n (fun t => .next (t.goto (.init .a8r) i)) s
  | .a8r => rmwRead .gcr .a8w i s
  | .a8w => rmwWrite .gcr (Gcr.mdis.set · 1) .a9 i s
  | .a9 => waitUntil .gcr Gcr.lpmack.lo true (.init .a9) i n (enterMode .reset .b1r) s
  | .b1r => rmwRead .gcr .b1w i s
  | .b1w => rmwWrite .gcr (Gcr.mdis.set · 0) .b2 i s
  | .b2 => waitUntil .gcr Gcr.lpmack.lo false (.init .b2) i n (enterMode .enabled .c1r) s
  | .c1r => rmwRead .gcr .c1w i s
  | .c1w => rmwWrite .gcr (fun w => Gcr.halt.set (Gcr.frz.set w 1) 1) .c2 i s
  | .c2 => waitUntil .gcr Gcr.frzack.lo true (.init .c2) i n (enterMode .frozen .d1r) s
  | .d1r => rmwRead .gcr .d1w i s
  | .d1w => rmwWrite .gcr (configureGcr s.work.settings s.work.headers.length) .d2r i s.latchMaxMailbox
  | .d2r => rmwRead .btr .d2w i s
  | .d2w => rmwWrite .btr (configureBtr s.work.settings s.work.bt) .d3 i s
  | .d3 => writeReg .rxmask acceptAllMask (fun t => .next (t.goto (.init .e1) 0)) s
  | .e1 => withHeader i (fun _ => readReg (.mb i .cs) (fun v t => .next ((t.keep { t.work with c := v }).goto (.init .e2) i)) s) s
  | .e2 => withHeader i (fun h => writeReg (.mb i .cs) (withCode s.work.c (inactiveBits h.code)) (fun t => .next (t.goto (.init .e3) i)) s) s
  | .e3 => withHeader i (fun _ => readReg (.mb i .cs) (fun v t => engineOnCode (codeOf v) t) s) s
  | .w1 => withHeader i (fun _ => mbWriteFlag i (.init .w2) s) s
  | .w2 => withHeader i (fun h => mbWriteId i h.priority fillerFrame (.init .w3) s) s
  | .w3 => withHeader i (fun _ => mbWriteD0 i fillerFrame (.init .w4) s) s
  | .w4 => withHeader i (fun _ => mbWriteD1 i fillerFrame (.init .w5) s) s
  | .w5 => withHeader i (fun h => mbWriteCs i h fillerFrame (nextMailbox i) s) s
  | .f1r => rmwRead .gcr .f1w i s
  | .f1w => rmwWrite .gcr (fun w => Gcr.halt.set (Gcr.frz.set w 0) 0) .f2 i s
  | .f2 => waitUntil .gcr Gcr.frzack.lo false (.init .f2) i n (fun t => finish (.ok .unit) (t.setMode .running)) s

/-- `INIT settings, headers` (R160). -/
def execInit (s : State) : Out :=
  serve .init (fun p i n =>
    match p with
    | .init l => initStep l i n s
    | .btcalc _ | .encode _ | .decode _ | .transmit _ | .receive _ | .abort _ => .fault .commandWhileRunning) s

end Sys2Proof.Machine
end

