-- ==== Sys2Proof/Machine/Receive.lean ====
section
/-! DEFINITION. `RECEIVE` (44_receive.md R190 to R192). -/

namespace Sys2Proof.Machine

/-- S0 (R190): admission, then label S1 at mailbox `mbx`. -/
def startReceive (mbx : Nat) (s : State) : Out :=
  if s.mode ≠ .running then refuse .notInitialised s
  else if s.maxMailbox.toNat < mbx then refuse .mailboxIndexOutOfRange s
  else .next ((s.keep Work.empty).goto (.receive .s1) (Fin.ofNat 32 mbx))

/-- `BuildFrame(c, w, d0, d1)` (R191); `none` is `Fatal(DlcOutOfRange)`. -/
def buildFrame (c w d0 d1 : Word) : Option CanFrame :=
  let u := unpackCs c
  let id := unpackId u.ide w
  if u.rtr then some (.remote id)
  else if 8 < u.dlc.toNat then none
  else some (.data id (unpackData d0 d1 u.dlc.toNat))

/-- The header of S7 (R190) for a decoded code. -/
def receivedHeader (code : MessageBufferCode) (c w : Word) : MailboxHeader :=
  ⟨(unpackCs c).esi, code, (unpackCs c).timestamp, priorityOf w⟩

/-- One step of `RECEIVE mbx` at label `l`, mailbox index `i`; the wait counter of S2 is read where the code is tested
(`busyTestOn`). -/
def receiveStep (mbx : Nat) (l : ReceiveStep) (i : Fin 32) (s : State) : Out :=
  match l with
  | .s0 => startReceive mbx s
  | .s1 => readReg .iflag (fun v t =>
      if v.getLsbD i.val then .next (t.goto (.receive .s2) i) else finish (.err .mailboxEmpty) t) s
  | .s2 => readReg (.mb i .cs) (fun v t =>
      engineOnCode (codeOf v) ((t.keep { t.work with c := v }).engageLock i v)) s
  | .s3 => readReg (.mb i .id) (fun v t =>
      .next ((t.keep { t.work with w := v }).goto (.receive .s4) i)) s
  | .s4 => readReg (.mb i .d0) (fun v t =>
      .next ((t.keep { t.work with d0 := v }).goto (.receive .s5) i)) s
  | .s5 => readReg (.mb i .d1) (fun v t =>
      .next ((t.keep { t.work with d1 := v }).goto (.receive .s6) i)) s
  | .s6 =>
    match buildFrame s.work.c s.work.w s.work.d0 s.work.d1 with
    | some f => .next ((s.keep { s.work with frame := f }).goto (.receive .s7) i)
    | none => raiseFatal (.dlcOutOfRange (unpackCs s.work.c).dlc) s
  | .s7 => decodedAt i (codeOf s.work.c) (fun code =>
      .next ((s.keep { s.work with header := receivedHeader code s.work.c s.work.w }).goto (.receive .s8) i)) s
  | .s8 => flagClear i (fun t => .next (t.goto (.receive .s9) i)) s
  | .s9 => readReg .timer (fun _ t => finish (.ok (.received s.work.header s.work.frame)) t) s

/-- `RECEIVE MBX` (R190). -/
def execReceive (mbx : Nat) (s : State) : Out :=
  serve .receive (fun p i _ =>
    match p with
    | .receive l => receiveStep mbx l i s
    | .btcalc _ | .encode _ | .decode _ | .init _ | .transmit _ | .abort _ => .fault .commandWhileRunning) s

end Sys2Proof.Machine
end

