-- ==== Sys2Proof/Machine/Transmit.lean ====
section
/-! DEFINITION. `TRANSMIT` (43_transmit.md R183 to R185). -/

namespace Sys2Proof.Machine

/-- S0 (R183): admission, then an empty report and mailbox 0. -/
def startTransmit (s : State) : Out :=
  if s.mode ≠ .running then refuse .notInitialised s
  else
    match checkFrame s.ops.frame with
    | none => refuse .invalidOperand s
    | some f =>
      .next ((s.keep { Work.empty with
          frame := f
          report := List.replicate (s.maxMailbox.toNat + 1) .none }).goto (.transmit .s1) 0)

/-- The header of S3 (R183, D18): indicator and timestamp from the control word, priority from the ID word, code armed. -/
def transmitHeader (c w : Word) : MailboxHeader :=
  ⟨(unpackCs c).esi, .transmit .dataOrRemotePending, (unpackCs c).timestamp, priorityOf w⟩

/-- One step of `TRANSMIT` at label `l`, mailbox index `i`. -/
def transmitStep (l : TransmitStep) (i : Fin 32) (s : State) : Out :=
  match l with
  | .s0 => startTransmit s
  | .s1 => readReg (.mb i .cs) (fun v t => engineOnCode (codeOf v) (t.keep { t.work with c := v })) s
  | .s2 => engineOnCode (codeOf s.work.c) s
  | .s3 => readReg (.mb i .id) (fun v t => .next ((t.keep { t.work with w := v }).goto (.transmit .s4) i)) s
  | .s4 => mbWriteFlag i (.transmit .s5) s
  | .s5 => mbWriteId i (transmitHeader s.work.c s.work.w).priority s.work.frame (.transmit .s6) s
  | .s6 => mbWriteD0 i s.work.frame (.transmit .s7) s
  | .s7 => mbWriteD1 i s.work.frame (.transmit .s8) s
  | .s8 => mbWriteCs i (transmitHeader s.work.c s.work.w) s.work.frame (finish (.ok .unit)) s

/-- `TRANSMIT frame` (R183). -/
def execTransmit (s : State) : Out :=
  serve .transmit (fun p i _ =>
    match p with
    | .transmit l => transmitStep l i s
    | .btcalc _ | .encode _ | .decode _ | .init _ | .receive _ | .abort _ => .fault .commandWhileRunning) s

end Sys2Proof.Machine
end

