-- ==== Sys2Proof/Machine/Dispatch.lean ====
section
/-! DEFINITION. One arm per instruction, each one call of its meaning. -/

namespace Sys2Proof.Machine

def exec (i : Instr) (s : State) : Host.Outcome State Fault Refusal :=
  match i with
  | .btcalc => Sys2Proof.Machine.execBtcalc s
  | .encode => Sys2Proof.Machine.execEncode s
  | .decode => Sys2Proof.Machine.execDecode s
  | .init => Sys2Proof.Machine.execInit s
  | .transmit => Sys2Proof.Machine.execTransmit s
  | .receive mbx => Sys2Proof.Machine.execReceive mbx s
  | .abort mbx => Sys2Proof.Machine.execAbort mbx s
  | .codeRxInactive => Sys2Proof.Machine.execCodeRxInactive s
  | .codeRxInactiveBusy => Sys2Proof.Machine.execCodeRxInactiveBusy s
  | .codeRxFull => Sys2Proof.Machine.execCodeRxFull s
  | .codeRxFullBusy => Sys2Proof.Machine.execCodeRxFullBusy s
  | .codeRxEmpty => Sys2Proof.Machine.execCodeRxEmpty s
  | .codeRxEmptyBusy => Sys2Proof.Machine.execCodeRxEmptyBusy s
  | .codeRxOverrun => Sys2Proof.Machine.execCodeRxOverrun s
  | .codeRxOverrunBusy => Sys2Proof.Machine.execCodeRxOverrunBusy s
  | .codeTxInactive => Sys2Proof.Machine.execCodeTxInactive s
  | .codeTxAbort => Sys2Proof.Machine.execCodeTxAbort s
  | .codeRxRemoteAnswer => Sys2Proof.Machine.execCodeRxRemoteAnswer s
  | .codeRxRemoteAnswerBusy => Sys2Proof.Machine.execCodeRxRemoteAnswerBusy s
  | .codeTxDataOrRemotePending => Sys2Proof.Machine.execCodeTxDataOrRemotePending s
  | .codeUndecodable1101 => Sys2Proof.Machine.execCodeUndecodable1101 s
  | .codeTxRemoteAnswerPending => Sys2Proof.Machine.execCodeTxRemoteAnswerPending s
  | .codeUndecodable1111 => Sys2Proof.Machine.execCodeUndecodable1111 s

end Sys2Proof.Machine
end

