-- ==== Sys2Proof/Machine/Step.lean ====
section
/-! DEFINITION. One step of the machine: one turn of one agent. What the agent reads is fetched (`fetch`), executed
(`exec`), and the turn is over. -/

namespace Sys2Proof.Machine

/-- A next state with the turn ended. -/
def afterTurn (o : Host.Outcome State Fault Refusal) : Host.Outcome State Fault Refusal :=
  match o with
  | .next s => .next s.endTurn
  | .fault r => .fault r
  | .refused r => .refused r

/-- One turn (10_state.md R20 to R22, 20_memory.md R73). -/
def step (s : State) : Host.Outcome State Fault Refusal :=
  match fetch s with
  | .instr i => afterTurn (exec i s)
  | .illegal => .next s.rejectWord.endTurn
  | .nothing => .next s.environment.endTurn

/-- `s` with one row of the table placed where the next step reads it: a command word on the command port with the
engine's turn next, or a code in mailbox 0 with the controller's turn on it next (notes/assumptions/20.md). -/
def State.withFetchWord (s : State) (nbits w : Nat) : State :=
  if nbits ≤ 8 then s.placeCode w else s.placeCommand w

end Sys2Proof.Machine
end

