-- ==== Sys2Proof/Safety.lean ====
section
/-! DEFINITION. What claims about the machine are stated in: the invariant of every reachable state, in three layers
(structure, controller phase, mailbox protocol), what a step may leave unchanged, and runs of the engine alone. -/

namespace Sys2Proof.Machine

/-! ## Layer 1: structure -/

/-- A rising list of mailbox indices, the form in which a set of them is held. -/
def rising (l : List Nat) : Prop := l.Pairwise (· < ·)

/-- Where the sequencer stands agrees with the command served, the mode and what the operation keeps (10_state.md R24
to R28, 60_exceptions.md R232). -/
def State.seqOk (s : State) : Prop :=
  match s.seq with
  | .idle => s.work = Work.empty
  | .faulted => s.work = Work.empty
  | .run (.btcalc _) _ _ => fetchCommand s = .instr .btcalc ∧ s.work = Work.empty
  | .run (.encode _) _ _ => fetchCommand s = .instr .encode ∧ s.work = Work.empty
  | .run (.decode _) _ _ => fetchCommand s = .instr .decode ∧ s.work = Work.empty
  | .run (.init l) i _ =>
    fetchCommand s = .instr .init ∧ (l = .v0 → s.work = Work.empty) ∧
      (l ≠ .v0 → s.mode ≠ .running ∧ i.val < s.work.headers.length ∧ s.work.headers.length ≤ s.params.numMb)
  | .run (.transmit l) i _ =>
    fetchCommand s = .instr .transmit ∧ (l = .s0 → s.work = Work.empty) ∧
      (l ≠ .s0 → s.mode = .running ∧ i.val ≤ s.maxMailbox.toNat ∧ CanFrame.wf s.work.frame = true ∧
        s.work.report.length = s.maxMailbox.toNat + 1)
  | .run (.receive l) i _ =>
    ∃ m, fetchCommand s = .instr (.receive m) ∧ (l = .s0 → s.work = Work.empty) ∧
      (l ≠ .s0 → m = i.val ∧ s.mode = .running ∧ i.val ≤ s.maxMailbox.toNat)
  | .run (.abort l) i _ =>
    ∃ m, fetchCommand s = .instr (.abort m) ∧ (l = .s0 → s.work = Work.empty) ∧
      (l ≠ .s0 → m = i.val ∧ s.mode = .running ∧ i.val ≤ s.maxMailbox.toNat)

/-- Layer 1. -/
structure State.Structural (s : State) : Prop where
  /-- The parameters are in their ranges (00_scope.md R8). -/
  params : Params.wf s.params = true
  /-- The mailbox file keeps its canonical form. -/
  mem : Memory.wf s.mem = true
  /-- R26: `max_mailbox <= NUM_MB - 1`. -/
  maxMailbox : s.maxMailbox.toNat < s.params.numMb
  seq : s.seqOk
  abortReq : rising s.abortReq
  rxBegun : rising s.rxBegun

/-! ## Layer 2: the controller's condition in each phase (60_exceptions.md R230) -/

/-- Clocked, and not in a soft reset. -/
def State.awake (s : State) : Prop := s.mdis = false ∧ s.softrst = false ∧ s.lpmack = false

/-- Freeze mode requested. -/
def State.halting (s : State) : Prop := s.awake ∧ s.frz = true ∧ s.halt = true

/-- Freeze mode (R230 `Frozen`). -/
def State.frozen (s : State) : Prop := s.halting ∧ s.frzack = true

/-- Freeze mode no longer requested. -/
def State.leaving (s : State) : Prop := s.awake ∧ s.frz = false ∧ s.halt = false

/-- The clock source is selected (42_controller_init.md R162 A3). -/
def State.clockSelected (s : State) : Prop := Btr.clksrc.bit s.btr = s.work.settings.clockSource

/-- GCR's five configured fields and `max_mailbox` (R165 D1, 30_encoding.md R111). -/
def State.gcrConfigured (s : State) : Prop :=
  Gcr.rfen.bit s.gcr = s.work.settings.fifoEnabled ∧
  Gcr.srxdis.bit s.gcr = !s.work.settings.selfReception ∧
  Gcr.irmq.bit s.gcr = s.work.settings.individualMasking ∧
  Gcr.dma.bit s.gcr = s.work.settings.dmaEnable ∧
  s.maxmb = s.work.headers.length - 1 ∧
  s.maxMailbox.toNat = s.work.headers.length - 1

/-- BTR's six configured fields (R165 D2, R112). -/
def State.btrConfigured (s : State) : Prop :=
  Btr.presdiv.get s.btr = s.work.bt.presdiv ∧
  Btr.rjw.get s.btr = s.work.bt.rjw ∧
  Btr.pseg1.get s.btr = s.work.bt.pseg1 ∧
  Btr.pseg2.get s.btr = s.work.bt.pseg2 ∧
  Btr.propseg.get s.btr = s.work.bt.propseg ∧
  Btr.lpb.bit s.btr = s.work.settings.loopbackMode

/-- All of R165. -/
def State.configured (s : State) : Prop :=
  s.gcrConfigured ∧ s.btrConfigured ∧ s.rxmask = acceptAllMask

/-- GCR's two acknowledgment bits, which the controller may change under the engine's feet (R263). -/
def ackBits : Word := Gcr.frzack.mask ||| Gcr.lpmack.mask

/-- The word kept by a read-modify-write of GCR is still GCR, acknowledgment bits apart. -/
def State.latchedGcr (s : State) : Prop := blend ackBits s.work.t s.gcr = s.gcr

/-- What holds at each label of `INIT` (R162 to R168), whatever the controller did between the steps. -/
def State.initPhase (l : InitStep) (s : State) : Prop :=
  match l with
  | .v0 | .v1 | .v2 | .v3 | .a1r | .a1w => True
  | .a2 => s.mdis = true
  | .a3r | .a3w => s.mdis = true ∧ s.lpmack = true
  | .a4r | .a4w => s.mdis = true ∧ s.lpmack = true ∧ s.clockSelected
  | .a5 | .a6r | .a7 => s.mdis = false ∧ s.clockSelected
  | .a6w => s.mdis = false ∧ Gcr.mdis.bit s.work.t = false ∧ s.clockSelected
  | .a8r => s.mdis = false ∧ s.softrst = false ∧ s.clockSelected
  | .a8w => s.mdis = false ∧ s.softrst = false ∧ Gcr.softrst.bit s.work.t = false ∧ s.clockSelected
  | .a9 => s.mdis = true ∧ s.softrst = false ∧ s.clockSelected
  | .b1r => s.mode = .reset ∧ s.mdis = true ∧ s.lpmack = true ∧ s.softrst = false ∧ s.clockSelected
  | .b1w =>
    s.mode = .reset ∧ s.mdis = true ∧ s.lpmack = true ∧ s.softrst = false ∧
      Gcr.softrst.bit s.work.t = false ∧ s.clockSelected
  | .b2 => s.mode = .reset ∧ s.mdis = false ∧ s.softrst = false ∧ s.clockSelected
  | .c1r => s.mode = .enabled ∧ s.awake ∧ s.clockSelected
  | .c1w => s.mode = .enabled ∧ s.awake ∧ s.latchedGcr ∧ s.clockSelected
  | .c2 => s.mode = .enabled ∧ s.halting ∧ s.clockSelected
  | .d1r => s.mode = .frozen ∧ s.frozen ∧ s.clockSelected
  | .d1w => s.mode = .frozen ∧ s.frozen ∧ s.latchedGcr ∧ s.clockSelected
  | .d2r | .d2w => s.mode = .frozen ∧ s.frozen ∧ s.clockSelected ∧ s.gcrConfigured
  | .d3 => s.mode = .frozen ∧ s.frozen ∧ s.clockSelected ∧ s.gcrConfigured ∧ s.btrConfigured
  | .e1 | .e2 | .e3 | .w1 | .w2 | .w3 | .w4 | .w5 | .f1r =>
    s.mode = .frozen ∧ s.frozen ∧ s.clockSelected ∧ s.configured
  | .f1w => s.mode = .frozen ∧ s.frozen ∧ s.latchedGcr ∧ s.clockSelected ∧ s.configured
  | .f2 => s.mode = .frozen ∧ s.leaving ∧ s.clockSelected ∧ s.configured

/-- The operands `INIT` keeps have passed what `Validate` tests before the label (R161). -/
def State.initOperands (l : InitStep) (s : State) : Prop :=
  (l ≠ .v0 → ∀ h ∈ s.work.headers, MessageBufferCode.isBusy h.code = false) ∧
  (l ∉ [InitStep.v0, .v1] → s.work.settings.dmaEnable = true → s.work.settings.fifoEnabled = true) ∧
  (l ∉ [InitStep.v0, .v1, .v2] →
    btcalc s.work.settings.sourceFrequency.toNat s.work.settings.canFrequency.toNat = .ok s.work.bt) ∧
  (l ∉ [InitStep.v0, .v1, .v2, .v3] → s.work.settings.fifoEnabled = false)

/-- R230 `Running`, with the configuration that stays in force (R253). -/
def State.normalOperation (s : State) : Prop :=
  s.leaving ∧ s.frzack = false ∧ s.maxmb = s.maxMailbox.toNat ∧
  Gcr.rfen.bit s.gcr = false ∧ Gcr.dma.bit s.gcr = false ∧ s.rxmask = acceptAllMask

/-- Layer 2. -/
structure State.PhaseOk (s : State) : Prop where
  running : s.mode = .running → s.normalOperation
  init : ∀ l i n, s.seq = .run (.init l) i n → s.initOperands l ∧ s.initPhase l

/-! ## Layer 3: the mailbox protocol -/

/-- The busy codes a reception of 20_memory.md R84 produces. -/
def receptionCode (v : BitVec 4) : Prop := v = 0b0011#4 ∨ v = 0b0101#4 ∨ v = 0b0111#4

/-- A code the controller never changes (R89), abort requests apart. -/
def inertCode (v : BitVec 4) : Prop := v = 0b0000#4 ∨ v = 0b1000#4

/-- The controller's hidden state agrees with the codes (10_state.md R42 to R44). -/
structure State.HiddenOk (s : State) : Prop where
  /-- R86: a requested abort shows `Transmit{Abort}`. -/
  abort : ∀ i ∈ s.abortReq, i ≤ s.maxMailbox.toNat ∧ s.mbCode i = 0b1001#4
  /-- R84: a reception in progress shows a busy code. -/
  begun : ∀ i ∈ s.rxBegun, i < s.params.numMb ∧ receptionCode (s.mbCode i)
  /-- R44: freeze mode is entered only when no reception is unfinished. -/
  still : s.frzack = true → s.rxBegun = []
  /-- R89: no reception is in progress above `MAXMB`. -/
  inUse : ∀ i ∈ s.rxBegun, i ≤ s.maxmb
  /-- Only `RECEIVE` engages the lock, only `ABORT` requests an abort: neither before `Running`. -/
  fresh : s.mode ≠ .running → s.lock = none ∧ s.abortReq = []

/-- Mailbox `i` holds header `h` and frame `f`, as the five writes of 43_transmit.md R181 leave it. -/
def State.mbHolds (i : Nat) (h : MailboxHeader) (f : CanFrame) (s : State) : Prop :=
  s.mbWord i .cs = packCs h f ∧ s.mbWord i .id = packId h.priority f.id ∧
  s.mbWord i .d0 = packData f 0 ∧ s.mbWord i .d1 = packData f 1

/-- Mailbox `i` is as R253 has it for header `h`. -/
def State.mbConfigured (i : Nat) (h : MailboxHeader) (s : State) : Prop :=
  s.mbHolds i h fillerFrame ∧ s.flag i = false

/-- Every mailbox below `k` is configured with its header. -/
def State.configuredBelow (k : Nat) (s : State) : Prop :=
  ∀ j h, j < k → s.work.headers[j]? = some h → s.mbConfigured j h

/-- The configure loop's progress at each label (42_controller_init.md R166, R167). -/
def State.initMailboxes (l : InitStep) (i : Nat) (s : State) : Prop :=
  match l with
  | .e1 | .e2 => s.configuredBelow i
  | .e3 | .w1 =>
    s.configuredBelow i ∧ ∀ h, s.work.headers[i]? = some h → s.mbCode i = inactiveBits h.code
  | .w2 =>
    s.configuredBelow i ∧ ∀ h, s.work.headers[i]? = some h →
      s.mbCode i = inactiveBits h.code ∧ s.flag i = false
  | .w3 =>
    s.configuredBelow i ∧ ∀ h, s.work.headers[i]? = some h →
      s.mbCode i = inactiveBits h.code ∧ s.flag i = false ∧
      s.mbWord i .id = packId h.priority fillerFrame.id
  | .w4 =>
    s.configuredBelow i ∧ ∀ h, s.work.headers[i]? = some h →
      s.mbCode i = inactiveBits h.code ∧ s.flag i = false ∧
      s.mbWord i .id = packId h.priority fillerFrame.id ∧ s.mbWord i .d0 = packData fillerFrame 0
  | .w5 =>
    s.configuredBelow i ∧ ∀ h, s.work.headers[i]? = some h →
      s.mbCode i = inactiveBits h.code ∧ s.flag i = false ∧
      s.mbWord i .id = packId h.priority fillerFrame.id ∧ s.mbWord i .d0 = packData fillerFrame 0 ∧
      s.mbWord i .d1 = packData fillerFrame 1
  | .f1r | .f1w => s.configuredBelow s.work.headers.length
  | .f2 =>
    ∀ j h, s.work.headers[j]? = some h → inertCode (codeBits h.code) → s.mbConfigured j h
  | .v0 | .v1 | .v2 | .v3
  | .a1r | .a1w | .a2 | .a3r | .a3w | .a4r | .a4w | .a5 | .a6r | .a6w | .a7 | .a8r | .a8w | .a9
  | .b1r | .b1w | .b2 | .c1r | .c1w | .c2 | .d1r | .d1w | .d2r | .d2w | .d3 => True

/-- The report under construction when the scan stands at mailbox `i` (43_transmit.md R184): an entry for every mailbox
below, none from `i` on. -/
def State.reportUpTo (i : Nat) (s : State) : Prop :=
  ∀ k, k ≤ s.maxMailbox.toNat →
    (k < i → s.work.report[k]? = some .mailboxBusy ∨ s.work.report[k]? = some .mailboxConfigurationError) ∧
    (i ≤ k → s.work.report[k]? = some .none)

/-- The chosen mailbox is free and holds the control word the scan read (R183 S3, R185 (f)). -/
def State.targetFree (i : Nat) (s : State) : Prop :=
  codeOf s.work.c = 0b1000#4 ∧ s.mbWord i .cs = s.work.c

/-- The header `TRANSMIT` is about to write. -/
def State.txHeader (s : State) : MailboxHeader := transmitHeader s.work.c s.work.w

/-- `TRANSMIT`'s progress at each label (R183). -/
def State.transmitProgress (l : TransmitStep) (i : Nat) (s : State) : Prop :=
  (l ≠ .s0 → s.reportUpTo i) ∧
  match l with
  | .s0 | .s1 => True
  | .s2 => codeOf s.work.c = 0b1000#4 → s.targetFree i
  | .s3 => s.targetFree i
  | .s4 => s.targetFree i ∧ s.mbWord i .id = s.work.w
  | .s5 => s.targetFree i ∧ s.mbWord i .id = s.work.w ∧ s.flag i = false
  | .s6 =>
    s.targetFree i ∧ s.flag i = false ∧ s.mbWord i .id = packId s.txHeader.priority s.work.frame.id
  | .s7 =>
    s.targetFree i ∧ s.flag i = false ∧ s.mbWord i .id = packId s.txHeader.priority s.work.frame.id ∧
      s.mbWord i .d0 = packData s.work.frame 0
  | .s8 =>
    s.targetFree i ∧ s.flag i = false ∧ s.mbWord i .id = packId s.txHeader.priority s.work.frame.id ∧
      s.mbWord i .d0 = packData s.work.frame 0 ∧ s.mbWord i .d1 = packData s.work.frame 1

/-- The codes of a whole received frame: `Full` and `Overrun`, busy clear (44_receive.md R192 (b)). -/
def wholeFrameCode (v : BitVec 4) : Prop := v = 0b0010#4 ∨ v = 0b0110#4

/-- The control word that ended the loop of S2: it decodes, and is not busy. -/
def settled (c : Word) : Prop :=
  ∃ code, codeValue (codeOf c) = some code ∧ MessageBufferCode.isBusy code = false

/-- While `RECEIVE` reads a whole frame the lock is held and the words read are the mailbox's words still (R192 (b)). -/
def State.receiveProgress (l : ReceiveStep) (i : Nat) (s : State) : Prop :=
  match l with
  | .s0 | .s1 | .s2 => True
  | .s3 =>
    settled s.work.c ∧
    (wholeFrameCode (codeOf s.work.c) → s.lock = some i ∧ s.mbWord i .cs = s.work.c)
  | .s4 =>
    settled s.work.c ∧
    (wholeFrameCode (codeOf s.work.c) →
      s.lock = some i ∧ s.mbWord i .cs = s.work.c ∧ s.mbWord i .id = s.work.w)
  | .s5 =>
    settled s.work.c ∧
    (wholeFrameCode (codeOf s.work.c) →
      s.lock = some i ∧ s.mbWord i .cs = s.work.c ∧ s.mbWord i .id = s.work.w ∧ s.mbWord i .d0 = s.work.d0)
  | .s6 =>
    settled s.work.c ∧
    (wholeFrameCode (codeOf s.work.c) →
      s.lock = some i ∧ s.mbWord i .cs = s.work.c ∧ s.mbWord i .id = s.work.w ∧ s.mbWord i .d0 = s.work.d0 ∧
      s.mbWord i .d1 = s.work.d1)
  | .s7 =>
    settled s.work.c ∧ buildFrame s.work.c s.work.w s.work.d0 s.work.d1 = some s.work.frame ∧
    (wholeFrameCode (codeOf s.work.c) →
      s.lock = some i ∧ s.mbWord i .cs = s.work.c ∧ s.mbWord i .id = s.work.w ∧ s.mbWord i .d0 = s.work.d0 ∧
      s.mbWord i .d1 = s.work.d1)
  | .s8 | .s9 =>
    settled s.work.c ∧ buildFrame s.work.c s.work.w s.work.d0 s.work.d1 = some s.work.frame ∧
    (∃ code, codeValue (codeOf s.work.c) = some code ∧ s.work.header = receivedHeader code s.work.c s.work.w) ∧
    (wholeFrameCode (codeOf s.work.c) →
      s.lock = some i ∧ s.mbWord i .cs = s.work.c ∧ s.mbWord i .id = s.work.w ∧ s.mbWord i .d0 = s.work.d0 ∧
      s.mbWord i .d1 = s.work.d1)

/-- `ABORT` goes past S1 on an armed control word only (45_abort.md R200). -/
def State.abortProgress (l : AbortStep) (s : State) : Prop :=
  match l with
  | .s0 | .s1 => True
  | .s2 | .s3 | .s4 => codeOf s.work.c = 0b1100#4

/-- The progress of the operation in course. -/
def State.progress (s : State) : Prop :=
  match s.seq with
  | .idle => True
  | .faulted => True
  | .run (.btcalc _) _ _ => True
  | .run (.encode _) _ _ => True
  | .run (.decode _) _ _ => True
  | .run (.init l) i _ => s.initMailboxes l i
  | .run (.transmit l) i _ => s.transmitProgress l i
  | .run (.receive l) i _ => s.receiveProgress l i
  | .run (.abort l) _ _ => s.abortProgress l

/-- Layer 3. -/
structure State.ProtocolOk (s : State) : Prop where
  hidden : s.HiddenOk
  progress : s.progress

/-- The whole invariant. -/
structure State.Inv (s : State) : Prop where
  structural : s.Structural
  phase : s.PhaseOk
  protocol : s.ProtocolOk

/-! ## What a step leaves unchanged -/

/-- The control and status registers, IFLAG apart, keep their values. -/
def sameControl (s t : State) : Prop :=
  t.gcr = s.gcr ∧ t.btr = s.btr ∧ t.rxmask = s.rxmask ∧ t.timer = s.timer

/-- Every byte of the mailbox file reads as before. -/
def sameBytes (s t : State) : Prop := ∀ a, readByte t.mem a = readByte s.mem a

/-- Every byte of the mailbox file reads as before, but for the `n` bytes from `a` on. -/
def sameBytesOutside (a n : Nat) (s t : State) : Prop :=
  ∀ b, b < a ∨ a + n ≤ b → readByte t.mem b = readByte s.mem b

/-- The controller's hidden state is as before. -/
def sameHidden (s t : State) : Prop :=
  t.lock = s.lock ∧ t.abortReq = s.abortReq ∧ t.rxBegun = s.rxBegun

/-- The engine's registers outside the ports and the sequencer, and the inputs of the step, are as before. -/
def sameEngine (s t : State) : Prop :=
  t.params = s.params ∧ t.mode = s.mode ∧ t.maxMailbox = s.maxMailbox ∧ t.ops = s.ops ∧
  t.script = s.script ∧ t.tick = s.tick

/-- The result port, the report port, the command port and the refusal mark are as before. -/
def samePorts (s t : State) : Prop :=
  t.result = s.result ∧ t.report = s.report ∧ t.cmd = s.cmd ∧ t.refusalMark = s.refusalMark

/-- The whole register block is as before. -/
def sameBlock (s t : State) : Prop := sameControl s t ∧ t.iflag = s.iflag ∧ sameBytes s t

/-- The address the engine's next step stores a mailbox word to, if it stores one: E2 and W2 to W5 of `INIT` (while a
header stands for the mailbox), S5 to S8 of `TRANSMIT`, S3 of `ABORT` (10_state.md R32). -/
def State.storeAddress (s : State) : Option Nat :=
  match s.seq with
  | .run (.init l) i _ =>
    if i.val < s.work.headers.length then
      match l with
      | .e2 | .w5 => some (s.mbAddr i .cs)
      | .w2 => some (s.mbAddr i .id)
      | .w3 => some (s.mbAddr i .d0)
      | .w4 => some (s.mbAddr i .d1)
      | _ => none
    else none
  | .run (.transmit .s5) i _ => some (s.mbAddr i .id)
  | .run (.transmit .s6) i _ => some (s.mbAddr i .d0)
  | .run (.transmit .s7) i _ => some (s.mbAddr i .d1)
  | .run (.transmit .s8) i _ => some (s.mbAddr i .cs)
  | .run (.abort .s3) i _ => some (s.mbAddr i .cs)
  | _ => none

/-- The mailbox file after a step that stores at most the word at `store`. -/
def storesOnly (store : Option Nat) (s t : State) : Prop :=
  match store with
  | some a => sameBytesOutside a 4 s t
  | none => sameBytes s t

/-- No register of the controller is read or written, and of the engine at most the sequencer, the ports and what the
operation keeps change. -/
def untouched (s t : State) : Prop :=
  sameBlock s t ∧ sameHidden s t ∧ sameEngine s t ∧ t.history = s.history

/-! ## Tables of the spec, as claims cite them -/

/-- The 14 values and their patterns (30_encoding.md R93, 41_mailbox_codec.md R142, R143). -/
def codeTable : List (BitVec 4 × MessageBufferCode) :=
  [(0b0000#4, .receive .inactive false), (0b0001#4, .receive .inactive true),
   (0b0010#4, .receive .full false), (0b0011#4, .receive .full true),
   (0b0100#4, .receive .empty false), (0b0101#4, .receive .empty true),
   (0b0110#4, .receive .overrun false), (0b0111#4, .receive .overrun true)] ++
  [(0b1000#4, .transmit .inactive), (0b1001#4, .transmit .abort),
   (0b1010#4, .receive .remoteAnswer false), (0b1011#4, .receive .remoteAnswer true),
   (0b1100#4, .transmit .dataOrRemotePending), (0b1110#4, .transmit .remoteAnswerPending)]

/-- `(tqs, propseg, pseg1, pseg2, rjw)` (40_bit_timing.md R134 (a)). -/
def segmentTable : List (Nat × Nat × Nat × Nat × Nat) :=
  [(8, 1, 2, 1, 1), (9, 2, 2, 1, 1), (10, 1, 2, 3, 2), (11, 2, 2, 3, 2), (12, 2, 3, 3, 2), (13, 3, 3, 3, 2),
   (14, 3, 4, 3, 2), (15, 2, 3, 6, 2), (16, 3, 3, 6, 2)] ++
  [(17, 3, 4, 6, 2), (18, 4, 4, 6, 2), (19, 4, 5, 6, 2), (20, 4, 5, 7, 3), (21, 5, 5, 7, 3), (22, 5, 6, 7, 3),
   (23, 6, 6, 7, 3), (24, 6, 7, 7, 3), (25, 7, 7, 7, 3)]

/-- The waits of `INIT` with the GCR bit waited for, its value, the label that follows and the mode entered
(42_controller_init.md R162 to R164); F2 ends the operation and is not listed. -/
def initWaits : List (InitStep × Nat × Bool × InitStep × Option Mode) :=
  [(.a2, 20, true, .a3r, none), (.a5, 20, false, .a6r, none), (.a7, 25, false, .a8r, none),
   (.a9, 20, true, .b1r, some .reset), (.b2, 20, false, .c1r, some .enabled), (.c2, 24, true, .d1r, some .frozen)]

/-! ## Runs -/

/-- `k` steps, stopping at the first fault or refusal. -/
def runSteps : Nat → State → Out
  | 0, s => .next s
  | k + 1, s =>
    match step s with
    | .next t => runSteps k t
    | .fault r => .fault r
    | .refused r => .refused r

/-- The next `k` turns are the engine's: no other agent moves in between (one interleaving of 20_memory.md R73). -/
def State.alone (k : Nat) (s : State) : State :=
  { s with script := List.replicate k .engine ++ s.script }

/-- The engine's reads in a history. -/
def readCount (h : List Event) : Nat :=
  (h.filter fun e => match e with | .read _ _ => true | .write _ _ => false).length

/-- The engine's writes in a history. -/
def writeCount (h : List Event) : Nat :=
  (h.filter fun e => match e with | .read _ _ => false | .write _ _ => true).length

/-- The hang of 45_abort.md R201 (b) and 70_reset_and_hazards.md R268: `ABORT` waits at S4 for a flag that no move of
the controller will set. -/
def State.abortHang (i : Fin 32) (s : State) : Prop :=
  (∃ n, s.seq = .run (.abort .s4) i n) ∧ s.flag i = false ∧ s.mbCode i = 0b1001#4 ∧ i.val ∉ s.abortReq ∧
  s.params.waitLimit = none

end Sys2Proof.Machine
end

