-- ==== Sys2Proof/Certificates/Slice0/Obligations.lean ====
section
/-! DEFINITION. The statements for the provers. Each follows a numbered rule of spec/ where its docstring says so; a clause
that rests on a choice of this model names its log entry. -/

open Sys2Proof Sys2Proof.Machine

/-! ## Encoding and decoding -/

/-- 30_encoding.md R90, R92, R93: no bit of an encoding is dropped, for every well-formed instruction of both formats. -/
def Obligations.DecodeOfEncode : Prop :=
  ∀ i : Instr, Instr.wf i = true → decode (encode i) = .ok i

/-- R90, R93, R119: what decodes is the encoding of what it decodes to, so no two encodings share an instruction. -/
def Obligations.EncodeOfDecode : Prop :=
  ∀ (e : Encoding) (i : Instr), decode e = .ok i → encode i = e ∧ Instr.wf i = true

/-- R90, R93: words written out from the tables. -/
def Obligations.WrittenWordsDecode : Prop :=
  decodeWord 0x10000000#32 = .ok .btcalc ∧ decodeWord 0x20000000#32 = .ok .encode ∧
  decodeWord 0x30000000#32 = .ok .decode ∧ decodeWord 0x40000000#32 = .ok .init ∧
  decodeWord 0x50000000#32 = .ok .transmit ∧ decodeWord 0x6000001F#32 = .ok (.receive 31) ∧
  decodeWord 0x700000FF#32 = .ok (.abort 255) ∧ decodeCode 0b0100#4 = .codeRxEmpty ∧
  decodeCode 0b1011#4 = .codeRxRemoteAnswerBusy ∧ decodeCode 0b1100#4 = .codeTxDataOrRemotePending ∧
  decodeCode 0b1101#4 = .codeUndecodable1101 ∧ decodeCode 0b1111#4 = .codeUndecodable1111

/-- R118: exactly which words are no command, and that one reaching an idle engine is refused with `IllegalCommand`, nothing
read or written. (That the report port keeps its value at a refusal is log entry 16, DEDUCED.) -/
def Obligations.IllegalCommandRefused : Prop :=
  (∀ w : Word, (∃ e, decodeWord w = .error e) ↔
    ((w.extractLsb' 28 4 = 0#4 ∨ 8 ≤ (w.extractLsb' 28 4).toNat) ∨ w.extractLsb' 8 20 ≠ 0#20 ∨
      ((w.extractLsb' 28 4).toNat ≤ 5 ∧ w.extractLsb' 0 8 ≠ 0#8))) ∧
  (∀ (s : State) (w : Word) (e : DecodeReject),
    s.seq = .idle → s.turn = .engine → s.cmd = some w → decodeWord w = .error e →
    ∃ t, step s = .next t ∧ t.result = .refused .illegalCommand ∧ t.seq = .idle ∧ t.cmd = none ∧
      t.report = s.report ∧ t.mode = s.mode ∧ t.maxMailbox = s.maxMailbox ∧ sameBlock s t ∧ sameHidden s t ∧
      t.history = s.history)

/-! ## The step -/

/-- 10_state.md R20 to R22, 30_encoding.md R90, R93: on the engine's turn `step` runs the command on the port, on the
controller's turn on a mailbox the instruction its code is; the end of the turn is all it adds (log entry 5). -/
def Obligations.StepRunsFetched : Prop :=
  (∀ (s : State) (w : Word) (i : Instr), s.turn = .engine → s.cmd = some w → decodeWord w = .ok i →
    step s = afterTurn (exec i s)) ∧
  (∀ (s : State) (i : Nat) (m : MbMove), s.turn = .mailbox i m → i < s.params.numMb →
    step s = afterTurn (exec (decodeCode (s.mbCode i)) s)) ∧
  (∀ s : State, s.turn = .engine → s.cmd = none → step s = .next s.endTurn) ∧
  (∀ s : State, s.turn ≠ .engine → (∀ i m, s.turn ≠ .mailbox i m) → step s = .next s.environment.endTurn) ∧
  (∀ s : State, s.endTurn = { s with script := s.script.tail, tick := s.tick + 1 } ∧
    afterTurn (.next s) = .next s.endTurn)

/-- 60_exceptions.md R223, R224, 70_reset_and_hazards.md R252: `Faulted` is never left, and every command word issued there,
legal or not, is refused with `EngineFaulted`. (That the report port keeps its value at a refusal is log entry 16,
DEDUCED.) -/
def Obligations.FaultedIsFinal : Prop :=
  ∀ s : State, s.seq = .faulted →
    (∀ t, step s = .next t → t.seq = .faulted) ∧
    (∀ w, s.turn = .engine → s.cmd = some w →
      ∃ t, step s = .next t ∧ t.result = .refused .engineFaulted ∧ t.seq = .faulted ∧ t.refusalMark = true ∧
        t.cmd = none ∧ t.report = s.report ∧ t.mode = s.mode ∧ t.maxMailbox = s.maxMailbox ∧ sameBlock s t ∧
        sameHidden s t ∧ t.history = s.history)

/-- 60_exceptions.md R239, 30_encoding.md R91, 10_state.md R25, log entry 23: a host turn while no operation runs and no
command is pending places the word and its operands and does nothing else; any other host turn does nothing; an idle engine
accepts a command by setting `seq` to its first label and does nothing else; and while an operation runs, no step of any
agent changes the operands, nor the command until the operation ends. -/
def Obligations.HostIssuesEngineAccepts : Prop :=
  (∀ (s : State) (w : Word) (ops : OperandPort), s.turn = .host w ops → s.seq = .idle ∨ s.seq = .faulted →
    s.cmd = none → step s = .next { s with cmd := some w, ops := ops }.endTurn) ∧
  (∀ (s : State) (w : Word) (ops : OperandPort), s.turn = .host w ops →
    (∃ p i n, s.seq = .run p i n) ∨ s.cmd ≠ none → step s = .next s.endTurn) ∧
  (∀ (s : State) (w : Word) (m : Nat), s.turn = .engine → s.seq = .idle → s.cmd = some w →
    ∀ row ∈ [(Instr.btcalc, Position.btcalc .s0), (.encode, .encode .s0), (.decode, .decode .s0), (.init, .init .v0),
        (.transmit, .transmit .s0), (.receive m, .receive .s0), (.abort m, .abort .s0)],
      decodeWord w = .ok row.1 → step s = .next { s with seq := .run row.2 0 0 }.endTurn) ∧
  (∀ s t : State, (∃ p i n, s.seq = .run p i n) → step s = .next t →
    t.ops = s.ops ∧ (t.cmd = s.cmd ∨ (t.cmd = none ∧ (t.seq = .idle ∨ t.seq = .faulted))))

/-! ## BTCALC -/

/-- 40_bit_timing.md R130, R132 where the result is `Ok`: the fields of the result and that nothing else changes. -/
def Obligations.BtcalcComputes : Prop :=
  ∀ (s : State) (i : Fin 32) (n S C : Nat), s.seq = .run (.btcalc .s0) i n →
    s.ops.sourceFrequency.toNat = S → s.ops.canFrequency.toNat = C →
    0 < C → S % C = 0 → 8 ≤ S / C → S / C < 6400 →
    ∃ t bt tqs, exec .btcalc s = .next t ∧ t.result = .ok (.bitTiming bt) ∧ t.seq = .idle ∧ t.cmd = none ∧
      bt.presdiv = S / C / 25 ∧ tqs = S / (bt.presdiv + 1) / C ∧
      ((8 ≤ tqs ∧ tqs ≤ 9 ∧ bt.pseg2 = 1 ∧ bt.rjw = 1) ∨ (10 ≤ tqs ∧ tqs ≤ 14 ∧ bt.pseg2 = 3 ∧ bt.rjw = 2) ∨
       (15 ≤ tqs ∧ tqs ≤ 19 ∧ bt.pseg2 = 6 ∧ bt.rjw = 2) ∨ (20 ≤ tqs ∧ tqs ≤ 25 ∧ bt.pseg2 = 7 ∧ bt.rjw = 3)) ∧
      bt.pseg1 + 1 = (tqs - (bt.pseg2 + 1)) / 2 ∧
      bt.propseg + (bt.pseg2 + 1) + (bt.pseg1 + 1) + 2 = tqs ∧
      t.report = s.report ∧ untouched s t

/-- 40_bit_timing.md R131, 60_exceptions.md R219: every other way `BTCALC` ends, and that `TqsOutOfRange` is for the clock
ratios 5, 6 and 7 exactly. -/
def Obligations.BtcalcRejects : Prop :=
  ∀ (s : State) (i : Fin 32) (n S C : Nat), s.seq = .run (.btcalc .s0) i n →
    s.ops.sourceFrequency.toNat = S → s.ops.canFrequency.toNat = C →
    (C = 0 → exec .btcalc s = .next (s.refuse .canFrequencyZero)) ∧
    (0 < C → S % C ≠ 0 ∨ S < 5 * C → exec .btcalc s = .next (s.close (.err .settingsError) .idle)) ∧
    (0 < C → S = 0 → exec .btcalc s = .next (s.close (.err .settingsError) .idle)) ∧
    (0 < C → S % C = 0 → 6400 ≤ S / C → exec .btcalc s = .next (s.refuse .presdivOutOfRange)) ∧
    (0 < C → S % C = 0 → S / C = 5 ∨ S / C = 6 ∨ S / C = 7 →
      exec .btcalc s = .next (s.close (.fatal (.tqsOutOfRange (S / C))) .faulted)) ∧
    (∀ t q, exec .btcalc s = .next t → t.result = .fatal (.tqsOutOfRange q) →
      0 < C ∧ S % C = 0 ∧ (S / C = 5 ∨ S / C = 6 ∨ S / C = 7) ∧ q = S / C)

/-- 40_bit_timing.md R134 (a) to (d). -/
def Obligations.BtcalcDerivedFacts : Prop :=
  (∀ tqs propseg pseg1 pseg2 rjw presdiv, (tqs, propseg, pseg1, pseg2, rjw) ∈ segmentTable →
    tqTable tqs = some (pseg2, rjw) ∧ segments presdiv tqs pseg2 rjw = ⟨presdiv, propseg, pseg1, pseg2, rjw⟩ ∧
    propseg + pseg1 + pseg2 + 4 = tqs) ∧
  (∀ tqs, (∃ row ∈ segmentTable, row.1 = tqs) ↔ 8 ≤ tqs ∧ tqs ≤ 25) ∧
  (∀ S C bt, btcalc S C = .ok bt →
    bt.propseg ≤ 7 ∧ bt.pseg1 ≤ 7 ∧ 1 ≤ bt.pseg2 ∧ bt.pseg2 ≤ 7 ∧ 1 ≤ bt.rjw ∧ bt.rjw ≤ 3 ∧ bt.presdiv ≤ 255 ∧
    bt.propseg + bt.pseg1 + bt.pseg2 + 4 = S / C / (bt.presdiv + 1) ∧
    S / (bt.presdiv + 1) / C = S / C / (bt.presdiv + 1) ∧ S / C / (bt.presdiv + 1) ≤ 24 ∧
    (S / C < 25 → S / C / (bt.presdiv + 1) = S / C) ∧ (25 ≤ S / C → 12 ≤ S / C / (bt.presdiv + 1))) ∧
  (∀ S C q, btcalc S C = .tqsOutOfRange q ↔
    0 < C ∧ S % C = 0 ∧ (S / C = 5 ∨ S / C = 6 ∨ S / C = 7) ∧ q = S / C)

/-! ## ENCODE and DECODE -/

/-- 41_mailbox_codec.md R142, with the table of R93: the encoding of the command, its result, that the codec is total,
injective and never gives an undecodable pattern, and the worked example. (That the report port keeps its value is log
entry 16, DEDUCED.) -/
def Obligations.EncodeGivesCode : Prop :=
  (∀ (s : State) (i : Fin 32) (n : Nat) (v : BitVec 4) (c : MessageBufferCode), s.seq = .run (.encode .s0) i n →
    s.ops.code = .value c → (v, c) ∈ codeTable →
    ∃ t, exec .encode s = .next t ∧ t.result = .ok (.code4 v) ∧ t.seq = .idle ∧ t.cmd = none ∧ t.report = s.report ∧
      untouched s t) ∧
  (∀ c : MessageBufferCode, ∃ v, (v, c) ∈ codeTable ∧ v ≠ 0b1101#4 ∧ v ≠ 0b1111#4) ∧
  (∀ c d : MessageBufferCode, codeBits c = codeBits d → c = d) ∧
  encode .encode = .command 0x20000000#32 ∧ codeBits (.receive .full true) = 0b0011#4

/-- R143: the encoding of the command, and a verdict on every pattern, 14 values and 2 faults. (That the report port keeps its value
at either end is log entry 16, DEDUCED.) -/
def Obligations.DecodeGivesValue : Prop :=
  (∀ (s : State) (i : Fin 32) (n : Nat) (v : BitVec 4) (c : MessageBufferCode), s.seq = .run (.decode .s0) i n →
    s.ops.bits4 = v.toNat → (v, c) ∈ codeTable →
    ∃ t, exec .decode s = .next t ∧ t.result = .ok (.code c) ∧ t.seq = .idle ∧ t.cmd = none ∧ t.report = s.report ∧
      untouched s t) ∧
  (∀ (s : State) (i : Fin 32) (n : Nat) (v : BitVec 4), s.seq = .run (.decode .s0) i n → s.ops.bits4 = v.toNat →
    v = 0b1101#4 ∨ v = 0b1111#4 →
    ∃ t, exec .decode s = .next t ∧ t.result = .fatal (.undecodableCode v none) ∧ t.seq = .faulted ∧
      t.cmd = none ∧ t.report = s.report ∧ untouched s t) ∧
  (∀ v : BitVec 4, (∃ c, (v, c) ∈ codeTable) ∨ v = 0b1101#4 ∨ v = 0b1111#4) ∧
  encode .decode = .command 0x30000000#32

/-- R154 (a) to (e). -/
def Obligations.CodecLaws : Prop :=
  (∀ c : MessageBufferCode, codeValue (codeBits c) = some c) ∧
  (∀ (v : BitVec 4) (c : MessageBufferCode), codeValue v = some c → codeBits c = v) ∧
  (∀ c d : MessageBufferCode, codeBits c = codeBits d → c = d) ∧
  (∀ v : BitVec 4, (∃ st, codeValue v = some (.receive st true)) ↔
    v = 0b0001#4 ∨ v = 0b0011#4 ∨ v = 0b0101#4 ∨ v = 0b0111#4 ∨ v = 0b1011#4) ∧
  (∀ v : BitVec 4,
    (codeValue v = some (.receive .inactive false) ∨ codeValue v = some (.transmit .inactive)) ↔
      v = 0b0000#4 ∨ v = 0b1000#4)

/-! ## Operands -/

/-- 60_exceptions.md R217: every operand that breaks a type invariant is refused with `InvalidOperand`, in the mode that
admits the operation (`ENCODE` is listed by R210; its malformed port patterns are log entry 15). `State.refuse` keeps the
report port: log entry 16 (DEDUCED). -/
def Obligations.InvalidOperandRefused : Prop :=
  (∀ (s : State) (i : Fin 32) (n : Nat), s.seq = .run (.decode .s0) i n → 15 < s.ops.bits4 →
    exec .decode s = .next (s.refuse .invalidOperand)) ∧
  (∀ (s : State) (i : Fin 32) (n : Nat) (raw : BitVec 5), s.seq = .run (.encode .s0) i n → s.ops.code = .malformed raw →
    exec .encode s = .next (s.refuse .invalidOperand)) ∧
  (∀ (s : State) (i : Fin 32) (n : Nat) (id : IdOperand) (p : List Byte), s.seq = .run (.transmit .s0) i n →
    s.mode = .running →
    (s.ops.frame = .data id p ∧ 8 < p.length) ∨
    ((s.ops.frame = .data id p ∨ s.ops.frame = .remote id) ∧
      ((∃ v, id = .base v ∧ 0x7FF < v) ∨ (∃ v, id = .extended v ∧ 0x1FFFFFFF < v))) →
    exec .transmit s = .next (s.refuse .invalidOperand)) ∧
  (∀ (s : State) (i : Fin 32) (n : Nat), s.seq = .run (.init .v0) i n → s.mode ≠ .running →
    s.ops.headers = [] ∨ s.params.numMb < s.ops.headers.length ∨
    (∃ h ∈ s.ops.headers, 7 < h.priority ∨ (∃ st, h.code = .value (.receive st true)) ∨
      (∃ raw, h.code = .malformed raw)) →
    exec .init s = .next (s.refuse .invalidOperand))

/-- 30_encoding.md R102, with the zeros of R101. -/
def Obligations.ControlWordRoundTrip : Prop :=
  (∀ (h : MailboxHeader) (f : CanFrame), CanFrame.wf f = true →
    unpackCs (packCs h f) =
      ⟨h.errorStateIndicator, codeBits h.code, isExtended f.id, isRemote f, BitVec.ofNat 4 (dlcOf f), h.timestamp⟩ ∧
    packCs h f &&& 0xD0C00000#32 = 0#32) ∧
  (∀ c v : Word, unpackCs (blend 0xD0C00000#32 c v) = unpackCs c) ∧
  (∀ c : Word, (unpackCs c).esi = c.getLsbD 29 ∧ (unpackCs c).code4 = c.extractLsb' 24 4 ∧
    (unpackCs c).ide = c.getLsbD 21 ∧ (unpackCs c).rtr = c.getLsbD 20 ∧ (unpackCs c).dlc = c.extractLsb' 16 4 ∧
    (unpackCs c).timestamp = c.extractLsb' 0 16)

/-- R106, the reading with the wrong flag included. -/
def Obligations.IdentifierRoundTrip : Prop :=
  (∀ w : Word, unpackId false w = .base (w.extractLsb' 18 11) ∧ unpackId true w = .extended (w.extractLsb' 0 29) ∧
    priorityOf w = w.extractLsb' 29 3) ∧
  (∀ (p : BitVec 3) (b : BitVec 11), unpackId false (packId p (.base b)) = .base b ∧
    unpackId true (packId p (.base b)) = .extended (b.setWidth 29 <<< 18)) ∧
  (∀ (p : BitVec 3) (e : BitVec 29), unpackId true (packId p (.extended e)) = .extended e) ∧
  (∀ (p : BitVec 3) (id : CanIdentifier), priorityOf (packId p id) = p)

/-- R110, with the lanes of R108. -/
def Obligations.PayloadRoundTrip : Prop :=
  (∀ (id : CanIdentifier) (p : List Byte), p.length ≤ 8 →
    unpackData (packData (.data id p) 0) (packData (.data id p) 1) p.length = p) ∧
  (∀ (d0 d1 : Word) (n : Nat), n ≤ 8 → (unpackData d0 d1 n).length = n ∧
    ∀ k, k < n → (unpackData d0 d1 n)[k]? =
      some ((if k < 4 then d0 else d1).extractLsb' (24 - 8 * (k % 4)) 8)) ∧
  (∀ (d0 d1 e0 e1 : Word) (n : Nat), n ≤ 8 → (∀ k, k < n → laneAt d0 d1 k = laneAt e0 e1 k) →
    unpackData d0 d1 n = unpackData e0 e1 n)

/-! ## The register block -/

/-- 20_memory.md R61, R64: every register that exists is a word at its own aligned address. -/
def Obligations.RegisterAddresses : Prop :=
  ∀ p : Params, Params.wf p = true →
    (∀ r, regAddr p.base r % 4 = 0) ∧
    (∀ r q, Params.has p r = true → Params.has p q = true → r ≠ q →
      regAddr p.base r + 4 ≤ regAddr p.base q ∨ regAddr p.base q + 4 ≤ regAddr p.base r) ∧
    regAddr p.base .gcr = p.base ∧ regAddr p.base .btr = p.base + 4 ∧ regAddr p.base .timer = p.base + 8 ∧
    regAddr p.base .rxmask = p.base + 16 ∧ regAddr p.base .iflag = p.base + 48 ∧
    (∀ i, regAddr p.base (.mb i .cs) = p.base + 128 + 16 * i ∧ regAddr p.base (.mb i .id) = p.base + 132 + 16 * i ∧
      regAddr p.base (.mb i .d0) = p.base + 136 + 16 * i ∧ regAddr p.base (.mb i .d1) = p.base + 140 + 16 * i)

/-- 20_memory.md R72 on the mailbox file: a read returns what the last write left, and a write changes no other register and
no byte outside its word. -/
def Obligations.ReadAfterWrite : Prop :=
  ∀ (s : State) (i : Nat) (w : MbWord) (v : Word), Memory.wf s.mem = true → s.lpmack = false → i < s.params.numMb →
    ∃ t, writeReg (.mb i w) v .next s = .next t ∧ t.peek (.mb i w) = v ∧
      (∀ r, r ≠ .mb i w → t.peek r = s.peek r) ∧ sameBytesOutside (s.mbAddr i w) 4 s t ∧ Memory.wf t.mem = true ∧
      t.history = .write (.mb i w) v :: s.history

/-- 20_memory.md R68. -/
def Obligations.FlagClearClearsOneBit : Prop :=
  (∀ (s : State) (i : Nat), i < 32 →
    ∃ t, flagClear i .next s = .next t ∧ (∀ j, t.flag j = if j = i then false else s.flag j) ∧ sameControl s t ∧
      sameBytes s t ∧ sameHidden s t ∧ t.history = .write .iflag (1#32 <<< i) :: s.history) ∧
  (∀ (s : State) (v : Word) (j : Nat), (s.afterWrite .iflag v).flag j = if v.getLsbD j then false else s.flag j)

/-- 20_memory.md R70, with the fields and conditions of 10_state.md R34 to R36: which fields a write changes and which it
leaves; `SOFTRST` is set by a written 1 in every mode, and a written 0 leaves it to the controller (bits the spec does not
name keep their value, and the written 0 of `SOFTRST`: log entry 11). -/
def Obligations.WritesThatDoNotTake : Prop :=
  ∀ (s : State) (v : Word),
    (∀ f ∈ [Gcr.frzack, Gcr.lpmack], f.get (s.afterWrite .gcr v).gcr = f.get s.gcr) ∧
    (∀ f ∈ [Gcr.mdis, Gcr.frz, Gcr.halt], f.get (s.afterWrite .gcr v).gcr = f.get v) ∧
    (s.afterWrite .gcr v).softrst = (if Gcr.softrst.bit v then true else s.softrst) ∧
    (∀ f ∈ [Gcr.rfen, Gcr.srxdis, Gcr.irmq, Gcr.dma, Gcr.maxmb],
      f.get (s.afterWrite .gcr v).gcr = if s.frzack then f.get v else f.get s.gcr) ∧
    (∀ k ∈ [27, 26, 23, 22, 21, 19, 18, 14, 13, 12, 11, 10, 9, 8, 7],
      (s.afterWrite .gcr v).gcr.getLsbD k = s.gcr.getLsbD k) ∧
    Btr.clksrc.get (s.afterWrite .btr v).btr = (if s.lpmack then Btr.clksrc.get v else Btr.clksrc.get s.btr) ∧
    (∀ f ∈ [Btr.presdiv, Btr.rjw, Btr.pseg1, Btr.pseg2, Btr.lpb, Btr.propseg],
      f.get (s.afterWrite .btr v).btr = if s.frzack then f.get v else f.get s.btr) ∧
    (∀ k ∈ [15, 14, 11, 10, 9, 8, 7, 6, 5, 4, 3], (s.afterWrite .btr v).btr.getLsbD k = s.btr.getLsbD k) ∧
    (s.afterWrite .rxmask v).rxmask = (if s.frzack then v else s.rxmask) ∧
    (∀ r, (s.afterWrite r v).history = .write r v :: s.history)

/-- 20_memory.md R67, R69: reading TIMER releases the lock and does nothing else; reading any other register changes
nothing. -/
def Obligations.TimerReadReleasesLock : Prop :=
  ∀ (s : State) (r : Reg), Params.has s.params r = true →
    ∃ t, readReg r (fun v u => if v = s.peek r then .next u else .fault (.noSuchRegister 0)) s = .next t ∧
      t.lock = (if r = .timer then none else s.lock) ∧ sameBlock s t ∧ t.abortReq = s.abortReq ∧
      t.rxBegun = s.rxBegun ∧ sameEngine s t ∧ t.history = .read r (s.peek r) :: s.history

/-- 20_memory.md R71. -/
def Obligations.LockEngagedByReceiveOnly : Prop :=
  (∀ (s t : State) (i : Fin 32) (n m : Nat), s.seq = .run (.receive .s2) i n → exec (.receive m) s = .next t →
    (∀ st b, codeValue (s.mbCode i) = some (.receive st b) → st ≠ .inactive → t.lock = some i.val) ∧
    ((∀ b, codeValue (s.mbCode i) = some (.receive .inactive b) → t.lock = s.lock) ∧
      (∀ st, codeValue (s.mbCode i) = some (.transmit st) → t.lock = s.lock))) ∧
  (∀ (s t : State) (i : Fin 32) (n : Nat), s.seq = .run (.transmit .s1) i n → exec .transmit s = .next t → t.lock = s.lock) ∧
  (∀ (s t : State) (i : Fin 32) (n m : Nat), s.seq = .run (.abort .s1) i n → exec (.abort m) s = .next t → t.lock = s.lock) ∧
  (∀ (s t : State) (i : Fin 32) (n : Nat), s.seq = .run (.init .e1) i n ∨ s.seq = .run (.init .e3) i n →
    exec .init s = .next t → t.lock = s.lock)

/-! ## INIT -/

/-- 42_controller_init.md R161: the labels V0 to V3 in their order, what each tests, and that none touches a register; the
operands and the bit timing kept are those A1 begins with. (Like every claim about `INIT`, under the assumptions (a) and (b)
of 70_reset_and_hazards.md R257: log entry 25; that `State.refuse` and `State.close` keep the report port is log entry 16,
DEDUCED.) -/
def Obligations.InitValidates : Prop :=
  (∀ (s : State) (i : Fin 32) (n : Nat), s.seq = .run (.init .v0) i n →
    (s.mode = .running → exec .init s = .next (s.refuse .alreadyInitialised)) ∧
    (s.mode ≠ .running → checkHeaderSequence s.params.numMb s.ops.headers = none →
      exec .init s = .next (s.refuse .invalidOperand)) ∧
    (∀ hs, s.mode ≠ .running → checkHeaderSequence s.params.numMb s.ops.headers = some hs →
      ∃ t, exec .init s = .next t ∧ t.seq = .run (.init .v1) 0 0 ∧ t.work.settings = s.ops.settings ∧
        t.work.headers = hs ∧ samePorts s t ∧ untouched s t)) ∧
  (∀ (s : State) (i : Fin 32) (n : Nat) (st : CanSettings), s.seq = .run (.init .v1) i n → s.work.settings = st →
    (st.dmaEnable = true → st.fifoEnabled = false → exec .init s = .next (s.close (.err .settingsError) .idle)) ∧
    (st.dmaEnable = false ∨ st.fifoEnabled = true → exec .init s = .next (s.goto (.init .v2) i))) ∧
  (∀ (s : State) (i : Fin 32) (n : Nat) (st : CanSettings), s.seq = .run (.init .v2) i n → s.work.settings = st →
    (btcalc st.sourceFrequency.toNat st.canFrequency.toNat = .settingsError →
      exec .init s = .next (s.close (.err .settingsError) .idle)) ∧
    (∀ q, btcalc st.sourceFrequency.toNat st.canFrequency.toNat = .tqsOutOfRange q →
      exec .init s = .next (s.close (.fatal (.tqsOutOfRange q)) .faulted)) ∧
    (∀ r, btcalc st.sourceFrequency.toNat st.canFrequency.toNat = .refused r → exec .init s = .next (s.refuse r)) ∧
    (∀ bt, btcalc st.sourceFrequency.toNat st.canFrequency.toNat = .ok bt →
      ∃ t, exec .init s = .next t ∧ t.seq = .run (.init .v3) i 0 ∧ t.work = { s.work with bt := bt } ∧ samePorts s t ∧
        untouched s t)) ∧
  (∀ (s : State) (i : Fin 32) (n : Nat), s.seq = .run (.init .v3) i n →
    (s.work.settings.fifoEnabled = true → exec .init s = .next (s.refuse .fifoNotModelled)) ∧
    (s.work.settings.fifoEnabled = false → exec .init s = .next (s.goto (.init .a1r) i)))

/-- 42_controller_init.md R162 to R165, R168 and 20_memory.md R66: the register accesses of `INIT` outside its waits and its
mailbox loop, two to a field update, one to a step, with the word written and the label that follows, and that nothing else
changes (assumptions (a) and (b) of 70_reset_and_hazards.md R257: log entry 25). -/
def Obligations.InitGlobalAccesses : Prop :=
  (∀ (s : State) (i : Fin 32) (n : Nat), ∀ row ∈
      [(InitStep.a1r, Reg.gcr, InitStep.a1w), (.a3r, .btr, .a3w), (.a4r, .gcr, .a4w), (.a6r, .gcr, .a6w),
       (.a8r, .gcr, .a8w), (.b1r, .gcr, .b1w), (.c1r, .gcr, .c1w), (.d1r, .gcr, .d1w), (.d2r, .btr, .d2w),
       (.f1r, .gcr, .f1w)],
    s.seq = .run (.init row.1) i n →
    ∃ t, exec .init s = .next t ∧ t.seq = .run (.init row.2.2) i 0 ∧ t.work = { s.work with t := s.peek row.2.1 } ∧
      t.history = .read row.2.1 (s.peek row.2.1) :: s.history ∧ sameBlock s t ∧ sameHidden s t ∧ sameEngine s t ∧
      samePorts s t) ∧
  (∀ (s : State) (i : Fin 32) (n : Nat), ∀ row ∈
      [(InitStep.a1w, Gcr.mdis.set s.work.t 1, InitStep.a2), (.a4w, Gcr.mdis.set s.work.t 0, .a5),
       (.a6w, Gcr.softrst.set s.work.t 1, .a7), (.a8w, Gcr.mdis.set s.work.t 1, .a9),
       (.b1w, Gcr.mdis.set s.work.t 0, .b2), (.c1w, Gcr.halt.set (Gcr.frz.set s.work.t 1) 1, .c2),
       (.d1w, configureGcr s.work.settings s.work.headers.length s.work.t, .d2r),
       (.f1w, Gcr.halt.set (Gcr.frz.set s.work.t 0) 0, .f2)],
    s.seq = .run (.init row.1) i n →
    ∃ t, exec .init s = .next t ∧ t.seq = .run (.init row.2.2) i 0 ∧ t.gcr = (s.afterWrite .gcr row.2.1).gcr ∧
      t.history = .write .gcr row.2.1 :: s.history ∧ t.btr = s.btr ∧ t.rxmask = s.rxmask ∧ t.timer = s.timer ∧
      t.iflag = s.iflag ∧ sameBytes s t ∧ sameHidden s t ∧ t.mode = s.mode ∧
      t.maxMailbox = (if row.1 = .d1w then BitVec.ofNat 5 (s.work.headers.length - 1) else s.maxMailbox) ∧
      t.params = s.params ∧ t.ops = s.ops ∧ t.script = s.script ∧ t.tick = s.tick ∧ t.work = s.work ∧ samePorts s t) ∧
  (∀ (s : State) (i : Fin 32) (n : Nat), ∀ row ∈
      [(InitStep.a3w, Btr.clksrc.set s.work.t s.work.settings.clockSource.toNat, InitStep.a4r),
       (.d2w, configureBtr s.work.settings s.work.bt s.work.t, .d3)],
    s.seq = .run (.init row.1) i n →
    ∃ t, exec .init s = .next t ∧ t.seq = .run (.init row.2.2) i 0 ∧ t.btr = (s.afterWrite .btr row.2.1).btr ∧
      t.history = .write .btr row.2.1 :: s.history ∧ t.gcr = s.gcr ∧ t.rxmask = s.rxmask ∧ t.timer = s.timer ∧
      t.iflag = s.iflag ∧ sameBytes s t ∧ sameHidden s t ∧ sameEngine s t ∧ t.work = s.work ∧ samePorts s t) ∧
  (∀ (s : State) (i : Fin 32) (n : Nat), s.seq = .run (.init .d3) i n →
    ∃ t, exec .init s = .next t ∧ t.seq = .run (.init .e1) 0 0 ∧
      t.rxmask = (s.afterWrite .rxmask 0x00000000#32).rxmask ∧ t.history = .write .rxmask 0x00000000#32 :: s.history ∧
      t.gcr = s.gcr ∧ t.btr = s.btr ∧ t.timer = s.timer ∧ t.iflag = s.iflag ∧ sameBytes s t ∧ sameHidden s t ∧
      sameEngine s t ∧ t.work = s.work ∧ samePorts s t)

/-- 42_controller_init.md R166, R167 and 43_transmit.md R181: the configure loop's accesses for a mailbox with header `h`,
in their order, and where the loop goes after the last of them (assumptions (a) and (b) of 70_reset_and_hazards.md R257: log
entry 25). -/
def Obligations.InitMailboxAccesses : Prop :=
  ∀ (s : State) (i : Fin 32) (n : Nat) (h : MailboxHeader), i.val < s.params.numMb → s.work.headers[i.val]? = some h →
    (s.seq = .run (.init .e1) i n → ∃ t, exec .init s = .next t ∧ t.seq = .run (.init .e2) i 0 ∧
      t.work.c = s.mbWord i .cs ∧ t.history = .read (.mb i .cs) (s.mbWord i .cs) :: s.history ∧ sameBlock s t) ∧
    (s.seq = .run (.init .w1) i n → ∃ t, exec .init s = .next t ∧ t.seq = .run (.init .w2) i 0 ∧
      t.history = .write .iflag (1#32 <<< i.val) :: s.history ∧ t.iflag = s.iflag &&& ~~~(1#32 <<< i.val) ∧
      sameControl s t ∧ sameBytes s t) ∧
    (∀ row ∈
        [(InitStep.e2, MbWord.cs, withCode s.work.c (if MessageBufferCode.isReceive h.code then 0b0000#4 else 0b1000#4),
            InitStep.e3),
         (.w2, .id, packId h.priority (.base 0#11), .w3), (.w3, .d0, packData (.data (.base 0#11) []) 0, .w4),
         (.w4, .d1, packData (.data (.base 0#11) []) 1, .w5)],
      s.seq = .run (.init row.1) i n → ∃ t, exec .init s = .next t ∧ t.seq = .run (.init row.2.2.2) i 0 ∧
        t.history = .write (.mb i row.2.1) row.2.2.1 :: s.history ∧
        t.mem = (s.afterWrite (.mb i row.2.1) row.2.2.1).mem ∧ sameControl s t ∧ t.iflag = s.iflag) ∧
    (s.seq = .run (.init .w5) i n → ∃ t, exec .init s = .next t ∧
      t.seq = (if i.val + 1 < s.work.headers.length then .run (.init .e1) (i + 1) 0 else .run (.init .f1r) 0 0) ∧
      t.history = .write (.mb i .cs) (packCs h (.data (.base 0#11) [])) :: s.history ∧
      t.mem = (s.afterWrite (.mb i .cs) (packCs h (.data (.base 0#11) []))).mem ∧ sameControl s t ∧
      t.iflag = s.iflag)

/-- 00_scope.md R13 at every wait of `INIT` (R162 to R164, R168), of `ABORT` (R200 S4) and at the busy loop of `RECEIVE`
(R190 S2): a failing read stays and counts, one too many is `WaitLimitExceeded`; and where a wait of `INIT` ends
(assumptions (a) and (b) of 70_reset_and_hazards.md R257: log entry 25). That the report port keeps its value at the fatal
end is log entry 16 (DEDUCED). -/
def Obligations.WaitsReadAgain : Prop :=
  (∀ l, exceeds none l = false) ∧ (∀ l n, exceeds (some l) n = true ↔ l < n) ∧
  (∀ (s : State) (i : Fin 32) (n : Nat), ∀ row ∈ initWaits, s.seq = .run (.init row.1) i n →
    (s.gcr.getLsbD row.2.1 = row.2.2.1 →
      ∃ t, exec .init s = .next t ∧
        t.seq = .run (.init row.2.2.2.1) (if row.2.2.2.2 = none then i else 0) 0 ∧
        t.mode = row.2.2.2.2.getD s.mode ∧ t.history = .read .gcr s.gcr :: s.history ∧ sameBlock s t ∧
        sameHidden s t) ∧
    (s.gcr.getLsbD row.2.1 ≠ row.2.2.1 → exceeds s.params.waitLimit (n + 1) = false →
      exec .init s = .next ((s.afterRead .gcr).stay (.init row.1) i (n + 1))) ∧
    (s.gcr.getLsbD row.2.1 ≠ row.2.2.1 → exceeds s.params.waitLimit (n + 1) = true →
      exec .init s = .next ((s.afterRead .gcr).close (.fatal (.waitLimitExceeded (.init row.1))) .faulted))) ∧
  (∀ (s : State) (i : Fin 32) (n : Nat), s.seq = .run (.init .f2) i n → s.frzack = true →
    (exceeds s.params.waitLimit (n + 1) = false →
      exec .init s = .next ((s.afterRead .gcr).stay (.init .f2) i (n + 1))) ∧
    (exceeds s.params.waitLimit (n + 1) = true →
      exec .init s = .next ((s.afterRead .gcr).close (.fatal (.waitLimitExceeded (.init .f2))) .faulted))) ∧
  (∀ (s : State) (i : Fin 32) (n m : Nat), s.seq = .run (.abort .s4) i n → s.flag i = false →
    (exceeds s.params.waitLimit (n + 1) = false →
      exec (.abort m) s = .next ((s.afterRead .iflag).stay (.abort .s4) i (n + 1))) ∧
    (exceeds s.params.waitLimit (n + 1) = true →
      exec (.abort m) s = .next ((s.afterRead .iflag).close (.fatal (.waitLimitExceeded (.abort .s4))) .faulted))) ∧
  (∀ (s : State) (i : Fin 32) (n m : Nat) (st : RxState), s.seq = .run (.receive .s2) i n → i.val < s.params.numMb →
    codeValue (s.mbCode i) = some (.receive st true) →
    (exceeds s.params.waitLimit (n + 1) = false →
      ∃ t, exec (.receive m) s = .next t ∧ t.seq = .run (.receive .s2) i (n + 1) ∧
        t.history = .read (.mb i .cs) (s.mbWord i .cs) :: s.history ∧ sameBlock s t) ∧
    (exceeds s.params.waitLimit (n + 1) = true →
      ∃ t, exec (.receive m) s = .next t ∧ t.seq = .faulted ∧
        t.result = .fatal (.waitLimitExceeded (.receive .s2)) ∧
        t.history = .read (.mb i .cs) (s.mbWord i .cs) :: s.history ∧ sameBlock s t))

/-- 42_controller_init.md R166: at E3 the check reads back the code E2 wrote and is `Free` always, so the two `Err` arms and
the decode fault are unreachable, whatever the controller did in between (assumptions (a) and (b) of 70_reset_and_hazards.md
R257: log entry 25). -/
def Obligations.InitCheckAlwaysFree : Prop :=
  ∀ (s : State) (i : Fin 32) (n : Nat), s.Inv → s.seq = .run (.init .e3) i n →
    exec .init s = .next ((s.afterRead (.mb i .cs)).goto (.init .w1) i)

/-- 70_reset_and_hazards.md R253: the state after a successful `INIT`, at the last read of F2, under every interleaving with
the controller: the table's rows, the mailbox row for the codes for which the rule calls it exact (assumptions (a) and (b)
of R257: log entry 25). -/
def Obligations.InitLeavesConfigured : Prop :=
  ∀ (s : State) (i : Fin 32) (n : Nat), s.Inv → s.seq = .run (.init .f2) i n → s.frzack = false →
    ∃ t, exec .init s = .next t ∧ t.result = .ok .unit ∧ t.seq = .idle ∧ t.mode = .running ∧
      t.maxMailbox.toNat = s.work.headers.length - 1 ∧ t.lock = none ∧ t.abortReq = [] ∧
      t.mdis = false ∧ t.frz = false ∧ t.halt = false ∧ t.softrst = false ∧ t.frzack = false ∧ t.lpmack = false ∧
      Gcr.rfen.bit t.gcr = false ∧ Gcr.dma.bit t.gcr = false ∧
      Gcr.srxdis.bit t.gcr = !s.work.settings.selfReception ∧ Gcr.irmq.bit t.gcr = s.work.settings.individualMasking ∧
      t.maxmb = s.work.headers.length - 1 ∧
      btcalc s.work.settings.sourceFrequency.toNat s.work.settings.canFrequency.toNat = .ok s.work.bt ∧
      Btr.presdiv.get t.btr = s.work.bt.presdiv ∧ Btr.rjw.get t.btr = s.work.bt.rjw ∧
      Btr.pseg1.get t.btr = s.work.bt.pseg1 ∧ Btr.pseg2.get t.btr = s.work.bt.pseg2 ∧
      Btr.propseg.get t.btr = s.work.bt.propseg ∧ Btr.lpb.bit t.btr = s.work.settings.loopbackMode ∧
      Btr.clksrc.bit t.btr = s.work.settings.clockSource ∧ t.rxmask = 0x00000000#32 ∧
      (∀ j h, s.work.headers[j]? = some h → h.code = .transmit .inactive ∨ h.code = .receive .inactive false →
        t.flag j = false ∧ t.mbWord j .id = (h.priority.setWidth 32 : Word) <<< 29 ∧ t.mbWord j .d0 = 0#32 ∧
        t.mbWord j .d1 = 0#32 ∧ t.mbWord j .cs = packCs h (.data (.base 0#11) []))

/-- 60_exceptions.md R231: only the four phase ends of `INIT` change `mode`, and nothing leaves `Running` (assumptions (a)
and (b) of 70_reset_and_hazards.md R257: log entry 25). -/
def Obligations.ModeTransitions : Prop :=
  (∀ s t : State, step s = .next t → t.mode = s.mode ∨
    (s.turn = .engine ∧ fetchCommand s = .instr .init ∧ ∃ i n,
      (s.seq = .run (.init .a9) i n ∧ t.mode = .reset) ∨ (s.seq = .run (.init .b2) i n ∧ t.mode = .enabled) ∨
      (s.seq = .run (.init .c2) i n ∧ t.mode = .frozen) ∨ (s.seq = .run (.init .f2) i n ∧ t.mode = .running))) ∧
  (∀ s t : State, s.Structural → s.mode = .running → step s = .next t → t.mode = .running)

/-- 60_exceptions.md R227, R232 and the S0 of 43_transmit.md R183, 44_receive.md R190, 45_abort.md R200: admission by mode
and by index, and the state in which an admitted operation stands. That an admitted `RECEIVE` or `ABORT` holds its mailbox
in `i` is the model's choice, log entry 8 (DESIGN CHOICE): 10_state.md R24 gives `i` to scans and loops only. That
`State.refuse` keeps the report port is log entry 16 (DEDUCED). -/
def Obligations.AdmissionByMode : Prop :=
  (∀ (s : State) (i : Fin 32) (n m : Nat), s.mode ≠ .running →
    (s.seq = .run (.transmit .s0) i n → exec .transmit s = .next (s.refuse .notInitialised)) ∧
    (s.seq = .run (.receive .s0) i n → exec (.receive m) s = .next (s.refuse .notInitialised)) ∧
    (s.seq = .run (.abort .s0) i n → exec (.abort m) s = .next (s.refuse .notInitialised))) ∧
  (∀ (s : State) (i : Fin 32) (n m : Nat), s.mode = .running →
    (s.seq = .run (.init .v0) i n → exec .init s = .next (s.refuse .alreadyInitialised)) ∧
    (s.maxMailbox.toNat < m →
      (s.seq = .run (.receive .s0) i n → exec (.receive m) s = .next (s.refuse .mailboxIndexOutOfRange)) ∧
      (s.seq = .run (.abort .s0) i n → exec (.abort m) s = .next (s.refuse .mailboxIndexOutOfRange))) ∧
    (∀ k : Fin 32, k.val = m → m ≤ s.maxMailbox.toNat →
      (s.seq = .run (.receive .s0) i n →
        ∃ t, exec (.receive m) s = .next t ∧ t.seq = .run (.receive .s1) k 0 ∧ samePorts s t ∧ untouched s t) ∧
      (s.seq = .run (.abort .s0) i n →
        ∃ t, exec (.abort m) s = .next t ∧ t.seq = .run (.abort .s1) k 0 ∧ samePorts s t ∧ untouched s t)) ∧
    (∀ f, s.seq = .run (.transmit .s0) i n → checkFrame s.ops.frame = some f →
      ∃ t, exec .transmit s = .next t ∧ t.seq = .run (.transmit .s1) 0 0 ∧ t.work.frame = f ∧
        t.work.report = List.replicate (s.maxMailbox.toNat + 1) .none ∧ samePorts s t ∧ untouched s t))

/-! ## The engine's verdict on each code (41_mailbox_codec.md section 3) -/

/-- R144 to R153 "Scan", 43_transmit.md R183 S2, R184: what the scan does with each of the sixteen codes; and that the
command's step runs the row its control word carries (log entry 7). That a `TRANSMIT` ending `Fatal` publishes its report
too is log entry 16 (DEDUCED). -/
def Obligations.ScanVerdicts : Prop :=
  ∀ (s : State) (i : Fin 32) (n : Nat), s.turn = .engine → s.seq = .run (.transmit .s2) i n →
    exec .codeTxInactive s = .next (s.goto (.transmit .s3) i) ∧
    exec .codeTxDataOrRemotePending s = scanNext i (s.noteSkipped i .mailboxBusy) ∧
    (∀ row ∈ [Instr.codeRxInactive, .codeRxInactiveBusy, .codeRxFull, .codeRxFullBusy, .codeRxEmpty, .codeRxEmptyBusy,
        .codeRxOverrun, .codeRxOverrunBusy, .codeTxAbort, .codeRxRemoteAnswer, .codeRxRemoteAnswerBusy,
        .codeTxRemoteAnswerPending],
      exec row s = scanNext i (s.noteSkipped i .mailboxConfigurationError)) ∧
    exec .codeUndecodable1101 s = .next (s.close (.fatal (.undecodableCode 0b1101#4 (some i.val))) .faulted) ∧
    exec .codeUndecodable1111 s = .next (s.close (.fatal (.undecodableCode 0b1111#4 (some i.val))) .faulted) ∧
    exec .transmit s = exec (decodeCode (codeOf s.work.c)) s ∧
    (∀ u : State,
      (i.val < u.maxMailbox.toNat → scanNext i u = .next (u.goto (.transmit .s1) (i + 1)) ∧ (i + 1).val = i.val + 1) ∧
      (u.maxMailbox.toNat ≤ i.val → scanNext i u = .next (u.close (.err (.bufferFull u.work.report)) .idle)))

/-- R144 to R153 "Write check", "`RECEIVE`", "`ABORT`": the other three places where the engine decodes a code, and that at
each of them (and at S1 of `TRANSMIT`) the command's own step is, after its read, `exec` of the row the control word read
carries. That a row is executed by the engine at such a label, and what it then does, is log entry 7 (DEDUCED);
what `State.close` leaves on the report port is log entry 16 (DEDUCED). -/
def Obligations.OtherVerdicts : Prop :=
  (∀ (s : State) (i : Fin 32) (n : Nat), s.turn = .engine → s.seq = .run (.init .e3) i n →
    exec .codeTxInactive s = .next (s.goto (.init .w1) i) ∧ exec .codeRxInactive s = .next (s.goto (.init .w1) i) ∧
    exec .codeTxDataOrRemotePending s = .next (s.close (.err .mailboxBusy) .idle) ∧
    (∀ row ∈ [Instr.codeRxInactiveBusy, .codeRxFull, .codeRxFullBusy, .codeRxEmpty, .codeRxEmptyBusy, .codeRxOverrun,
        .codeRxOverrunBusy, .codeTxAbort, .codeRxRemoteAnswer, .codeRxRemoteAnswerBusy, .codeTxRemoteAnswerPending],
      exec row s = .next (s.close (.err .mailboxConfigurationError) .idle))) ∧
  (∀ (s : State) (i : Fin 32) (n : Nat), s.turn = .engine → s.seq = .run (.receive .s2) i n →
    (∀ row ∈ [Instr.codeRxInactiveBusy, .codeRxFullBusy, .codeRxEmptyBusy, .codeRxOverrunBusy, .codeRxRemoteAnswerBusy],
      exec row s = waitAgain (.receive .s2) i n s) ∧
    (∀ row ∈ [Instr.codeRxInactive, .codeRxFull, .codeRxEmpty, .codeRxOverrun, .codeRxRemoteAnswer, .codeTxInactive,
        .codeTxAbort, .codeTxDataOrRemotePending, .codeTxRemoteAnswerPending],
      exec row s = .next (s.goto (.receive .s3) i))) ∧
  (∀ (s : State) (i : Fin 32) (n : Nat), s.turn = .engine → s.seq = .run (.abort .s1) i n →
    exec .codeTxDataOrRemotePending s = .next (s.goto (.abort .s2) i) ∧
    (∀ row ∈ [Instr.codeRxInactive, .codeRxInactiveBusy, .codeRxFull, .codeRxFullBusy, .codeRxEmpty, .codeRxEmptyBusy,
        .codeRxOverrun, .codeRxOverrunBusy, .codeTxInactive, .codeTxAbort, .codeRxRemoteAnswer, .codeRxRemoteAnswerBusy,
        .codeTxRemoteAnswerPending],
      exec row s = .next (s.close (.ok (.optionalFrame none)) .idle))) ∧
  (∀ (s : State) (i : Fin 32) (n : Nat) (p : Position),
    p = .init .e3 ∨ p = .transmit .s1 ∨ p = .receive .s2 ∨ p = .abort .s1 →
    s.turn = .engine → s.seq = .run p i n →
    exec .codeUndecodable1101 s = .next (s.close (.fatal (.undecodableCode 0b1101#4 (some i.val))) .faulted) ∧
    exec .codeUndecodable1111 s = .next (s.close (.fatal (.undecodableCode 0b1111#4 (some i.val))) .faulted)) ∧
  (∀ (s : State) (i : Fin 32) (n m : Nat), s.turn = .engine → i.val < s.params.numMb →
    (s.seq = .run (.init .e3) i n → i.val < s.work.headers.length →
      exec .init s = exec (decodeCode (s.mbCode i)) (s.afterRead (.mb i .cs))) ∧
    (s.seq = .run (.transmit .s1) i n →
      exec .transmit s = exec (decodeCode (s.mbCode i))
        ((s.afterRead (.mb i .cs)).keep { s.work with c := s.mbWord i .cs })) ∧
    (s.seq = .run (.receive .s2) i n →
      exec (.receive m) s = exec (decodeCode (s.mbCode i))
        (((s.afterRead (.mb i .cs)).keep { s.work with c := s.mbWord i .cs }).engageLock i (s.mbWord i .cs))) ∧
    (s.seq = .run (.abort .s1) i n →
      exec (.abort m) s = exec (decodeCode (s.mbCode i))
        ((s.afterRead (.mb i .cs)).keep { s.work with c := s.mbWord i .cs })))

/-! ## TRANSMIT -/

/-- 43_transmit.md R183 to R185, 70_reset_and_hazards.md R272: a `TRANSMIT` with no move of the controller in between. The
lowest mailbox whose code is `Transmit{Inactive}` is chosen, it ends holding the frame, armed, its flag clear; the report
says why each lower one was skipped; nothing else changes; `i + 2` reads and 5 writes. -/
def Obligations.TransmitChoosesLowestFree : Prop :=
  ∀ (s : State) (w : Word) (f : CanFrame) (i : Nat), s.Inv → s.seq = .idle → s.cmd = some w →
    decodeWord w = .ok .transmit → s.mode = .running → checkFrame s.ops.frame = some f → i ≤ s.maxMailbox.toNat →
    s.mbCode i = 0b1000#4 →
    (∀ k, k < i → s.mbCode k ≠ 0b1000#4 ∧ s.mbCode k ≠ 0b1101#4 ∧ s.mbCode k ≠ 0b1111#4) →
    ∃ t, runSteps (2 + 2 * (i + 1) + 6) (s.alone (2 + 2 * (i + 1) + 6)) = .next t ∧ t.result = .ok .unit ∧
      t.seq = .idle ∧ t.cmd = none ∧
      t.mbHolds i (transmitHeader (s.mbWord i .cs) (s.mbWord i .id)) f ∧ t.mbCode i = 0b1100#4 ∧ t.flag i = false ∧
      (∀ j u, j ≠ i → t.mbWord j u = s.mbWord j u) ∧ (∀ j, j ≠ i → t.flag j = s.flag j) ∧ sameControl s t ∧
      t.lock = s.lock ∧ t.abortReq = s.abortReq ∧ t.rxBegun = s.rxBegun ∧ t.mode = .running ∧ t.maxMailbox = s.maxMailbox ∧
      t.report.length = s.maxMailbox.toNat + 1 ∧
      (∀ k, k < i → t.report[k]? =
        some (if s.mbCode k = 0b1100#4 then .mailboxBusy else .mailboxConfigurationError)) ∧
      (∀ k, i ≤ k → k ≤ s.maxMailbox.toNat → t.report[k]? = some .none) ∧
      readCount t.history = readCount s.history + (i + 2) ∧ writeCount t.history = writeCount s.history + 5 ∧
      t.script = s.script

/-- 60_exceptions.md R213, 43_transmit.md R184, R185 (b) to (d), R272: no mailbox free, the controller silent: `BufferFull`
with the report, `max_mailbox + 1` reads, no register written. -/
def Obligations.TransmitBufferFull : Prop :=
  ∀ (s : State) (w : Word) (f : CanFrame), s.Inv → s.seq = .idle → s.cmd = some w →
    decodeWord w = .ok .transmit → s.mode = .running → checkFrame s.ops.frame = some f →
    (∀ k, k ≤ s.maxMailbox.toNat → s.mbCode k ≠ 0b1000#4 ∧ s.mbCode k ≠ 0b1101#4 ∧ s.mbCode k ≠ 0b1111#4) →
    ∃ t, runSteps (2 + 2 * (s.maxMailbox.toNat + 1)) (s.alone (2 + 2 * (s.maxMailbox.toNat + 1))) = .next t ∧
      t.result = .err (.bufferFull t.report) ∧ t.seq = .idle ∧ t.cmd = none ∧ sameBlock s t ∧ sameHidden s t ∧
      t.report.length = s.maxMailbox.toNat + 1 ∧
      (∀ k, k ≤ s.maxMailbox.toNat → t.report[k]? =
        some (if s.mbCode k = 0b1100#4 then .mailboxBusy else .mailboxConfigurationError)) ∧
      readCount t.history = readCount s.history + (s.maxMailbox.toNat + 1) ∧
      writeCount t.history = writeCount s.history

/-- 43_transmit.md R181, R183 S8, R185 (e) to (g) and 20_memory.md R74, under every interleaving with the controller: the
last write of `TRANSMIT` leaves the chosen mailbox holding exactly the frame, armed, its flag clear, with the indicator and
timestamp its control word had; the report names every lower mailbox and no other. -/
def Obligations.TransmitArmsChosen : Prop :=
  ∀ (s : State) (i : Fin 32) (n : Nat), s.Inv → s.seq = .run (.transmit .s8) i n →
    ∃ t h, exec .transmit s = .next t ∧ t.result = .ok .unit ∧ t.seq = .idle ∧ t.cmd = none ∧
      t.mbHolds i h s.work.frame ∧ h.code = .transmit .dataOrRemotePending ∧
      h.errorStateIndicator = (s.mbWord i .cs).getLsbD 29 ∧ h.timestamp = (s.mbWord i .cs).extractLsb' 0 16 ∧
      h.priority = (s.mbWord i .id).extractLsb' 29 3 ∧ t.mbCode i = 0b1100#4 ∧ t.flag i = false ∧
      sameBytesOutside (s.mbAddr i .cs) 4 s t ∧
      (∀ k, k < i.val → t.report[k]? = some .mailboxBusy ∨ t.report[k]? = some .mailboxConfigurationError) ∧
      (∀ k, i.val ≤ k → k ≤ s.maxMailbox.toNat → t.report[k]? = some .none)

/-! ## RECEIVE -/

/-- 60_exceptions.md R215, 44_receive.md R192 (a). At S1, in every state: the flag read clear, `MailboxEmpty`, no register
written, nothing locked. And a whole `RECEIVE` with no move of the controller in between: the same after one read of IFLAG.
(That the report port keeps its value is log entry 16, DEDUCED.) -/
def Obligations.ReceiveEmpty : Prop :=
  (∀ (s : State) (i : Fin 32) (n m : Nat), s.seq = .run (.receive .s1) i n → s.flag i = false →
    ∃ t, exec (.receive m) s = .next t ∧ t.result = .err .mailboxEmpty ∧ t.seq = .idle ∧ t.cmd = none ∧ sameBlock s t ∧
      sameHidden s t ∧ sameEngine s t ∧ t.report = s.report ∧ t.history = .read .iflag s.iflag :: s.history) ∧
  ∀ (s : State) (w : Word) (i : Nat), s.Inv → s.seq = .idle → s.cmd = some w → decodeWord w = .ok (.receive i) →
    s.mode = .running → i ≤ s.maxMailbox.toNat → s.flag i = false →
    ∃ t, runSteps 3 (s.alone 3) = .next t ∧ t.result = .err .mailboxEmpty ∧ t.seq = .idle ∧ t.cmd = none ∧
      sameBlock s t ∧ sameHidden s t ∧ t.report = s.report ∧ t.history = .read .iflag s.iflag :: s.history

/-- 44_receive.md R190, R191, R192 (d), 70_reset_and_hazards.md R262, R272: a `RECEIVE` with no move of the controller in
between, the code not busy: the pair built from the mailbox's words, the flag cleared, the lock released, no other register
written, the accesses in their order. (That the report port keeps its value is log entry 16, DEDUCED.) -/
def Obligations.ReceiveReturnsFrame : Prop :=
  ∀ (s : State) (w : Word) (i : Nat) (code : MessageBufferCode) (f : CanFrame), s.Inv → s.seq = .idle →
    s.cmd = some w → decodeWord w = .ok (.receive i) → s.mode = .running → i ≤ s.maxMailbox.toNat →
    s.flag i = true → codeValue (s.mbCode i) = some code → MessageBufferCode.isBusy code = false →
    buildFrame (s.mbWord i .cs) (s.mbWord i .id) (s.mbWord i .d0) (s.mbWord i .d1) = some f →
    ∃ t, runSteps 11 (s.alone 11) = .next t ∧
      t.result = .ok (.received
        ⟨(s.mbWord i .cs).getLsbD 29, code, (s.mbWord i .cs).extractLsb' 0 16, (s.mbWord i .id).extractLsb' 29 3⟩ f) ∧
      t.seq = .idle ∧ t.cmd = none ∧ t.lock = none ∧ (∀ j, t.flag j = if j = i then false else s.flag j) ∧
      sameControl s t ∧ sameBytes s t ∧ t.abortReq = s.abortReq ∧ t.report = s.report ∧
      t.history = [.read .timer s.timer, .write .iflag (1#32 <<< i), .read (.mb i .d1) (s.mbWord i .d1),
        .read (.mb i .d0) (s.mbWord i .d0), .read (.mb i .id) (s.mbWord i .id), .read (.mb i .cs) (s.mbWord i .cs),
        .read .iflag s.iflag] ++ s.history

/-- 44_receive.md R190 S7 to S9, R192 (b), 20_memory.md R75, R78, under every interleaving with the controller: the pair
returned is the one built from the words read; and a frame returned for a code `Full` or `Overrun` is one whole frame, the
mailbox's words at the moment the lock is released. -/
def Obligations.ReceiveWholeFrame : Prop :=
  ∀ (s : State) (i : Fin 32) (n m : Nat), s.Inv → s.seq = .run (.receive .s9) i n →
    ∃ t h f, exec (.receive m) s = .next t ∧ t.result = .ok (.received h f) ∧ t.seq = .idle ∧ t.lock = none ∧
      t.iflag = s.iflag ∧ sameBytes s t ∧
      buildFrame s.work.c s.work.w s.work.d0 s.work.d1 = some f ∧
      (∃ code, codeValue (codeOf s.work.c) = some code ∧ MessageBufferCode.isBusy code = false ∧
        h = receivedHeader code s.work.c s.work.w) ∧
      (codeOf s.work.c = 0b0010#4 ∨ codeOf s.work.c = 0b0110#4 →
        s.lock = some i.val ∧ s.mbWord i .cs = s.work.c ∧
        buildFrame (s.mbWord i .cs) (s.mbWord i .id) (s.mbWord i .d0) (s.mbWord i .d1) = some f ∧
        ∃ code, codeValue (s.mbCode i) = some code ∧ h = receivedHeader code (s.mbWord i .cs) (s.mbWord i .id))

/-- 60_exceptions.md R222, 44_receive.md R191, 70_reset_and_hazards.md R266: a data frame with a length code of 9 to 15 is
fatal, its lock still engaged, its flag still set; any other control word makes a frame. -/
def Obligations.ReceiveDlcOutOfRange : Prop :=
  ∀ (s : State) (i : Fin 32) (n m : Nat), s.seq = .run (.receive .s6) i n →
    (s.work.c.getLsbD 20 = false → 8 < (s.work.c.extractLsb' 16 4).toNat →
      ∃ t, exec (.receive m) s = .next t ∧ t.result = .fatal (.dlcOutOfRange (s.work.c.extractLsb' 16 4)) ∧
        t.seq = .faulted ∧ untouched s t) ∧
    (s.work.c.getLsbD 20 = true → ∃ t, exec (.receive m) s = .next t ∧ t.seq = .run (.receive .s7) i 0 ∧
      t.work.frame = .remote (unpackId (s.work.c.getLsbD 21) s.work.w) ∧ untouched s t) ∧
    (s.work.c.getLsbD 20 = false → (s.work.c.extractLsb' 16 4).toNat ≤ 8 →
      ∃ t, exec (.receive m) s = .next t ∧ t.seq = .run (.receive .s7) i 0 ∧
        t.work.frame = .data (unpackId (s.work.c.getLsbD 21) s.work.w)
          (unpackData s.work.d0 s.work.d1 (s.work.c.extractLsb' 16 4).toNat) ∧ untouched s t)

/-- 44_receive.md R192 (f), (g): from an armed mailbox, the controller's completion move and a `RECEIVE` return the frame
that was written, with the controller's timestamp; the code after a remote frame is by the draw `alt` (log entry 9).
(`TransmitChoosesLowestFree` and `TransmitArmsChosen` say that `TRANSMIT` leaves its mailbox so.) -/
def Obligations.TransmitReceiveRoundTrip : Prop :=
  ∀ (s : State) (i : Nat) (h : MailboxHeader) (f : CanFrame) (ops : OperandPort) (alt : Bool) (rest : List Turn),
    s.Inv → s.seq = .idle → s.cmd = none → s.mode = .running → i ≤ s.maxMailbox.toNat → CanFrame.wf f = true →
    h.code = .transmit .dataOrRemotePending → s.mbHolds i h f →
    s.script = .mailbox i (.act alt) :: .host (0x60000000#32 ||| BitVec.ofNat 32 i) ops ::
      (List.replicate 11 .engine ++ rest) →
    ∃ t code, runSteps 13 s = .next t ∧
      t.result = .ok (.received ⟨h.errorStateIndicator, code, s.timer.extractLsb' 0 16, h.priority⟩ f) ∧
      (code = .transmit .inactive ∨ (isRemote f = true ∧ alt = true ∧ code = .receive .empty false)) ∧
      t.seq = .idle ∧ t.lock = none ∧ t.flag i = false ∧ t.script = rest

/-! ## ABORT -/

/-- 45_abort.md R201 (e), 70_reset_and_hazards.md R272: `ABORT` on a mailbox that is not armed reads its control word and
does nothing else. (That the report port keeps its value is log entry 16, DEDUCED.) -/
def Obligations.AbortNotArmed : Prop :=
  ∀ (s : State) (w : Word) (i : Nat), s.Inv → s.seq = .idle → s.cmd = some w → decodeWord w = .ok (.abort i) →
    s.mode = .running → i ≤ s.maxMailbox.toNat → s.mbCode i ≠ 0b1100#4 → s.mbCode i ≠ 0b1101#4 →
    s.mbCode i ≠ 0b1111#4 →
    ∃ t, runSteps 3 (s.alone 3) = .next t ∧ t.result = .ok (.optionalFrame none) ∧ t.seq = .idle ∧ t.cmd = none ∧
      sameBlock s t ∧ sameHidden s t ∧ t.report = s.report ∧
      t.history = .read (.mb i .cs) (s.mbWord i .cs) :: s.history

/-- 45_abort.md R200 S4 and R201 (a): the flag read set, `ABORT` completes; and R201 (f), 20_memory.md R86: `ABORT` on an
armed mailbox with the controller's answer before its first read of the flag: the flag set again, the code by the draw `alt`
(log entry 9), `TIMESTAMP` the timer's count where the frame was sent (the model's choice: log entry 24), every other bit of
the control word and the frame kept. (That `State.close` keeps the report port is log entry 16, DEDUCED.) -/
def Obligations.AbortOnArmed : Prop :=
  (∀ (s : State) (i : Fin 32) (n m : Nat), s.seq = .run (.abort .s4) i n → s.flag i = true →
    exec (.abort m) s = .next ((s.afterRead .iflag).close (.ok (.optionalFrame none)) .idle)) ∧
  (∀ (s : State) (w : Word) (i : Fin 32) (alt : Bool) (rest : List Turn), s.Inv → s.seq = .idle → s.cmd = some w →
      decodeWord w = .ok (.abort i) → s.mode = .running → i.val ≤ s.maxMailbox.toNat → s.mbCode i = 0b1100#4 →
      s.script = List.replicate 5 .engine ++ .mailbox i (.act alt) :: .engine :: rest →
      (∃ u, runSteps 5 s = .next u ∧ u.seq = .run (.abort .s4) i 0 ∧ u.flag i = false ∧ i.val ∈ u.abortReq ∧
        u.mbWord i .cs = withCode (s.mbWord i .cs) 0b1001#4) ∧
      (∃ t, runSteps 7 s = .next t ∧ t.result = .ok (.optionalFrame none) ∧ t.seq = .idle ∧ t.cmd = none ∧
        t.flag i = true ∧ i.val ∉ t.abortReq ∧ t.mbCode i = (if alt then 0b1000#4 else 0b1001#4) ∧
        (t.mbWord i .cs).extractLsb' 0 16 = (if alt then s.timer else s.mbWord i .cs).extractLsb' 0 16 ∧
        (t.mbWord i .cs).extractLsb' 16 8 = (s.mbWord i .cs).extractLsb' 16 8 ∧
        (t.mbWord i .cs).extractLsb' 28 4 = (s.mbWord i .cs).extractLsb' 28 4 ∧
        t.mbWord i .id = s.mbWord i .id ∧ t.mbWord i .d0 = s.mbWord i .d0 ∧ t.mbWord i .d1 = s.mbWord i .d1 ∧
        (∀ j u, j ≠ i.val → t.mbWord j u = s.mbWord j u) ∧ (∀ j, j ≠ i.val → t.flag j = s.flag j) ∧ sameControl s t))

/-- 45_abort.md R201 (b), 70_reset_and_hazards.md R268: if the controller completes the transmission between S1 and S2,
`ABORT` comes to wait for a flag that nothing sets; and with no bound on waits it waits for ever, whatever any agent does.
-/
def Obligations.AbortHangs : Prop :=
  (∀ (s : State) (w : Word) (i : Fin 32) (rest : List Turn), s.Inv → s.seq = .idle → s.cmd = some w →
    decodeWord w = .ok (.abort i) → s.mode = .running → i.val ≤ s.maxMailbox.toNat → s.mbCode i = 0b1100#4 →
    s.params.waitLimit = none →
    s.script = .engine :: .engine :: .engine :: .mailbox i (.act false) :: .engine :: .engine :: rest →
    ∃ t, runSteps 6 s = .next t ∧ t.abortHang i) ∧
  (∀ (s t : State) (i : Fin 32), s.Inv → s.abortHang i → step s = .next t → t.abortHang i)

/-! ## The controller's moves -/

/-- 20_memory.md R83 (the code after a remote frame is the draw `alt`: log entry 9). -/
def Obligations.TransmissionCompletes : Prop :=
  ∀ (s : State) (i : Nat) (alt : Bool), Memory.wf s.mem = true → s.params.numMb ≤ 32 →
    s.turn = .mailbox i (.act alt) → s.mbCode i = 0b1100#4 →
    (s.active = true → i ≤ s.maxmb → i < s.params.numMb →
      ∃ t, exec .codeTxDataOrRemotePending s = .next t ∧
        t.mbCode i = (if Cs.rtr.bit (s.mbWord i .cs) && alt then 0b0100#4 else 0b1000#4) ∧
        (t.mbWord i .cs).extractLsb' 0 16 = s.timer.extractLsb' 0 16 ∧
        (t.mbWord i .cs).extractLsb' 16 8 = (s.mbWord i .cs).extractLsb' 16 8 ∧
        (t.mbWord i .cs).extractLsb' 28 4 = (s.mbWord i .cs).extractLsb' 28 4 ∧
        t.flag i = true ∧ i ∉ t.abortReq ∧ (∀ j, j ≠ i → (j ∈ t.abortReq ↔ j ∈ s.abortReq)) ∧
        (∀ j, j ≠ i → t.flag j = s.flag j) ∧ sameBytesOutside (s.mbAddr i .cs) 4 s t ∧ sameControl s t ∧
        t.lock = s.lock ∧ sameEngine s t ∧ t.seq = s.seq ∧ t.history = s.history) ∧
    (¬(s.active = true ∧ i ≤ s.maxmb ∧ i < s.params.numMb) → exec .codeTxDataOrRemotePending s = .next s)

/-- 20_memory.md R84, first sentence. -/
def Obligations.ReceptionBegins : Prop :=
  ∀ (s : State) (i : Nat) (alt : Bool), Memory.wf s.mem = true → s.turn = .mailbox i (.act alt) →
    ∀ row ∈ [(Instr.codeRxFull, 0b0010#4), (.codeRxEmpty, 0b0100#4), (.codeRxOverrun, 0b0110#4)],
      s.mbCode i = row.2 →
      (s.active = true → i ≤ s.maxmb → i < s.params.numMb → s.lock ≠ some i →
        ∃ t, exec row.1 s = .next t ∧ t.mbWord i .cs = s.mbWord i .cs ||| (1#32 <<< 24) ∧
          t.mbCode i = row.2 ||| 1#4 ∧ sameBytesOutside (s.mbAddr i .cs) 4 s t ∧ t.iflag = s.iflag ∧ sameControl s t ∧
          t.lock = s.lock ∧ t.abortReq = s.abortReq ∧ i ∈ t.rxBegun ∧ sameEngine s t ∧ t.seq = s.seq ∧
          t.history = s.history) ∧
      (s.lock = some i ∨ s.active = false ∨ s.maxmb < i ∨ s.params.numMb ≤ i → exec row.1 s = .next s)

/-- 20_memory.md R84, second sentence: while busy, each of the words takes any value, one move each; of the control word
only `IDE`, `RTR`, `DLC`, `ESI`, `TIMESTAMP`. -/
def Obligations.ReceptionWrites : Prop :=
  ∀ (s : State) (i : Nat) (v : Word), Memory.wf s.mem = true → s.active = true → i ≤ s.maxmb → i < s.params.numMb →
    ∀ row ∈ [Instr.codeRxFullBusy, .codeRxEmptyBusy, .codeRxOverrunBusy],
      (∀ m ∈ [(MbMove.writeId v, MbWord.id), (.writeD0 v, .d0), (.writeD1 v, .d1)], s.turn = .mailbox i m.1 →
        ∃ t, exec row s = .next t ∧ t.mbWord i m.2 = v ∧ sameBytesOutside (s.mbAddr i m.2) 4 s t ∧
          t.iflag = s.iflag ∧ sameControl s t ∧ sameHidden s t ∧ sameEngine s t ∧ t.seq = s.seq ∧
          t.history = s.history) ∧
      (s.turn = .mailbox i (.writeCsFields v) →
        ∃ t, exec row s = .next t ∧ t.mbCode i = s.mbCode i ∧
          (∀ k, k < 32 → (t.mbWord i .cs).getLsbD k =
            if k = 29 ∨ k ≤ 21 then v.getLsbD k else (s.mbWord i .cs).getLsbD k) ∧
          sameBytesOutside (s.mbAddr i .cs) 4 s t ∧ t.iflag = s.iflag ∧ sameControl s t ∧ sameHidden s t ∧
          sameEngine s t ∧ t.seq = s.seq ∧ t.history = s.history)

/-- 20_memory.md R85, 10_state.md R38, 60_exceptions.md R236: busy clear, `Empty` becomes `Full`, `Full` and `Overrun`
become `Overrun`, `TIMESTAMP` the timer's count, the flag set; a reception begun ends even when the controller is no longer
active. (That one begun in a mailbox above `MAXMB` would end too is log entry 26; no state with the invariant has one.) -/
def Obligations.ReceptionEnds : Prop :=
  ∀ (s : State) (i : Nat) (alt : Bool), Memory.wf s.mem = true → s.params.numMb ≤ 32 →
    s.turn = .mailbox i (.act alt) → i < s.params.numMb →
    i ∈ s.rxBegun ∨ (s.active = true ∧ i ≤ s.maxmb) →
    ∀ row ∈ [(Instr.codeRxEmptyBusy, 0b0010#4), (.codeRxFullBusy, 0b0110#4), (.codeRxOverrunBusy, 0b0110#4)],
      ∃ t, exec row.1 s = .next t ∧ t.mbCode i = row.2 ∧
        (t.mbWord i .cs).extractLsb' 0 16 = s.timer.extractLsb' 0 16 ∧
        (t.mbWord i .cs).extractLsb' 16 8 = (s.mbWord i .cs).extractLsb' 16 8 ∧
        (t.mbWord i .cs).extractLsb' 28 4 = (s.mbWord i .cs).extractLsb' 28 4 ∧ t.flag i = true ∧
        (∀ j, j ≠ i → t.flag j = s.flag j) ∧ i ∉ t.rxBegun ∧
        sameBytesOutside (s.mbAddr i .cs) 4 s t ∧ sameControl s t ∧ t.lock = s.lock ∧ t.abortReq = s.abortReq ∧
        sameEngine s t ∧ t.seq = s.seq ∧ t.history = s.history

/-- 20_memory.md R86 (`alt` draws whether the frame was sent: log entry 9; that `TIMESTAMP` is the timer's count then, and
kept when it was not sent, is the model's choice: log entry 24), and R89's clause on `Transmit{Abort}`. -/
def Obligations.AbortCompletes : Prop :=
  ∀ (s : State) (i : Nat) (alt : Bool), Memory.wf s.mem = true → s.params.numMb ≤ 32 →
    s.turn = .mailbox i (.act alt) →
    (s.active = true → i ≤ s.maxmb → i < s.params.numMb → i ∈ s.abortReq →
      ∃ t, exec .codeTxAbort s = .next t ∧
        t.mbCode i = (if alt then 0b1000#4 else 0b1001#4) ∧
        (t.mbWord i .cs).extractLsb' 0 16 = (if alt then s.timer else s.mbWord i .cs).extractLsb' 0 16 ∧
        (t.mbWord i .cs).extractLsb' 16 8 = (s.mbWord i .cs).extractLsb' 16 8 ∧
        (t.mbWord i .cs).extractLsb' 28 4 = (s.mbWord i .cs).extractLsb' 28 4 ∧ t.flag i = true ∧
        (∀ j, j ≠ i → t.flag j = s.flag j) ∧ i ∉ t.abortReq ∧
        (∀ j, j ≠ i → (j ∈ t.abortReq ↔ j ∈ s.abortReq)) ∧ sameBytesOutside (s.mbAddr i .cs) 4 s t ∧
        sameControl s t ∧ t.lock = s.lock ∧ sameEngine s t ∧ t.seq = s.seq ∧ t.history = s.history) ∧
    (i ∉ s.abortReq → exec .codeTxAbort s = .next s)

/-- 20_memory.md R87: any word of the mailbox and its flag take any value, under every code the rule names: the answer
codes, the undecodable patterns, and a busy code that no reception of R84 produced, `0011`, `0101` and `0111` outside
`rxBegun` included; in a reception that R84 began no such move exists (which busy codes R84 produced: log entries 13 and
14). -/
def Obligations.UnexplainedCodes : Prop :=
  ∀ (s : State) (i : Nat) (cs id d0 d1 : Word) (b : Bool), Memory.wf s.mem = true → s.params.numMb ≤ 32 →
    s.turn = .mailbox i (.scramble cs id d0 d1 b) → s.active = true → i ≤ s.maxmb → i < s.params.numMb →
    (∀ row ∈ [(Instr.codeRxInactiveBusy, false), (.codeRxRemoteAnswer, false), (.codeRxRemoteAnswerBusy, false),
        (.codeUndecodable1101, false), (.codeTxRemoteAnswerPending, false), (.codeUndecodable1111, false),
        (.codeRxFullBusy, true), (.codeRxEmptyBusy, true), (.codeRxOverrunBusy, true)],
      (row.2 = true → i ∉ s.rxBegun) →
      ∃ t, exec row.1 s = .next t ∧ t.mbWord i .cs = cs ∧ t.mbWord i .id = id ∧ t.mbWord i .d0 = d0 ∧
        t.mbWord i .d1 = d1 ∧ t.flag i = b ∧ (∀ j, j ≠ i → t.flag j = s.flag j) ∧
        sameBytesOutside (s.mbAddr i .cs) 16 s t ∧ sameControl s t ∧ sameHidden s t ∧ sameEngine s t ∧
        t.seq = s.seq ∧ t.history = s.history) ∧
    (i ∈ s.rxBegun → ∀ row ∈ [Instr.codeRxFullBusy, .codeRxEmptyBusy, .codeRxOverrunBusy], exec row s = .next s)

/-- 20_memory.md R89 (first clause), 41_mailbox_codec.md R144, R150: whatever the controller's turn draws, a mailbox with an
inactive code stays as it is. -/
def Obligations.InertCodes : Prop :=
  ∀ (s : State) (i : Nat) (m : MbMove), s.turn = .mailbox i m →
    exec .codeRxInactive s = .next s ∧ exec .codeTxInactive s = .next s ∧
    (i < s.params.numMb → s.mbCode i = 0b0000#4 ∨ s.mbCode i = 0b1000#4 → step s = .next s.endTurn)

/-- 20_memory.md R89 (the other clauses), 10_state.md R44: whatever a turn of the controller on a mailbox does, under every
code, it is confined to that mailbox's sixteen bytes, its flag and the hidden state; nothing changes above `MAXMB` or while
the controller is not active, but for the move that ends a reception begun; the engine's state does not change at all. From
the invariant no reception is begun above `MAXMB` or in freeze mode, and nothing changes there (log entries 14 and 26). And
42_controller_init.md R164: from C2's last read until F1 takes effect the controller is not active, no reception is
unfinished, and it makes no move on any mailbox or flag. -/
def Obligations.ControllerConfined : Prop :=
  (∀ (s t : State) (i : Nat) (m : MbMove), Memory.wf s.mem = true → s.params.numMb ≤ 32 →
    s.turn = .mailbox i m → i < s.params.numMb → exec (decodeCode (s.mbCode i)) s = .next t →
    sameControl s t ∧ sameEngine s t ∧ t.seq = s.seq ∧ t.result = s.result ∧ t.report = s.report ∧
    t.work = s.work ∧ t.cmd = s.cmd ∧ t.history = s.history ∧ t.lock = s.lock ∧
    sameBytesOutside (s.mbAddr i .cs) 16 s t ∧ (∀ j, j ≠ i → t.flag j = s.flag j) ∧
    (∀ j, j ≠ i → (j ∈ t.abortReq ↔ j ∈ s.abortReq) ∧ (j ∈ t.rxBegun ↔ j ∈ s.rxBegun)) ∧
    (s.active = false ∨ s.maxmb < i →
      t = s ∨ (i ∈ s.rxBegun ∧ receptionCode (s.mbCode i) ∧ ∃ alt, m = .act alt)) ∧
    (s.Inv → s.frzack = true ∨ s.maxmb < i → t = s)) ∧
  (∀ (s : State) (l : InitStep) (i : Fin 32) (n : Nat), s.Inv → s.seq = .run (.init l) i n →
    l ∈ [InitStep.d1r, .d1w, .d2r, .d2w, .d3, .e1, .e2, .e3, .w1, .w2, .w3, .w4, .w5, .f1r, .f1w] →
    s.active = false ∧ s.rxBegun = [] ∧
    (∀ j m, s.turn = .mailbox j m → step s = .next s.endTurn) ∧
    (∀ t, s.turn ≠ .engine → step s = .next t → t.mem = s.mem ∧ ∀ j, j < s.params.numMb → t.flag j = s.flag j))

/-- 20_memory.md R80 to R82, R88, 10_state.md R44: the controller's moves on its own registers (that each is eventually made
is not stated: log entry 6). The model's own choices in it: after a soft reset `LPMACK` and `FRZACK` are draws (log entry
14) and no reception is in progress (`rxBegun` empty: log entry 13); where R82 calls `FRZACK` unspecified it is what the
turn draws, and a turn that draws 1 ends every reception begun first, so that R44 holds there too (log entry 14); while
`SOFTRST = 1` with `FRZ` and `HALT` alike `FRZACK` is kept (log entry 14); the timer shows any 32-bit value (log entry 12). -/
def Obligations.GlobalControllerMoves : Prop :=
  (∀ s : State, s.turn = .lowPower → ∃ t, step s = .next t ∧ t.lpmack = s.mdis ∧
    (∀ k, k ≠ 20 → t.gcr.getLsbD k = s.gcr.getLsbD k) ∧ t.btr = s.btr ∧ t.rxmask = s.rxmask ∧ t.iflag = s.iflag ∧
    t.timer = s.timer ∧ t.mem = s.mem ∧ sameHidden s t ∧ t.seq = s.seq) ∧
  (∀ (s : State) (g b r f tm : Word), s.turn = .softReset g b r f tm → ∃ t, step s = .next t ∧ t.mem = s.mem ∧
    t.seq = s.seq ∧ t.mode = s.mode ∧ t.maxMailbox = s.maxMailbox ∧
    (s.softrst = true → s.lpmack = false → t.softrst = false ∧ t.mdis = s.mdis ∧
      Btr.clksrc.bit t.btr = Btr.clksrc.bit s.btr ∧
      (∀ k, k ≠ 31 → k ≠ 25 → t.gcr.getLsbD k = g.getLsbD k) ∧ (∀ k, k ≠ 13 → t.btr.getLsbD k = b.getLsbD k) ∧
      t.rxmask = r ∧ t.iflag = f ∧ t.timer = tm ∧ t.lock = none ∧ t.abortReq = [] ∧ t.rxBegun = []) ∧
    (s.softrst = false ∨ s.lpmack = true → sameControl s t ∧ t.iflag = s.iflag ∧ sameHidden s t)) ∧
  (∀ (s : State) (d : Bool), s.turn = .freeze d → ∃ t, step s = .next t ∧
    (∀ k, k ≠ 24 → t.gcr.getLsbD k = s.gcr.getLsbD k) ∧ t.btr = s.btr ∧ t.rxmask = s.rxmask ∧ t.timer = s.timer ∧
    t.lock = s.lock ∧ t.abortReq = s.abortReq ∧ t.seq = s.seq ∧
    (d = false ∨ s.rxBegun = [] ∨ (s.lpmack = false ∧ s.frz = s.halt) →
      t.iflag = s.iflag ∧ t.mem = s.mem ∧ t.rxBegun = s.rxBegun) ∧
    (s.lpmack = false → s.softrst = false → s.frz = true → s.halt = true → s.rxBegun = [] → t.frzack = true) ∧
    (s.lpmack = false → s.softrst = false → s.frz = false → s.halt = false → t.frzack = false) ∧
    (s.lpmack = false → s.softrst = false → s.frz = true → s.halt = true → s.rxBegun ≠ [] → t.frzack = s.frzack) ∧
    (s.lpmack = false → s.softrst = true → s.frz = s.halt → t.frzack = s.frzack) ∧
    (s.lpmack = true ∨ s.frz ≠ s.halt → t.frzack = d) ∧
    (s.lpmack = true ∨ s.frz ≠ s.halt → d = true → s.Inv →
      t.rxBegun = [] ∧
      (∀ i, i ∈ s.rxBegun → t.mbCode i = (if s.mbCode i = 0b0101#4 then 0b0010#4 else 0b0110#4) ∧
        (t.mbWord i .cs).extractLsb' 0 16 = s.timer.extractLsb' 0 16 ∧
        (t.mbWord i .cs).extractLsb' 16 8 = (s.mbWord i .cs).extractLsb' 16 8 ∧
        (t.mbWord i .cs).extractLsb' 28 4 = (s.mbWord i .cs).extractLsb' 28 4) ∧
      (∀ j, t.flag j = (s.flag j || decide (j ∈ s.rxBegun))) ∧
      (∀ a, (∀ i ∈ s.rxBegun, a < s.mbAddr i .cs ∨ s.mbAddr i .cs + 4 ≤ a) →
        readByte t.mem a = readByte s.mem a))) ∧
  (∀ (s : State) (v : Word), s.turn = .timer v → ∃ t, step s = .next t ∧ t.timer = v ∧ t.gcr = s.gcr ∧
    t.btr = s.btr ∧ t.rxmask = s.rxmask ∧ t.iflag = s.iflag ∧ t.mem = s.mem ∧ sameHidden s t ∧ t.seq = s.seq)

/-! ## Invariants -/

/-- 10_state.md R52: the values the spec gives for power-on reset; and that the invariant holds there. (The values of the
registers R52 leaves unspecified are the model's, log entries 1 to 5; nothing here rests on one.) -/
def Obligations.ResetState : Prop :=
  State.reset.seq = .idle ∧ State.reset.mode = .disabled ∧ State.reset.lock = none ∧ State.reset.abortReq = [] ∧
  State.reset.Inv

/-- The model stops nowhere, and the structural layer is kept: from a state with the structural invariant every step of
every agent answers a next state (the two faults of the model, log entry 18, are not reached), and that state has it again
(10_state.md R24 to R28; the canonical form of the mailbox file is the model's own). -/
def Obligations.StepsAnswerStructured : Prop :=
  ∀ s : State, s.Structural → ∃ t, step s = .next t ∧ t.Structural

/-- The whole invariant, controller phase and mailbox protocol included, is kept by every step of every agent:
60_exceptions.md R230, 42_controller_init.md R162 to R168, 43_transmit.md R183, 44_receive.md R192, 10_state.md R42 to R44.
-/
def Obligations.InvariantKept : Prop :=
  ∀ s t : State, s.Inv → step s = .next t → t.Inv

/-! ## What steps leave unchanged -/

/-- 10_state.md R32, R39: `BTCALC`, `ENCODE` and `DECODE` read and write no register, in every mode and at every outcome.
That they leave the report port is 40_bit_timing.md R130 for `BTCALC` ("changes no state but the result port and `seq`") and
log entry 16 (DEDUCED) for `ENCODE` and `DECODE`. -/
def Obligations.PureCommandsFrame : Prop :=
  ∀ (s t : State), ∀ i ∈ [Instr.btcalc, .encode, .decode], exec i s = .next t → untouched s t ∧ t.report = s.report

/-- 10_state.md R20, R32, R39, R43, 20_memory.md R66: what one step of a mailbox operation can change. At most one register
access; a mailbox word only at the address `State.storeAddress` computes; a flag only of the mailbox at hand, and only to
clear it; the lock only `RECEIVE`; the global registers, `mode` and `max_mailbox` only `INIT`; TIMER never. -/
def Obligations.MailboxCommandsFrame : Prop :=
  ∀ (s t : State) (i : Instr), (i = .init ∨ i = .transmit ∨ (∃ m, i = .receive m) ∨ ∃ m, i = .abort m) →
    Memory.wf s.mem = true → exec i s = .next t →
    storesOnly s.storeAddress s t ∧
    (∀ j, t.flag j = s.flag j ∨ (t.flag j = false ∧ ∃ p k n, s.seq = .run p k n ∧ k.val = j)) ∧ t.timer = s.timer ∧
    (i ≠ .init → sameControl s t ∧ t.mode = s.mode ∧ t.maxMailbox = s.maxMailbox) ∧
    ((∀ m, i ≠ .receive m) → t.lock = s.lock) ∧
    (t.abortReq = s.abortReq ∨ ∃ p j n, s.seq = .run p j n ∧ t.abortReq = insertIndex j s.abortReq) ∧
    (t.rxBegun = s.rxBegun ∨ ∃ p j n, s.seq = .run p j n ∧ t.rxBegun = removeIndex j s.rxBegun) ∧
    t.params = s.params ∧ t.ops = s.ops ∧ t.script = s.script ∧ t.tick = s.tick ∧
    (t.history = s.history ∨ ∃ e, t.history = e :: s.history)

/-- 60_exceptions.md R216, 10_state.md R25: a refusal is given at a label of admission or validation (or by a faulted
engine), reads and writes no register, leaves `seq` at `Idle` (or `Faulted`), shows its code of R210, and its mark is kept for the
rest of the run. (That the report port keeps its value at a refusal is log entry 16, DEDUCED.) -/
def Obligations.RefusalKeepsAll : Prop :=
  (∀ (s t : State) (w : Word) (i : Instr) (r : Refused), s.cmd = some w → exec i s = .next t → t.cmd = none →
    t.result = .refused r →
    untouched s t ∧
      ((s.seq = .faulted ∧ t.seq = .faulted) ∨
       (t.seq = .idle ∧ ∃ p j n, s.seq = .run p j n ∧
         p ∈ [Position.btcalc .s0, .encode .s0, .decode .s0, .init .v0, .init .v2, .init .v3, .transmit .s0, .receive .s0,
           .abort .s0])) ∧
      t.refusalMark = true ∧ t.report = s.report ∧
      (r, resultCode t.result) ∈ [(Refused.illegalCommand, 0x20#8), (.invalidOperand, 0x21#8),
        (.mailboxIndexOutOfRange, 0x22#8), (.notInitialised, 0x23#8), (.alreadyInitialised, 0x24#8),
        (.canFrequencyZero, 0x25#8), (.presdivOutOfRange, 0x26#8), (.fifoNotModelled, 0x27#8), (.engineFaulted, 0x28#8)]) ∧
  (∀ s t : State, s.refusalMark = true → step s = .next t → t.refusalMark = true)

/-- 60_exceptions.md R224, R225: the step that ends an operation with a fatal or a recoverable result writes no register, no
flag and no mailbox word; `mode`, `max_mailbox` and the abort requests keep their values, and so does the lock but for
`RECEIVE`'s own read of the control word; `Fatal` leaves the engine `Faulted`, `Err` leaves it `Idle`. -/
def Obligations.FailingStepWritesNothing : Prop :=
  ∀ (s t : State) (w : Word) (i : Instr), s.cmd = some w → exec i s = .next t → t.cmd = none →
    (∃ f, t.result = .fatal f) ∨ (∃ e, t.result = .err e) →
    sameBlock s t ∧ t.mode = s.mode ∧ t.maxMailbox = s.maxMailbox ∧ t.abortReq = s.abortReq ∧ t.rxBegun = s.rxBegun ∧
    (t.lock = s.lock ∨ ∃ j n, s.seq = .run (.receive .s2) j n ∧ t.lock = some j.val) ∧
    ((∃ f, t.result = .fatal f) → t.seq = .faulted) ∧ ((∃ e, t.result = .err e) → t.seq = .idle)
end

