-- ==== Sys2Proof/Laws/State.lean ====
section
/-! SUPPORT. What every named update of the state leaves unchanged and what it sets, one lemma per field. -/

namespace Sys2Proof.Machine

/-! ## `State.stay` -/

@[simp] theorem State.stay_params (p : Position) (i : Fin 32) (n : Nat) (s : State) :
    (s.stay p i n).params = s.params := rfl
@[simp] theorem State.stay_seq (p : Position) (i : Fin 32) (n : Nat) (s : State) : (s.stay p i n).seq = .run p i n := rfl
@[simp] theorem State.stay_mode (p : Position) (i : Fin 32) (n : Nat) (s : State) :
    (s.stay p i n).mode = s.mode := rfl
@[simp] theorem State.stay_maxMailbox (p : Position) (i : Fin 32) (n : Nat) (s : State) :
    (s.stay p i n).maxMailbox = s.maxMailbox := rfl
@[simp] theorem State.stay_result (p : Position) (i : Fin 32) (n : Nat) (s : State) :
    (s.stay p i n).result = s.result := rfl
@[simp] theorem State.stay_report (p : Position) (i : Fin 32) (n : Nat) (s : State) :
    (s.stay p i n).report = s.report := rfl
@[simp] theorem State.stay_work (p : Position) (i : Fin 32) (n : Nat) (s : State) :
    (s.stay p i n).work = s.work := rfl
@[simp] theorem State.stay_refusalMark (p : Position) (i : Fin 32) (n : Nat) (s : State) :
    (s.stay p i n).refusalMark = s.refusalMark := rfl
@[simp] theorem State.stay_cmd (p : Position) (i : Fin 32) (n : Nat) (s : State) :
    (s.stay p i n).cmd = s.cmd := rfl
@[simp] theorem State.stay_ops (p : Position) (i : Fin 32) (n : Nat) (s : State) :
    (s.stay p i n).ops = s.ops := rfl
@[simp] theorem State.stay_gcr (p : Position) (i : Fin 32) (n : Nat) (s : State) :
    (s.stay p i n).gcr = s.gcr := rfl
@[simp] theorem State.stay_btr (p : Position) (i : Fin 32) (n : Nat) (s : State) :
    (s.stay p i n).btr = s.btr := rfl
@[simp] theorem State.stay_rxmask (p : Position) (i : Fin 32) (n : Nat) (s : State) :
    (s.stay p i n).rxmask = s.rxmask := rfl
@[simp] theorem State.stay_iflag (p : Position) (i : Fin 32) (n : Nat) (s : State) :
    (s.stay p i n).iflag = s.iflag := rfl
@[simp] theorem State.stay_timer (p : Position) (i : Fin 32) (n : Nat) (s : State) :
    (s.stay p i n).timer = s.timer := rfl
@[simp] theorem State.stay_mem (p : Position) (i : Fin 32) (n : Nat) (s : State) :
    (s.stay p i n).mem = s.mem := rfl
@[simp] theorem State.stay_lock (p : Position) (i : Fin 32) (n : Nat) (s : State) :
    (s.stay p i n).lock = s.lock := rfl
@[simp] theorem State.stay_abortReq (p : Position) (i : Fin 32) (n : Nat) (s : State) :
    (s.stay p i n).abortReq = s.abortReq := rfl
@[simp] theorem State.stay_rxBegun (p : Position) (i : Fin 32) (n : Nat) (s : State) :
    (s.stay p i n).rxBegun = s.rxBegun := rfl
@[simp] theorem State.stay_history (p : Position) (i : Fin 32) (n : Nat) (s : State) :
    (s.stay p i n).history = s.history := rfl
@[simp] theorem State.stay_script (p : Position) (i : Fin 32) (n : Nat) (s : State) :
    (s.stay p i n).script = s.script := rfl
@[simp] theorem State.stay_tick (p : Position) (i : Fin 32) (n : Nat) (s : State) :
    (s.stay p i n).tick = s.tick := rfl

/-! ## `State.goto` -/

@[simp] theorem State.goto_params (p : Position) (i : Fin 32) (s : State) :
    (s.goto p i).params = s.params := rfl
@[simp] theorem State.goto_seq (p : Position) (i : Fin 32) (s : State) : (s.goto p i).seq = .run p i 0 := rfl
@[simp] theorem State.goto_mode (p : Position) (i : Fin 32) (s : State) :
    (s.goto p i).mode = s.mode := rfl
@[simp] theorem State.goto_maxMailbox (p : Position) (i : Fin 32) (s : State) :
    (s.goto p i).maxMailbox = s.maxMailbox := rfl
@[simp] theorem State.goto_result (p : Position) (i : Fin 32) (s : State) :
    (s.goto p i).result = s.result := rfl
@[simp] theorem State.goto_report (p : Position) (i : Fin 32) (s : State) :
    (s.goto p i).report = s.report := rfl
@[simp] theorem State.goto_work (p : Position) (i : Fin 32) (s : State) :
    (s.goto p i).work = s.work := rfl
@[simp] theorem State.goto_refusalMark (p : Position) (i : Fin 32) (s : State) :
    (s.goto p i).refusalMark = s.refusalMark := rfl
@[simp] theorem State.goto_cmd (p : Position) (i : Fin 32) (s : State) :
    (s.goto p i).cmd = s.cmd := rfl
@[simp] theorem State.goto_ops (p : Position) (i : Fin 32) (s : State) :
    (s.goto p i).ops = s.ops := rfl
@[simp] theorem State.goto_gcr (p : Position) (i : Fin 32) (s : State) :
    (s.goto p i).gcr = s.gcr := rfl
@[simp] theorem State.goto_btr (p : Position) (i : Fin 32) (s : State) :
    (s.goto p i).btr = s.btr := rfl
@[simp] theorem State.goto_rxmask (p : Position) (i : Fin 32) (s : State) :
    (s.goto p i).rxmask = s.rxmask := rfl
@[simp] theorem State.goto_iflag (p : Position) (i : Fin 32) (s : State) :
    (s.goto p i).iflag = s.iflag := rfl
@[simp] theorem State.goto_timer (p : Position) (i : Fin 32) (s : State) :
    (s.goto p i).timer = s.timer := rfl
@[simp] theorem State.goto_mem (p : Position) (i : Fin 32) (s : State) :
    (s.goto p i).mem = s.mem := rfl
@[simp] theorem State.goto_lock (p : Position) (i : Fin 32) (s : State) :
    (s.goto p i).lock = s.lock := rfl
@[simp] theorem State.goto_abortReq (p : Position) (i : Fin 32) (s : State) :
    (s.goto p i).abortReq = s.abortReq := rfl
@[simp] theorem State.goto_rxBegun (p : Position) (i : Fin 32) (s : State) :
    (s.goto p i).rxBegun = s.rxBegun := rfl
@[simp] theorem State.goto_history (p : Position) (i : Fin 32) (s : State) :
    (s.goto p i).history = s.history := rfl
@[simp] theorem State.goto_script (p : Position) (i : Fin 32) (s : State) :
    (s.goto p i).script = s.script := rfl
@[simp] theorem State.goto_tick (p : Position) (i : Fin 32) (s : State) :
    (s.goto p i).tick = s.tick := rfl

/-! ## `State.close` -/

@[simp] theorem State.close_params (r : Result) (q : Seq) (s : State) :
    (s.close r q).params = s.params := rfl
@[simp] theorem State.close_seq (r : Result) (q : Seq) (s : State) : (s.close r q).seq = q := rfl
@[simp] theorem State.close_mode (r : Result) (q : Seq) (s : State) :
    (s.close r q).mode = s.mode := rfl
@[simp] theorem State.close_maxMailbox (r : Result) (q : Seq) (s : State) :
    (s.close r q).maxMailbox = s.maxMailbox := rfl
@[simp] theorem State.close_result (r : Result) (q : Seq) (s : State) : (s.close r q).result = r := rfl
@[simp] theorem State.close_report (r : Result) (q : Seq) (s : State) : (s.close r q).report = s.publishedReport := rfl
@[simp] theorem State.close_work (r : Result) (q : Seq) (s : State) : (s.close r q).work = Work.empty := rfl
@[simp] theorem State.close_refusalMark (r : Result) (q : Seq) (s : State) :
    (s.close r q).refusalMark = s.refusalMark := rfl
@[simp] theorem State.close_cmd (r : Result) (q : Seq) (s : State) : (s.close r q).cmd = none := rfl
@[simp] theorem State.close_ops (r : Result) (q : Seq) (s : State) :
    (s.close r q).ops = s.ops := rfl
@[simp] theorem State.close_gcr (r : Result) (q : Seq) (s : State) :
    (s.close r q).gcr = s.gcr := rfl
@[simp] theorem State.close_btr (r : Result) (q : Seq) (s : State) :
    (s.close r q).btr = s.btr := rfl
@[simp] theorem State.close_rxmask (r : Result) (q : Seq) (s : State) :
    (s.close r q).rxmask = s.rxmask := rfl
@[simp] theorem State.close_iflag (r : Result) (q : Seq) (s : State) :
    (s.close r q).iflag = s.iflag := rfl
@[simp] theorem State.close_timer (r : Result) (q : Seq) (s : State) :
    (s.close r q).timer = s.timer := rfl
@[simp] theorem State.close_mem (r : Result) (q : Seq) (s : State) :
    (s.close r q).mem = s.mem := rfl
@[simp] theorem State.close_lock (r : Result) (q : Seq) (s : State) :
    (s.close r q).lock = s.lock := rfl
@[simp] theorem State.close_abortReq (r : Result) (q : Seq) (s : State) :
    (s.close r q).abortReq = s.abortReq := rfl
@[simp] theorem State.close_rxBegun (r : Result) (q : Seq) (s : State) :
    (s.close r q).rxBegun = s.rxBegun := rfl
@[simp] theorem State.close_history (r : Result) (q : Seq) (s : State) :
    (s.close r q).history = s.history := rfl
@[simp] theorem State.close_script (r : Result) (q : Seq) (s : State) :
    (s.close r q).script = s.script := rfl
@[simp] theorem State.close_tick (r : Result) (q : Seq) (s : State) :
    (s.close r q).tick = s.tick := rfl

/-! ## `State.refuse` -/

@[simp] theorem afterRefusal_idle : afterRefusal .idle = .idle := rfl
@[simp] theorem afterRefusal_faulted : afterRefusal .faulted = .faulted := rfl
@[simp] theorem afterRefusal_run (p : Position) (i : Fin 32) (n : Nat) : afterRefusal (.run p i n) = .idle := rfl

@[simp] theorem State.refuse_params (r : Refused) (s : State) :
    (s.refuse r).params = s.params := rfl
@[simp] theorem State.refuse_seq (r : Refused) (s : State) :
    (s.refuse r).seq = afterRefusal s.seq := rfl
@[simp] theorem State.refuse_mode (r : Refused) (s : State) :
    (s.refuse r).mode = s.mode := rfl
@[simp] theorem State.refuse_maxMailbox (r : Refused) (s : State) :
    (s.refuse r).maxMailbox = s.maxMailbox := rfl
@[simp] theorem State.refuse_result (r : Refused) (s : State) : (s.refuse r).result = .refused r := rfl
@[simp] theorem State.refuse_report (r : Refused) (s : State) :
    (s.refuse r).report = s.report := rfl
@[simp] theorem State.refuse_work (r : Refused) (s : State) :
    (s.refuse r).work = Work.empty := rfl
@[simp] theorem State.refuse_refusalMark (r : Refused) (s : State) : (s.refuse r).refusalMark = true := rfl
@[simp] theorem State.refuse_cmd (r : Refused) (s : State) : (s.refuse r).cmd = none := rfl
@[simp] theorem State.refuse_ops (r : Refused) (s : State) :
    (s.refuse r).ops = s.ops := rfl
@[simp] theorem State.refuse_gcr (r : Refused) (s : State) :
    (s.refuse r).gcr = s.gcr := rfl
@[simp] theorem State.refuse_btr (r : Refused) (s : State) :
    (s.refuse r).btr = s.btr := rfl
@[simp] theorem State.refuse_rxmask (r : Refused) (s : State) :
    (s.refuse r).rxmask = s.rxmask := rfl
@[simp] theorem State.refuse_iflag (r : Refused) (s : State) :
    (s.refuse r).iflag = s.iflag := rfl
@[simp] theorem State.refuse_timer (r : Refused) (s : State) :
    (s.refuse r).timer = s.timer := rfl
@[simp] theorem State.refuse_mem (r : Refused) (s : State) :
    (s.refuse r).mem = s.mem := rfl
@[simp] theorem State.refuse_lock (r : Refused) (s : State) :
    (s.refuse r).lock = s.lock := rfl
@[simp] theorem State.refuse_abortReq (r : Refused) (s : State) :
    (s.refuse r).abortReq = s.abortReq := rfl
@[simp] theorem State.refuse_rxBegun (r : Refused) (s : State) :
    (s.refuse r).rxBegun = s.rxBegun := rfl
@[simp] theorem State.refuse_history (r : Refused) (s : State) :
    (s.refuse r).history = s.history := rfl
@[simp] theorem State.refuse_script (r : Refused) (s : State) :
    (s.refuse r).script = s.script := rfl
@[simp] theorem State.refuse_tick (r : Refused) (s : State) :
    (s.refuse r).tick = s.tick := rfl

/-! ## `State.endTurn` -/

@[simp] theorem State.endTurn_params (s : State) :
    (s.endTurn).params = s.params := rfl
@[simp] theorem State.endTurn_seq (s : State) :
    (s.endTurn).seq = s.seq := rfl
@[simp] theorem State.endTurn_mode (s : State) :
    (s.endTurn).mode = s.mode := rfl
@[simp] theorem State.endTurn_maxMailbox (s : State) :
    (s.endTurn).maxMailbox = s.maxMailbox := rfl
@[simp] theorem State.endTurn_result (s : State) :
    (s.endTurn).result = s.result := rfl
@[simp] theorem State.endTurn_report (s : State) :
    (s.endTurn).report = s.report := rfl
@[simp] theorem State.endTurn_work (s : State) :
    (s.endTurn).work = s.work := rfl
@[simp] theorem State.endTurn_refusalMark (s : State) :
    (s.endTurn).refusalMark = s.refusalMark := rfl
@[simp] theorem State.endTurn_cmd (s : State) :
    (s.endTurn).cmd = s.cmd := rfl
@[simp] theorem State.endTurn_ops (s : State) :
    (s.endTurn).ops = s.ops := rfl
@[simp] theorem State.endTurn_gcr (s : State) :
    (s.endTurn).gcr = s.gcr := rfl
@[simp] theorem State.endTurn_btr (s : State) :
    (s.endTurn).btr = s.btr := rfl
@[simp] theorem State.endTurn_rxmask (s : State) :
    (s.endTurn).rxmask = s.rxmask := rfl
@[simp] theorem State.endTurn_iflag (s : State) :
    (s.endTurn).iflag = s.iflag := rfl
@[simp] theorem State.endTurn_timer (s : State) :
    (s.endTurn).timer = s.timer := rfl
@[simp] theorem State.endTurn_mem (s : State) :
    (s.endTurn).mem = s.mem := rfl
@[simp] theorem State.endTurn_lock (s : State) :
    (s.endTurn).lock = s.lock := rfl
@[simp] theorem State.endTurn_abortReq (s : State) :
    (s.endTurn).abortReq = s.abortReq := rfl
@[simp] theorem State.endTurn_rxBegun (s : State) :
    (s.endTurn).rxBegun = s.rxBegun := rfl
@[simp] theorem State.endTurn_history (s : State) :
    (s.endTurn).history = s.history := rfl
@[simp] theorem State.endTurn_script (s : State) : (s.endTurn).script = s.script.tail := rfl
@[simp] theorem State.endTurn_tick (s : State) : (s.endTurn).tick = s.tick + 1 := rfl

/-! ## `State.latchMaxMailbox` -/

@[simp] theorem State.latchMaxMailbox_params (s : State) :
    (s.latchMaxMailbox).params = s.params := rfl
@[simp] theorem State.latchMaxMailbox_seq (s : State) :
    (s.latchMaxMailbox).seq = s.seq := rfl
@[simp] theorem State.latchMaxMailbox_mode (s : State) :
    (s.latchMaxMailbox).mode = s.mode := rfl
@[simp] theorem State.latchMaxMailbox_maxMailbox (s : State) : (s.latchMaxMailbox).maxMailbox = BitVec.ofNat 5 (s.work.headers.length - 1) := rfl
@[simp] theorem State.latchMaxMailbox_result (s : State) :
    (s.latchMaxMailbox).result = s.result := rfl
@[simp] theorem State.latchMaxMailbox_report (s : State) :
    (s.latchMaxMailbox).report = s.report := rfl
@[simp] theorem State.latchMaxMailbox_work (s : State) :
    (s.latchMaxMailbox).work = s.work := rfl
@[simp] theorem State.latchMaxMailbox_refusalMark (s : State) :
    (s.latchMaxMailbox).refusalMark = s.refusalMark := rfl
@[simp] theorem State.latchMaxMailbox_cmd (s : State) :
    (s.latchMaxMailbox).cmd = s.cmd := rfl
@[simp] theorem State.latchMaxMailbox_ops (s : State) :
    (s.latchMaxMailbox).ops = s.ops := rfl
@[simp] theorem State.latchMaxMailbox_gcr (s : State) :
    (s.latchMaxMailbox).gcr = s.gcr := rfl
@[simp] theorem State.latchMaxMailbox_btr (s : State) :
    (s.latchMaxMailbox).btr = s.btr := rfl
@[simp] theorem State.latchMaxMailbox_rxmask (s : State) :
    (s.latchMaxMailbox).rxmask = s.rxmask := rfl
@[simp] theorem State.latchMaxMailbox_iflag (s : State) :
    (s.latchMaxMailbox).iflag = s.iflag := rfl
@[simp] theorem State.latchMaxMailbox_timer (s : State) :
    (s.latchMaxMailbox).timer = s.timer := rfl
@[simp] theorem State.latchMaxMailbox_mem (s : State) :
    (s.latchMaxMailbox).mem = s.mem := rfl
@[simp] theorem State.latchMaxMailbox_lock (s : State) :
    (s.latchMaxMailbox).lock = s.lock := rfl
@[simp] theorem State.latchMaxMailbox_abortReq (s : State) :
    (s.latchMaxMailbox).abortReq = s.abortReq := rfl
@[simp] theorem State.latchMaxMailbox_rxBegun (s : State) :
    (s.latchMaxMailbox).rxBegun = s.rxBegun := rfl
@[simp] theorem State.latchMaxMailbox_history (s : State) :
    (s.latchMaxMailbox).history = s.history := rfl
@[simp] theorem State.latchMaxMailbox_script (s : State) :
    (s.latchMaxMailbox).script = s.script := rfl
@[simp] theorem State.latchMaxMailbox_tick (s : State) :
    (s.latchMaxMailbox).tick = s.tick := rfl

/-! ## `State.keep` -/

@[simp] theorem State.keep_params (w : Work) (s : State) :
    (s.keep w).params = s.params := rfl
@[simp] theorem State.keep_seq (w : Work) (s : State) :
    (s.keep w).seq = s.seq := rfl
@[simp] theorem State.keep_mode (w : Work) (s : State) :
    (s.keep w).mode = s.mode := rfl
@[simp] theorem State.keep_maxMailbox (w : Work) (s : State) :
    (s.keep w).maxMailbox = s.maxMailbox := rfl
@[simp] theorem State.keep_result (w : Work) (s : State) :
    (s.keep w).result = s.result := rfl
@[simp] theorem State.keep_report (w : Work) (s : State) :
    (s.keep w).report = s.report := rfl
@[simp] theorem State.keep_work (w : Work) (s : State) : (s.keep w).work = w := rfl
@[simp] theorem State.keep_refusalMark (w : Work) (s : State) :
    (s.keep w).refusalMark = s.refusalMark := rfl
@[simp] theorem State.keep_cmd (w : Work) (s : State) :
    (s.keep w).cmd = s.cmd := rfl
@[simp] theorem State.keep_ops (w : Work) (s : State) :
    (s.keep w).ops = s.ops := rfl
@[simp] theorem State.keep_gcr (w : Work) (s : State) :
    (s.keep w).gcr = s.gcr := rfl
@[simp] theorem State.keep_btr (w : Work) (s : State) :
    (s.keep w).btr = s.btr := rfl
@[simp] theorem State.keep_rxmask (w : Work) (s : State) :
    (s.keep w).rxmask = s.rxmask := rfl
@[simp] theorem State.keep_iflag (w : Work) (s : State) :
    (s.keep w).iflag = s.iflag := rfl
@[simp] theorem State.keep_timer (w : Work) (s : State) :
    (s.keep w).timer = s.timer := rfl
@[simp] theorem State.keep_mem (w : Work) (s : State) :
    (s.keep w).mem = s.mem := rfl
@[simp] theorem State.keep_lock (w : Work) (s : State) :
    (s.keep w).lock = s.lock := rfl
@[simp] theorem State.keep_abortReq (w : Work) (s : State) :
    (s.keep w).abortReq = s.abortReq := rfl
@[simp] theorem State.keep_rxBegun (w : Work) (s : State) :
    (s.keep w).rxBegun = s.rxBegun := rfl
@[simp] theorem State.keep_history (w : Work) (s : State) :
    (s.keep w).history = s.history := rfl
@[simp] theorem State.keep_script (w : Work) (s : State) :
    (s.keep w).script = s.script := rfl
@[simp] theorem State.keep_tick (w : Work) (s : State) :
    (s.keep w).tick = s.tick := rfl

/-! ## `State.setMode` -/

@[simp] theorem State.setMode_params (m : Mode) (s : State) :
    (s.setMode m).params = s.params := rfl
@[simp] theorem State.setMode_seq (m : Mode) (s : State) :
    (s.setMode m).seq = s.seq := rfl
@[simp] theorem State.setMode_mode (m : Mode) (s : State) : (s.setMode m).mode = m := rfl
@[simp] theorem State.setMode_maxMailbox (m : Mode) (s : State) :
    (s.setMode m).maxMailbox = s.maxMailbox := rfl
@[simp] theorem State.setMode_result (m : Mode) (s : State) :
    (s.setMode m).result = s.result := rfl
@[simp] theorem State.setMode_report (m : Mode) (s : State) :
    (s.setMode m).report = s.report := rfl
@[simp] theorem State.setMode_work (m : Mode) (s : State) :
    (s.setMode m).work = s.work := rfl
@[simp] theorem State.setMode_refusalMark (m : Mode) (s : State) :
    (s.setMode m).refusalMark = s.refusalMark := rfl
@[simp] theorem State.setMode_cmd (m : Mode) (s : State) :
    (s.setMode m).cmd = s.cmd := rfl
@[simp] theorem State.setMode_ops (m : Mode) (s : State) :
    (s.setMode m).ops = s.ops := rfl
@[simp] theorem State.setMode_gcr (m : Mode) (s : State) :
    (s.setMode m).gcr = s.gcr := rfl
@[simp] theorem State.setMode_btr (m : Mode) (s : State) :
    (s.setMode m).btr = s.btr := rfl
@[simp] theorem State.setMode_rxmask (m : Mode) (s : State) :
    (s.setMode m).rxmask = s.rxmask := rfl
@[simp] theorem State.setMode_iflag (m : Mode) (s : State) :
    (s.setMode m).iflag = s.iflag := rfl
@[simp] theorem State.setMode_timer (m : Mode) (s : State) :
    (s.setMode m).timer = s.timer := rfl
@[simp] theorem State.setMode_mem (m : Mode) (s : State) :
    (s.setMode m).mem = s.mem := rfl
@[simp] theorem State.setMode_lock (m : Mode) (s : State) :
    (s.setMode m).lock = s.lock := rfl
@[simp] theorem State.setMode_abortReq (m : Mode) (s : State) :
    (s.setMode m).abortReq = s.abortReq := rfl
@[simp] theorem State.setMode_rxBegun (m : Mode) (s : State) :
    (s.setMode m).rxBegun = s.rxBegun := rfl
@[simp] theorem State.setMode_history (m : Mode) (s : State) :
    (s.setMode m).history = s.history := rfl
@[simp] theorem State.setMode_script (m : Mode) (s : State) :
    (s.setMode m).script = s.script := rfl
@[simp] theorem State.setMode_tick (m : Mode) (s : State) :
    (s.setMode m).tick = s.tick := rfl

/-! ## `State.dropAbort` -/

@[simp] theorem State.dropAbort_params (i : Nat) (s : State) :
    (s.dropAbort i).params = s.params := rfl
@[simp] theorem State.dropAbort_seq (i : Nat) (s : State) :
    (s.dropAbort i).seq = s.seq := rfl
@[simp] theorem State.dropAbort_mode (i : Nat) (s : State) :
    (s.dropAbort i).mode = s.mode := rfl
@[simp] theorem State.dropAbort_maxMailbox (i : Nat) (s : State) :
    (s.dropAbort i).maxMailbox = s.maxMailbox := rfl
@[simp] theorem State.dropAbort_result (i : Nat) (s : State) :
    (s.dropAbort i).result = s.result := rfl
@[simp] theorem State.dropAbort_report (i : Nat) (s : State) :
    (s.dropAbort i).report = s.report := rfl
@[simp] theorem State.dropAbort_work (i : Nat) (s : State) :
    (s.dropAbort i).work = s.work := rfl
@[simp] theorem State.dropAbort_refusalMark (i : Nat) (s : State) :
    (s.dropAbort i).refusalMark = s.refusalMark := rfl
@[simp] theorem State.dropAbort_cmd (i : Nat) (s : State) :
    (s.dropAbort i).cmd = s.cmd := rfl
@[simp] theorem State.dropAbort_ops (i : Nat) (s : State) :
    (s.dropAbort i).ops = s.ops := rfl
@[simp] theorem State.dropAbort_gcr (i : Nat) (s : State) :
    (s.dropAbort i).gcr = s.gcr := rfl
@[simp] theorem State.dropAbort_btr (i : Nat) (s : State) :
    (s.dropAbort i).btr = s.btr := rfl
@[simp] theorem State.dropAbort_rxmask (i : Nat) (s : State) :
    (s.dropAbort i).rxmask = s.rxmask := rfl
@[simp] theorem State.dropAbort_iflag (i : Nat) (s : State) :
    (s.dropAbort i).iflag = s.iflag := rfl
@[simp] theorem State.dropAbort_timer (i : Nat) (s : State) :
    (s.dropAbort i).timer = s.timer := rfl
@[simp] theorem State.dropAbort_mem (i : Nat) (s : State) :
    (s.dropAbort i).mem = s.mem := rfl
@[simp] theorem State.dropAbort_lock (i : Nat) (s : State) :
    (s.dropAbort i).lock = s.lock := rfl
@[simp] theorem State.dropAbort_abortReq (i : Nat) (s : State) : (s.dropAbort i).abortReq = removeIndex i s.abortReq := rfl
@[simp] theorem State.dropAbort_rxBegun (i : Nat) (s : State) :
    (s.dropAbort i).rxBegun = s.rxBegun := rfl
@[simp] theorem State.dropAbort_history (i : Nat) (s : State) :
    (s.dropAbort i).history = s.history := rfl
@[simp] theorem State.dropAbort_script (i : Nat) (s : State) :
    (s.dropAbort i).script = s.script := rfl
@[simp] theorem State.dropAbort_tick (i : Nat) (s : State) :
    (s.dropAbort i).tick = s.tick := rfl

/-! ## `State.markBegun` -/

@[simp] theorem State.markBegun_params (i : Nat) (s : State) :
    (s.markBegun i).params = s.params := rfl
@[simp] theorem State.markBegun_seq (i : Nat) (s : State) :
    (s.markBegun i).seq = s.seq := rfl
@[simp] theorem State.markBegun_mode (i : Nat) (s : State) :
    (s.markBegun i).mode = s.mode := rfl
@[simp] theorem State.markBegun_maxMailbox (i : Nat) (s : State) :
    (s.markBegun i).maxMailbox = s.maxMailbox := rfl
@[simp] theorem State.markBegun_result (i : Nat) (s : State) :
    (s.markBegun i).result = s.result := rfl
@[simp] theorem State.markBegun_report (i : Nat) (s : State) :
    (s.markBegun i).report = s.report := rfl
@[simp] theorem State.markBegun_work (i : Nat) (s : State) :
    (s.markBegun i).work = s.work := rfl
@[simp] theorem State.markBegun_refusalMark (i : Nat) (s : State) :
    (s.markBegun i).refusalMark = s.refusalMark := rfl
@[simp] theorem State.markBegun_cmd (i : Nat) (s : State) :
    (s.markBegun i).cmd = s.cmd := rfl
@[simp] theorem State.markBegun_ops (i : Nat) (s : State) :
    (s.markBegun i).ops = s.ops := rfl
@[simp] theorem State.markBegun_gcr (i : Nat) (s : State) :
    (s.markBegun i).gcr = s.gcr := rfl
@[simp] theorem State.markBegun_btr (i : Nat) (s : State) :
    (s.markBegun i).btr = s.btr := rfl
@[simp] theorem State.markBegun_rxmask (i : Nat) (s : State) :
    (s.markBegun i).rxmask = s.rxmask := rfl
@[simp] theorem State.markBegun_iflag (i : Nat) (s : State) :
    (s.markBegun i).iflag = s.iflag := rfl
@[simp] theorem State.markBegun_timer (i : Nat) (s : State) :
    (s.markBegun i).timer = s.timer := rfl
@[simp] theorem State.markBegun_mem (i : Nat) (s : State) :
    (s.markBegun i).mem = s.mem := rfl
@[simp] theorem State.markBegun_lock (i : Nat) (s : State) :
    (s.markBegun i).lock = s.lock := rfl
@[simp] theorem State.markBegun_abortReq (i : Nat) (s : State) :
    (s.markBegun i).abortReq = s.abortReq := rfl
@[simp] theorem State.markBegun_rxBegun (i : Nat) (s : State) : (s.markBegun i).rxBegun = insertIndex i s.rxBegun := rfl
@[simp] theorem State.markBegun_history (i : Nat) (s : State) :
    (s.markBegun i).history = s.history := rfl
@[simp] theorem State.markBegun_script (i : Nat) (s : State) :
    (s.markBegun i).script = s.script := rfl
@[simp] theorem State.markBegun_tick (i : Nat) (s : State) :
    (s.markBegun i).tick = s.tick := rfl

/-! ## `State.markEnded` -/

@[simp] theorem State.markEnded_params (i : Nat) (s : State) :
    (s.markEnded i).params = s.params := rfl
@[simp] theorem State.markEnded_seq (i : Nat) (s : State) :
    (s.markEnded i).seq = s.seq := rfl
@[simp] theorem State.markEnded_mode (i : Nat) (s : State) :
    (s.markEnded i).mode = s.mode := rfl
@[simp] theorem State.markEnded_maxMailbox (i : Nat) (s : State) :
    (s.markEnded i).maxMailbox = s.maxMailbox := rfl
@[simp] theorem State.markEnded_result (i : Nat) (s : State) :
    (s.markEnded i).result = s.result := rfl
@[simp] theorem State.markEnded_report (i : Nat) (s : State) :
    (s.markEnded i).report = s.report := rfl
@[simp] theorem State.markEnded_work (i : Nat) (s : State) :
    (s.markEnded i).work = s.work := rfl
@[simp] theorem State.markEnded_refusalMark (i : Nat) (s : State) :
    (s.markEnded i).refusalMark = s.refusalMark := rfl
@[simp] theorem State.markEnded_cmd (i : Nat) (s : State) :
    (s.markEnded i).cmd = s.cmd := rfl
@[simp] theorem State.markEnded_ops (i : Nat) (s : State) :
    (s.markEnded i).ops = s.ops := rfl
@[simp] theorem State.markEnded_gcr (i : Nat) (s : State) :
    (s.markEnded i).gcr = s.gcr := rfl
@[simp] theorem State.markEnded_btr (i : Nat) (s : State) :
    (s.markEnded i).btr = s.btr := rfl
@[simp] theorem State.markEnded_rxmask (i : Nat) (s : State) :
    (s.markEnded i).rxmask = s.rxmask := rfl
@[simp] theorem State.markEnded_iflag (i : Nat) (s : State) :
    (s.markEnded i).iflag = s.iflag := rfl
@[simp] theorem State.markEnded_timer (i : Nat) (s : State) :
    (s.markEnded i).timer = s.timer := rfl
@[simp] theorem State.markEnded_mem (i : Nat) (s : State) :
    (s.markEnded i).mem = s.mem := rfl
@[simp] theorem State.markEnded_lock (i : Nat) (s : State) :
    (s.markEnded i).lock = s.lock := rfl
@[simp] theorem State.markEnded_abortReq (i : Nat) (s : State) :
    (s.markEnded i).abortReq = s.abortReq := rfl
@[simp] theorem State.markEnded_rxBegun (i : Nat) (s : State) : (s.markEnded i).rxBegun = removeIndex i s.rxBegun := rfl
@[simp] theorem State.markEnded_history (i : Nat) (s : State) :
    (s.markEnded i).history = s.history := rfl
@[simp] theorem State.markEnded_script (i : Nat) (s : State) :
    (s.markEnded i).script = s.script := rfl
@[simp] theorem State.markEnded_tick (i : Nat) (s : State) :
    (s.markEnded i).tick = s.tick := rfl

/-! ## `State.setFrzack` -/

@[simp] theorem State.setFrzack_params (b : Bool) (s : State) :
    (s.setFrzack b).params = s.params := rfl
@[simp] theorem State.setFrzack_seq (b : Bool) (s : State) :
    (s.setFrzack b).seq = s.seq := rfl
@[simp] theorem State.setFrzack_mode (b : Bool) (s : State) :
    (s.setFrzack b).mode = s.mode := rfl
@[simp] theorem State.setFrzack_maxMailbox (b : Bool) (s : State) :
    (s.setFrzack b).maxMailbox = s.maxMailbox := rfl
@[simp] theorem State.setFrzack_result (b : Bool) (s : State) :
    (s.setFrzack b).result = s.result := rfl
@[simp] theorem State.setFrzack_report (b : Bool) (s : State) :
    (s.setFrzack b).report = s.report := rfl
@[simp] theorem State.setFrzack_work (b : Bool) (s : State) :
    (s.setFrzack b).work = s.work := rfl
@[simp] theorem State.setFrzack_refusalMark (b : Bool) (s : State) :
    (s.setFrzack b).refusalMark = s.refusalMark := rfl
@[simp] theorem State.setFrzack_cmd (b : Bool) (s : State) :
    (s.setFrzack b).cmd = s.cmd := rfl
@[simp] theorem State.setFrzack_ops (b : Bool) (s : State) :
    (s.setFrzack b).ops = s.ops := rfl
@[simp] theorem State.setFrzack_gcr (b : Bool) (s : State) : (s.setFrzack b).gcr = Gcr.frzack.set s.gcr b.toNat := rfl
@[simp] theorem State.setFrzack_btr (b : Bool) (s : State) :
    (s.setFrzack b).btr = s.btr := rfl
@[simp] theorem State.setFrzack_rxmask (b : Bool) (s : State) :
    (s.setFrzack b).rxmask = s.rxmask := rfl
@[simp] theorem State.setFrzack_iflag (b : Bool) (s : State) :
    (s.setFrzack b).iflag = s.iflag := rfl
@[simp] theorem State.setFrzack_timer (b : Bool) (s : State) :
    (s.setFrzack b).timer = s.timer := rfl
@[simp] theorem State.setFrzack_mem (b : Bool) (s : State) :
    (s.setFrzack b).mem = s.mem := rfl
@[simp] theorem State.setFrzack_lock (b : Bool) (s : State) :
    (s.setFrzack b).lock = s.lock := rfl
@[simp] theorem State.setFrzack_abortReq (b : Bool) (s : State) :
    (s.setFrzack b).abortReq = s.abortReq := rfl
@[simp] theorem State.setFrzack_rxBegun (b : Bool) (s : State) :
    (s.setFrzack b).rxBegun = s.rxBegun := rfl
@[simp] theorem State.setFrzack_history (b : Bool) (s : State) :
    (s.setFrzack b).history = s.history := rfl
@[simp] theorem State.setFrzack_script (b : Bool) (s : State) :
    (s.setFrzack b).script = s.script := rfl
@[simp] theorem State.setFrzack_tick (b : Bool) (s : State) :
    (s.setFrzack b).tick = s.tick := rfl

/-! ## `State.noteSkipped` -/

@[simp] theorem State.noteSkipped_params (i : Nat) (e : ReportEntry) (s : State) :
    (s.noteSkipped i e).params = s.params := rfl
@[simp] theorem State.noteSkipped_seq (i : Nat) (e : ReportEntry) (s : State) :
    (s.noteSkipped i e).seq = s.seq := rfl
@[simp] theorem State.noteSkipped_mode (i : Nat) (e : ReportEntry) (s : State) :
    (s.noteSkipped i e).mode = s.mode := rfl
@[simp] theorem State.noteSkipped_maxMailbox (i : Nat) (e : ReportEntry) (s : State) :
    (s.noteSkipped i e).maxMailbox = s.maxMailbox := rfl
@[simp] theorem State.noteSkipped_result (i : Nat) (e : ReportEntry) (s : State) :
    (s.noteSkipped i e).result = s.result := rfl
@[simp] theorem State.noteSkipped_report (i : Nat) (e : ReportEntry) (s : State) :
    (s.noteSkipped i e).report = s.report := rfl
@[simp] theorem State.noteSkipped_refusalMark (i : Nat) (e : ReportEntry) (s : State) :
    (s.noteSkipped i e).refusalMark = s.refusalMark := rfl
@[simp] theorem State.noteSkipped_cmd (i : Nat) (e : ReportEntry) (s : State) :
    (s.noteSkipped i e).cmd = s.cmd := rfl
@[simp] theorem State.noteSkipped_ops (i : Nat) (e : ReportEntry) (s : State) :
    (s.noteSkipped i e).ops = s.ops := rfl
@[simp] theorem State.noteSkipped_gcr (i : Nat) (e : ReportEntry) (s : State) :
    (s.noteSkipped i e).gcr = s.gcr := rfl
@[simp] theorem State.noteSkipped_btr (i : Nat) (e : ReportEntry) (s : State) :
    (s.noteSkipped i e).btr = s.btr := rfl
@[simp] theorem State.noteSkipped_rxmask (i : Nat) (e : ReportEntry) (s : State) :
    (s.noteSkipped i e).rxmask = s.rxmask := rfl
@[simp] theorem State.noteSkipped_iflag (i : Nat) (e : ReportEntry) (s : State) :
    (s.noteSkipped i e).iflag = s.iflag := rfl
@[simp] theorem State.noteSkipped_timer (i : Nat) (e : ReportEntry) (s : State) :
    (s.noteSkipped i e).timer = s.timer := rfl
@[simp] theorem State.noteSkipped_mem (i : Nat) (e : ReportEntry) (s : State) :
    (s.noteSkipped i e).mem = s.mem := rfl
@[simp] theorem State.noteSkipped_lock (i : Nat) (e : ReportEntry) (s : State) :
    (s.noteSkipped i e).lock = s.lock := rfl
@[simp] theorem State.noteSkipped_abortReq (i : Nat) (e : ReportEntry) (s : State) :
    (s.noteSkipped i e).abortReq = s.abortReq := rfl
@[simp] theorem State.noteSkipped_rxBegun (i : Nat) (e : ReportEntry) (s : State) :
    (s.noteSkipped i e).rxBegun = s.rxBegun := rfl
@[simp] theorem State.noteSkipped_history (i : Nat) (e : ReportEntry) (s : State) :
    (s.noteSkipped i e).history = s.history := rfl
@[simp] theorem State.noteSkipped_script (i : Nat) (e : ReportEntry) (s : State) :
    (s.noteSkipped i e).script = s.script := rfl
@[simp] theorem State.noteSkipped_tick (i : Nat) (e : ReportEntry) (s : State) :
    (s.noteSkipped i e).tick = s.tick := rfl

/-! ## `State.setFlag` -/

@[simp] theorem State.setFlag_params (i : Nat) (s : State) :
    (s.setFlag i).params = s.params := rfl
@[simp] theorem State.setFlag_seq (i : Nat) (s : State) :
    (s.setFlag i).seq = s.seq := rfl
@[simp] theorem State.setFlag_mode (i : Nat) (s : State) :
    (s.setFlag i).mode = s.mode := rfl
@[simp] theorem State.setFlag_maxMailbox (i : Nat) (s : State) :
    (s.setFlag i).maxMailbox = s.maxMailbox := rfl
@[simp] theorem State.setFlag_result (i : Nat) (s : State) :
    (s.setFlag i).result = s.result := rfl
@[simp] theorem State.setFlag_report (i : Nat) (s : State) :
    (s.setFlag i).report = s.report := rfl
@[simp] theorem State.setFlag_work (i : Nat) (s : State) :
    (s.setFlag i).work = s.work := rfl
@[simp] theorem State.setFlag_refusalMark (i : Nat) (s : State) :
    (s.setFlag i).refusalMark = s.refusalMark := rfl
@[simp] theorem State.setFlag_cmd (i : Nat) (s : State) :
    (s.setFlag i).cmd = s.cmd := rfl
@[simp] theorem State.setFlag_ops (i : Nat) (s : State) :
    (s.setFlag i).ops = s.ops := rfl
@[simp] theorem State.setFlag_gcr (i : Nat) (s : State) :
    (s.setFlag i).gcr = s.gcr := rfl
@[simp] theorem State.setFlag_btr (i : Nat) (s : State) :
    (s.setFlag i).btr = s.btr := rfl
@[simp] theorem State.setFlag_rxmask (i : Nat) (s : State) :
    (s.setFlag i).rxmask = s.rxmask := rfl
@[simp] theorem State.setFlag_iflag (i : Nat) (s : State) : (s.setFlag i).iflag = s.iflag ||| flagMask i := rfl
@[simp] theorem State.setFlag_timer (i : Nat) (s : State) :
    (s.setFlag i).timer = s.timer := rfl
@[simp] theorem State.setFlag_mem (i : Nat) (s : State) :
    (s.setFlag i).mem = s.mem := rfl
@[simp] theorem State.setFlag_lock (i : Nat) (s : State) :
    (s.setFlag i).lock = s.lock := rfl
@[simp] theorem State.setFlag_abortReq (i : Nat) (s : State) :
    (s.setFlag i).abortReq = s.abortReq := rfl
@[simp] theorem State.setFlag_rxBegun (i : Nat) (s : State) :
    (s.setFlag i).rxBegun = s.rxBegun := rfl
@[simp] theorem State.setFlag_history (i : Nat) (s : State) :
    (s.setFlag i).history = s.history := rfl
@[simp] theorem State.setFlag_script (i : Nat) (s : State) :
    (s.setFlag i).script = s.script := rfl
@[simp] theorem State.setFlag_tick (i : Nat) (s : State) :
    (s.setFlag i).tick = s.tick := rfl

/-! ## `State.assignFlag` -/

@[simp] theorem State.assignFlag_params (i : Nat) (b : Bool) (s : State) :
    (s.assignFlag i b).params = s.params := rfl
@[simp] theorem State.assignFlag_seq (i : Nat) (b : Bool) (s : State) :
    (s.assignFlag i b).seq = s.seq := rfl
@[simp] theorem State.assignFlag_mode (i : Nat) (b : Bool) (s : State) :
    (s.assignFlag i b).mode = s.mode := rfl
@[simp] theorem State.assignFlag_maxMailbox (i : Nat) (b : Bool) (s : State) :
    (s.assignFlag i b).maxMailbox = s.maxMailbox := rfl
@[simp] theorem State.assignFlag_result (i : Nat) (b : Bool) (s : State) :
    (s.assignFlag i b).result = s.result := rfl
@[simp] theorem State.assignFlag_report (i : Nat) (b : Bool) (s : State) :
    (s.assignFlag i b).report = s.report := rfl
@[simp] theorem State.assignFlag_work (i : Nat) (b : Bool) (s : State) :
    (s.assignFlag i b).work = s.work := rfl
@[simp] theorem State.assignFlag_refusalMark (i : Nat) (b : Bool) (s : State) :
    (s.assignFlag i b).refusalMark = s.refusalMark := rfl
@[simp] theorem State.assignFlag_cmd (i : Nat) (b : Bool) (s : State) :
    (s.assignFlag i b).cmd = s.cmd := rfl
@[simp] theorem State.assignFlag_ops (i : Nat) (b : Bool) (s : State) :
    (s.assignFlag i b).ops = s.ops := rfl
@[simp] theorem State.assignFlag_gcr (i : Nat) (b : Bool) (s : State) :
    (s.assignFlag i b).gcr = s.gcr := rfl
@[simp] theorem State.assignFlag_btr (i : Nat) (b : Bool) (s : State) :
    (s.assignFlag i b).btr = s.btr := rfl
@[simp] theorem State.assignFlag_rxmask (i : Nat) (b : Bool) (s : State) :
    (s.assignFlag i b).rxmask = s.rxmask := rfl
@[simp] theorem State.assignFlag_timer (i : Nat) (b : Bool) (s : State) :
    (s.assignFlag i b).timer = s.timer := rfl
@[simp] theorem State.assignFlag_mem (i : Nat) (b : Bool) (s : State) :
    (s.assignFlag i b).mem = s.mem := rfl
@[simp] theorem State.assignFlag_lock (i : Nat) (b : Bool) (s : State) :
    (s.assignFlag i b).lock = s.lock := rfl
@[simp] theorem State.assignFlag_abortReq (i : Nat) (b : Bool) (s : State) :
    (s.assignFlag i b).abortReq = s.abortReq := rfl
@[simp] theorem State.assignFlag_rxBegun (i : Nat) (b : Bool) (s : State) :
    (s.assignFlag i b).rxBegun = s.rxBegun := rfl
@[simp] theorem State.assignFlag_history (i : Nat) (b : Bool) (s : State) :
    (s.assignFlag i b).history = s.history := rfl
@[simp] theorem State.assignFlag_script (i : Nat) (b : Bool) (s : State) :
    (s.assignFlag i b).script = s.script := rfl
@[simp] theorem State.assignFlag_tick (i : Nat) (b : Bool) (s : State) :
    (s.assignFlag i b).tick = s.tick := rfl

/-! ## `State.setMbWord` -/

@[simp] theorem State.setMbWord_params (i : Nat) (w : MbWord) (v : Word) (s : State) :
    (s.setMbWord i w v).params = s.params := rfl
@[simp] theorem State.setMbWord_seq (i : Nat) (w : MbWord) (v : Word) (s : State) :
    (s.setMbWord i w v).seq = s.seq := rfl
@[simp] theorem State.setMbWord_mode (i : Nat) (w : MbWord) (v : Word) (s : State) :
    (s.setMbWord i w v).mode = s.mode := rfl
@[simp] theorem State.setMbWord_maxMailbox (i : Nat) (w : MbWord) (v : Word) (s : State) :
    (s.setMbWord i w v).maxMailbox = s.maxMailbox := rfl
@[simp] theorem State.setMbWord_result (i : Nat) (w : MbWord) (v : Word) (s : State) :
    (s.setMbWord i w v).result = s.result := rfl
@[simp] theorem State.setMbWord_report (i : Nat) (w : MbWord) (v : Word) (s : State) :
    (s.setMbWord i w v).report = s.report := rfl
@[simp] theorem State.setMbWord_work (i : Nat) (w : MbWord) (v : Word) (s : State) :
    (s.setMbWord i w v).work = s.work := rfl
@[simp] theorem State.setMbWord_refusalMark (i : Nat) (w : MbWord) (v : Word) (s : State) :
    (s.setMbWord i w v).refusalMark = s.refusalMark := rfl
@[simp] theorem State.setMbWord_cmd (i : Nat) (w : MbWord) (v : Word) (s : State) :
    (s.setMbWord i w v).cmd = s.cmd := rfl
@[simp] theorem State.setMbWord_ops (i : Nat) (w : MbWord) (v : Word) (s : State) :
    (s.setMbWord i w v).ops = s.ops := rfl
@[simp] theorem State.setMbWord_gcr (i : Nat) (w : MbWord) (v : Word) (s : State) :
    (s.setMbWord i w v).gcr = s.gcr := rfl
@[simp] theorem State.setMbWord_btr (i : Nat) (w : MbWord) (v : Word) (s : State) :
    (s.setMbWord i w v).btr = s.btr := rfl
@[simp] theorem State.setMbWord_rxmask (i : Nat) (w : MbWord) (v : Word) (s : State) :
    (s.setMbWord i w v).rxmask = s.rxmask := rfl
@[simp] theorem State.setMbWord_iflag (i : Nat) (w : MbWord) (v : Word) (s : State) :
    (s.setMbWord i w v).iflag = s.iflag := rfl
@[simp] theorem State.setMbWord_timer (i : Nat) (w : MbWord) (v : Word) (s : State) :
    (s.setMbWord i w v).timer = s.timer := rfl
@[simp] theorem State.setMbWord_mem (i : Nat) (w : MbWord) (v : Word) (s : State) : (s.setMbWord i w v).mem = writeWord (s.mbAddr i w) v s.mem := rfl
@[simp] theorem State.setMbWord_lock (i : Nat) (w : MbWord) (v : Word) (s : State) :
    (s.setMbWord i w v).lock = s.lock := rfl
@[simp] theorem State.setMbWord_abortReq (i : Nat) (w : MbWord) (v : Word) (s : State) :
    (s.setMbWord i w v).abortReq = s.abortReq := rfl
@[simp] theorem State.setMbWord_rxBegun (i : Nat) (w : MbWord) (v : Word) (s : State) :
    (s.setMbWord i w v).rxBegun = s.rxBegun := rfl
@[simp] theorem State.setMbWord_history (i : Nat) (w : MbWord) (v : Word) (s : State) :
    (s.setMbWord i w v).history = s.history := rfl
@[simp] theorem State.setMbWord_script (i : Nat) (w : MbWord) (v : Word) (s : State) :
    (s.setMbWord i w v).script = s.script := rfl
@[simp] theorem State.setMbWord_tick (i : Nat) (w : MbWord) (v : Word) (s : State) :
    (s.setMbWord i w v).tick = s.tick := rfl

/-! ## `State.setMbCode` -/

@[simp] theorem State.setMbCode_params (i : Nat) (v : BitVec 4) (s : State) :
    (s.setMbCode i v).params = s.params := by
  simp only [State.setMbCode, State.setMbWord_params]
@[simp] theorem State.setMbCode_seq (i : Nat) (v : BitVec 4) (s : State) :
    (s.setMbCode i v).seq = s.seq := by
  simp only [State.setMbCode, State.setMbWord_seq]
@[simp] theorem State.setMbCode_mode (i : Nat) (v : BitVec 4) (s : State) :
    (s.setMbCode i v).mode = s.mode := by
  simp only [State.setMbCode, State.setMbWord_mode]
@[simp] theorem State.setMbCode_maxMailbox (i : Nat) (v : BitVec 4) (s : State) :
    (s.setMbCode i v).maxMailbox = s.maxMailbox := by
  simp only [State.setMbCode, State.setMbWord_maxMailbox]
@[simp] theorem State.setMbCode_result (i : Nat) (v : BitVec 4) (s : State) :
    (s.setMbCode i v).result = s.result := by
  simp only [State.setMbCode, State.setMbWord_result]
@[simp] theorem State.setMbCode_report (i : Nat) (v : BitVec 4) (s : State) :
    (s.setMbCode i v).report = s.report := by
  simp only [State.setMbCode, State.setMbWord_report]
@[simp] theorem State.setMbCode_work (i : Nat) (v : BitVec 4) (s : State) :
    (s.setMbCode i v).work = s.work := by
  simp only [State.setMbCode, State.setMbWord_work]
@[simp] theorem State.setMbCode_refusalMark (i : Nat) (v : BitVec 4) (s : State) :
    (s.setMbCode i v).refusalMark = s.refusalMark := by
  simp only [State.setMbCode, State.setMbWord_refusalMark]
@[simp] theorem State.setMbCode_cmd (i : Nat) (v : BitVec 4) (s : State) :
    (s.setMbCode i v).cmd = s.cmd := by
  simp only [State.setMbCode, State.setMbWord_cmd]
@[simp] theorem State.setMbCode_ops (i : Nat) (v : BitVec 4) (s : State) :
    (s.setMbCode i v).ops = s.ops := by
  simp only [State.setMbCode, State.setMbWord_ops]
@[simp] theorem State.setMbCode_gcr (i : Nat) (v : BitVec 4) (s : State) :
    (s.setMbCode i v).gcr = s.gcr := by
  simp only [State.setMbCode, State.setMbWord_gcr]
@[simp] theorem State.setMbCode_btr (i : Nat) (v : BitVec 4) (s : State) :
    (s.setMbCode i v).btr = s.btr := by
  simp only [State.setMbCode, State.setMbWord_btr]
@[simp] theorem State.setMbCode_rxmask (i : Nat) (v : BitVec 4) (s : State) :
    (s.setMbCode i v).rxmask = s.rxmask := by
  simp only [State.setMbCode, State.setMbWord_rxmask]
@[simp] theorem State.setMbCode_iflag (i : Nat) (v : BitVec 4) (s : State) :
    (s.setMbCode i v).iflag = s.iflag := by
  simp only [State.setMbCode, State.setMbWord_iflag]
@[simp] theorem State.setMbCode_timer (i : Nat) (v : BitVec 4) (s : State) :
    (s.setMbCode i v).timer = s.timer := by
  simp only [State.setMbCode, State.setMbWord_timer]
@[simp] theorem State.setMbCode_lock (i : Nat) (v : BitVec 4) (s : State) :
    (s.setMbCode i v).lock = s.lock := by
  simp only [State.setMbCode, State.setMbWord_lock]
@[simp] theorem State.setMbCode_abortReq (i : Nat) (v : BitVec 4) (s : State) :
    (s.setMbCode i v).abortReq = s.abortReq := by
  simp only [State.setMbCode, State.setMbWord_abortReq]
@[simp] theorem State.setMbCode_rxBegun (i : Nat) (v : BitVec 4) (s : State) :
    (s.setMbCode i v).rxBegun = s.rxBegun := by
  simp only [State.setMbCode, State.setMbWord_rxBegun]
@[simp] theorem State.setMbCode_history (i : Nat) (v : BitVec 4) (s : State) :
    (s.setMbCode i v).history = s.history := by
  simp only [State.setMbCode, State.setMbWord_history]
@[simp] theorem State.setMbCode_script (i : Nat) (v : BitVec 4) (s : State) :
    (s.setMbCode i v).script = s.script := by
  simp only [State.setMbCode, State.setMbWord_script]
@[simp] theorem State.setMbCode_tick (i : Nat) (v : BitVec 4) (s : State) :
    (s.setMbCode i v).tick = s.tick := by
  simp only [State.setMbCode, State.setMbWord_tick]

/-! ## `State.stampMb` -/

@[simp] theorem State.stampMb_params (i : Nat) (s : State) :
    (s.stampMb i).params = s.params := by
  simp only [State.stampMb, State.setMbWord_params]
@[simp] theorem State.stampMb_seq (i : Nat) (s : State) :
    (s.stampMb i).seq = s.seq := by
  simp only [State.stampMb, State.setMbWord_seq]
@[simp] theorem State.stampMb_mode (i : Nat) (s : State) :
    (s.stampMb i).mode = s.mode := by
  simp only [State.stampMb, State.setMbWord_mode]
@[simp] theorem State.stampMb_maxMailbox (i : Nat) (s : State) :
    (s.stampMb i).maxMailbox = s.maxMailbox := by
  simp only [State.stampMb, State.setMbWord_maxMailbox]
@[simp] theorem State.stampMb_result (i : Nat) (s : State) :
    (s.stampMb i).result = s.result := by
  simp only [State.stampMb, State.setMbWord_result]
@[simp] theorem State.stampMb_report (i : Nat) (s : State) :
    (s.stampMb i).report = s.report := by
  simp only [State.stampMb, State.setMbWord_report]
@[simp] theorem State.stampMb_work (i : Nat) (s : State) :
    (s.stampMb i).work = s.work := by
  simp only [State.stampMb, State.setMbWord_work]
@[simp] theorem State.stampMb_refusalMark (i : Nat) (s : State) :
    (s.stampMb i).refusalMark = s.refusalMark := by
  simp only [State.stampMb, State.setMbWord_refusalMark]
@[simp] theorem State.stampMb_cmd (i : Nat) (s : State) :
    (s.stampMb i).cmd = s.cmd := by
  simp only [State.stampMb, State.setMbWord_cmd]
@[simp] theorem State.stampMb_ops (i : Nat) (s : State) :
    (s.stampMb i).ops = s.ops := by
  simp only [State.stampMb, State.setMbWord_ops]
@[simp] theorem State.stampMb_gcr (i : Nat) (s : State) :
    (s.stampMb i).gcr = s.gcr := by
  simp only [State.stampMb, State.setMbWord_gcr]
@[simp] theorem State.stampMb_btr (i : Nat) (s : State) :
    (s.stampMb i).btr = s.btr := by
  simp only [State.stampMb, State.setMbWord_btr]
@[simp] theorem State.stampMb_rxmask (i : Nat) (s : State) :
    (s.stampMb i).rxmask = s.rxmask := by
  simp only [State.stampMb, State.setMbWord_rxmask]
@[simp] theorem State.stampMb_iflag (i : Nat) (s : State) :
    (s.stampMb i).iflag = s.iflag := by
  simp only [State.stampMb, State.setMbWord_iflag]
@[simp] theorem State.stampMb_timer (i : Nat) (s : State) :
    (s.stampMb i).timer = s.timer := by
  simp only [State.stampMb, State.setMbWord_timer]
@[simp] theorem State.stampMb_lock (i : Nat) (s : State) :
    (s.stampMb i).lock = s.lock := by
  simp only [State.stampMb, State.setMbWord_lock]
@[simp] theorem State.stampMb_abortReq (i : Nat) (s : State) :
    (s.stampMb i).abortReq = s.abortReq := by
  simp only [State.stampMb, State.setMbWord_abortReq]
@[simp] theorem State.stampMb_rxBegun (i : Nat) (s : State) :
    (s.stampMb i).rxBegun = s.rxBegun := by
  simp only [State.stampMb, State.setMbWord_rxBegun]
@[simp] theorem State.stampMb_history (i : Nat) (s : State) :
    (s.stampMb i).history = s.history := by
  simp only [State.stampMb, State.setMbWord_history]
@[simp] theorem State.stampMb_script (i : Nat) (s : State) :
    (s.stampMb i).script = s.script := by
  simp only [State.stampMb, State.setMbWord_script]
@[simp] theorem State.stampMb_tick (i : Nat) (s : State) :
    (s.stampMb i).tick = s.tick := by
  simp only [State.stampMb, State.setMbWord_tick]

/-! ## `State.stampIfSent` -/

@[simp] theorem State.stampIfSent_params (i : Nat) (b : Bool) (s : State) :
    (s.stampIfSent i b).params = s.params := by
  cases b <;> simp [State.stampIfSent]
@[simp] theorem State.stampIfSent_seq (i : Nat) (b : Bool) (s : State) :
    (s.stampIfSent i b).seq = s.seq := by
  cases b <;> simp [State.stampIfSent]
@[simp] theorem State.stampIfSent_mode (i : Nat) (b : Bool) (s : State) :
    (s.stampIfSent i b).mode = s.mode := by
  cases b <;> simp [State.stampIfSent]
@[simp] theorem State.stampIfSent_maxMailbox (i : Nat) (b : Bool) (s : State) :
    (s.stampIfSent i b).maxMailbox = s.maxMailbox := by
  cases b <;> simp [State.stampIfSent]
@[simp] theorem State.stampIfSent_result (i : Nat) (b : Bool) (s : State) :
    (s.stampIfSent i b).result = s.result := by
  cases b <;> simp [State.stampIfSent]
@[simp] theorem State.stampIfSent_report (i : Nat) (b : Bool) (s : State) :
    (s.stampIfSent i b).report = s.report := by
  cases b <;> simp [State.stampIfSent]
@[simp] theorem State.stampIfSent_work (i : Nat) (b : Bool) (s : State) :
    (s.stampIfSent i b).work = s.work := by
  cases b <;> simp [State.stampIfSent]
@[simp] theorem State.stampIfSent_refusalMark (i : Nat) (b : Bool) (s : State) :
    (s.stampIfSent i b).refusalMark = s.refusalMark := by
  cases b <;> simp [State.stampIfSent]
@[simp] theorem State.stampIfSent_cmd (i : Nat) (b : Bool) (s : State) :
    (s.stampIfSent i b).cmd = s.cmd := by
  cases b <;> simp [State.stampIfSent]
@[simp] theorem State.stampIfSent_ops (i : Nat) (b : Bool) (s : State) :
    (s.stampIfSent i b).ops = s.ops := by
  cases b <;> simp [State.stampIfSent]
@[simp] theorem State.stampIfSent_gcr (i : Nat) (b : Bool) (s : State) :
    (s.stampIfSent i b).gcr = s.gcr := by
  cases b <;> simp [State.stampIfSent]
@[simp] theorem State.stampIfSent_btr (i : Nat) (b : Bool) (s : State) :
    (s.stampIfSent i b).btr = s.btr := by
  cases b <;> simp [State.stampIfSent]
@[simp] theorem State.stampIfSent_rxmask (i : Nat) (b : Bool) (s : State) :
    (s.stampIfSent i b).rxmask = s.rxmask := by
  cases b <;> simp [State.stampIfSent]
@[simp] theorem State.stampIfSent_iflag (i : Nat) (b : Bool) (s : State) :
    (s.stampIfSent i b).iflag = s.iflag := by
  cases b <;> simp [State.stampIfSent]
@[simp] theorem State.stampIfSent_timer (i : Nat) (b : Bool) (s : State) :
    (s.stampIfSent i b).timer = s.timer := by
  cases b <;> simp [State.stampIfSent]
@[simp] theorem State.stampIfSent_lock (i : Nat) (b : Bool) (s : State) :
    (s.stampIfSent i b).lock = s.lock := by
  cases b <;> simp [State.stampIfSent]
@[simp] theorem State.stampIfSent_abortReq (i : Nat) (b : Bool) (s : State) :
    (s.stampIfSent i b).abortReq = s.abortReq := by
  cases b <;> simp [State.stampIfSent]
@[simp] theorem State.stampIfSent_rxBegun (i : Nat) (b : Bool) (s : State) :
    (s.stampIfSent i b).rxBegun = s.rxBegun := by
  cases b <;> simp [State.stampIfSent]
@[simp] theorem State.stampIfSent_history (i : Nat) (b : Bool) (s : State) :
    (s.stampIfSent i b).history = s.history := by
  cases b <;> simp [State.stampIfSent]
@[simp] theorem State.stampIfSent_script (i : Nat) (b : Bool) (s : State) :
    (s.stampIfSent i b).script = s.script := by
  cases b <;> simp [State.stampIfSent]
@[simp] theorem State.stampIfSent_tick (i : Nat) (b : Bool) (s : State) :
    (s.stampIfSent i b).tick = s.tick := by
  cases b <;> simp [State.stampIfSent]

/-! ## `State.scrambleMb` -/

@[simp] theorem State.scrambleMb_params (i : Nat) (cs id d0 d1 : Word) (flag : Bool) (s : State) :
    (s.scrambleMb i cs id d0 d1 flag).params = s.params := by
  simp only [State.scrambleMb, State.assignFlag_params, State.setMbWord_params]
@[simp] theorem State.scrambleMb_seq (i : Nat) (cs id d0 d1 : Word) (flag : Bool) (s : State) :
    (s.scrambleMb i cs id d0 d1 flag).seq = s.seq := by
  simp only [State.scrambleMb, State.assignFlag_seq, State.setMbWord_seq]
@[simp] theorem State.scrambleMb_mode (i : Nat) (cs id d0 d1 : Word) (flag : Bool) (s : State) :
    (s.scrambleMb i cs id d0 d1 flag).mode = s.mode := by
  simp only [State.scrambleMb, State.assignFlag_mode, State.setMbWord_mode]
@[simp] theorem State.scrambleMb_maxMailbox (i : Nat) (cs id d0 d1 : Word) (flag : Bool) (s : State) :
    (s.scrambleMb i cs id d0 d1 flag).maxMailbox = s.maxMailbox := by
  simp only [State.scrambleMb, State.assignFlag_maxMailbox, State.setMbWord_maxMailbox]
@[simp] theorem State.scrambleMb_result (i : Nat) (cs id d0 d1 : Word) (flag : Bool) (s : State) :
    (s.scrambleMb i cs id d0 d1 flag).result = s.result := by
  simp only [State.scrambleMb, State.assignFlag_result, State.setMbWord_result]
@[simp] theorem State.scrambleMb_report (i : Nat) (cs id d0 d1 : Word) (flag : Bool) (s : State) :
    (s.scrambleMb i cs id d0 d1 flag).report = s.report := by
  simp only [State.scrambleMb, State.assignFlag_report, State.setMbWord_report]
@[simp] theorem State.scrambleMb_work (i : Nat) (cs id d0 d1 : Word) (flag : Bool) (s : State) :
    (s.scrambleMb i cs id d0 d1 flag).work = s.work := by
  simp only [State.scrambleMb, State.assignFlag_work, State.setMbWord_work]
@[simp] theorem State.scrambleMb_refusalMark (i : Nat) (cs id d0 d1 : Word) (flag : Bool) (s : State) :
    (s.scrambleMb i cs id d0 d1 flag).refusalMark = s.refusalMark := by
  simp only [State.scrambleMb, State.assignFlag_refusalMark, State.setMbWord_refusalMark]
@[simp] theorem State.scrambleMb_cmd (i : Nat) (cs id d0 d1 : Word) (flag : Bool) (s : State) :
    (s.scrambleMb i cs id d0 d1 flag).cmd = s.cmd := by
  simp only [State.scrambleMb, State.assignFlag_cmd, State.setMbWord_cmd]
@[simp] theorem State.scrambleMb_ops (i : Nat) (cs id d0 d1 : Word) (flag : Bool) (s : State) :
    (s.scrambleMb i cs id d0 d1 flag).ops = s.ops := by
  simp only [State.scrambleMb, State.assignFlag_ops, State.setMbWord_ops]
@[simp] theorem State.scrambleMb_gcr (i : Nat) (cs id d0 d1 : Word) (flag : Bool) (s : State) :
    (s.scrambleMb i cs id d0 d1 flag).gcr = s.gcr := by
  simp only [State.scrambleMb, State.assignFlag_gcr, State.setMbWord_gcr]
@[simp] theorem State.scrambleMb_btr (i : Nat) (cs id d0 d1 : Word) (flag : Bool) (s : State) :
    (s.scrambleMb i cs id d0 d1 flag).btr = s.btr := by
  simp only [State.scrambleMb, State.assignFlag_btr, State.setMbWord_btr]
@[simp] theorem State.scrambleMb_rxmask (i : Nat) (cs id d0 d1 : Word) (flag : Bool) (s : State) :
    (s.scrambleMb i cs id d0 d1 flag).rxmask = s.rxmask := by
  simp only [State.scrambleMb, State.assignFlag_rxmask, State.setMbWord_rxmask]
@[simp] theorem State.scrambleMb_timer (i : Nat) (cs id d0 d1 : Word) (flag : Bool) (s : State) :
    (s.scrambleMb i cs id d0 d1 flag).timer = s.timer := by
  simp only [State.scrambleMb, State.assignFlag_timer, State.setMbWord_timer]
@[simp] theorem State.scrambleMb_lock (i : Nat) (cs id d0 d1 : Word) (flag : Bool) (s : State) :
    (s.scrambleMb i cs id d0 d1 flag).lock = s.lock := by
  simp only [State.scrambleMb, State.assignFlag_lock, State.setMbWord_lock]
@[simp] theorem State.scrambleMb_abortReq (i : Nat) (cs id d0 d1 : Word) (flag : Bool) (s : State) :
    (s.scrambleMb i cs id d0 d1 flag).abortReq = s.abortReq := by
  simp only [State.scrambleMb, State.assignFlag_abortReq, State.setMbWord_abortReq]
@[simp] theorem State.scrambleMb_rxBegun (i : Nat) (cs id d0 d1 : Word) (flag : Bool) (s : State) :
    (s.scrambleMb i cs id d0 d1 flag).rxBegun = s.rxBegun := by
  simp only [State.scrambleMb, State.assignFlag_rxBegun, State.setMbWord_rxBegun]
@[simp] theorem State.scrambleMb_history (i : Nat) (cs id d0 d1 : Word) (flag : Bool) (s : State) :
    (s.scrambleMb i cs id d0 d1 flag).history = s.history := by
  simp only [State.scrambleMb, State.assignFlag_history, State.setMbWord_history]
@[simp] theorem State.scrambleMb_script (i : Nat) (cs id d0 d1 : Word) (flag : Bool) (s : State) :
    (s.scrambleMb i cs id d0 d1 flag).script = s.script := by
  simp only [State.scrambleMb, State.assignFlag_script, State.setMbWord_script]
@[simp] theorem State.scrambleMb_tick (i : Nat) (cs id d0 d1 : Word) (flag : Bool) (s : State) :
    (s.scrambleMb i cs id d0 d1 flag).tick = s.tick := by
  simp only [State.scrambleMb, State.assignFlag_tick, State.setMbWord_tick]

/-! ## `State.noteCsWrite` -/

@[simp] theorem State.noteCsWrite_params (i : Nat) (v : Word) (s : State) :
    (s.noteCsWrite i v).params = s.params := rfl
@[simp] theorem State.noteCsWrite_seq (i : Nat) (v : Word) (s : State) :
    (s.noteCsWrite i v).seq = s.seq := rfl
@[simp] theorem State.noteCsWrite_mode (i : Nat) (v : Word) (s : State) :
    (s.noteCsWrite i v).mode = s.mode := rfl
@[simp] theorem State.noteCsWrite_maxMailbox (i : Nat) (v : Word) (s : State) :
    (s.noteCsWrite i v).maxMailbox = s.maxMailbox := rfl
@[simp] theorem State.noteCsWrite_result (i : Nat) (v : Word) (s : State) :
    (s.noteCsWrite i v).result = s.result := rfl
@[simp] theorem State.noteCsWrite_report (i : Nat) (v : Word) (s : State) :
    (s.noteCsWrite i v).report = s.report := rfl
@[simp] theorem State.noteCsWrite_work (i : Nat) (v : Word) (s : State) :
    (s.noteCsWrite i v).work = s.work := rfl
@[simp] theorem State.noteCsWrite_refusalMark (i : Nat) (v : Word) (s : State) :
    (s.noteCsWrite i v).refusalMark = s.refusalMark := rfl
@[simp] theorem State.noteCsWrite_cmd (i : Nat) (v : Word) (s : State) :
    (s.noteCsWrite i v).cmd = s.cmd := rfl
@[simp] theorem State.noteCsWrite_ops (i : Nat) (v : Word) (s : State) :
    (s.noteCsWrite i v).ops = s.ops := rfl
@[simp] theorem State.noteCsWrite_gcr (i : Nat) (v : Word) (s : State) :
    (s.noteCsWrite i v).gcr = s.gcr := rfl
@[simp] theorem State.noteCsWrite_btr (i : Nat) (v : Word) (s : State) :
    (s.noteCsWrite i v).btr = s.btr := rfl
@[simp] theorem State.noteCsWrite_rxmask (i : Nat) (v : Word) (s : State) :
    (s.noteCsWrite i v).rxmask = s.rxmask := rfl
@[simp] theorem State.noteCsWrite_iflag (i : Nat) (v : Word) (s : State) :
    (s.noteCsWrite i v).iflag = s.iflag := rfl
@[simp] theorem State.noteCsWrite_timer (i : Nat) (v : Word) (s : State) :
    (s.noteCsWrite i v).timer = s.timer := rfl
@[simp] theorem State.noteCsWrite_mem (i : Nat) (v : Word) (s : State) :
    (s.noteCsWrite i v).mem = s.mem := rfl
@[simp] theorem State.noteCsWrite_lock (i : Nat) (v : Word) (s : State) :
    (s.noteCsWrite i v).lock = s.lock := rfl
@[simp] theorem State.noteCsWrite_rxBegun (i : Nat) (v : Word) (s : State) : (s.noteCsWrite i v).rxBegun = removeIndex i s.rxBegun := rfl
@[simp] theorem State.noteCsWrite_history (i : Nat) (v : Word) (s : State) :
    (s.noteCsWrite i v).history = s.history := rfl
@[simp] theorem State.noteCsWrite_script (i : Nat) (v : Word) (s : State) :
    (s.noteCsWrite i v).script = s.script := rfl
@[simp] theorem State.noteCsWrite_tick (i : Nat) (v : Word) (s : State) :
    (s.noteCsWrite i v).tick = s.tick := rfl

/-! ## `State.afterRead` -/

@[simp] theorem State.afterRead_params (r : Reg) (s : State) : (s.afterRead r).params = s.params := by
  cases r <;> rfl
@[simp] theorem State.afterRead_seq (r : Reg) (s : State) : (s.afterRead r).seq = s.seq := by
  cases r <;> rfl
@[simp] theorem State.afterRead_mode (r : Reg) (s : State) : (s.afterRead r).mode = s.mode := by
  cases r <;> rfl
@[simp] theorem State.afterRead_maxMailbox (r : Reg) (s : State) : (s.afterRead r).maxMailbox = s.maxMailbox := by
  cases r <;> rfl
@[simp] theorem State.afterRead_result (r : Reg) (s : State) : (s.afterRead r).result = s.result := by
  cases r <;> rfl
@[simp] theorem State.afterRead_report (r : Reg) (s : State) : (s.afterRead r).report = s.report := by
  cases r <;> rfl
@[simp] theorem State.afterRead_work (r : Reg) (s : State) : (s.afterRead r).work = s.work := by
  cases r <;> rfl
@[simp] theorem State.afterRead_refusalMark (r : Reg) (s : State) : (s.afterRead r).refusalMark = s.refusalMark := by
  cases r <;> rfl
@[simp] theorem State.afterRead_cmd (r : Reg) (s : State) : (s.afterRead r).cmd = s.cmd := by
  cases r <;> rfl
@[simp] theorem State.afterRead_ops (r : Reg) (s : State) : (s.afterRead r).ops = s.ops := by
  cases r <;> rfl
@[simp] theorem State.afterRead_gcr (r : Reg) (s : State) : (s.afterRead r).gcr = s.gcr := by
  cases r <;> rfl
@[simp] theorem State.afterRead_btr (r : Reg) (s : State) : (s.afterRead r).btr = s.btr := by
  cases r <;> rfl
@[simp] theorem State.afterRead_rxmask (r : Reg) (s : State) : (s.afterRead r).rxmask = s.rxmask := by
  cases r <;> rfl
@[simp] theorem State.afterRead_iflag (r : Reg) (s : State) : (s.afterRead r).iflag = s.iflag := by
  cases r <;> rfl
@[simp] theorem State.afterRead_timer (r : Reg) (s : State) : (s.afterRead r).timer = s.timer := by
  cases r <;> rfl
@[simp] theorem State.afterRead_mem (r : Reg) (s : State) : (s.afterRead r).mem = s.mem := by
  cases r <;> rfl
@[simp] theorem State.afterRead_abortReq (r : Reg) (s : State) : (s.afterRead r).abortReq = s.abortReq := by
  cases r <;> rfl
@[simp] theorem State.afterRead_rxBegun (r : Reg) (s : State) : (s.afterRead r).rxBegun = s.rxBegun := by
  cases r <;> rfl
@[simp] theorem State.afterRead_script (r : Reg) (s : State) : (s.afterRead r).script = s.script := by
  cases r <;> rfl
@[simp] theorem State.afterRead_tick (r : Reg) (s : State) : (s.afterRead r).tick = s.tick := by
  cases r <;> rfl

/-! ## `State.pokeMb` -/

@[simp] theorem State.pokeMb_params (i : Nat) (w : MbWord) (v : Word) (s : State) : (s.pokeMb i w v).params = s.params := by
  unfold State.pokeMb; split <;> [rfl; cases w <;> simp only [State.setMbWord_params, State.noteCsWrite_params]]
@[simp] theorem State.pokeMb_seq (i : Nat) (w : MbWord) (v : Word) (s : State) : (s.pokeMb i w v).seq = s.seq := by
  unfold State.pokeMb; split <;> [rfl; cases w <;> simp only [State.setMbWord_seq, State.noteCsWrite_seq]]
@[simp] theorem State.pokeMb_mode (i : Nat) (w : MbWord) (v : Word) (s : State) : (s.pokeMb i w v).mode = s.mode := by
  unfold State.pokeMb; split <;> [rfl; cases w <;> simp only [State.setMbWord_mode, State.noteCsWrite_mode]]
@[simp] theorem State.pokeMb_maxMailbox (i : Nat) (w : MbWord) (v : Word) (s : State) : (s.pokeMb i w v).maxMailbox = s.maxMailbox := by
  unfold State.pokeMb; split <;> [rfl; cases w <;> simp only [State.setMbWord_maxMailbox, State.noteCsWrite_maxMailbox]]
@[simp] theorem State.pokeMb_result (i : Nat) (w : MbWord) (v : Word) (s : State) : (s.pokeMb i w v).result = s.result := by
  unfold State.pokeMb; split <;> [rfl; cases w <;> simp only [State.setMbWord_result, State.noteCsWrite_result]]
@[simp] theorem State.pokeMb_report (i : Nat) (w : MbWord) (v : Word) (s : State) : (s.pokeMb i w v).report = s.report := by
  unfold State.pokeMb; split <;> [rfl; cases w <;> simp only [State.setMbWord_report, State.noteCsWrite_report]]
@[simp] theorem State.pokeMb_work (i : Nat) (w : MbWord) (v : Word) (s : State) : (s.pokeMb i w v).work = s.work := by
  unfold State.pokeMb; split <;> [rfl; cases w <;> simp only [State.setMbWord_work, State.noteCsWrite_work]]
@[simp] theorem State.pokeMb_refusalMark (i : Nat) (w : MbWord) (v : Word) (s : State) : (s.pokeMb i w v).refusalMark = s.refusalMark := by
  unfold State.pokeMb; split <;> [rfl; cases w <;> simp only [State.setMbWord_refusalMark, State.noteCsWrite_refusalMark]]
@[simp] theorem State.pokeMb_cmd (i : Nat) (w : MbWord) (v : Word) (s : State) : (s.pokeMb i w v).cmd = s.cmd := by
  unfold State.pokeMb; split <;> [rfl; cases w <;> simp only [State.setMbWord_cmd, State.noteCsWrite_cmd]]
@[simp] theorem State.pokeMb_ops (i : Nat) (w : MbWord) (v : Word) (s : State) : (s.pokeMb i w v).ops = s.ops := by
  unfold State.pokeMb; split <;> [rfl; cases w <;> simp only [State.setMbWord_ops, State.noteCsWrite_ops]]
@[simp] theorem State.pokeMb_gcr (i : Nat) (w : MbWord) (v : Word) (s : State) : (s.pokeMb i w v).gcr = s.gcr := by
  unfold State.pokeMb; split <;> [rfl; cases w <;> simp only [State.setMbWord_gcr, State.noteCsWrite_gcr]]
@[simp] theorem State.pokeMb_btr (i : Nat) (w : MbWord) (v : Word) (s : State) : (s.pokeMb i w v).btr = s.btr := by
  unfold State.pokeMb; split <;> [rfl; cases w <;> simp only [State.setMbWord_btr, State.noteCsWrite_btr]]
@[simp] theorem State.pokeMb_rxmask (i : Nat) (w : MbWord) (v : Word) (s : State) : (s.pokeMb i w v).rxmask = s.rxmask := by
  unfold State.pokeMb; split <;> [rfl; cases w <;> simp only [State.setMbWord_rxmask, State.noteCsWrite_rxmask]]
@[simp] theorem State.pokeMb_iflag (i : Nat) (w : MbWord) (v : Word) (s : State) : (s.pokeMb i w v).iflag = s.iflag := by
  unfold State.pokeMb; split <;> [rfl; cases w <;> simp only [State.setMbWord_iflag, State.noteCsWrite_iflag]]
@[simp] theorem State.pokeMb_timer (i : Nat) (w : MbWord) (v : Word) (s : State) : (s.pokeMb i w v).timer = s.timer := by
  unfold State.pokeMb; split <;> [rfl; cases w <;> simp only [State.setMbWord_timer, State.noteCsWrite_timer]]
@[simp] theorem State.pokeMb_lock (i : Nat) (w : MbWord) (v : Word) (s : State) : (s.pokeMb i w v).lock = s.lock := by
  unfold State.pokeMb; split <;> [rfl; cases w <;> simp only [State.setMbWord_lock, State.noteCsWrite_lock]]
@[simp] theorem State.pokeMb_history (i : Nat) (w : MbWord) (v : Word) (s : State) : (s.pokeMb i w v).history = s.history := by
  unfold State.pokeMb; split <;> [rfl; cases w <;> simp only [State.setMbWord_history, State.noteCsWrite_history]]
@[simp] theorem State.pokeMb_script (i : Nat) (w : MbWord) (v : Word) (s : State) : (s.pokeMb i w v).script = s.script := by
  unfold State.pokeMb; split <;> [rfl; cases w <;> simp only [State.setMbWord_script, State.noteCsWrite_script]]
@[simp] theorem State.pokeMb_tick (i : Nat) (w : MbWord) (v : Word) (s : State) : (s.pokeMb i w v).tick = s.tick := by
  unfold State.pokeMb; split <;> [rfl; cases w <;> simp only [State.setMbWord_tick, State.noteCsWrite_tick]]

/-! ## `State.poke` -/

@[simp] theorem State.poke_params (r : Reg) (v : Word) (s : State) : (s.poke r v).params = s.params := by
  cases r <;> simp only [State.poke, State.pokeMb_params]; split <;> rfl
@[simp] theorem State.poke_seq (r : Reg) (v : Word) (s : State) : (s.poke r v).seq = s.seq := by
  cases r <;> simp only [State.poke, State.pokeMb_seq]; split <;> rfl
@[simp] theorem State.poke_mode (r : Reg) (v : Word) (s : State) : (s.poke r v).mode = s.mode := by
  cases r <;> simp only [State.poke, State.pokeMb_mode]; split <;> rfl
@[simp] theorem State.poke_maxMailbox (r : Reg) (v : Word) (s : State) : (s.poke r v).maxMailbox = s.maxMailbox := by
  cases r <;> simp only [State.poke, State.pokeMb_maxMailbox]; split <;> rfl
@[simp] theorem State.poke_result (r : Reg) (v : Word) (s : State) : (s.poke r v).result = s.result := by
  cases r <;> simp only [State.poke, State.pokeMb_result]; split <;> rfl
@[simp] theorem State.poke_report (r : Reg) (v : Word) (s : State) : (s.poke r v).report = s.report := by
  cases r <;> simp only [State.poke, State.pokeMb_report]; split <;> rfl
@[simp] theorem State.poke_work (r : Reg) (v : Word) (s : State) : (s.poke r v).work = s.work := by
  cases r <;> simp only [State.poke, State.pokeMb_work]; split <;> rfl
@[simp] theorem State.poke_refusalMark (r : Reg) (v : Word) (s : State) : (s.poke r v).refusalMark = s.refusalMark := by
  cases r <;> simp only [State.poke, State.pokeMb_refusalMark]; split <;> rfl
@[simp] theorem State.poke_cmd (r : Reg) (v : Word) (s : State) : (s.poke r v).cmd = s.cmd := by
  cases r <;> simp only [State.poke, State.pokeMb_cmd]; split <;> rfl
@[simp] theorem State.poke_ops (r : Reg) (v : Word) (s : State) : (s.poke r v).ops = s.ops := by
  cases r <;> simp only [State.poke, State.pokeMb_ops]; split <;> rfl
@[simp] theorem State.poke_timer (r : Reg) (v : Word) (s : State) : (s.poke r v).timer = s.timer := by
  cases r <;> simp only [State.poke, State.pokeMb_timer]; split <;> rfl
@[simp] theorem State.poke_lock (r : Reg) (v : Word) (s : State) : (s.poke r v).lock = s.lock := by
  cases r <;> simp only [State.poke, State.pokeMb_lock]; split <;> rfl
@[simp] theorem State.poke_history (r : Reg) (v : Word) (s : State) : (s.poke r v).history = s.history := by
  cases r <;> simp only [State.poke, State.pokeMb_history]; split <;> rfl
@[simp] theorem State.poke_script (r : Reg) (v : Word) (s : State) : (s.poke r v).script = s.script := by
  cases r <;> simp only [State.poke, State.pokeMb_script]; split <;> rfl
@[simp] theorem State.poke_tick (r : Reg) (v : Word) (s : State) : (s.poke r v).tick = s.tick := by
  cases r <;> simp only [State.poke, State.pokeMb_tick]; split <;> rfl

/-! ## `State.engageLock` -/

@[simp] theorem State.engageLock_params (i : Nat) (c : Word) (s : State) : (s.engageLock i c).params = s.params := by
  unfold State.engageLock; split <;> rfl
@[simp] theorem State.engageLock_seq (i : Nat) (c : Word) (s : State) : (s.engageLock i c).seq = s.seq := by
  unfold State.engageLock; split <;> rfl
@[simp] theorem State.engageLock_mode (i : Nat) (c : Word) (s : State) : (s.engageLock i c).mode = s.mode := by
  unfold State.engageLock; split <;> rfl
@[simp] theorem State.engageLock_maxMailbox (i : Nat) (c : Word) (s : State) : (s.engageLock i c).maxMailbox = s.maxMailbox := by
  unfold State.engageLock; split <;> rfl
@[simp] theorem State.engageLock_result (i : Nat) (c : Word) (s : State) : (s.engageLock i c).result = s.result := by
  unfold State.engageLock; split <;> rfl
@[simp] theorem State.engageLock_report (i : Nat) (c : Word) (s : State) : (s.engageLock i c).report = s.report := by
  unfold State.engageLock; split <;> rfl
@[simp] theorem State.engageLock_work (i : Nat) (c : Word) (s : State) : (s.engageLock i c).work = s.work := by
  unfold State.engageLock; split <;> rfl
@[simp] theorem State.engageLock_refusalMark (i : Nat) (c : Word) (s : State) : (s.engageLock i c).refusalMark = s.refusalMark := by
  unfold State.engageLock; split <;> rfl
@[simp] theorem State.engageLock_cmd (i : Nat) (c : Word) (s : State) : (s.engageLock i c).cmd = s.cmd := by
  unfold State.engageLock; split <;> rfl
@[simp] theorem State.engageLock_ops (i : Nat) (c : Word) (s : State) : (s.engageLock i c).ops = s.ops := by
  unfold State.engageLock; split <;> rfl
@[simp] theorem State.engageLock_gcr (i : Nat) (c : Word) (s : State) : (s.engageLock i c).gcr = s.gcr := by
  unfold State.engageLock; split <;> rfl
@[simp] theorem State.engageLock_btr (i : Nat) (c : Word) (s : State) : (s.engageLock i c).btr = s.btr := by
  unfold State.engageLock; split <;> rfl
@[simp] theorem State.engageLock_rxmask (i : Nat) (c : Word) (s : State) : (s.engageLock i c).rxmask = s.rxmask := by
  unfold State.engageLock; split <;> rfl
@[simp] theorem State.engageLock_iflag (i : Nat) (c : Word) (s : State) : (s.engageLock i c).iflag = s.iflag := by
  unfold State.engageLock; split <;> rfl
@[simp] theorem State.engageLock_timer (i : Nat) (c : Word) (s : State) : (s.engageLock i c).timer = s.timer := by
  unfold State.engageLock; split <;> rfl
@[simp] theorem State.engageLock_mem (i : Nat) (c : Word) (s : State) : (s.engageLock i c).mem = s.mem := by
  unfold State.engageLock; split <;> rfl
@[simp] theorem State.engageLock_abortReq (i : Nat) (c : Word) (s : State) : (s.engageLock i c).abortReq = s.abortReq := by
  unfold State.engageLock; split <;> rfl
@[simp] theorem State.engageLock_rxBegun (i : Nat) (c : Word) (s : State) : (s.engageLock i c).rxBegun = s.rxBegun := by
  unfold State.engageLock; split <;> rfl
@[simp] theorem State.engageLock_history (i : Nat) (c : Word) (s : State) : (s.engageLock i c).history = s.history := by
  unfold State.engageLock; split <;> rfl
@[simp] theorem State.engageLock_script (i : Nat) (c : Word) (s : State) : (s.engageLock i c).script = s.script := by
  unfold State.engageLock; split <;> rfl
@[simp] theorem State.engageLock_tick (i : Nat) (c : Word) (s : State) : (s.engageLock i c).tick = s.tick := by
  unfold State.engageLock; split <;> rfl

/-! ## `State.afterWrite`: the poke, with an event -/

@[simp] theorem State.afterWrite_params (r : Reg) (v : Word) (s : State) : (s.afterWrite r v).params = s.params := by
  simp [State.afterWrite]
@[simp] theorem State.afterWrite_seq (r : Reg) (v : Word) (s : State) : (s.afterWrite r v).seq = s.seq := by
  simp [State.afterWrite]
@[simp] theorem State.afterWrite_mode (r : Reg) (v : Word) (s : State) : (s.afterWrite r v).mode = s.mode := by
  simp [State.afterWrite]
@[simp] theorem State.afterWrite_maxMailbox (r : Reg) (v : Word) (s : State) : (s.afterWrite r v).maxMailbox = s.maxMailbox := by
  simp [State.afterWrite]
@[simp] theorem State.afterWrite_result (r : Reg) (v : Word) (s : State) : (s.afterWrite r v).result = s.result := by
  simp [State.afterWrite]
@[simp] theorem State.afterWrite_report (r : Reg) (v : Word) (s : State) : (s.afterWrite r v).report = s.report := by
  simp [State.afterWrite]
@[simp] theorem State.afterWrite_work (r : Reg) (v : Word) (s : State) : (s.afterWrite r v).work = s.work := by
  simp [State.afterWrite]
@[simp] theorem State.afterWrite_refusalMark (r : Reg) (v : Word) (s : State) : (s.afterWrite r v).refusalMark = s.refusalMark := by
  simp [State.afterWrite]
@[simp] theorem State.afterWrite_cmd (r : Reg) (v : Word) (s : State) : (s.afterWrite r v).cmd = s.cmd := by
  simp [State.afterWrite]
@[simp] theorem State.afterWrite_ops (r : Reg) (v : Word) (s : State) : (s.afterWrite r v).ops = s.ops := by
  simp [State.afterWrite]
@[simp] theorem State.afterWrite_gcr (r : Reg) (v : Word) (s : State) :
    (s.afterWrite r v).gcr = (s.poke r v).gcr := rfl
@[simp] theorem State.afterWrite_btr (r : Reg) (v : Word) (s : State) :
    (s.afterWrite r v).btr = (s.poke r v).btr := rfl
@[simp] theorem State.afterWrite_rxmask (r : Reg) (v : Word) (s : State) :
    (s.afterWrite r v).rxmask = (s.poke r v).rxmask := rfl
@[simp] theorem State.afterWrite_iflag (r : Reg) (v : Word) (s : State) :
    (s.afterWrite r v).iflag = (s.poke r v).iflag := rfl
@[simp] theorem State.afterWrite_timer (r : Reg) (v : Word) (s : State) : (s.afterWrite r v).timer = s.timer := by
  simp [State.afterWrite]
@[simp] theorem State.afterWrite_mem (r : Reg) (v : Word) (s : State) :
    (s.afterWrite r v).mem = (s.poke r v).mem := rfl
@[simp] theorem State.afterWrite_lock (r : Reg) (v : Word) (s : State) : (s.afterWrite r v).lock = s.lock := by
  simp [State.afterWrite]
@[simp] theorem State.afterWrite_abortReq (r : Reg) (v : Word) (s : State) :
    (s.afterWrite r v).abortReq = (s.poke r v).abortReq := rfl
@[simp] theorem State.afterWrite_rxBegun (r : Reg) (v : Word) (s : State) :
    (s.afterWrite r v).rxBegun = (s.poke r v).rxBegun := rfl
@[simp] theorem State.afterWrite_history (r : Reg) (v : Word) (s : State) :
    (s.afterWrite r v).history = .write r v :: s.history := rfl
@[simp] theorem State.afterWrite_script (r : Reg) (v : Word) (s : State) : (s.afterWrite r v).script = s.script := by
  simp [State.afterWrite]
@[simp] theorem State.afterWrite_tick (r : Reg) (v : Word) (s : State) : (s.afterWrite r v).tick = s.tick := by
  simp [State.afterWrite]

end Sys2Proof.Machine
end

