-- ==== Sys2Proof/Laws/Fields.lean ====
section
/-! SUPPORT. Bit-level laws of field updates and masked writes, and what a register write does to each named bit of GCR
(20_memory.md R70). -/

namespace Sys2Proof.Machine

theorem getLsbD_blend (m a v : Word) (k : Nat) :
    (blend m a v).getLsbD k = if m.getLsbD k then v.getLsbD k else a.getLsbD k := by
  by_cases hk : k < 32
  · cases hm : m.getLsbD k <;>
      simp only [blend, BitVec.getLsbD_or, BitVec.getLsbD_and, BitVec.getLsbD_not, hk, hm] <;> simp
  · simp [blend, BitVec.getLsbD_of_ge _ k (Nat.le_of_not_lt hk)]

/-- The bits of a field's mask. -/
def Field.covers (f : Field) (k : Nat) : Bool :=
  decide (f.lo ≤ k) && decide (k < f.lo + f.width) && decide (k < 32)

theorem getLsbD_mask (f : Field) (k : Nat) : f.mask.getLsbD k = f.covers k := by
  simp only [Field.mask, Field.covers, BitVec.getLsbD_shiftLeft, BitVec.getLsbD_ofNat, Nat.testBit_two_pow_sub_one]
  rw [Bool.eq_iff_iff]
  simp only [Bool.and_eq_true, decide_eq_true_eq, Bool.not_eq_true', decide_eq_false_iff_not]
  omega

/-- Bit `k` of a word with a field replaced. -/
theorem getLsbD_set (f : Field) (w : Word) (v k : Nat) :
    (f.set w v).getLsbD k = if f.covers k then v.testBit (k - f.lo) else w.getLsbD k := by
  rw [Field.set, getLsbD_blend, getLsbD_mask]
  by_cases h : f.covers k = true
  · simp only [h, if_true, BitVec.getLsbD_shiftLeft, BitVec.getLsbD_ofNat]
    simp only [Field.covers, Bool.and_eq_true, decide_eq_true_eq] at h
    simp [h.2, show ¬ k < f.lo by omega, show k - f.lo < 32 by omega]
  · simp [h]

theorem bit_set (f g : Field) (w : Word) (v : Nat) :
    f.bit (g.set w v) = if g.covers f.lo then v.testBit (f.lo - g.lo) else f.bit w := by
  simp only [Field.bit, getLsbD_set]

theorem bit_blend (f : Field) (m a v : Word) :
    f.bit (blend m a v) = if m.getLsbD f.lo then f.bit v else f.bit a := by
  simp only [Field.bit, getLsbD_blend]

/-- Two words that agree on a field's bits have the same field value. -/
theorem get_congr {f : Field} {a b : Word} (h : ∀ k, f.lo ≤ k → k < f.lo + f.width → a.getLsbD k = b.getLsbD k) :
    f.get a = f.get b := by
  have : a.extractLsb' f.lo f.width = b.extractLsb' f.lo f.width := by
    apply BitVec.eq_of_getLsbD_eq
    intro i hi
    simp [hi, h (f.lo + i) (by omega) (by omega)]
  simp only [Field.get, this]

/-- A field replaced by a value that fits reads back as that value. -/
theorem get_set_same {f : Field} (w : Word) {v : Nat} (hv : v < 2 ^ f.width) (hf : f.lo + f.width ≤ 32) :
    f.get (f.set w v) = v := by
  have : (f.set w v).extractLsb' f.lo f.width = BitVec.ofNat f.width v := by
    apply BitVec.eq_of_getLsbD_eq
    intro i hi
    have hc : f.covers (f.lo + i) = true := by
      simp only [Field.covers, Bool.and_eq_true, decide_eq_true_eq]; omega
    simp only [BitVec.getLsbD_extractLsb', hi, getLsbD_set, hc, BitVec.getLsbD_ofNat]
    simp
  rw [Field.get, this, BitVec.toNat_ofNat, Nat.mod_eq_of_lt hv]

/-- Replacing a field leaves the value of every field that shares no bit with it. -/
theorem get_set_disjoint {f g : Field} (w : Word) (v : Nat)
    (hd : f.lo + f.width ≤ g.lo ∨ g.lo + g.width ≤ f.lo) : f.get (g.set w v) = f.get w := by
  apply get_congr
  intro k h1 h2
  rw [getLsbD_set, if_neg]
  simp only [Field.covers, Bool.and_eq_true, decide_eq_true_eq]
  omega

/-- The code field replaced reads back. -/
@[simp] theorem codeOf_withCode (c : Word) (v : BitVec 4) : codeOf (withCode c v) = v := by
  apply BitVec.eq_of_getLsbD_eq
  intro i hi
  have hc : Cs.code.covers (24 + i) = true := by
    show (decide (24 ≤ 24 + i) && decide (24 + i < 24 + 4) && decide (24 + i < 32)) = true
    simp only [Bool.and_eq_true, decide_eq_true_eq]; omega
  simp only [codeOf, withCode, BitVec.getLsbD_extractLsb', getLsbD_set, hc, hi, decide_true, Bool.true_and, if_true]
  simp only [Cs.code, Nat.add_sub_cancel_left, BitVec.getLsbD]

/-- A masked replacement that does not cover bits 27:24 leaves the code. -/
theorem codeOf_blend {m : Word} (hm : codeOf m = 0#4) (a v : Word) : codeOf (blend m a v) = codeOf a := by
  apply BitVec.eq_of_getLsbD_eq
  intro i hi
  have : m.getLsbD (24 + i) = false := by
    have := congrArg (fun x => x.getLsbD i) hm
    simpa [codeOf, hi] using this
  simp [codeOf, hi, getLsbD_blend, this]

@[simp] theorem codeOf_blend_reception (a v : Word) : codeOf (blend Cs.receptionMask a v) = codeOf a :=
  codeOf_blend (by decide) a v

@[simp] theorem codeOf_blend_timestamp (a v : Word) : codeOf (blend Cs.timestamp.mask a v) = codeOf a :=
  codeOf_blend (by decide) a v

/-- The code field of the control word the engine writes is the header's code (R101, R102). -/
@[simp] theorem codeOf_packCs {h : MailboxHeader} {f : CanFrame} (hf : CanFrame.wf f) :
    codeOf (packCs h f) = codeBits h.code := by
  have hd : dlcOf f < 16 := by
    cases f with
    | data id p => simp only [CanFrame.wf, decide_eq_true_eq] at hf; simp only [dlcOf]; omega
    | remote id => simp [dlcOf]
  apply BitVec.eq_of_getLsbD_eq
  intro i hi
  have h4 : ∀ k, 4 ≤ k → (dlcOf f).testBit k = false := fun k hk =>
    Nat.testBit_lt_two_pow (Nat.lt_of_lt_of_le hd (Nat.pow_le_pow_right (n := 2) (by omega) hk))
  have hb : ∀ (b : Bool) k, 0 < k → b.toNat.testBit k = false := fun b k hk =>
    Nat.testBit_lt_two_pow (Nat.lt_of_lt_of_le (Bool.toNat_lt b) (Nat.pow_le_pow_right (n := 2) (by omega) hk))
  simp only [codeOf, packCs, BitVec.getLsbD_extractLsb', BitVec.getLsbD_or, BitVec.getLsbD_shiftLeft,
    BitVec.getLsbD_ofNat, BitVec.getLsbD_setWidth, hi]
  simp [show 24 + i < 29 by omega, show ¬ 24 + i < 21 by omega, show ¬ 24 + i < 20 by omega, show 24 + i < 32 by omega,
    hb _ (24 + i - 21) (by omega), hb _ (24 + i - 20) (by omega), h4 (24 + i - 16) (by omega)]
  rcases (by omega : i = 0 ∨ i = 1 ∨ i = 2 ∨ i = 3) with rfl | rfl | rfl | rfl <;> simp

/-! ## The bits of GCR after a write (10_state.md R34, 20_memory.md R70) -/

theorem covers_eq (lo width k : Nat) :
    (Field.mk lo width).covers k = (decide (lo ≤ k) && decide (k < lo + width) && decide (k < 32)) := rfl

/-- Every bit of GCR after a write. -/
theorem getLsbD_gcrAfter (s : State) (v : Word) (k : Nat) :
    (s.gcrAfter v).getLsbD k =
      ((if s.gcrMask.getLsbD k then v.getLsbD k else s.gcr.getLsbD k) || (v.getLsbD k && Gcr.softrst.covers k)) := by
  rw [State.gcrAfter, BitVec.getLsbD_or, getLsbD_blend, BitVec.getLsbD_and, getLsbD_mask]

/-- Which bits of GCR a write changes now. -/
theorem getLsbD_gcrMask (s : State) (k : Nat) :
    s.gcrMask.getLsbD k =
      (Gcr.mdis.covers k || Gcr.frz.covers k || Gcr.halt.covers k ||
        (s.frzack && (Gcr.rfen.covers k || Gcr.srxdis.covers k || Gcr.irmq.covers k || Gcr.dma.covers k ||
          Gcr.maxmb.covers k))) := by
  unfold State.gcrMask
  split <;> rename_i h <;>
    simp only [Gcr.alwaysMask, Gcr.frozenMask, BitVec.getLsbD_or, getLsbD_mask, h, Bool.true_and, Bool.false_and,
      Bool.or_false]

@[simp] theorem afterWrite_gcr_mdis (v : Word) (s : State) : (s.afterWrite .gcr v).mdis = Gcr.mdis.bit v := by
  simp [State.mdis, State.poke, Field.bit, getLsbD_gcrAfter, getLsbD_gcrMask, show Gcr.mdis.covers Gcr.mdis.lo = true from rfl,
    show Gcr.softrst.covers Gcr.mdis.lo = false from rfl]

@[simp] theorem afterWrite_gcr_frz (v : Word) (s : State) : (s.afterWrite .gcr v).frz = Gcr.frz.bit v := by
  simp [State.frz, State.poke, Field.bit, getLsbD_gcrAfter, getLsbD_gcrMask, show Gcr.frz.covers Gcr.frz.lo = true from rfl,
    show Gcr.softrst.covers Gcr.frz.lo = false from rfl]

@[simp] theorem afterWrite_gcr_halt (v : Word) (s : State) : (s.afterWrite .gcr v).halt = Gcr.halt.bit v := by
  simp [State.halt, State.poke, Field.bit, getLsbD_gcrAfter, getLsbD_gcrMask, show Gcr.halt.covers Gcr.halt.lo = true from rfl,
    show Gcr.softrst.covers Gcr.halt.lo = false from rfl]

/-- No engine-writable field of GCR covers the bit of this field. -/
theorem gcrMask_outside {f : Field} (s : State)
    (h : (Gcr.mdis.covers f.lo || Gcr.frz.covers f.lo || Gcr.halt.covers f.lo || Gcr.rfen.covers f.lo ||
      Gcr.srxdis.covers f.lo || Gcr.irmq.covers f.lo || Gcr.dma.covers f.lo || Gcr.maxmb.covers f.lo) = false) :
    s.gcrMask.getLsbD f.lo = false := by
  simp only [Bool.or_eq_false_iff] at h
  simp [getLsbD_gcrMask, h]

@[simp] theorem afterWrite_gcr_softrst (v : Word) (s : State) :
    (s.afterWrite .gcr v).softrst = (s.softrst || Gcr.softrst.bit v) := by
  simp [State.softrst, State.poke, Field.bit, getLsbD_gcrAfter, gcrMask_outside (f := Gcr.softrst) s rfl,
    show Gcr.softrst.covers Gcr.softrst.lo = true from rfl]

@[simp] theorem afterWrite_gcr_frzack (v : Word) (s : State) : (s.afterWrite .gcr v).frzack = s.frzack := by
  simp [State.frzack, State.poke, Field.bit, getLsbD_gcrAfter, gcrMask_outside (f := Gcr.frzack) s rfl,
    show Gcr.softrst.covers Gcr.frzack.lo = false from rfl]

@[simp] theorem afterWrite_gcr_lpmack (v : Word) (s : State) : (s.afterWrite .gcr v).lpmack = s.lpmack := by
  simp [State.lpmack, State.poke, Field.bit, getLsbD_gcrAfter, gcrMask_outside (f := Gcr.lpmack) s rfl,
    show Gcr.softrst.covers Gcr.lpmack.lo = false from rfl]

/-- Bit `k` of a `Frozen`-only field of GCR after a write (R70): written while `FRZACK = 1`, kept otherwise. -/
theorem gcrAfter_frozenBit (s : State) (v : Word) {k : Nat}
    (h : (Gcr.rfen.covers k || Gcr.srxdis.covers k || Gcr.irmq.covers k || Gcr.dma.covers k || Gcr.maxmb.covers k) = true)
    (ha : (Gcr.mdis.covers k || Gcr.frz.covers k || Gcr.halt.covers k) = false) (hs : Gcr.softrst.covers k = false) :
    (s.gcrAfter v).getLsbD k = if s.frzack then v.getLsbD k else s.gcr.getLsbD k := by
  simp only [getLsbD_gcrAfter, getLsbD_gcrMask, h, ha, hs, Bool.and_true, Bool.false_or, Bool.and_false, Bool.or_false]

/-- `MAXMB` after a write (R70). -/
theorem afterWrite_gcr_maxmb (v : Word) (s : State) :
    (s.afterWrite .gcr v).maxmb = if s.frzack then Gcr.maxmb.get v else s.maxmb := by
  have key : ∀ k, Gcr.maxmb.lo ≤ k → k < Gcr.maxmb.lo + Gcr.maxmb.width →
      (s.gcrAfter v).getLsbD k = if s.frzack then v.getLsbD k else s.gcr.getLsbD k := by
    intro k h1 h2
    simp only [Gcr.maxmb] at h1 h2
    have e : k = 0 ∨ k = 1 ∨ k = 2 ∨ k = 3 ∨ k = 4 ∨ k = 5 ∨ k = 6 := by omega
    rcases e with rfl | rfl | rfl | rfl | rfl | rfl | rfl <;> exact gcrAfter_frozenBit s v rfl rfl rfl
  simp only [State.maxmb, State.afterWrite_gcr, State.poke]
  split <;> rename_i h <;> exact get_congr fun k h1 h2 => by rw [key k h1 h2]; simp [h]

end Sys2Proof.Machine
end

