-- ==== Sys2Proof/Laws/Memory.lean ====
section
/-! SUPPORT. The laws of the mailbox file as memory: a read after a write, and the canonical form kept by every write. -/

namespace Sys2Proof.Machine

theorem memWfFrom_mono {lo lo' : Nat} {m : List Host.Cell} (h : memWfFrom lo' m) (hle : lo ≤ lo') :
    memWfFrom lo m := by
  cases m with
  | nil => rfl
  | cons c m =>
    obtain ⟨a, v⟩ := c
    simp only [memWfFrom, Bool.and_eq_true, decide_eq_true_eq] at h ⊢
    exact ⟨⟨by omega, h.1.2⟩, h.2⟩

/-- Below every listed address a canonical memory reads as unlisted. -/
theorem readByte_below {lo : Nat} {m : List Host.Cell} (h : memWfFrom lo m) {a : Nat} (ha : a < lo) :
    readByte m a = unlistedByte := by
  cases m with
  | nil => rfl
  | cons c m =>
    obtain ⟨b, v⟩ := c
    simp only [memWfFrom, Bool.and_eq_true, decide_eq_true_eq] at h
    simp only [readByte]
    rw [if_neg (by omega), if_pos (by omega)]

theorem memWfFrom_writeByte {m : List Host.Cell} :
    ∀ {lo a : Nat} (v : Byte), memWfFrom lo m → lo ≤ a → memWfFrom lo (writeByte a v m) := by
  induction m with
  | nil =>
    intro lo a v _ hle
    by_cases hv : v = unlistedByte <;> simp [writeByte, hv, memWfFrom, hle]
  | cons c m ih =>
    intro lo a v h hle
    obtain ⟨b, u⟩ := c
    simp only [memWfFrom, Bool.and_eq_true, decide_eq_true_eq] at h
    obtain ⟨⟨hb, hu⟩, hm⟩ := h
    simp only [writeByte]
    split
    · split
      · simp [memWfFrom, hb, hu, hm]
      · rename_i hlt hv
        simp [memWfFrom, hle, hv, hu, hm, Nat.succ_le_of_lt hlt]
    · split
      · split
        · exact memWfFrom_mono hm (by omega)
        · subst_vars; simp [memWfFrom, *]
      · have := ih v hm (show b + 1 ≤ a by omega)
        simp [memWfFrom, hb, hu, this]

/-- Every byte write keeps the canonical form. -/
theorem wf_writeByte {m : List Host.Cell} (h : Memory.wf m) (a : Nat) (v : Byte) :
    Memory.wf (writeByte a v m) :=
  memWfFrom_writeByte v h (Nat.zero_le a)

/-- Every word write keeps the canonical form. -/
theorem wf_writeWord {m : List Host.Cell} (h : Memory.wf m) (a : Nat) (v : Word) :
    Memory.wf (writeWord a v m) := by
  simp only [writeWord]
  exact wf_writeByte (wf_writeByte (wf_writeByte (wf_writeByte h _ _) _ _) _ _) _ _

theorem readByte_writeByte_from {m : List Host.Cell} :
    ∀ {lo : Nat}, memWfFrom lo m → ∀ (a : Nat) (v : Byte) (b : Nat),
      readByte (writeByte a v m) b = if b = a then v else readByte m b := by
  induction m with
  | nil =>
    intro lo _ a v b
    by_cases hv : v = unlistedByte <;> by_cases hb : b = a <;> simp [writeByte, readByte, hv, hb]
  | cons c m ih =>
    intro lo h a v b
    obtain ⟨d, u⟩ := c
    simp only [memWfFrom, Bool.and_eq_true, decide_eq_true_eq] at h
    obtain ⟨⟨hd, hu⟩, hm⟩ := h
    have hlow : ∀ x, x < d + 1 → readByte m x = unlistedByte := fun x hx => readByte_below hm hx
    simp only [writeByte]
    split
    · split
      · by_cases hb : b = a
        · subst hb; simp only [readByte]; simp [show ¬ b = d by omega, *]
        · simp [hb]
      · by_cases hb : b = a
        · subst hb; simp [readByte]
        · simp only [readByte, hb, if_false]
          by_cases hba : b < a
          · simp [hba, show ¬ b = d by omega, show b < d by omega]
          · simp [hba]
    · split
      · rename_i _ had
        subst had
        split
        · rename_i hv
          by_cases hb : b = a
          · subst hb; rw [hlow b (by omega)]; simp [hv]
          · by_cases hba : b < a
            · rw [hlow b (by omega)]; simp [readByte, hb, hba]
            · simp [readByte, hb, hba]
        · by_cases hb : b = a <;> simp [readByte, hb]
      · simp only [readByte, ih hm a v b]
        by_cases hb : b = a
        · subst hb; simp [show ¬ b = d by omega, show ¬ b < d by omega]
        · simp [hb]

/-- A byte read after a byte write. -/
theorem readByte_writeByte {m : List Host.Cell} (h : Memory.wf m) (a : Nat) (v : Byte) (b : Nat) :
    readByte (writeByte a v m) b = if b = a then v else readByte m b :=
  readByte_writeByte_from h a v b

/-- A byte read after a word write: the four bytes of the word, most significant first, and every other as before. -/
theorem readByte_writeWord {m : List Host.Cell} (h : Memory.wf m) (a : Nat) (v : Word) (b : Nat) :
    readByte (writeWord a v m) b =
      if b = a + 3 then v.extractLsb' 0 8
      else if b = a + 2 then v.extractLsb' 8 8
      else if b = a + 1 then v.extractLsb' 16 8
      else if b = a then v.extractLsb' 24 8
      else readByte m b := by
  simp only [writeWord]
  rw [readByte_writeByte (wf_writeByte (wf_writeByte (wf_writeByte h _ _) _ _) _ _),
    readByte_writeByte (wf_writeByte (wf_writeByte h _ _) _ _), readByte_writeByte (wf_writeByte h _ _),
    readByte_writeByte h]

theorem word_of_bytes (v : Word) :
    v.extractLsb' 24 8 ++ v.extractLsb' 16 8 ++ v.extractLsb' 8 8 ++ v.extractLsb' 0 8 = v := by
  apply BitVec.eq_of_getLsbD_eq
  intro i hi
  simp only [BitVec.getLsbD_append, BitVec.getLsbD_extractLsb']
  by_cases h1 : i < 8
  · simp [h1]
  · by_cases h2 : i < 16
    · simp [h1, show i - 8 < 8 by omega, show 8 + (i - 8) = i by omega]
    · by_cases h3 : i < 24
      · simp [h1, show ¬ i - 8 < 8 by omega, show i - 8 - 8 < 8 by omega, show 16 + (i - 8 - 8) = i by omega]
      · simp [h1, show ¬ i - 8 < 8 by omega, show ¬ i - 8 - 8 < 8 by omega, show i - 8 - 8 - 8 < 8 by omega,
          show 24 + (i - 8 - 8 - 8) = i by omega]

/-- A word read returns the word last written there (R72). -/
theorem readWord_writeWord_same {m : List Host.Cell} (h : Memory.wf m) (a : Nat) (v : Word) :
    readWord (writeWord a v m) a = v := by
  simp only [readWord, readByte_writeWord h]
  simp [word_of_bytes]

/-- A word write leaves every word that shares no byte with it. -/
theorem readWord_writeWord_disjoint {m : List Host.Cell} (h : Memory.wf m) (a : Nat) (v : Word) {b : Nat}
    (hd : a + 4 ≤ b ∨ b + 4 ≤ a) : readWord (writeWord a v m) b = readWord m b := by
  have hb : ∀ k, k < 4 → readByte (writeWord a v m) (b + k) = readByte m (b + k) := by
    intro k hk
    rw [readByte_writeWord h, if_neg (by omega), if_neg (by omega), if_neg (by omega), if_neg (by omega)]
  simp only [readWord]
  rw [hb 1 (by omega), hb 2 (by omega), hb 3 (by omega)]
  have := hb 0 (by omega)
  simp only [Nat.add_zero] at this
  rw [this]

end Sys2Proof.Machine
end

