-- ==== Sys2Proof/Laws/Observe.lean ====
section
/-! SUPPORT. What the named updates of the state do to the values read off it: the bits of GCR, the flags and the mailbox
words. -/

namespace Sys2Proof.Machine

/-! ## `State.stay` -/

@[simp] theorem State.stay_mdis (p : Position) (i : Fin 32) (n : Nat) (s : State) : (s.stay p i n).mdis = s.mdis := by
  simp only [State.mdis, State.stay_gcr]
@[simp] theorem State.stay_frz (p : Position) (i : Fin 32) (n : Nat) (s : State) : (s.stay p i n).frz = s.frz := by
  simp only [State.frz, State.stay_gcr]
@[simp] theorem State.stay_halt (p : Position) (i : Fin 32) (n : Nat) (s : State) : (s.stay p i n).halt = s.halt := by
  simp only [State.halt, State.stay_gcr]
@[simp] theorem State.stay_softrst (p : Position) (i : Fin 32) (n : Nat) (s : State) : (s.stay p i n).softrst = s.softrst := by
  simp only [State.softrst, State.stay_gcr]
@[simp] theorem State.stay_frzack (p : Position) (i : Fin 32) (n : Nat) (s : State) : (s.stay p i n).frzack = s.frzack := by
  simp only [State.frzack, State.stay_gcr]
@[simp] theorem State.stay_lpmack (p : Position) (i : Fin 32) (n : Nat) (s : State) : (s.stay p i n).lpmack = s.lpmack := by
  simp only [State.lpmack, State.stay_gcr]
@[simp] theorem State.stay_maxmb (p : Position) (i : Fin 32) (n : Nat) (s : State) : (s.stay p i n).maxmb = s.maxmb := by
  simp only [State.maxmb, State.stay_gcr]
@[simp] theorem State.stay_active (p : Position) (i : Fin 32) (n : Nat) (s : State) : (s.stay p i n).active = s.active := by
  simp only [State.active, State.stay_lpmack, State.stay_frzack, State.stay_softrst]
@[simp] theorem State.stay_mbLive (j : Nat) (p : Position) (i : Fin 32) (n : Nat) (s : State) : (s.stay p i n).mbLive j = s.mbLive j := by
  unfold State.mbLive; rw [State.stay_active, State.stay_maxmb, State.stay_params]
@[simp] theorem State.stay_flag (j : Nat) (p : Position) (i : Fin 32) (n : Nat) (s : State) : (s.stay p i n).flag j = s.flag j := by
  simp only [State.flag, State.stay_iflag]
@[simp] theorem State.stay_mbAddr (j : Nat) (u : MbWord) (p : Position) (i : Fin 32) (n : Nat) (s : State) : (s.stay p i n).mbAddr j u = s.mbAddr j u := by
  simp only [State.mbAddr, State.stay_params]
@[simp] theorem State.stay_mbWord (j : Nat) (u : MbWord) (p : Position) (i : Fin 32) (n : Nat) (s : State) : (s.stay p i n).mbWord j u = s.mbWord j u := by
  simp only [State.mbWord, State.stay_mbAddr, State.stay_mem]
@[simp] theorem State.stay_mbCode (j : Nat) (p : Position) (i : Fin 32) (n : Nat) (s : State) : (s.stay p i n).mbCode j = s.mbCode j := by
  simp only [State.mbCode, State.stay_mbWord]

/-! ## `State.goto` -/

@[simp] theorem State.goto_mdis (p : Position) (i : Fin 32) (s : State) : (s.goto p i).mdis = s.mdis := by
  simp only [State.mdis, State.goto_gcr]
@[simp] theorem State.goto_frz (p : Position) (i : Fin 32) (s : State) : (s.goto p i).frz = s.frz := by
  simp only [State.frz, State.goto_gcr]
@[simp] theorem State.goto_halt (p : Position) (i : Fin 32) (s : State) : (s.goto p i).halt = s.halt := by
  simp only [State.halt, State.goto_gcr]
@[simp] theorem State.goto_softrst (p : Position) (i : Fin 32) (s : State) : (s.goto p i).softrst = s.softrst := by
  simp only [State.softrst, State.goto_gcr]
@[simp] theorem State.goto_frzack (p : Position) (i : Fin 32) (s : State) : (s.goto p i).frzack = s.frzack := by
  simp only [State.frzack, State.goto_gcr]
@[simp] theorem State.goto_lpmack (p : Position) (i : Fin 32) (s : State) : (s.goto p i).lpmack = s.lpmack := by
  simp only [State.lpmack, State.goto_gcr]
@[simp] theorem State.goto_maxmb (p : Position) (i : Fin 32) (s : State) : (s.goto p i).maxmb = s.maxmb := by
  simp only [State.maxmb, State.goto_gcr]
@[simp] theorem State.goto_active (p : Position) (i : Fin 32) (s : State) : (s.goto p i).active = s.active := by
  simp only [State.active, State.goto_lpmack, State.goto_frzack, State.goto_softrst]
@[simp] theorem State.goto_mbLive (j : Nat) (p : Position) (i : Fin 32) (s : State) : (s.goto p i).mbLive j = s.mbLive j := by
  unfold State.mbLive; rw [State.goto_active, State.goto_maxmb, State.goto_params]
@[simp] theorem State.goto_flag (j : Nat) (p : Position) (i : Fin 32) (s : State) : (s.goto p i).flag j = s.flag j := by
  simp only [State.flag, State.goto_iflag]
@[simp] theorem State.goto_mbAddr (j : Nat) (u : MbWord) (p : Position) (i : Fin 32) (s : State) : (s.goto p i).mbAddr j u = s.mbAddr j u := by
  simp only [State.mbAddr, State.goto_params]
@[simp] theorem State.goto_mbWord (j : Nat) (u : MbWord) (p : Position) (i : Fin 32) (s : State) : (s.goto p i).mbWord j u = s.mbWord j u := by
  simp only [State.mbWord, State.goto_mbAddr, State.goto_mem]
@[simp] theorem State.goto_mbCode (j : Nat) (p : Position) (i : Fin 32) (s : State) : (s.goto p i).mbCode j = s.mbCode j := by
  simp only [State.mbCode, State.goto_mbWord]

/-! ## `State.close` -/

@[simp] theorem State.close_mdis (r : Result) (q : Seq) (s : State) : (s.close r q).mdis = s.mdis := by
  simp only [State.mdis, State.close_gcr]
@[simp] theorem State.close_frz (r : Result) (q : Seq) (s : State) : (s.close r q).frz = s.frz := by
  simp only [State.frz, State.close_gcr]
@[simp] theorem State.close_halt (r : Result) (q : Seq) (s : State) : (s.close r q).halt = s.halt := by
  simp only [State.halt, State.close_gcr]
@[simp] theorem State.close_softrst (r : Result) (q : Seq) (s : State) : (s.close r q).softrst = s.softrst := by
  simp only [State.softrst, State.close_gcr]
@[simp] theorem State.close_frzack (r : Result) (q : Seq) (s : State) : (s.close r q).frzack = s.frzack := by
  simp only [State.frzack, State.close_gcr]
@[simp] theorem State.close_lpmack (r : Result) (q : Seq) (s : State) : (s.close r q).lpmack = s.lpmack := by
  simp only [State.lpmack, State.close_gcr]
@[simp] theorem State.close_maxmb (r : Result) (q : Seq) (s : State) : (s.close r q).maxmb = s.maxmb := by
  simp only [State.maxmb, State.close_gcr]
@[simp] theorem State.close_active (r : Result) (q : Seq) (s : State) : (s.close r q).active = s.active := by
  simp only [State.active, State.close_lpmack, State.close_frzack, State.close_softrst]
@[simp] theorem State.close_mbLive (j : Nat) (r : Result) (q : Seq) (s : State) : (s.close r q).mbLive j = s.mbLive j := by
  unfold State.mbLive; rw [State.close_active, State.close_maxmb, State.close_params]
@[simp] theorem State.close_flag (j : Nat) (r : Result) (q : Seq) (s : State) : (s.close r q).flag j = s.flag j := by
  simp only [State.flag, State.close_iflag]
@[simp] theorem State.close_mbAddr (j : Nat) (u : MbWord) (r : Result) (q : Seq) (s : State) : (s.close r q).mbAddr j u = s.mbAddr j u := by
  simp only [State.mbAddr, State.close_params]
@[simp] theorem State.close_mbWord (j : Nat) (u : MbWord) (r : Result) (q : Seq) (s : State) : (s.close r q).mbWord j u = s.mbWord j u := by
  simp only [State.mbWord, State.close_mbAddr, State.close_mem]
@[simp] theorem State.close_mbCode (j : Nat) (r : Result) (q : Seq) (s : State) : (s.close r q).mbCode j = s.mbCode j := by
  simp only [State.mbCode, State.close_mbWord]

/-! ## `State.refuse` -/

@[simp] theorem State.refuse_mdis (r : Refused) (s : State) : (s.refuse r).mdis = s.mdis := by
  simp only [State.mdis, State.refuse_gcr]
@[simp] theorem State.refuse_frz (r : Refused) (s : State) : (s.refuse r).frz = s.frz := by
  simp only [State.frz, State.refuse_gcr]
@[simp] theorem State.refuse_halt (r : Refused) (s : State) : (s.refuse r).halt = s.halt := by
  simp only [State.halt, State.refuse_gcr]
@[simp] theorem State.refuse_softrst (r : Refused) (s : State) : (s.refuse r).softrst = s.softrst := by
  simp only [State.softrst, State.refuse_gcr]
@[simp] theorem State.refuse_frzack (r : Refused) (s : State) : (s.refuse r).frzack = s.frzack := by
  simp only [State.frzack, State.refuse_gcr]
@[simp] theorem State.refuse_lpmack (r : Refused) (s : State) : (s.refuse r).lpmack = s.lpmack := by
  simp only [State.lpmack, State.refuse_gcr]
@[simp] theorem State.refuse_maxmb (r : Refused) (s : State) : (s.refuse r).maxmb = s.maxmb := by
  simp only [State.maxmb, State.refuse_gcr]
@[simp] theorem State.refuse_active (r : Refused) (s : State) : (s.refuse r).active = s.active := by
  simp only [State.active, State.refuse_lpmack, State.refuse_frzack, State.refuse_softrst]
@[simp] theorem State.refuse_mbLive (j : Nat) (r : Refused) (s : State) : (s.refuse r).mbLive j = s.mbLive j := by
  unfold State.mbLive; rw [State.refuse_active, State.refuse_maxmb, State.refuse_params]
@[simp] theorem State.refuse_flag (j : Nat) (r : Refused) (s : State) : (s.refuse r).flag j = s.flag j := by
  simp only [State.flag, State.refuse_iflag]
@[simp] theorem State.refuse_mbAddr (j : Nat) (u : MbWord) (r : Refused) (s : State) : (s.refuse r).mbAddr j u = s.mbAddr j u := by
  simp only [State.mbAddr, State.refuse_params]
@[simp] theorem State.refuse_mbWord (j : Nat) (u : MbWord) (r : Refused) (s : State) : (s.refuse r).mbWord j u = s.mbWord j u := by
  simp only [State.mbWord, State.refuse_mbAddr, State.refuse_mem]
@[simp] theorem State.refuse_mbCode (j : Nat) (r : Refused) (s : State) : (s.refuse r).mbCode j = s.mbCode j := by
  simp only [State.mbCode, State.refuse_mbWord]

/-! ## `State.endTurn` -/

@[simp] theorem State.endTurn_mdis (s : State) : (s.endTurn).mdis = s.mdis := by
  simp only [State.mdis, State.endTurn_gcr]
@[simp] theorem State.endTurn_frz (s : State) : (s.endTurn).frz = s.frz := by
  simp only [State.frz, State.endTurn_gcr]
@[simp] theorem State.endTurn_halt (s : State) : (s.endTurn).halt = s.halt := by
  simp only [State.halt, State.endTurn_gcr]
@[simp] theorem State.endTurn_softrst (s : State) : (s.endTurn).softrst = s.softrst := by
  simp only [State.softrst, State.endTurn_gcr]
@[simp] theorem State.endTurn_frzack (s : State) : (s.endTurn).frzack = s.frzack := by
  simp only [State.frzack, State.endTurn_gcr]
@[simp] theorem State.endTurn_lpmack (s : State) : (s.endTurn).lpmack = s.lpmack := by
  simp only [State.lpmack, State.endTurn_gcr]
@[simp] theorem State.endTurn_maxmb (s : State) : (s.endTurn).maxmb = s.maxmb := by
  simp only [State.maxmb, State.endTurn_gcr]
@[simp] theorem State.endTurn_active (s : State) : (s.endTurn).active = s.active := by
  simp only [State.active, State.endTurn_lpmack, State.endTurn_frzack, State.endTurn_softrst]
@[simp] theorem State.endTurn_mbLive (j : Nat) (s : State) : (s.endTurn).mbLive j = s.mbLive j := by
  unfold State.mbLive; rw [State.endTurn_active, State.endTurn_maxmb, State.endTurn_params]
@[simp] theorem State.endTurn_flag (j : Nat) (s : State) : (s.endTurn).flag j = s.flag j := by
  simp only [State.flag, State.endTurn_iflag]
@[simp] theorem State.endTurn_mbAddr (j : Nat) (u : MbWord) (s : State) : (s.endTurn).mbAddr j u = s.mbAddr j u := by
  simp only [State.mbAddr, State.endTurn_params]
@[simp] theorem State.endTurn_mbWord (j : Nat) (u : MbWord) (s : State) : (s.endTurn).mbWord j u = s.mbWord j u := by
  simp only [State.mbWord, State.endTurn_mbAddr, State.endTurn_mem]
@[simp] theorem State.endTurn_mbCode (j : Nat) (s : State) : (s.endTurn).mbCode j = s.mbCode j := by
  simp only [State.mbCode, State.endTurn_mbWord]

/-! ## `State.latchMaxMailbox` -/

@[simp] theorem State.latchMaxMailbox_mdis (s : State) : (s.latchMaxMailbox).mdis = s.mdis := by
  simp only [State.mdis, State.latchMaxMailbox_gcr]
@[simp] theorem State.latchMaxMailbox_frz (s : State) : (s.latchMaxMailbox).frz = s.frz := by
  simp only [State.frz, State.latchMaxMailbox_gcr]
@[simp] theorem State.latchMaxMailbox_halt (s : State) : (s.latchMaxMailbox).halt = s.halt := by
  simp only [State.halt, State.latchMaxMailbox_gcr]
@[simp] theorem State.latchMaxMailbox_softrst (s : State) : (s.latchMaxMailbox).softrst = s.softrst := by
  simp only [State.softrst, State.latchMaxMailbox_gcr]
@[simp] theorem State.latchMaxMailbox_frzack (s : State) : (s.latchMaxMailbox).frzack = s.frzack := by
  simp only [State.frzack, State.latchMaxMailbox_gcr]
@[simp] theorem State.latchMaxMailbox_lpmack (s : State) : (s.latchMaxMailbox).lpmack = s.lpmack := by
  simp only [State.lpmack, State.latchMaxMailbox_gcr]
@[simp] theorem State.latchMaxMailbox_maxmb (s : State) : (s.latchMaxMailbox).maxmb = s.maxmb := by
  simp only [State.maxmb, State.latchMaxMailbox_gcr]
@[simp] theorem State.latchMaxMailbox_active (s : State) : (s.latchMaxMailbox).active = s.active := by
  simp only [State.active, State.latchMaxMailbox_lpmack, State.latchMaxMailbox_frzack, State.latchMaxMailbox_softrst]
@[simp] theorem State.latchMaxMailbox_mbLive (j : Nat) (s : State) : (s.latchMaxMailbox).mbLive j = s.mbLive j := by
  unfold State.mbLive; rw [State.latchMaxMailbox_active, State.latchMaxMailbox_maxmb, State.latchMaxMailbox_params]
@[simp] theorem State.latchMaxMailbox_flag (j : Nat) (s : State) : (s.latchMaxMailbox).flag j = s.flag j := by
  simp only [State.flag, State.latchMaxMailbox_iflag]
@[simp] theorem State.latchMaxMailbox_mbAddr (j : Nat) (u : MbWord) (s : State) : (s.latchMaxMailbox).mbAddr j u = s.mbAddr j u := by
  simp only [State.mbAddr, State.latchMaxMailbox_params]
@[simp] theorem State.latchMaxMailbox_mbWord (j : Nat) (u : MbWord) (s : State) : (s.latchMaxMailbox).mbWord j u = s.mbWord j u := by
  simp only [State.mbWord, State.latchMaxMailbox_mbAddr, State.latchMaxMailbox_mem]
@[simp] theorem State.latchMaxMailbox_mbCode (j : Nat) (s : State) : (s.latchMaxMailbox).mbCode j = s.mbCode j := by
  simp only [State.mbCode, State.latchMaxMailbox_mbWord]

/-! ## `State.keep` -/

@[simp] theorem State.keep_mdis (w : Work) (s : State) : (s.keep w).mdis = s.mdis := by
  simp only [State.mdis, State.keep_gcr]
@[simp] theorem State.keep_frz (w : Work) (s : State) : (s.keep w).frz = s.frz := by
  simp only [State.frz, State.keep_gcr]
@[simp] theorem State.keep_halt (w : Work) (s : State) : (s.keep w).halt = s.halt := by
  simp only [State.halt, State.keep_gcr]
@[simp] theorem State.keep_softrst (w : Work) (s : State) : (s.keep w).softrst = s.softrst := by
  simp only [State.softrst, State.keep_gcr]
@[simp] theorem State.keep_frzack (w : Work) (s : State) : (s.keep w).frzack = s.frzack := by
  simp only [State.frzack, State.keep_gcr]
@[simp] theorem State.keep_lpmack (w : Work) (s : State) : (s.keep w).lpmack = s.lpmack := by
  simp only [State.lpmack, State.keep_gcr]
@[simp] theorem State.keep_maxmb (w : Work) (s : State) : (s.keep w).maxmb = s.maxmb := by
  simp only [State.maxmb, State.keep_gcr]
@[simp] theorem State.keep_active (w : Work) (s : State) : (s.keep w).active = s.active := by
  simp only [State.active, State.keep_lpmack, State.keep_frzack, State.keep_softrst]
@[simp] theorem State.keep_mbLive (j : Nat) (w : Work) (s : State) : (s.keep w).mbLive j = s.mbLive j := by
  unfold State.mbLive; rw [State.keep_active, State.keep_maxmb, State.keep_params]
@[simp] theorem State.keep_flag (j : Nat) (w : Work) (s : State) : (s.keep w).flag j = s.flag j := by
  simp only [State.flag, State.keep_iflag]
@[simp] theorem State.keep_mbAddr (j : Nat) (u : MbWord) (w : Work) (s : State) : (s.keep w).mbAddr j u = s.mbAddr j u := by
  simp only [State.mbAddr, State.keep_params]
@[simp] theorem State.keep_mbWord (j : Nat) (u : MbWord) (w : Work) (s : State) : (s.keep w).mbWord j u = s.mbWord j u := by
  simp only [State.mbWord, State.keep_mbAddr, State.keep_mem]
@[simp] theorem State.keep_mbCode (j : Nat) (w : Work) (s : State) : (s.keep w).mbCode j = s.mbCode j := by
  simp only [State.mbCode, State.keep_mbWord]

/-! ## `State.setMode` -/

@[simp] theorem State.setMode_mdis (m : Mode) (s : State) : (s.setMode m).mdis = s.mdis := by
  simp only [State.mdis, State.setMode_gcr]
@[simp] theorem State.setMode_frz (m : Mode) (s : State) : (s.setMode m).frz = s.frz := by
  simp only [State.frz, State.setMode_gcr]
@[simp] theorem State.setMode_halt (m : Mode) (s : State) : (s.setMode m).halt = s.halt := by
  simp only [State.halt, State.setMode_gcr]
@[simp] theorem State.setMode_softrst (m : Mode) (s : State) : (s.setMode m).softrst = s.softrst := by
  simp only [State.softrst, State.setMode_gcr]
@[simp] theorem State.setMode_frzack (m : Mode) (s : State) : (s.setMode m).frzack = s.frzack := by
  simp only [State.frzack, State.setMode_gcr]
@[simp] theorem State.setMode_lpmack (m : Mode) (s : State) : (s.setMode m).lpmack = s.lpmack := by
  simp only [State.lpmack, State.setMode_gcr]
@[simp] theorem State.setMode_maxmb (m : Mode) (s : State) : (s.setMode m).maxmb = s.maxmb := by
  simp only [State.maxmb, State.setMode_gcr]
@[simp] theorem State.setMode_active (m : Mode) (s : State) : (s.setMode m).active = s.active := by
  simp only [State.active, State.setMode_lpmack, State.setMode_frzack, State.setMode_softrst]
@[simp] theorem State.setMode_mbLive (j : Nat) (m : Mode) (s : State) : (s.setMode m).mbLive j = s.mbLive j := by
  unfold State.mbLive; rw [State.setMode_active, State.setMode_maxmb, State.setMode_params]
@[simp] theorem State.setMode_flag (j : Nat) (m : Mode) (s : State) : (s.setMode m).flag j = s.flag j := by
  simp only [State.flag, State.setMode_iflag]
@[simp] theorem State.setMode_mbAddr (j : Nat) (u : MbWord) (m : Mode) (s : State) : (s.setMode m).mbAddr j u = s.mbAddr j u := by
  simp only [State.mbAddr, State.setMode_params]
@[simp] theorem State.setMode_mbWord (j : Nat) (u : MbWord) (m : Mode) (s : State) : (s.setMode m).mbWord j u = s.mbWord j u := by
  simp only [State.mbWord, State.setMode_mbAddr, State.setMode_mem]
@[simp] theorem State.setMode_mbCode (j : Nat) (m : Mode) (s : State) : (s.setMode m).mbCode j = s.mbCode j := by
  simp only [State.mbCode, State.setMode_mbWord]

/-! ## `State.dropAbort` -/

@[simp] theorem State.dropAbort_mdis (i : Nat) (s : State) : (s.dropAbort i).mdis = s.mdis := by
  simp only [State.mdis, State.dropAbort_gcr]
@[simp] theorem State.dropAbort_frz (i : Nat) (s : State) : (s.dropAbort i).frz = s.frz := by
  simp only [State.frz, State.dropAbort_gcr]
@[simp] theorem State.dropAbort_halt (i : Nat) (s : State) : (s.dropAbort i).halt = s.halt := by
  simp only [State.halt, State.dropAbort_gcr]
@[simp] theorem State.dropAbort_softrst (i : Nat) (s : State) : (s.dropAbort i).softrst = s.softrst := by
  simp only [State.softrst, State.dropAbort_gcr]
@[simp] theorem State.dropAbort_frzack (i : Nat) (s : State) : (s.dropAbort i).frzack = s.frzack := by
  simp only [State.frzack, State.dropAbort_gcr]
@[simp] theorem State.dropAbort_lpmack (i : Nat) (s : State) : (s.dropAbort i).lpmack = s.lpmack := by
  simp only [State.lpmack, State.dropAbort_gcr]
@[simp] theorem State.dropAbort_maxmb (i : Nat) (s : State) : (s.dropAbort i).maxmb = s.maxmb := by
  simp only [State.maxmb, State.dropAbort_gcr]
@[simp] theorem State.dropAbort_active (i : Nat) (s : State) : (s.dropAbort i).active = s.active := by
  simp only [State.active, State.dropAbort_lpmack, State.dropAbort_frzack, State.dropAbort_softrst]
@[simp] theorem State.dropAbort_mbLive (j : Nat) (i : Nat) (s : State) : (s.dropAbort i).mbLive j = s.mbLive j := by
  unfold State.mbLive; rw [State.dropAbort_active, State.dropAbort_maxmb, State.dropAbort_params]
@[simp] theorem State.dropAbort_flag (j : Nat) (i : Nat) (s : State) : (s.dropAbort i).flag j = s.flag j := by
  simp only [State.flag, State.dropAbort_iflag]
@[simp] theorem State.dropAbort_mbAddr (j : Nat) (u : MbWord) (i : Nat) (s : State) : (s.dropAbort i).mbAddr j u = s.mbAddr j u := by
  simp only [State.mbAddr, State.dropAbort_params]
@[simp] theorem State.dropAbort_mbWord (j : Nat) (u : MbWord) (i : Nat) (s : State) : (s.dropAbort i).mbWord j u = s.mbWord j u := by
  simp only [State.mbWord, State.dropAbort_mbAddr, State.dropAbort_mem]
@[simp] theorem State.dropAbort_mbCode (j : Nat) (i : Nat) (s : State) : (s.dropAbort i).mbCode j = s.mbCode j := by
  simp only [State.mbCode, State.dropAbort_mbWord]

/-! ## `State.markBegun` -/

@[simp] theorem State.markBegun_mdis (i : Nat) (s : State) : (s.markBegun i).mdis = s.mdis := by
  simp only [State.mdis, State.markBegun_gcr]
@[simp] theorem State.markBegun_frz (i : Nat) (s : State) : (s.markBegun i).frz = s.frz := by
  simp only [State.frz, State.markBegun_gcr]
@[simp] theorem State.markBegun_halt (i : Nat) (s : State) : (s.markBegun i).halt = s.halt := by
  simp only [State.halt, State.markBegun_gcr]
@[simp] theorem State.markBegun_softrst (i : Nat) (s : State) : (s.markBegun i).softrst = s.softrst := by
  simp only [State.softrst, State.markBegun_gcr]
@[simp] theorem State.markBegun_frzack (i : Nat) (s : State) : (s.markBegun i).frzack = s.frzack := by
  simp only [State.frzack, State.markBegun_gcr]
@[simp] theorem State.markBegun_lpmack (i : Nat) (s : State) : (s.markBegun i).lpmack = s.lpmack := by
  simp only [State.lpmack, State.markBegun_gcr]
@[simp] theorem State.markBegun_maxmb (i : Nat) (s : State) : (s.markBegun i).maxmb = s.maxmb := by
  simp only [State.maxmb, State.markBegun_gcr]
@[simp] theorem State.markBegun_active (i : Nat) (s : State) : (s.markBegun i).active = s.active := by
  simp only [State.active, State.markBegun_lpmack, State.markBegun_frzack, State.markBegun_softrst]
@[simp] theorem State.markBegun_mbLive (j : Nat) (i : Nat) (s : State) : (s.markBegun i).mbLive j = s.mbLive j := by
  unfold State.mbLive; rw [State.markBegun_active, State.markBegun_maxmb, State.markBegun_params]
@[simp] theorem State.markBegun_flag (j : Nat) (i : Nat) (s : State) : (s.markBegun i).flag j = s.flag j := by
  simp only [State.flag, State.markBegun_iflag]
@[simp] theorem State.markBegun_mbAddr (j : Nat) (u : MbWord) (i : Nat) (s : State) : (s.markBegun i).mbAddr j u = s.mbAddr j u := by
  simp only [State.mbAddr, State.markBegun_params]
@[simp] theorem State.markBegun_mbWord (j : Nat) (u : MbWord) (i : Nat) (s : State) : (s.markBegun i).mbWord j u = s.mbWord j u := by
  simp only [State.mbWord, State.markBegun_mbAddr, State.markBegun_mem]
@[simp] theorem State.markBegun_mbCode (j : Nat) (i : Nat) (s : State) : (s.markBegun i).mbCode j = s.mbCode j := by
  simp only [State.mbCode, State.markBegun_mbWord]

/-! ## `State.markEnded` -/

@[simp] theorem State.markEnded_mdis (i : Nat) (s : State) : (s.markEnded i).mdis = s.mdis := by
  simp only [State.mdis, State.markEnded_gcr]
@[simp] theorem State.markEnded_frz (i : Nat) (s : State) : (s.markEnded i).frz = s.frz := by
  simp only [State.frz, State.markEnded_gcr]
@[simp] theorem State.markEnded_halt (i : Nat) (s : State) : (s.markEnded i).halt = s.halt := by
  simp only [State.halt, State.markEnded_gcr]
@[simp] theorem State.markEnded_softrst (i : Nat) (s : State) : (s.markEnded i).softrst = s.softrst := by
  simp only [State.softrst, State.markEnded_gcr]
@[simp] theorem State.markEnded_frzack (i : Nat) (s : State) : (s.markEnded i).frzack = s.frzack := by
  simp only [State.frzack, State.markEnded_gcr]
@[simp] theorem State.markEnded_lpmack (i : Nat) (s : State) : (s.markEnded i).lpmack = s.lpmack := by
  simp only [State.lpmack, State.markEnded_gcr]
@[simp] theorem State.markEnded_maxmb (i : Nat) (s : State) : (s.markEnded i).maxmb = s.maxmb := by
  simp only [State.maxmb, State.markEnded_gcr]
@[simp] theorem State.markEnded_active (i : Nat) (s : State) : (s.markEnded i).active = s.active := by
  simp only [State.active, State.markEnded_lpmack, State.markEnded_frzack, State.markEnded_softrst]
@[simp] theorem State.markEnded_mbLive (j : Nat) (i : Nat) (s : State) : (s.markEnded i).mbLive j = s.mbLive j := by
  unfold State.mbLive; rw [State.markEnded_active, State.markEnded_maxmb, State.markEnded_params]
@[simp] theorem State.markEnded_flag (j : Nat) (i : Nat) (s : State) : (s.markEnded i).flag j = s.flag j := by
  simp only [State.flag, State.markEnded_iflag]
@[simp] theorem State.markEnded_mbAddr (j : Nat) (u : MbWord) (i : Nat) (s : State) : (s.markEnded i).mbAddr j u = s.mbAddr j u := by
  simp only [State.mbAddr, State.markEnded_params]
@[simp] theorem State.markEnded_mbWord (j : Nat) (u : MbWord) (i : Nat) (s : State) : (s.markEnded i).mbWord j u = s.mbWord j u := by
  simp only [State.mbWord, State.markEnded_mbAddr, State.markEnded_mem]
@[simp] theorem State.markEnded_mbCode (j : Nat) (i : Nat) (s : State) : (s.markEnded i).mbCode j = s.mbCode j := by
  simp only [State.mbCode, State.markEnded_mbWord]

/-! ## `State.setFrzack` -/

@[simp] theorem State.setFrzack_flag (j : Nat) (b : Bool) (s : State) : (s.setFrzack b).flag j = s.flag j := by
  simp only [State.flag, State.setFrzack_iflag]
@[simp] theorem State.setFrzack_mbAddr (j : Nat) (u : MbWord) (b : Bool) (s : State) : (s.setFrzack b).mbAddr j u = s.mbAddr j u := by
  simp only [State.mbAddr, State.setFrzack_params]
@[simp] theorem State.setFrzack_mbWord (j : Nat) (u : MbWord) (b : Bool) (s : State) : (s.setFrzack b).mbWord j u = s.mbWord j u := by
  simp only [State.mbWord, State.setFrzack_mbAddr, State.setFrzack_mem]
@[simp] theorem State.setFrzack_mbCode (j : Nat) (b : Bool) (s : State) : (s.setFrzack b).mbCode j = s.mbCode j := by
  simp only [State.mbCode, State.setFrzack_mbWord]

/-! ## `State.noteSkipped` -/

@[simp] theorem State.noteSkipped_mdis (i : Nat) (e : ReportEntry) (s : State) : (s.noteSkipped i e).mdis = s.mdis := by
  simp only [State.mdis, State.noteSkipped_gcr]
@[simp] theorem State.noteSkipped_frz (i : Nat) (e : ReportEntry) (s : State) : (s.noteSkipped i e).frz = s.frz := by
  simp only [State.frz, State.noteSkipped_gcr]
@[simp] theorem State.noteSkipped_halt (i : Nat) (e : ReportEntry) (s : State) : (s.noteSkipped i e).halt = s.halt := by
  simp only [State.halt, State.noteSkipped_gcr]
@[simp] theorem State.noteSkipped_softrst (i : Nat) (e : ReportEntry) (s : State) : (s.noteSkipped i e).softrst = s.softrst := by
  simp only [State.softrst, State.noteSkipped_gcr]
@[simp] theorem State.noteSkipped_frzack (i : Nat) (e : ReportEntry) (s : State) : (s.noteSkipped i e).frzack = s.frzack := by
  simp only [State.frzack, State.noteSkipped_gcr]
@[simp] theorem State.noteSkipped_lpmack (i : Nat) (e : ReportEntry) (s : State) : (s.noteSkipped i e).lpmack = s.lpmack := by
  simp only [State.lpmack, State.noteSkipped_gcr]
@[simp] theorem State.noteSkipped_maxmb (i : Nat) (e : ReportEntry) (s : State) : (s.noteSkipped i e).maxmb = s.maxmb := by
  simp only [State.maxmb, State.noteSkipped_gcr]
@[simp] theorem State.noteSkipped_active (i : Nat) (e : ReportEntry) (s : State) : (s.noteSkipped i e).active = s.active := by
  simp only [State.active, State.noteSkipped_lpmack, State.noteSkipped_frzack, State.noteSkipped_softrst]
@[simp] theorem State.noteSkipped_mbLive (j : Nat) (i : Nat) (e : ReportEntry) (s : State) : (s.noteSkipped i e).mbLive j = s.mbLive j := by
  unfold State.mbLive; rw [State.noteSkipped_active, State.noteSkipped_maxmb, State.noteSkipped_params]
@[simp] theorem State.noteSkipped_flag (j : Nat) (i : Nat) (e : ReportEntry) (s : State) : (s.noteSkipped i e).flag j = s.flag j := by
  simp only [State.flag, State.noteSkipped_iflag]
@[simp] theorem State.noteSkipped_mbAddr (j : Nat) (u : MbWord) (i : Nat) (e : ReportEntry) (s : State) : (s.noteSkipped i e).mbAddr j u = s.mbAddr j u := by
  simp only [State.mbAddr, State.noteSkipped_params]
@[simp] theorem State.noteSkipped_mbWord (j : Nat) (u : MbWord) (i : Nat) (e : ReportEntry) (s : State) : (s.noteSkipped i e).mbWord j u = s.mbWord j u := by
  simp only [State.mbWord, State.noteSkipped_mbAddr, State.noteSkipped_mem]
@[simp] theorem State.noteSkipped_mbCode (j : Nat) (i : Nat) (e : ReportEntry) (s : State) : (s.noteSkipped i e).mbCode j = s.mbCode j := by
  simp only [State.mbCode, State.noteSkipped_mbWord]

/-! ## `State.setFlag` -/

@[simp] theorem State.setFlag_mdis (i : Nat) (s : State) : (s.setFlag i).mdis = s.mdis := by
  simp only [State.mdis, State.setFlag_gcr]
@[simp] theorem State.setFlag_frz (i : Nat) (s : State) : (s.setFlag i).frz = s.frz := by
  simp only [State.frz, State.setFlag_gcr]
@[simp] theorem State.setFlag_halt (i : Nat) (s : State) : (s.setFlag i).halt = s.halt := by
  simp only [State.halt, State.setFlag_gcr]
@[simp] theorem State.setFlag_softrst (i : Nat) (s : State) : (s.setFlag i).softrst = s.softrst := by
  simp only [State.softrst, State.setFlag_gcr]
@[simp] theorem State.setFlag_frzack (i : Nat) (s : State) : (s.setFlag i).frzack = s.frzack := by
  simp only [State.frzack, State.setFlag_gcr]
@[simp] theorem State.setFlag_lpmack (i : Nat) (s : State) : (s.setFlag i).lpmack = s.lpmack := by
  simp only [State.lpmack, State.setFlag_gcr]
@[simp] theorem State.setFlag_maxmb (i : Nat) (s : State) : (s.setFlag i).maxmb = s.maxmb := by
  simp only [State.maxmb, State.setFlag_gcr]
@[simp] theorem State.setFlag_active (i : Nat) (s : State) : (s.setFlag i).active = s.active := by
  simp only [State.active, State.setFlag_lpmack, State.setFlag_frzack, State.setFlag_softrst]
@[simp] theorem State.setFlag_mbLive (j : Nat) (i : Nat) (s : State) : (s.setFlag i).mbLive j = s.mbLive j := by
  unfold State.mbLive; rw [State.setFlag_active, State.setFlag_maxmb, State.setFlag_params]
@[simp] theorem State.setFlag_mbAddr (j : Nat) (u : MbWord) (i : Nat) (s : State) : (s.setFlag i).mbAddr j u = s.mbAddr j u := by
  simp only [State.mbAddr, State.setFlag_params]
@[simp] theorem State.setFlag_mbWord (j : Nat) (u : MbWord) (i : Nat) (s : State) : (s.setFlag i).mbWord j u = s.mbWord j u := by
  simp only [State.mbWord, State.setFlag_mbAddr, State.setFlag_mem]
@[simp] theorem State.setFlag_mbCode (j : Nat) (i : Nat) (s : State) : (s.setFlag i).mbCode j = s.mbCode j := by
  simp only [State.mbCode, State.setFlag_mbWord]

/-! ## `State.assignFlag` -/

@[simp] theorem State.assignFlag_mdis (i : Nat) (b : Bool) (s : State) : (s.assignFlag i b).mdis = s.mdis := by
  simp only [State.mdis, State.assignFlag_gcr]
@[simp] theorem State.assignFlag_frz (i : Nat) (b : Bool) (s : State) : (s.assignFlag i b).frz = s.frz := by
  simp only [State.frz, State.assignFlag_gcr]
@[simp] theorem State.assignFlag_halt (i : Nat) (b : Bool) (s : State) : (s.assignFlag i b).halt = s.halt := by
  simp only [State.halt, State.assignFlag_gcr]
@[simp] theorem State.assignFlag_softrst (i : Nat) (b : Bool) (s : State) : (s.assignFlag i b).softrst = s.softrst := by
  simp only [State.softrst, State.assignFlag_gcr]
@[simp] theorem State.assignFlag_frzack (i : Nat) (b : Bool) (s : State) : (s.assignFlag i b).frzack = s.frzack := by
  simp only [State.frzack, State.assignFlag_gcr]
@[simp] theorem State.assignFlag_lpmack (i : Nat) (b : Bool) (s : State) : (s.assignFlag i b).lpmack = s.lpmack := by
  simp only [State.lpmack, State.assignFlag_gcr]
@[simp] theorem State.assignFlag_maxmb (i : Nat) (b : Bool) (s : State) : (s.assignFlag i b).maxmb = s.maxmb := by
  simp only [State.maxmb, State.assignFlag_gcr]
@[simp] theorem State.assignFlag_active (i : Nat) (b : Bool) (s : State) : (s.assignFlag i b).active = s.active := by
  simp only [State.active, State.assignFlag_lpmack, State.assignFlag_frzack, State.assignFlag_softrst]
@[simp] theorem State.assignFlag_mbLive (j : Nat) (i : Nat) (b : Bool) (s : State) : (s.assignFlag i b).mbLive j = s.mbLive j := by
  unfold State.mbLive; rw [State.assignFlag_active, State.assignFlag_maxmb, State.assignFlag_params]
@[simp] theorem State.assignFlag_mbAddr (j : Nat) (u : MbWord) (i : Nat) (b : Bool) (s : State) : (s.assignFlag i b).mbAddr j u = s.mbAddr j u := by
  simp only [State.mbAddr, State.assignFlag_params]
@[simp] theorem State.assignFlag_mbWord (j : Nat) (u : MbWord) (i : Nat) (b : Bool) (s : State) : (s.assignFlag i b).mbWord j u = s.mbWord j u := by
  simp only [State.mbWord, State.assignFlag_mbAddr, State.assignFlag_mem]
@[simp] theorem State.assignFlag_mbCode (j : Nat) (i : Nat) (b : Bool) (s : State) : (s.assignFlag i b).mbCode j = s.mbCode j := by
  simp only [State.mbCode, State.assignFlag_mbWord]

/-! ## `State.setMbWord` -/

@[simp] theorem State.setMbWord_mdis (i : Nat) (w : MbWord) (v : Word) (s : State) : (s.setMbWord i w v).mdis = s.mdis := by
  simp only [State.mdis, State.setMbWord_gcr]
@[simp] theorem State.setMbWord_frz (i : Nat) (w : MbWord) (v : Word) (s : State) : (s.setMbWord i w v).frz = s.frz := by
  simp only [State.frz, State.setMbWord_gcr]
@[simp] theorem State.setMbWord_halt (i : Nat) (w : MbWord) (v : Word) (s : State) : (s.setMbWord i w v).halt = s.halt := by
  simp only [State.halt, State.setMbWord_gcr]
@[simp] theorem State.setMbWord_softrst (i : Nat) (w : MbWord) (v : Word) (s : State) : (s.setMbWord i w v).softrst = s.softrst := by
  simp only [State.softrst, State.setMbWord_gcr]
@[simp] theorem State.setMbWord_frzack (i : Nat) (w : MbWord) (v : Word) (s : State) : (s.setMbWord i w v).frzack = s.frzack := by
  simp only [State.frzack, State.setMbWord_gcr]
@[simp] theorem State.setMbWord_lpmack (i : Nat) (w : MbWord) (v : Word) (s : State) : (s.setMbWord i w v).lpmack = s.lpmack := by
  simp only [State.lpmack, State.setMbWord_gcr]
@[simp] theorem State.setMbWord_maxmb (i : Nat) (w : MbWord) (v : Word) (s : State) : (s.setMbWord i w v).maxmb = s.maxmb := by
  simp only [State.maxmb, State.setMbWord_gcr]
@[simp] theorem State.setMbWord_active (i : Nat) (w : MbWord) (v : Word) (s : State) : (s.setMbWord i w v).active = s.active := by
  simp only [State.active, State.setMbWord_lpmack, State.setMbWord_frzack, State.setMbWord_softrst]
@[simp] theorem State.setMbWord_mbLive (j : Nat) (i : Nat) (w : MbWord) (v : Word) (s : State) : (s.setMbWord i w v).mbLive j = s.mbLive j := by
  unfold State.mbLive; rw [State.setMbWord_active, State.setMbWord_maxmb, State.setMbWord_params]
@[simp] theorem State.setMbWord_flag (j : Nat) (i : Nat) (w : MbWord) (v : Word) (s : State) : (s.setMbWord i w v).flag j = s.flag j := by
  simp only [State.flag, State.setMbWord_iflag]
@[simp] theorem State.setMbWord_mbAddr (j : Nat) (u : MbWord) (i : Nat) (w : MbWord) (v : Word) (s : State) : (s.setMbWord i w v).mbAddr j u = s.mbAddr j u := by
  simp only [State.mbAddr, State.setMbWord_params]

/-! ## `State.setMbCode` -/

@[simp] theorem State.setMbCode_mdis (i : Nat) (v : BitVec 4) (s : State) : (s.setMbCode i v).mdis = s.mdis := by
  simp only [State.mdis, State.setMbCode_gcr]
@[simp] theorem State.setMbCode_frz (i : Nat) (v : BitVec 4) (s : State) : (s.setMbCode i v).frz = s.frz := by
  simp only [State.frz, State.setMbCode_gcr]
@[simp] theorem State.setMbCode_halt (i : Nat) (v : BitVec 4) (s : State) : (s.setMbCode i v).halt = s.halt := by
  simp only [State.halt, State.setMbCode_gcr]
@[simp] theorem State.setMbCode_softrst (i : Nat) (v : BitVec 4) (s : State) : (s.setMbCode i v).softrst = s.softrst := by
  simp only [State.softrst, State.setMbCode_gcr]
@[simp] theorem State.setMbCode_frzack (i : Nat) (v : BitVec 4) (s : State) : (s.setMbCode i v).frzack = s.frzack := by
  simp only [State.frzack, State.setMbCode_gcr]
@[simp] theorem State.setMbCode_lpmack (i : Nat) (v : BitVec 4) (s : State) : (s.setMbCode i v).lpmack = s.lpmack := by
  simp only [State.lpmack, State.setMbCode_gcr]
@[simp] theorem State.setMbCode_maxmb (i : Nat) (v : BitVec 4) (s : State) : (s.setMbCode i v).maxmb = s.maxmb := by
  simp only [State.maxmb, State.setMbCode_gcr]
@[simp] theorem State.setMbCode_active (i : Nat) (v : BitVec 4) (s : State) : (s.setMbCode i v).active = s.active := by
  simp only [State.active, State.setMbCode_lpmack, State.setMbCode_frzack, State.setMbCode_softrst]
@[simp] theorem State.setMbCode_mbLive (j : Nat) (i : Nat) (v : BitVec 4) (s : State) : (s.setMbCode i v).mbLive j = s.mbLive j := by
  unfold State.mbLive; rw [State.setMbCode_active, State.setMbCode_maxmb, State.setMbCode_params]
@[simp] theorem State.setMbCode_flag (j : Nat) (i : Nat) (v : BitVec 4) (s : State) : (s.setMbCode i v).flag j = s.flag j := by
  simp only [State.flag, State.setMbCode_iflag]
@[simp] theorem State.setMbCode_mbAddr (j : Nat) (u : MbWord) (i : Nat) (v : BitVec 4) (s : State) : (s.setMbCode i v).mbAddr j u = s.mbAddr j u := by
  simp only [State.mbAddr, State.setMbCode_params]

/-! ## `State.stampMb` -/

@[simp] theorem State.stampMb_mdis (i : Nat) (s : State) : (s.stampMb i).mdis = s.mdis := by
  simp only [State.mdis, State.stampMb_gcr]
@[simp] theorem State.stampMb_frz (i : Nat) (s : State) : (s.stampMb i).frz = s.frz := by
  simp only [State.frz, State.stampMb_gcr]
@[simp] theorem State.stampMb_halt (i : Nat) (s : State) : (s.stampMb i).halt = s.halt := by
  simp only [State.halt, State.stampMb_gcr]
@[simp] theorem State.stampMb_softrst (i : Nat) (s : State) : (s.stampMb i).softrst = s.softrst := by
  simp only [State.softrst, State.stampMb_gcr]
@[simp] theorem State.stampMb_frzack (i : Nat) (s : State) : (s.stampMb i).frzack = s.frzack := by
  simp only [State.frzack, State.stampMb_gcr]
@[simp] theorem State.stampMb_lpmack (i : Nat) (s : State) : (s.stampMb i).lpmack = s.lpmack := by
  simp only [State.lpmack, State.stampMb_gcr]
@[simp] theorem State.stampMb_maxmb (i : Nat) (s : State) : (s.stampMb i).maxmb = s.maxmb := by
  simp only [State.maxmb, State.stampMb_gcr]
@[simp] theorem State.stampMb_active (i : Nat) (s : State) : (s.stampMb i).active = s.active := by
  simp only [State.active, State.stampMb_lpmack, State.stampMb_frzack, State.stampMb_softrst]
@[simp] theorem State.stampMb_mbLive (j : Nat) (i : Nat) (s : State) : (s.stampMb i).mbLive j = s.mbLive j := by
  unfold State.mbLive; rw [State.stampMb_active, State.stampMb_maxmb, State.stampMb_params]
@[simp] theorem State.stampMb_flag (j : Nat) (i : Nat) (s : State) : (s.stampMb i).flag j = s.flag j := by
  simp only [State.flag, State.stampMb_iflag]
@[simp] theorem State.stampMb_mbAddr (j : Nat) (u : MbWord) (i : Nat) (s : State) : (s.stampMb i).mbAddr j u = s.mbAddr j u := by
  simp only [State.mbAddr, State.stampMb_params]

/-! ## `State.stampIfSent` -/

@[simp] theorem State.stampIfSent_mdis (i : Nat) (b : Bool) (s : State) : (s.stampIfSent i b).mdis = s.mdis := by
  simp only [State.mdis, State.stampIfSent_gcr]
@[simp] theorem State.stampIfSent_frz (i : Nat) (b : Bool) (s : State) : (s.stampIfSent i b).frz = s.frz := by
  simp only [State.frz, State.stampIfSent_gcr]
@[simp] theorem State.stampIfSent_halt (i : Nat) (b : Bool) (s : State) : (s.stampIfSent i b).halt = s.halt := by
  simp only [State.halt, State.stampIfSent_gcr]
@[simp] theorem State.stampIfSent_softrst (i : Nat) (b : Bool) (s : State) : (s.stampIfSent i b).softrst = s.softrst := by
  simp only [State.softrst, State.stampIfSent_gcr]
@[simp] theorem State.stampIfSent_frzack (i : Nat) (b : Bool) (s : State) : (s.stampIfSent i b).frzack = s.frzack := by
  simp only [State.frzack, State.stampIfSent_gcr]
@[simp] theorem State.stampIfSent_lpmack (i : Nat) (b : Bool) (s : State) : (s.stampIfSent i b).lpmack = s.lpmack := by
  simp only [State.lpmack, State.stampIfSent_gcr]
@[simp] theorem State.stampIfSent_maxmb (i : Nat) (b : Bool) (s : State) : (s.stampIfSent i b).maxmb = s.maxmb := by
  simp only [State.maxmb, State.stampIfSent_gcr]
@[simp] theorem State.stampIfSent_active (i : Nat) (b : Bool) (s : State) : (s.stampIfSent i b).active = s.active := by
  simp only [State.active, State.stampIfSent_lpmack, State.stampIfSent_frzack, State.stampIfSent_softrst]
@[simp] theorem State.stampIfSent_mbLive (j : Nat) (i : Nat) (b : Bool) (s : State) : (s.stampIfSent i b).mbLive j = s.mbLive j := by
  unfold State.mbLive; rw [State.stampIfSent_active, State.stampIfSent_maxmb, State.stampIfSent_params]
@[simp] theorem State.stampIfSent_flag (j : Nat) (i : Nat) (b : Bool) (s : State) : (s.stampIfSent i b).flag j = s.flag j := by
  simp only [State.flag, State.stampIfSent_iflag]
@[simp] theorem State.stampIfSent_mbAddr (j : Nat) (u : MbWord) (i : Nat) (b : Bool) (s : State) : (s.stampIfSent i b).mbAddr j u = s.mbAddr j u := by
  simp only [State.mbAddr, State.stampIfSent_params]

/-! ## `State.scrambleMb` -/

@[simp] theorem State.scrambleMb_mdis (i : Nat) (cs id d0 d1 : Word) (flag : Bool) (s : State) : (s.scrambleMb i cs id d0 d1 flag).mdis = s.mdis := by
  simp only [State.mdis, State.scrambleMb_gcr]
@[simp] theorem State.scrambleMb_frz (i : Nat) (cs id d0 d1 : Word) (flag : Bool) (s : State) : (s.scrambleMb i cs id d0 d1 flag).frz = s.frz := by
  simp only [State.frz, State.scrambleMb_gcr]
@[simp] theorem State.scrambleMb_halt (i : Nat) (cs id d0 d1 : Word) (flag : Bool) (s : State) : (s.scrambleMb i cs id d0 d1 flag).halt = s.halt := by
  simp only [State.halt, State.scrambleMb_gcr]
@[simp] theorem State.scrambleMb_softrst (i : Nat) (cs id d0 d1 : Word) (flag : Bool) (s : State) : (s.scrambleMb i cs id d0 d1 flag).softrst = s.softrst := by
  simp only [State.softrst, State.scrambleMb_gcr]
@[simp] theorem State.scrambleMb_frzack (i : Nat) (cs id d0 d1 : Word) (flag : Bool) (s : State) : (s.scrambleMb i cs id d0 d1 flag).frzack = s.frzack := by
  simp only [State.frzack, State.scrambleMb_gcr]
@[simp] theorem State.scrambleMb_lpmack (i : Nat) (cs id d0 d1 : Word) (flag : Bool) (s : State) : (s.scrambleMb i cs id d0 d1 flag).lpmack = s.lpmack := by
  simp only [State.lpmack, State.scrambleMb_gcr]
@[simp] theorem State.scrambleMb_maxmb (i : Nat) (cs id d0 d1 : Word) (flag : Bool) (s : State) : (s.scrambleMb i cs id d0 d1 flag).maxmb = s.maxmb := by
  simp only [State.maxmb, State.scrambleMb_gcr]
@[simp] theorem State.scrambleMb_active (i : Nat) (cs id d0 d1 : Word) (flag : Bool) (s : State) : (s.scrambleMb i cs id d0 d1 flag).active = s.active := by
  simp only [State.active, State.scrambleMb_lpmack, State.scrambleMb_frzack, State.scrambleMb_softrst]
@[simp] theorem State.scrambleMb_mbLive (j : Nat) (i : Nat) (cs id d0 d1 : Word) (flag : Bool) (s : State) : (s.scrambleMb i cs id d0 d1 flag).mbLive j = s.mbLive j := by
  unfold State.mbLive; rw [State.scrambleMb_active, State.scrambleMb_maxmb, State.scrambleMb_params]
@[simp] theorem State.scrambleMb_mbAddr (j : Nat) (u : MbWord) (i : Nat) (cs id d0 d1 : Word) (flag : Bool) (s : State) : (s.scrambleMb i cs id d0 d1 flag).mbAddr j u = s.mbAddr j u := by
  simp only [State.mbAddr, State.scrambleMb_params]

/-! ## `State.noteCsWrite` -/

@[simp] theorem State.noteCsWrite_mdis (i : Nat) (v : Word) (s : State) : (s.noteCsWrite i v).mdis = s.mdis := by
  simp only [State.mdis, State.noteCsWrite_gcr]
@[simp] theorem State.noteCsWrite_frz (i : Nat) (v : Word) (s : State) : (s.noteCsWrite i v).frz = s.frz := by
  simp only [State.frz, State.noteCsWrite_gcr]
@[simp] theorem State.noteCsWrite_halt (i : Nat) (v : Word) (s : State) : (s.noteCsWrite i v).halt = s.halt := by
  simp only [State.halt, State.noteCsWrite_gcr]
@[simp] theorem State.noteCsWrite_softrst (i : Nat) (v : Word) (s : State) : (s.noteCsWrite i v).softrst = s.softrst := by
  simp only [State.softrst, State.noteCsWrite_gcr]
@[simp] theorem State.noteCsWrite_frzack (i : Nat) (v : Word) (s : State) : (s.noteCsWrite i v).frzack = s.frzack := by
  simp only [State.frzack, State.noteCsWrite_gcr]
@[simp] theorem State.noteCsWrite_lpmack (i : Nat) (v : Word) (s : State) : (s.noteCsWrite i v).lpmack = s.lpmack := by
  simp only [State.lpmack, State.noteCsWrite_gcr]
@[simp] theorem State.noteCsWrite_maxmb (i : Nat) (v : Word) (s : State) : (s.noteCsWrite i v).maxmb = s.maxmb := by
  simp only [State.maxmb, State.noteCsWrite_gcr]
@[simp] theorem State.noteCsWrite_active (i : Nat) (v : Word) (s : State) : (s.noteCsWrite i v).active = s.active := by
  simp only [State.active, State.noteCsWrite_lpmack, State.noteCsWrite_frzack, State.noteCsWrite_softrst]
@[simp] theorem State.noteCsWrite_mbLive (j : Nat) (i : Nat) (v : Word) (s : State) : (s.noteCsWrite i v).mbLive j = s.mbLive j := by
  unfold State.mbLive; rw [State.noteCsWrite_active, State.noteCsWrite_maxmb, State.noteCsWrite_params]
@[simp] theorem State.noteCsWrite_flag (j : Nat) (i : Nat) (v : Word) (s : State) : (s.noteCsWrite i v).flag j = s.flag j := by
  simp only [State.flag, State.noteCsWrite_iflag]
@[simp] theorem State.noteCsWrite_mbAddr (j : Nat) (u : MbWord) (i : Nat) (v : Word) (s : State) : (s.noteCsWrite i v).mbAddr j u = s.mbAddr j u := by
  simp only [State.mbAddr, State.noteCsWrite_params]
@[simp] theorem State.noteCsWrite_mbWord (j : Nat) (u : MbWord) (i : Nat) (v : Word) (s : State) : (s.noteCsWrite i v).mbWord j u = s.mbWord j u := by
  simp only [State.mbWord, State.noteCsWrite_mbAddr, State.noteCsWrite_mem]
@[simp] theorem State.noteCsWrite_mbCode (j : Nat) (i : Nat) (v : Word) (s : State) : (s.noteCsWrite i v).mbCode j = s.mbCode j := by
  simp only [State.mbCode, State.noteCsWrite_mbWord]

/-! ## `State.afterRead` -/

@[simp] theorem State.afterRead_mdis (r : Reg) (s : State) : (s.afterRead r).mdis = s.mdis := by
  simp only [State.mdis, State.afterRead_gcr]
@[simp] theorem State.afterRead_frz (r : Reg) (s : State) : (s.afterRead r).frz = s.frz := by
  simp only [State.frz, State.afterRead_gcr]
@[simp] theorem State.afterRead_halt (r : Reg) (s : State) : (s.afterRead r).halt = s.halt := by
  simp only [State.halt, State.afterRead_gcr]
@[simp] theorem State.afterRead_softrst (r : Reg) (s : State) : (s.afterRead r).softrst = s.softrst := by
  simp only [State.softrst, State.afterRead_gcr]
@[simp] theorem State.afterRead_frzack (r : Reg) (s : State) : (s.afterRead r).frzack = s.frzack := by
  simp only [State.frzack, State.afterRead_gcr]
@[simp] theorem State.afterRead_lpmack (r : Reg) (s : State) : (s.afterRead r).lpmack = s.lpmack := by
  simp only [State.lpmack, State.afterRead_gcr]
@[simp] theorem State.afterRead_maxmb (r : Reg) (s : State) : (s.afterRead r).maxmb = s.maxmb := by
  simp only [State.maxmb, State.afterRead_gcr]
@[simp] theorem State.afterRead_active (r : Reg) (s : State) : (s.afterRead r).active = s.active := by
  simp only [State.active, State.afterRead_lpmack, State.afterRead_frzack, State.afterRead_softrst]
@[simp] theorem State.afterRead_mbLive (j : Nat) (r : Reg) (s : State) : (s.afterRead r).mbLive j = s.mbLive j := by
  unfold State.mbLive; rw [State.afterRead_active, State.afterRead_maxmb, State.afterRead_params]
@[simp] theorem State.afterRead_flag (j : Nat) (r : Reg) (s : State) : (s.afterRead r).flag j = s.flag j := by
  simp only [State.flag, State.afterRead_iflag]
@[simp] theorem State.afterRead_mbAddr (j : Nat) (u : MbWord) (r : Reg) (s : State) : (s.afterRead r).mbAddr j u = s.mbAddr j u := by
  simp only [State.mbAddr, State.afterRead_params]
@[simp] theorem State.afterRead_mbWord (j : Nat) (u : MbWord) (r : Reg) (s : State) : (s.afterRead r).mbWord j u = s.mbWord j u := by
  simp only [State.mbWord, State.afterRead_mbAddr, State.afterRead_mem]
@[simp] theorem State.afterRead_mbCode (j : Nat) (r : Reg) (s : State) : (s.afterRead r).mbCode j = s.mbCode j := by
  simp only [State.mbCode, State.afterRead_mbWord]

/-! ## `State.engageLock` -/

@[simp] theorem State.engageLock_mdis (i : Nat) (c : Word) (s : State) : (s.engageLock i c).mdis = s.mdis := by
  simp only [State.mdis, State.engageLock_gcr]
@[simp] theorem State.engageLock_frz (i : Nat) (c : Word) (s : State) : (s.engageLock i c).frz = s.frz := by
  simp only [State.frz, State.engageLock_gcr]
@[simp] theorem State.engageLock_halt (i : Nat) (c : Word) (s : State) : (s.engageLock i c).halt = s.halt := by
  simp only [State.halt, State.engageLock_gcr]
@[simp] theorem State.engageLock_softrst (i : Nat) (c : Word) (s : State) : (s.engageLock i c).softrst = s.softrst := by
  simp only [State.softrst, State.engageLock_gcr]
@[simp] theorem State.engageLock_frzack (i : Nat) (c : Word) (s : State) : (s.engageLock i c).frzack = s.frzack := by
  simp only [State.frzack, State.engageLock_gcr]
@[simp] theorem State.engageLock_lpmack (i : Nat) (c : Word) (s : State) : (s.engageLock i c).lpmack = s.lpmack := by
  simp only [State.lpmack, State.engageLock_gcr]
@[simp] theorem State.engageLock_maxmb (i : Nat) (c : Word) (s : State) : (s.engageLock i c).maxmb = s.maxmb := by
  simp only [State.maxmb, State.engageLock_gcr]
@[simp] theorem State.engageLock_active (i : Nat) (c : Word) (s : State) : (s.engageLock i c).active = s.active := by
  simp only [State.active, State.engageLock_lpmack, State.engageLock_frzack, State.engageLock_softrst]
@[simp] theorem State.engageLock_mbLive (j : Nat) (i : Nat) (c : Word) (s : State) : (s.engageLock i c).mbLive j = s.mbLive j := by
  unfold State.mbLive; rw [State.engageLock_active, State.engageLock_maxmb, State.engageLock_params]
@[simp] theorem State.engageLock_flag (j : Nat) (i : Nat) (c : Word) (s : State) : (s.engageLock i c).flag j = s.flag j := by
  simp only [State.flag, State.engageLock_iflag]
@[simp] theorem State.engageLock_mbAddr (j : Nat) (u : MbWord) (i : Nat) (c : Word) (s : State) : (s.engageLock i c).mbAddr j u = s.mbAddr j u := by
  simp only [State.mbAddr, State.engageLock_params]
@[simp] theorem State.engageLock_mbWord (j : Nat) (u : MbWord) (i : Nat) (c : Word) (s : State) : (s.engageLock i c).mbWord j u = s.mbWord j u := by
  simp only [State.mbWord, State.engageLock_mbAddr, State.engageLock_mem]
@[simp] theorem State.engageLock_mbCode (j : Nat) (i : Nat) (c : Word) (s : State) : (s.engageLock i c).mbCode j = s.mbCode j := by
  simp only [State.mbCode, State.engageLock_mbWord]

/-! ## Engine writes: the poke -/

@[simp] theorem State.poke_mbAddr (j : Nat) (u : MbWord) (r : Reg) (v : Word) (s : State) :
    (s.poke r v).mbAddr j u = s.mbAddr j u := by
  simp only [State.mbAddr, State.poke_params]
@[simp] theorem State.afterWrite_mbAddr (j : Nat) (u : MbWord) (r : Reg) (v : Word) (s : State) :
    (s.afterWrite r v).mbAddr j u = s.mbAddr j u := by
  simp only [State.mbAddr, State.afterWrite_params]

@[simp] theorem State.poke_gcr_btr (v : Word) (s : State) : (s.poke .gcr v).btr = s.btr := rfl
@[simp] theorem State.poke_gcr_rxmask (v : Word) (s : State) : (s.poke .gcr v).rxmask = s.rxmask := rfl
@[simp] theorem State.poke_gcr_iflag (v : Word) (s : State) : (s.poke .gcr v).iflag = s.iflag := rfl
@[simp] theorem State.poke_gcr_mem (v : Word) (s : State) : (s.poke .gcr v).mem = s.mem := rfl
@[simp] theorem State.poke_gcr_abortReq (v : Word) (s : State) : (s.poke .gcr v).abortReq = s.abortReq := rfl
@[simp] theorem State.poke_gcr_rxBegun (v : Word) (s : State) : (s.poke .gcr v).rxBegun = s.rxBegun := rfl
@[simp] theorem State.afterWrite_gcr_flag (j : Nat) (v : Word) (s : State) : (s.afterWrite .gcr v).flag j = s.flag j := by
  simp only [State.flag, State.afterWrite_iflag, State.poke_gcr_iflag]
@[simp] theorem State.afterWrite_gcr_mbWord (j : Nat) (u : MbWord) (v : Word) (s : State) :
    (s.afterWrite .gcr v).mbWord j u = s.mbWord j u := by
  simp only [State.mbWord, State.afterWrite_mbAddr, State.afterWrite_mem, State.poke_gcr_mem]
@[simp] theorem State.afterWrite_gcr_mbCode (j : Nat) (v : Word) (s : State) :
    (s.afterWrite .gcr v).mbCode j = s.mbCode j := by
  simp only [State.mbCode, State.afterWrite_gcr_mbWord]

@[simp] theorem State.poke_btr_gcr (v : Word) (s : State) : (s.poke .btr v).gcr = s.gcr := rfl
@[simp] theorem State.poke_btr_rxmask (v : Word) (s : State) : (s.poke .btr v).rxmask = s.rxmask := rfl
@[simp] theorem State.poke_btr_iflag (v : Word) (s : State) : (s.poke .btr v).iflag = s.iflag := rfl
@[simp] theorem State.poke_btr_mem (v : Word) (s : State) : (s.poke .btr v).mem = s.mem := rfl
@[simp] theorem State.poke_btr_abortReq (v : Word) (s : State) : (s.poke .btr v).abortReq = s.abortReq := rfl
@[simp] theorem State.poke_btr_rxBegun (v : Word) (s : State) : (s.poke .btr v).rxBegun = s.rxBegun := rfl
@[simp] theorem State.afterWrite_btr_mdis (v : Word) (s : State) : (s.afterWrite .btr v).mdis = s.mdis := by
  simp only [State.mdis, State.afterWrite_gcr, State.poke_btr_gcr]
@[simp] theorem State.afterWrite_btr_frz (v : Word) (s : State) : (s.afterWrite .btr v).frz = s.frz := by
  simp only [State.frz, State.afterWrite_gcr, State.poke_btr_gcr]
@[simp] theorem State.afterWrite_btr_halt (v : Word) (s : State) : (s.afterWrite .btr v).halt = s.halt := by
  simp only [State.halt, State.afterWrite_gcr, State.poke_btr_gcr]
@[simp] theorem State.afterWrite_btr_softrst (v : Word) (s : State) : (s.afterWrite .btr v).softrst = s.softrst := by
  simp only [State.softrst, State.afterWrite_gcr, State.poke_btr_gcr]
@[simp] theorem State.afterWrite_btr_frzack (v : Word) (s : State) : (s.afterWrite .btr v).frzack = s.frzack := by
  simp only [State.frzack, State.afterWrite_gcr, State.poke_btr_gcr]
@[simp] theorem State.afterWrite_btr_lpmack (v : Word) (s : State) : (s.afterWrite .btr v).lpmack = s.lpmack := by
  simp only [State.lpmack, State.afterWrite_gcr, State.poke_btr_gcr]
@[simp] theorem State.afterWrite_btr_maxmb (v : Word) (s : State) : (s.afterWrite .btr v).maxmb = s.maxmb := by
  simp only [State.maxmb, State.afterWrite_gcr, State.poke_btr_gcr]
@[simp] theorem State.afterWrite_btr_active (v : Word) (s : State) : (s.afterWrite .btr v).active = s.active := by
  simp only [State.active, State.afterWrite_btr_lpmack, State.afterWrite_btr_frzack, State.afterWrite_btr_softrst]
@[simp] theorem State.afterWrite_btr_flag (j : Nat) (v : Word) (s : State) : (s.afterWrite .btr v).flag j = s.flag j := by
  simp only [State.flag, State.afterWrite_iflag, State.poke_btr_iflag]
@[simp] theorem State.afterWrite_btr_mbWord (j : Nat) (u : MbWord) (v : Word) (s : State) :
    (s.afterWrite .btr v).mbWord j u = s.mbWord j u := by
  simp only [State.mbWord, State.afterWrite_mbAddr, State.afterWrite_mem, State.poke_btr_mem]
@[simp] theorem State.afterWrite_btr_mbCode (j : Nat) (v : Word) (s : State) :
    (s.afterWrite .btr v).mbCode j = s.mbCode j := by
  simp only [State.mbCode, State.afterWrite_btr_mbWord]

@[simp] theorem State.poke_rxmask_gcr (v : Word) (s : State) : (s.poke .rxmask v).gcr = s.gcr := by
  simp only [State.poke]; split <;> rfl
@[simp] theorem State.poke_rxmask_btr (v : Word) (s : State) : (s.poke .rxmask v).btr = s.btr := by
  simp only [State.poke]; split <;> rfl
@[simp] theorem State.poke_rxmask_iflag (v : Word) (s : State) : (s.poke .rxmask v).iflag = s.iflag := by
  simp only [State.poke]; split <;> rfl
@[simp] theorem State.poke_rxmask_mem (v : Word) (s : State) : (s.poke .rxmask v).mem = s.mem := by
  simp only [State.poke]; split <;> rfl
@[simp] theorem State.poke_rxmask_abortReq (v : Word) (s : State) : (s.poke .rxmask v).abortReq = s.abortReq := by
  simp only [State.poke]; split <;> rfl
@[simp] theorem State.poke_rxmask_rxBegun (v : Word) (s : State) : (s.poke .rxmask v).rxBegun = s.rxBegun := by
  simp only [State.poke]; split <;> rfl
@[simp] theorem State.afterWrite_rxmask_mdis (v : Word) (s : State) : (s.afterWrite .rxmask v).mdis = s.mdis := by
  simp only [State.mdis, State.afterWrite_gcr, State.poke_rxmask_gcr]
@[simp] theorem State.afterWrite_rxmask_frz (v : Word) (s : State) : (s.afterWrite .rxmask v).frz = s.frz := by
  simp only [State.frz, State.afterWrite_gcr, State.poke_rxmask_gcr]
@[simp] theorem State.afterWrite_rxmask_halt (v : Word) (s : State) : (s.afterWrite .rxmask v).halt = s.halt := by
  simp only [State.halt, State.afterWrite_gcr, State.poke_rxmask_gcr]
@[simp] theorem State.afterWrite_rxmask_softrst (v : Word) (s : State) : (s.afterWrite .rxmask v).softrst = s.softrst := by
  simp only [State.softrst, State.afterWrite_gcr, State.poke_rxmask_gcr]
@[simp] theorem State.afterWrite_rxmask_frzack (v : Word) (s : State) : (s.afterWrite .rxmask v).frzack = s.frzack := by
  simp only [State.frzack, State.afterWrite_gcr, State.poke_rxmask_gcr]
@[simp] theorem State.afterWrite_rxmask_lpmack (v : Word) (s : State) : (s.afterWrite .rxmask v).lpmack = s.lpmack := by
  simp only [State.lpmack, State.afterWrite_gcr, State.poke_rxmask_gcr]
@[simp] theorem State.afterWrite_rxmask_maxmb (v : Word) (s : State) : (s.afterWrite .rxmask v).maxmb = s.maxmb := by
  simp only [State.maxmb, State.afterWrite_gcr, State.poke_rxmask_gcr]
@[simp] theorem State.afterWrite_rxmask_active (v : Word) (s : State) : (s.afterWrite .rxmask v).active = s.active := by
  simp only [State.active, State.afterWrite_rxmask_lpmack, State.afterWrite_rxmask_frzack, State.afterWrite_rxmask_softrst]
@[simp] theorem State.afterWrite_rxmask_flag (j : Nat) (v : Word) (s : State) : (s.afterWrite .rxmask v).flag j = s.flag j := by
  simp only [State.flag, State.afterWrite_iflag, State.poke_rxmask_iflag]
@[simp] theorem State.afterWrite_rxmask_mbWord (j : Nat) (u : MbWord) (v : Word) (s : State) :
    (s.afterWrite .rxmask v).mbWord j u = s.mbWord j u := by
  simp only [State.mbWord, State.afterWrite_mbAddr, State.afterWrite_mem, State.poke_rxmask_mem]
@[simp] theorem State.afterWrite_rxmask_mbCode (j : Nat) (v : Word) (s : State) :
    (s.afterWrite .rxmask v).mbCode j = s.mbCode j := by
  simp only [State.mbCode, State.afterWrite_rxmask_mbWord]

@[simp] theorem State.poke_iflag_gcr (v : Word) (s : State) : (s.poke .iflag v).gcr = s.gcr := rfl
@[simp] theorem State.poke_iflag_btr (v : Word) (s : State) : (s.poke .iflag v).btr = s.btr := rfl
@[simp] theorem State.poke_iflag_rxmask (v : Word) (s : State) : (s.poke .iflag v).rxmask = s.rxmask := rfl
@[simp] theorem State.poke_iflag_mem (v : Word) (s : State) : (s.poke .iflag v).mem = s.mem := rfl
@[simp] theorem State.poke_iflag_abortReq (v : Word) (s : State) : (s.poke .iflag v).abortReq = s.abortReq := rfl
@[simp] theorem State.poke_iflag_rxBegun (v : Word) (s : State) : (s.poke .iflag v).rxBegun = s.rxBegun := rfl
@[simp] theorem State.afterWrite_iflag_mdis (v : Word) (s : State) : (s.afterWrite .iflag v).mdis = s.mdis := by
  simp only [State.mdis, State.afterWrite_gcr, State.poke_iflag_gcr]
@[simp] theorem State.afterWrite_iflag_frz (v : Word) (s : State) : (s.afterWrite .iflag v).frz = s.frz := by
  simp only [State.frz, State.afterWrite_gcr, State.poke_iflag_gcr]
@[simp] theorem State.afterWrite_iflag_halt (v : Word) (s : State) : (s.afterWrite .iflag v).halt = s.halt := by
  simp only [State.halt, State.afterWrite_gcr, State.poke_iflag_gcr]
@[simp] theorem State.afterWrite_iflag_softrst (v : Word) (s : State) : (s.afterWrite .iflag v).softrst = s.softrst := by
  simp only [State.softrst, State.afterWrite_gcr, State.poke_iflag_gcr]
@[simp] theorem State.afterWrite_iflag_frzack (v : Word) (s : State) : (s.afterWrite .iflag v).frzack = s.frzack := by
  simp only [State.frzack, State.afterWrite_gcr, State.poke_iflag_gcr]
@[simp] theorem State.afterWrite_iflag_lpmack (v : Word) (s : State) : (s.afterWrite .iflag v).lpmack = s.lpmack := by
  simp only [State.lpmack, State.afterWrite_gcr, State.poke_iflag_gcr]
@[simp] theorem State.afterWrite_iflag_maxmb (v : Word) (s : State) : (s.afterWrite .iflag v).maxmb = s.maxmb := by
  simp only [State.maxmb, State.afterWrite_gcr, State.poke_iflag_gcr]
@[simp] theorem State.afterWrite_iflag_active (v : Word) (s : State) : (s.afterWrite .iflag v).active = s.active := by
  simp only [State.active, State.afterWrite_iflag_lpmack, State.afterWrite_iflag_frzack, State.afterWrite_iflag_softrst]
@[simp] theorem State.afterWrite_iflag_mbWord (j : Nat) (u : MbWord) (v : Word) (s : State) :
    (s.afterWrite .iflag v).mbWord j u = s.mbWord j u := by
  simp only [State.mbWord, State.afterWrite_mbAddr, State.afterWrite_mem, State.poke_iflag_mem]
@[simp] theorem State.afterWrite_iflag_mbCode (j : Nat) (v : Word) (s : State) :
    (s.afterWrite .iflag v).mbCode j = s.mbCode j := by
  simp only [State.mbCode, State.afterWrite_iflag_mbWord]

@[simp] theorem State.poke_timer_gcr (v : Word) (s : State) : (s.poke .timer v).gcr = s.gcr := rfl
@[simp] theorem State.poke_timer_btr (v : Word) (s : State) : (s.poke .timer v).btr = s.btr := rfl
@[simp] theorem State.poke_timer_rxmask (v : Word) (s : State) : (s.poke .timer v).rxmask = s.rxmask := rfl
@[simp] theorem State.poke_timer_iflag (v : Word) (s : State) : (s.poke .timer v).iflag = s.iflag := rfl
@[simp] theorem State.poke_timer_mem (v : Word) (s : State) : (s.poke .timer v).mem = s.mem := rfl
@[simp] theorem State.poke_timer_abortReq (v : Word) (s : State) : (s.poke .timer v).abortReq = s.abortReq := rfl
@[simp] theorem State.poke_timer_rxBegun (v : Word) (s : State) : (s.poke .timer v).rxBegun = s.rxBegun := rfl
@[simp] theorem State.afterWrite_timer_mdis (v : Word) (s : State) : (s.afterWrite .timer v).mdis = s.mdis := by
  simp only [State.mdis, State.afterWrite_gcr, State.poke_timer_gcr]
@[simp] theorem State.afterWrite_timer_frz (v : Word) (s : State) : (s.afterWrite .timer v).frz = s.frz := by
  simp only [State.frz, State.afterWrite_gcr, State.poke_timer_gcr]
@[simp] theorem State.afterWrite_timer_halt (v : Word) (s : State) : (s.afterWrite .timer v).halt = s.halt := by
  simp only [State.halt, State.afterWrite_gcr, State.poke_timer_gcr]
@[simp] theorem State.afterWrite_timer_softrst (v : Word) (s : State) : (s.afterWrite .timer v).softrst = s.softrst := by
  simp only [State.softrst, State.afterWrite_gcr, State.poke_timer_gcr]
@[simp] theorem State.afterWrite_timer_frzack (v : Word) (s : State) : (s.afterWrite .timer v).frzack = s.frzack := by
  simp only [State.frzack, State.afterWrite_gcr, State.poke_timer_gcr]
@[simp] theorem State.afterWrite_timer_lpmack (v : Word) (s : State) : (s.afterWrite .timer v).lpmack = s.lpmack := by
  simp only [State.lpmack, State.afterWrite_gcr, State.poke_timer_gcr]
@[simp] theorem State.afterWrite_timer_maxmb (v : Word) (s : State) : (s.afterWrite .timer v).maxmb = s.maxmb := by
  simp only [State.maxmb, State.afterWrite_gcr, State.poke_timer_gcr]
@[simp] theorem State.afterWrite_timer_active (v : Word) (s : State) : (s.afterWrite .timer v).active = s.active := by
  simp only [State.active, State.afterWrite_timer_lpmack, State.afterWrite_timer_frzack, State.afterWrite_timer_softrst]
@[simp] theorem State.afterWrite_timer_flag (j : Nat) (v : Word) (s : State) : (s.afterWrite .timer v).flag j = s.flag j := by
  simp only [State.flag, State.afterWrite_iflag, State.poke_timer_iflag]
@[simp] theorem State.afterWrite_timer_mbWord (j : Nat) (u : MbWord) (v : Word) (s : State) :
    (s.afterWrite .timer v).mbWord j u = s.mbWord j u := by
  simp only [State.mbWord, State.afterWrite_mbAddr, State.afterWrite_mem, State.poke_timer_mem]
@[simp] theorem State.afterWrite_timer_mbCode (j : Nat) (v : Word) (s : State) :
    (s.afterWrite .timer v).mbCode j = s.mbCode j := by
  simp only [State.mbCode, State.afterWrite_timer_mbWord]

@[simp] theorem State.poke_mb_gcr (i : Nat) (w : MbWord) (v : Word) (s : State) :
    (s.poke (.mb i w) v).gcr = s.gcr := State.pokeMb_gcr i w v s
@[simp] theorem State.poke_mb_btr (i : Nat) (w : MbWord) (v : Word) (s : State) :
    (s.poke (.mb i w) v).btr = s.btr := State.pokeMb_btr i w v s
@[simp] theorem State.poke_mb_rxmask (i : Nat) (w : MbWord) (v : Word) (s : State) :
    (s.poke (.mb i w) v).rxmask = s.rxmask := State.pokeMb_rxmask i w v s
@[simp] theorem State.poke_mb_iflag (i : Nat) (w : MbWord) (v : Word) (s : State) :
    (s.poke (.mb i w) v).iflag = s.iflag := State.pokeMb_iflag i w v s
@[simp] theorem State.afterWrite_mb_mdis (i : Nat) (w : MbWord) (v : Word) (s : State) :
    (s.afterWrite (.mb i w) v).mdis = s.mdis := by
  simp only [State.mdis, State.afterWrite_gcr, State.poke_mb_gcr]
@[simp] theorem State.afterWrite_mb_frz (i : Nat) (w : MbWord) (v : Word) (s : State) :
    (s.afterWrite (.mb i w) v).frz = s.frz := by
  simp only [State.frz, State.afterWrite_gcr, State.poke_mb_gcr]
@[simp] theorem State.afterWrite_mb_halt (i : Nat) (w : MbWord) (v : Word) (s : State) :
    (s.afterWrite (.mb i w) v).halt = s.halt := by
  simp only [State.halt, State.afterWrite_gcr, State.poke_mb_gcr]
@[simp] theorem State.afterWrite_mb_softrst (i : Nat) (w : MbWord) (v : Word) (s : State) :
    (s.afterWrite (.mb i w) v).softrst = s.softrst := by
  simp only [State.softrst, State.afterWrite_gcr, State.poke_mb_gcr]
@[simp] theorem State.afterWrite_mb_frzack (i : Nat) (w : MbWord) (v : Word) (s : State) :
    (s.afterWrite (.mb i w) v).frzack = s.frzack := by
  simp only [State.frzack, State.afterWrite_gcr, State.poke_mb_gcr]
@[simp] theorem State.afterWrite_mb_lpmack (i : Nat) (w : MbWord) (v : Word) (s : State) :
    (s.afterWrite (.mb i w) v).lpmack = s.lpmack := by
  simp only [State.lpmack, State.afterWrite_gcr, State.poke_mb_gcr]
@[simp] theorem State.afterWrite_mb_maxmb (i : Nat) (w : MbWord) (v : Word) (s : State) :
    (s.afterWrite (.mb i w) v).maxmb = s.maxmb := by
  simp only [State.maxmb, State.afterWrite_gcr, State.poke_mb_gcr]
@[simp] theorem State.afterWrite_mb_active (i : Nat) (w : MbWord) (v : Word) (s : State) :
    (s.afterWrite (.mb i w) v).active = s.active := by
  simp only [State.active, State.afterWrite_mb_lpmack, State.afterWrite_mb_frzack, State.afterWrite_mb_softrst]
@[simp] theorem State.afterWrite_mb_flag (j i : Nat) (w : MbWord) (v : Word) (s : State) :
    (s.afterWrite (.mb i w) v).flag j = s.flag j := by
  simp only [State.flag, State.afterWrite_iflag, State.poke_mb_iflag]

/-! ## Mailbox words after a mailbox write -/

/-- The addresses of two different mailbox words are at least 4 apart (20_memory.md R61). -/
theorem mbAddr_apart (s : State) {i j : Nat} {w u : MbWord} (h : ¬(j = i ∧ u = w)) :
    s.mbAddr i w + 4 ≤ s.mbAddr j u ∨ s.mbAddr j u + 4 ≤ s.mbAddr i w := by
  simp only [State.mbAddr, regAddr]
  have hw : w.index ≤ 3 := by cases w <;> decide
  have hu : u.index ≤ 3 := by cases u <;> decide
  rcases Nat.lt_trichotomy i j with hlt | heq | hgt
  · omega
  · have : u.index ≠ w.index := by
      intro he
      exact h ⟨heq.symm, by cases u <;> cases w <;> first | rfl | exact absurd he (by decide)⟩
    omega
  · omega

/-- Read after write on the mailbox file. -/
theorem mbWord_setMbWord {s : State} (hm : Memory.wf s.mem) (i : Nat) (w : MbWord) (v : Word) (j : Nat) (u : MbWord) :
    (s.setMbWord i w v).mbWord j u = if j = i ∧ u = w then v else s.mbWord j u := by
  simp only [State.mbWord, State.setMbWord_mbAddr, State.setMbWord_mem]
  split
  · rename_i h; obtain ⟨rfl, rfl⟩ := h; exact readWord_writeWord_same hm _ _
  · rename_i h; exact readWord_writeWord_disjoint hm _ _ (mbAddr_apart s h)

theorem wf_setMbWord {s : State} (hm : Memory.wf s.mem) (i : Nat) (w : MbWord) (v : Word) :
    Memory.wf (s.setMbWord i w v).mem := wf_writeWord hm _ _

theorem mbCode_setMbWord {s : State} (hm : Memory.wf s.mem) (i : Nat) (w : MbWord) (v : Word) (j : Nat) :
    (s.setMbWord i w v).mbCode j = if j = i ∧ w = .cs then codeOf v else s.mbCode j := by
  simp only [State.mbCode, mbWord_setMbWord hm]
  by_cases h : j = i ∧ w = .cs
  · obtain ⟨rfl, rfl⟩ := h; simp
  · rw [if_neg h, if_neg (fun hc => h ⟨hc.1, hc.2.symm⟩)]

/-- An engine write to a mailbox word, while the module is not disabled. -/
theorem mbWord_afterWrite_mb {s : State} (hm : Memory.wf s.mem) (hl : s.lpmack = false) (i : Nat) (w : MbWord) (v : Word)
    (j : Nat) (u : MbWord) :
    (s.afterWrite (.mb i w) v).mbWord j u = if j = i ∧ u = w then v else s.mbWord j u := by
  simp only [State.mbWord, State.afterWrite_mbAddr, State.afterWrite_mem, State.poke, State.pokeMb, hl, Bool.false_eq_true,
    if_false]
  have key := mbWord_setMbWord hm i w v j u
  simp only [State.mbWord, State.setMbWord_mbAddr] at key
  cases w <;> simpa using key

theorem wf_afterWrite {s : State} (hm : Memory.wf s.mem) (r : Reg) (v : Word) : Memory.wf (s.afterWrite r v).mem := by
  cases r with
  | mb i w =>
    simp only [State.afterWrite_mem, State.poke, State.pokeMb]
    split
    · exact hm
    · cases w <;> simpa using wf_writeWord hm _ _
  | gcr => exact hm
  | btr => exact hm
  | timer => exact hm
  | iflag => exact hm
  | rxmask => simpa using hm

@[simp] theorem wf_afterRead {s : State} (hm : Memory.wf s.mem) (r : Reg) : Memory.wf (s.afterRead r).mem := by simpa using hm

/-! ## Flags -/

theorem getLsbD_flagMask (i j : Nat) (hi : i < 32) : (flagMask i).getLsbD j = decide (j = i) := by
  rw [Bool.eq_iff_iff]
  simp only [flagMask, BitVec.getLsbD_shiftLeft, BitVec.getLsbD_one, Bool.and_eq_true, decide_eq_true_eq,
    Bool.not_eq_true', decide_eq_false_iff_not]
  omega

theorem flag_setFlag {i : Nat} (hi : i < 32) (j : Nat) (s : State) :
    (s.setFlag i).flag j = (s.flag j || decide (j = i)) := by
  simp only [State.flag, State.setFlag_iflag, BitVec.getLsbD_or, getLsbD_flagMask i j hi]

theorem flag_clear {i : Nat} (hi : i < 32) (j : Nat) (s : State) :
    (s.afterWrite .iflag (flagMask i)).flag j = (s.flag j && !decide (j = i)) := by
  simp only [State.flag, State.afterWrite_iflag, State.poke, clearFlags, BitVec.getLsbD_and, BitVec.getLsbD_not,
    getLsbD_flagMask i j hi]
  by_cases hj : j < 32
  · simp [hj]
  · simp [hj, BitVec.getLsbD_of_ge _ j (Nat.le_of_not_lt hj)]

theorem flag_assignFlag {i : Nat} (hi : i < 32) (b : Bool) (j : Nat) (s : State) :
    (s.assignFlag i b).flag j = if j = i then b else s.flag j := by
  unfold State.assignFlag State.flag
  cases b <;> simp only [Bool.false_eq_true, if_false, if_true, BitVec.getLsbD_and, BitVec.getLsbD_or, BitVec.getLsbD_not,
    getLsbD_flagMask i j hi]
  · by_cases hj : j < 32
    · by_cases h : j = i <;> simp [hj, h]
    · have : j ≠ i := by omega
      simp [hj, this, BitVec.getLsbD_of_ge _ j (Nat.le_of_not_lt hj)]
  · by_cases h : j = i <;> simp [h]

/-! ## Sets of indices -/

theorem mem_insertIndex (i j : Nat) (l : List Nat) : j ∈ insertIndex i l ↔ j = i ∨ j ∈ l := by
  induction l with
  | nil => simp [insertIndex]
  | cons k l ih =>
    simp only [insertIndex]
    split
    · simp
    · split
      · rename_i h; subst h; simp
      · simp only [List.mem_cons, ih]; tauto

theorem mem_removeIndex (i j : Nat) (l : List Nat) : j ∈ removeIndex i l ↔ j ∈ l ∧ j ≠ i := by
  simp [removeIndex]

end Sys2Proof.Machine
end

