-- ==== Sys2Proof/Laws/Access.lean ====
section
/-! SUPPORT. What the shared operations of Machine/Ops.lean can do: a register access in continuation form, a wait, and
the places where an operation decodes a code. Later proofs cite these and unfold none of them. -/

namespace Sys2Proof.Machine

@[simp] theorem has_gcr (p : Params) : Params.has p .gcr = true := rfl
@[simp] theorem has_btr (p : Params) : Params.has p .btr = true := rfl
@[simp] theorem has_timer (p : Params) : Params.has p .timer = true := rfl
@[simp] theorem has_rxmask (p : Params) : Params.has p .rxmask = true := rfl
@[simp] theorem has_iflag (p : Params) : Params.has p .iflag = true := rfl
@[simp] theorem has_mb (p : Params) (i : Nat) (w : MbWord) : Params.has p (.mb i w) = decide (i < p.numMb) := rfl

@[simp] theorem peek_gcr (s : State) : s.peek .gcr = s.gcr := rfl
@[simp] theorem peek_btr (s : State) : s.peek .btr = s.btr := rfl
@[simp] theorem peek_timer (s : State) : s.peek .timer = s.timer := rfl
@[simp] theorem peek_rxmask (s : State) : s.peek .rxmask = s.rxmask := rfl
@[simp] theorem peek_iflag (s : State) : s.peek .iflag = s.iflag := rfl
@[simp] theorem peek_mb (i : Nat) (w : MbWord) (s : State) : s.peek (.mb i w) = s.mbWord i w := rfl

/-- R67, R69: only a read of TIMER changes the lock. -/
@[simp] theorem State.afterRead_lock (r : Reg) (s : State) :
    (s.afterRead r).lock = if r = .timer then none else s.lock := by
  cases r <;> simp [State.afterRead]

@[simp] theorem State.afterRead_history (r : Reg) (s : State) : (s.afterRead r).history = .read r (s.peek r) :: s.history := by
  cases r <;> rfl

/-- A read of a register that exists. -/
theorem readReg_of_has {r : Reg} {s : State} (h : Params.has s.params r = true) (k : Word → State → Out) :
    readReg r k s = k (s.peek r) (s.afterRead r) := by
  simp only [readReg, h, if_true]

/-- A write of a register that exists. -/
theorem writeReg_of_has {r : Reg} {s : State} (h : Params.has s.params r = true) (v : Word) (k : State → Out) :
    writeReg r v k s = k (s.afterWrite r v) := by
  simp only [writeReg, h, if_true]

/-- A read that answers a next state read a register that exists. -/
theorem readReg_next {r : Reg} {k : Word → State → Out} {s t : State} (h : readReg r k s = .next t) :
    Params.has s.params r = true ∧ k (s.peek r) (s.afterRead r) = .next t := by
  simp only [readReg] at h
  split at h
  · exact ⟨‹_›, h⟩
  · cases h

/-- A write that answers a next state wrote a register that exists. -/
theorem writeReg_next {r : Reg} {v : Word} {k : State → Out} {s t : State} (h : writeReg r v k s = .next t) :
    Params.has s.params r = true ∧ k (s.afterWrite r v) = .next t := by
  simp only [writeReg] at h
  split at h
  · exact ⟨‹_›, h⟩
  · cases h

/-- Everything a failing read at a wait can lead to (00_scope.md R13). -/
theorem waitAgain_next {p : Position} {i : Fin 32} {n : Nat} {s t : State} (h : waitAgain p i n s = .next t) :
    (exceeds s.params.waitLimit (n + 1) = false ∧ t = s.stay p i (n + 1)) ∨
    (exceeds s.params.waitLimit (n + 1) = true ∧ t = s.close (.fatal (.waitLimitExceeded p)) .faulted) := by
  simp only [waitAgain, raiseFatal] at h
  split at h
  · rename_i hx; exact .inr ⟨hx, by cases h; rfl⟩
  · rename_i hx; exact .inl ⟨by simpa using hx, by cases h; rfl⟩

/-- One round of a wait: the bit has the value waited for and the operation goes on, or the read has failed. -/
theorem waitUntil_next {r : Reg} {b : Nat} {val : Bool} {p : Position} {i : Fin 32} {n : Nat} {done : State → Out} {s t : State}
    (h : waitUntil r b val p i n done s = .next t) :
    Params.has s.params r = true ∧
    (((s.peek r).getLsbD b = val ∧ done (s.afterRead r) = .next t) ∨
     ((s.peek r).getLsbD b ≠ val ∧ waitAgain p i n (s.afterRead r) = .next t)) := by
  obtain ⟨hr, h⟩ := readReg_next h
  refine ⟨hr, ?_⟩
  split at h
  · exact .inl ⟨‹_›, h⟩
  · exact .inr ⟨‹_›, h⟩

/-- The bit has the value waited for. -/
theorem waitUntil_ready {r : Reg} {b : Nat} {val : Bool} {p : Position} {i : Fin 32} {n : Nat} {done : State → Out} {s : State}
    (hr : Params.has s.params r = true) (hb : (s.peek r).getLsbD b = val) :
    waitUntil r b val p i n done s = done (s.afterRead r) := by
  simp only [waitUntil, readReg_of_has hr, hb, if_true]

/-- The read has failed. -/
theorem waitUntil_again {r : Reg} {b : Nat} {val : Bool} {p : Position} {i : Fin 32} {n : Nat} {done : State → Out} {s : State}
    (hr : Params.has s.params r = true) (hb : (s.peek r).getLsbD b ≠ val) :
    waitUntil r b val p i n done s = waitAgain p i n (s.afterRead r) := by
  simp only [waitUntil, readReg_of_has hr, hb, if_false]

theorem waitAgain_stay {p : Position} {i : Fin 32} {n : Nat} {s : State} (h : exceeds s.params.waitLimit (n + 1) = false) :
    waitAgain p i n s = .next (s.stay p i (n + 1)) := by
  simp only [waitAgain, h, Bool.false_eq_true, if_false]

theorem waitAgain_exceeded {p : Position} {i : Fin 32} {n : Nat} {s : State} (h : exceeds s.params.waitLimit (n + 1) = true) :
    waitAgain p i n s = .next (s.close (.fatal (.waitLimitExceeded p)) .faulted) := by
  simp only [waitAgain, h, if_true, raiseFatal]

/-- A decode inside an operation (30_encoding.md R116). -/
theorem decodedAt_next {i : Nat} {v : BitVec 4} {k : MessageBufferCode → Out} {s t : State}
    (h : decodedAt i v k s = .next t) :
    (∃ c, codeValue v = some c ∧ k c = .next t) ∨
    (codeValue v = none ∧ t = s.close (.fatal (.undecodableCode v (some i))) .faulted) := by
  simp only [decodedAt, raiseFatal] at h
  split at h
  · exact .inl ⟨_, ‹_›, h⟩
  · exact .inr ⟨‹_›, by cases h; rfl⟩

/-- The two patterns without a value (R116). -/
theorem codeValue_eq_none (v : BitVec 4) : codeValue v = none ↔ v = 0b1101#4 ∨ v = 0b1111#4 := by
  revert v; decide

/-- `decode(encode(c)) = c` (41_mailbox_codec.md R154 (a)). -/
@[simp] theorem codeValue_codeBits (c : MessageBufferCode) : codeValue (codeBits c) = some c := by
  rcases c with ⟨st, b⟩ | st
  · cases st <;> cases b <;> rfl
  · cases st <;> rfl

/-- `encode(decode(v)) = v` (R154 (b)). -/
theorem codeBits_of_codeValue {v : BitVec 4} {c : MessageBufferCode} (h : codeValue v = some c) : codeBits c = v := by
  have key : ∀ v : BitVec 4, (codeValue v).all (fun c => decide (codeBits c = v)) = true := by decide
  have := key v
  rw [h] at this
  simpa using this

/-- The code a bit pattern must be, from its value. -/
theorem codeValue_eq_some (v : BitVec 4) (c : MessageBufferCode) : codeValue v = some c ↔ v = codeBits c :=
  ⟨fun h => (codeBits_of_codeValue h).symm, fun h => h ▸ codeValue_codeBits c⟩

/-- The next index does not wrap below 31 (10_state.md R26). -/
theorem succ_val {i : Fin 32} (h : i.val < 31) : (i + 1).val = i.val + 1 :=
  Fin.val_add_one_of_lt (by rw [Fin.lt_def]; exact h)

theorem succ_val_le (i : Fin 32) : (i + 1).val ≤ i.val + 1 := by
  rw [Fin.val_add]
  exact Nat.mod_le _ _

/-- An index a scan can go on from. -/
theorem succ_val_of_lt {i : Fin 32} {m : BitVec 5} (h : i.val < m.toNat) : (i + 1).val = i.val + 1 :=
  succ_val (by have := m.isLt; omega)

/-- An admitted mailbox index fits the 5-bit index. -/
theorem ofNat_val {k : Nat} {m : BitVec 5} (h : k ≤ m.toNat) : (Fin.ofNat 32 k).val = k := by
  have := m.isLt
  simp only [Fin.val_ofNat]
  omega

/-- What follows a skipped mailbox in the scan (43_transmit.md R183). -/
theorem scanNext_next {i : Fin 32} {s t : State} (h : scanNext i s = .next t) :
    (i.val < s.maxMailbox.toNat ∧ t = s.goto (.transmit .s1) (i + 1)) ∨
    (s.maxMailbox.toNat ≤ i ∧ t = s.close (.err (.bufferFull s.work.report)) .idle) := by
  simp only [scanNext, finish] at h
  split at h
  · exact .inl ⟨‹_›, by cases h; rfl⟩
  · exact .inr ⟨by omega, by cases h; rfl⟩

end Sys2Proof.Machine
end

