-- ==== Sys2Proof/Laws/Controller.lean ====
section
/-! SUPPORT. The one inversion lemma of the controller's moves on a mailbox (20_memory.md R83 to R89): everything such a
turn can do, whatever the code and the move. -/

namespace Sys2Proof.Machine

/-- `s` with the four pieces of state a move on a mailbox can change. -/
def State.withMailboxState (mem : List Host.Cell) (iflag : Word) (ar rb : List Nat) (s : State) : State :=
  { s with mem := mem, iflag := iflag, abortReq := ar, rxBegun := rb }

/-- A state that agrees with `s` on every other field. -/
theorem eq_withMailboxState {s u : State} (h : u.params = s.params ∧ u.seq = s.seq ∧ u.mode = s.mode ∧
    u.maxMailbox = s.maxMailbox ∧ u.result = s.result ∧ u.report = s.report ∧ u.work = s.work ∧
    u.refusalMark = s.refusalMark ∧ u.cmd = s.cmd ∧ u.ops = s.ops ∧ u.gcr = s.gcr ∧ u.btr = s.btr ∧
    u.rxmask = s.rxmask ∧ u.timer = s.timer ∧ u.lock = s.lock ∧ u.history = s.history ∧ u.script = s.script ∧
    u.tick = s.tick) :
    u = s.withMailboxState u.mem u.iflag u.abortReq u.rxBegun := by
  cases u; cases s
  simpa [State.withMailboxState] using h

theorem insertIndex_rising {i : Nat} {l : List Nat} (h : rising l) : rising (insertIndex i l) := by
  induction l with
  | nil => simp [insertIndex, rising]
  | cons j l ih =>
    simp only [rising, List.pairwise_cons] at h
    simp only [insertIndex]
    split
    · rename_i hlt
      simp only [rising, List.pairwise_cons, List.mem_cons, forall_eq_or_imp]
      exact ⟨⟨hlt, fun k hk => Nat.lt_trans hlt (h.1 k hk)⟩, h.1, h.2⟩
    · split
      · simpa [rising] using h
      · simp only [rising, List.pairwise_cons, mem_insertIndex, forall_eq_or_imp]
        exact ⟨⟨by omega, h.1⟩, ih h.2⟩

theorem removeIndex_rising {i : Nat} {l : List Nat} (h : rising l) : rising (removeIndex i l) :=
  List.Pairwise.filter _ h

theorem removeIndex_of_notMem {i : Nat} {l : List Nat} (h : i ∉ l) : removeIndex i l = l := by
  simp only [removeIndex, List.filter_eq_self, decide_eq_true_eq]
  rintro j hj rfl
  exact h hj

/-- What a move of the controller on mailbox `i` may do. -/
structure MailboxMove (i : Nat) (s u : State) : Prop where
  /-- Nothing but these four. -/
  only : ∃ mem iflag ar rb, u = s.withMailboxState mem iflag ar rb
  wf : Memory.wf u.mem = true
  /-- The words of the other mailboxes. -/
  words : ∀ j w, j ≠ i → u.mbWord j w = s.mbWord j w
  /-- The flags of the other mailboxes. -/
  flags : ∀ j, j ≠ i → u.flag j = s.flag j
  abortReq : u.abortReq = s.abortReq ∨ u.abortReq = removeIndex i s.abortReq
  /-- A pending abort request stays as it is, and so does the code: no other code is changed under it. -/
  aborting : i ∈ u.abortReq → s.mbCode i ≠ 0b1001#4
  rxBegun : u.rxBegun = s.rxBegun ∨ u.rxBegun = removeIndex i s.rxBegun ∨
    u.rxBegun = insertIndex i s.rxBegun
  begun : i ∈ u.rxBegun →
    receptionCode (u.mbCode i) ∨ (i ∈ s.rxBegun ∧ (receptionCode (s.mbCode i) → u.mbCode i = s.mbCode i))
  /-- R89: the codes the controller never changes. -/
  notInert : ¬inertCode (s.mbCode i)
  /-- R84: a locked mailbox receives nothing. -/
  unlocked : wholeFrameCode (s.mbCode i) → s.lock ≠ some i
  /-- R86, R89: `Transmit{Abort}` only on request. -/
  requested : s.mbCode i = 0b1001#4 → i ∈ s.abortReq
  /-- R44, R89: only while active, but for the end of a reception begun. -/
  enabled : s.mbLive i = true ∨ (i ∈ s.rxBegun ∧ receptionCode (s.mbCode i))
  exists_ : i < s.params.numMb

theorem not_mem_removeIndex (i : Nat) (l : List Nat) : i ∉ removeIndex i l := by simp [mem_removeIndex]

theorem setMbWord_words {s : State} (hm : Memory.wf s.mem = true) {i j : Nat} (hj : j ≠ i) (v : Word) (w u : MbWord) :
    (s.setMbWord i w v).mbWord j u = s.mbWord j u := by
  rw [mbWord_setMbWord hm, if_neg (fun h => hj h.1)]

theorem wf_setMbCode {s : State} (hm : Memory.wf s.mem = true) (i : Nat) (v : BitVec 4) :
    Memory.wf (s.setMbCode i v).mem = true := wf_setMbWord hm i .cs _

theorem wf_stampMb {s : State} (hm : Memory.wf s.mem = true) (i : Nat) : Memory.wf (s.stampMb i).mem = true :=
  wf_setMbWord hm i .cs _

theorem mbWord_setMbCode {s : State} (hm : Memory.wf s.mem = true) (i : Nat) (v : BitVec 4) (j : Nat) (u : MbWord) :
    (s.setMbCode i v).mbWord j u = if j = i ∧ u = .cs then withCode (s.mbWord i .cs) v else s.mbWord j u :=
  mbWord_setMbWord hm i .cs _ j u

theorem mbWord_stampMb {s : State} (hm : Memory.wf s.mem = true) (i : Nat) (j : Nat) (u : MbWord) :
    (s.stampMb i).mbWord j u =
      if j = i ∧ u = .cs then blend Cs.timestamp.mask (s.mbWord i .cs) s.timer else s.mbWord j u :=
  mbWord_setMbWord hm i .cs _ j u

theorem wf_stampIfSent {s : State} (hm : Memory.wf s.mem = true) (i : Nat) (b : Bool) :
    Memory.wf (s.stampIfSent i b).mem = true := by
  cases b
  · exact hm
  · exact wf_stampMb hm i

theorem mbWord_stampIfSent {s : State} (hm : Memory.wf s.mem = true) (i : Nat) (b : Bool) (j : Nat) (u : MbWord) :
    (s.stampIfSent i b).mbWord j u =
      if j = i ∧ u = .cs then (if b then blend Cs.timestamp.mask (s.mbWord i .cs) s.timer else s.mbWord i .cs)
      else s.mbWord j u := by
  cases b
  · show s.mbWord j u = _
    split
    · rename_i h; rw [h.1, h.2]; rfl
    · rfl
  · exact mbWord_stampMb hm i j u

theorem mbCode_setMbCode {s : State} (hm : Memory.wf s.mem = true) (i : Nat) (v : BitVec 4) :
    (s.setMbCode i v).mbCode i = v := by
  simp [State.mbCode, mbWord_setMbCode hm]

theorem mbWord_scrambleMb {s : State} (hm : Memory.wf s.mem = true) (i : Nat) (cs id d0 d1 : Word) (b : Bool) (j : Nat)
    (u : MbWord) :
    (s.scrambleMb i cs id d0 d1 b).mbWord j u =
      if j = i then (match u with | .cs => cs | .id => id | .d0 => d0 | .d1 => d1) else s.mbWord j u := by
  have h1 := wf_setMbWord hm i .cs cs
  have h2 := wf_setMbWord h1 i .id id
  have h3 := wf_setMbWord h2 i .d0 d0
  simp only [State.scrambleMb, State.assignFlag_mbWord, mbWord_setMbWord h3, mbWord_setMbWord h2, mbWord_setMbWord h1,
    mbWord_setMbWord hm]
  by_cases hj : j = i <;> cases u <;> simp [hj]

theorem wf_scrambleMb {s : State} (hm : Memory.wf s.mem = true) (i : Nat) (cs id d0 d1 : Word) (b : Bool) :
    Memory.wf (s.scrambleMb i cs id d0 d1 b).mem = true := by
  have h1 := wf_setMbWord hm i .cs cs
  have h2 := wf_setMbWord h1 i .id id
  have h3 := wf_setMbWord h2 i .d0 d0
  simpa only [State.scrambleMb, State.assignFlag_mem] using wf_setMbWord h3 i .d1 d1

theorem flag_scrambleMb {s : State} {i : Nat} (hi : i < 32) (cs id d0 d1 : Word) (b : Bool) (j : Nat) :
    (s.scrambleMb i cs id d0 d1 b).flag j = if j = i then b else s.flag j := by
  simp only [State.scrambleMb, flag_assignFlag hi, State.setMbWord_flag]

theorem mbLive_lt {s : State} {i : Nat} (h : s.mbLive i = true) : i < s.params.numMb := by
  simp only [State.mbLive, Bool.and_eq_true, decide_eq_true_eq] at h
  exact h.2

theorem mbLive_frzack {s : State} {i : Nat} (h : s.mbLive i = true) : s.frzack = false := by
  simp only [State.mbLive, State.active, Bool.and_eq_true, Bool.not_eq_true'] at h
  exact h.1.1.1.2

/-- R83. -/
theorem completeTransmission_move {s : State} (hm : Memory.wf s.mem = true) (hp : s.params.numMb ≤ 32) {i : Nat}
    (hc : s.mbCode i = 0b1100#4) (m : MbMove) :
    completeTransmission i m s = s ∨ MailboxMove i s (completeTransmission i m s) := by
  cases m with
  | act alt =>
    simp only [completeTransmission]
    split
    · rename_i hl
      have hlt := mbLive_lt hl
      have h1 := wf_setMbCode hm i (sentCode (Cs.rtr.bit (s.mbWord i .cs)) alt)
      refine .inr ⟨⟨_, _, _, _, rfl⟩, ?_, ?_, ?_, ?_, ?_, ?_, ?_, ?_, ?_, ?_, .inl hl, hlt⟩
      · simpa using wf_stampMb h1 i
      · intro j w hj
        simp [mbWord_stampMb h1, mbWord_setMbCode hm, hj]
      · intro j hj
        simp [flag_setFlag (by omega : i < 32), hj]
      · simp
      · simp [hc]
      · simp
      · intro hb
        exact .inr ⟨by simpa using hb, by simp [hc, receptionCode]⟩
      · simp [hc, inertCode]
      · simp [hc, wholeFrameCode]
      · simp [hc]
    · exact .inl rfl
  | _ => exact .inl rfl

/-- R84. -/
theorem beginReception_move {s : State} (hm : Memory.wf s.mem = true) {i : Nat} {st : RxState}
    (hst : st = .full ∨ st = .empty ∨ st = .overrun) (hc : s.mbCode i = codeBits (.receive st false)) (m : MbMove) :
    beginReception st i m s = s ∨ MailboxMove i s (beginReception st i m s) := by
  cases m with
  | act alt =>
    simp only [beginReception]
    split
    · rename_i hl
      simp only [Bool.and_eq_true, decide_eq_true_eq] at hl
      have hlt := mbLive_lt hl.1
      refine .inr ⟨⟨_, _, _, _, rfl⟩, ?_, ?_, ?_, ?_, ?_, ?_, ?_, ?_, ?_, ?_, .inl hl.1, hlt⟩
      · simpa using wf_setMbCode hm i _
      · intro j w hj
        simp [mbWord_setMbCode hm, hj]
      · intro j hj
        simp
      · simp
      · rcases hst with rfl | rfl | rfl <;> simp [hc, codeBits, rxBits]
      · exact .inr (.inr (by simp))
      · intro _
        left
        simp only [State.markBegun_mbCode, mbCode_setMbCode hm]
        rcases hst with rfl | rfl | rfl <;> simp [receptionCode, codeBits, rxBits]
      · rcases hst with rfl | rfl | rfl <;> simp [hc, inertCode, codeBits, rxBits]
      · exact fun _ => hl.2
      · rcases hst with rfl | rfl | rfl <;> simp [hc, codeBits, rxBits]
    · exact .inl rfl
  | _ => exact .inl rfl

/-- One word of a busy mailbox written by the controller, its code kept. -/
theorem receiveWord_move {s : State} (hm : Memory.wf s.mem = true) {i : Nat} (hb : receptionCode (s.mbCode i))
    (hl : s.mbLive i = true) (w : MbWord) (v : Word) (hv : w = .cs → codeOf v = s.mbCode i) :
    MailboxMove i s (s.setMbWord i w v) := by
  have hcode : (s.setMbWord i w v).mbCode i = s.mbCode i := by
    rw [mbCode_setMbWord hm]
    by_cases hw : w = .cs
    · simp [hw, hv hw]
    · simp [hw]
  refine ⟨⟨_, _, _, _, rfl⟩, ?_, ?_, ?_, ?_, ?_, ?_, ?_, ?_, ?_, ?_, .inl hl, mbLive_lt hl⟩
  · exact wf_setMbWord hm i w v
  · exact fun j u hj => setMbWord_words hm hj v w u
  · simp
  · simp
  · intro _; rcases hb with h | h | h <;> simp [h]
  · simp
  · intro h; exact .inr ⟨by simpa using h, fun _ => hcode⟩
  · rcases hb with h | h | h <;> simp [h, inertCode]
  · rcases hb with h | h | h <;> simp [h, wholeFrameCode]
  · rcases hb with h | h | h <;> simp [h]

/-- Any word and the flag of a mailbox with an unexplained code (R87). -/
theorem scramble_move {s : State} (hm : Memory.wf s.mem = true) (hp : s.params.numMb ≤ 32) {i : Nat}
    (hl : s.mbLive i = true) (hi : ¬inertCode (s.mbCode i)) (hw : ¬wholeFrameCode (s.mbCode i))
    (ha : s.mbCode i ≠ 0b1001#4) (hr : i ∈ s.rxBegun → ¬receptionCode (s.mbCode i)) (cs id d0 d1 : Word) (b : Bool) :
    MailboxMove i s (s.scrambleMb i cs id d0 d1 b) := by
  have hlt := mbLive_lt hl
  refine ⟨⟨_, _, _, _, eq_withMailboxState (by simp)⟩, ?_, ?_, ?_, ?_, ?_, ?_, ?_, hi, fun h => absurd h hw, fun h => absurd h ha, .inl hl, hlt⟩
  · exact wf_scrambleMb hm i cs id d0 d1 b
  · intro j w hj
    simp [mbWord_scrambleMb hm, hj]
  · intro j hj
    simp [flag_scrambleMb (by omega : i < 32), hj]
  · simp
  · exact fun _ => ha
  · simp
  · intro h
    have h' : i ∈ s.rxBegun := by simpa using h
    exact .inr ⟨h', fun hc => absurd hc (hr h')⟩

/-- R84, R85. -/
theorem receiving_move {s : State} (hm : Memory.wf s.mem = true) (hp : s.params.numMb ≤ 32) {i : Nat} (st : RxState)
    (hb : receptionCode (s.mbCode i)) (m : MbMove) :
    receiving st i m s = s ∨ MailboxMove i s (receiving st i m s) := by
  cases m with
  | act alt =>
    simp only [receiving]
    split
    · rename_i hl
      simp only [Bool.or_eq_true, Bool.and_eq_true, decide_eq_true_eq] at hl
      have hlt : i < s.params.numMb := hl.elim (·.2) mbLive_lt
      have h1 := wf_setMbCode hm i (codeBits (.receive st false))
      refine .inr ⟨⟨_, _, _, _, rfl⟩, ?_, ?_, ?_, ?_, ?_, ?_, ?_, ?_, ?_, ?_, ?_, hlt⟩
      · simpa using wf_stampMb h1 i
      · intro j w hj
        simp [mbWord_stampMb h1, mbWord_setMbCode hm, hj]
      · intro j hj
        simp [flag_setFlag (by omega : i < 32), hj]
      · simp
      · intro _; rcases hb with h | h | h <;> simp [h]
      · exact .inr (.inl (by simp))
      · intro h
        simp [not_mem_removeIndex] at h
      · rcases hb with h | h | h <;> simp [h, inertCode]
      · rcases hb with h | h | h <;> simp [h, wholeFrameCode]
      · rcases hb with h | h | h <;> simp [h]
      · exact hl.elim (fun h => .inr ⟨h.1, hb⟩) .inl
    · exact .inl rfl
  | writeId v =>
    simp only [receiving]
    split
    · exact .inr (receiveWord_move hm hb ‹_› .id v (by simp))
    · exact .inl rfl
  | writeD0 v =>
    simp only [receiving]
    split
    · exact .inr (receiveWord_move hm hb ‹_› .d0 v (by simp))
    · exact .inl rfl
  | writeD1 v =>
    simp only [receiving]
    split
    · exact .inr (receiveWord_move hm hb ‹_› .d1 v (by simp))
    · exact .inl rfl
  | writeCsFields v =>
    simp only [receiving]
    split
    · exact .inr (receiveWord_move hm hb ‹_› .cs _ (by simp [State.mbCode]))
    · exact .inl rfl
  | scramble cs id d0 d1 b =>
    simp only [receiving]
    split
    · rename_i hl
      simp only [Bool.and_eq_true, decide_eq_true_eq] at hl
      refine .inr (scramble_move hm hp hl.1 ?_ ?_ ?_ (fun h => absurd h hl.2) _ _ _ _ _) <;>
        rcases hb with h | h | h <;> simp [h, inertCode, wholeFrameCode]
    · exact .inl rfl

/-- R86, the frame sent or not. -/
theorem completeAbort_move {s : State} (hm : Memory.wf s.mem = true) (hp : s.params.numMb ≤ 32) {i : Nat}
    (hc : s.mbCode i = 0b1001#4) (m : MbMove) :
    completeAbort i m s = s ∨ MailboxMove i s (completeAbort i m s) := by
  cases m with
  | act alt =>
    simp only [completeAbort]
    split
    · rename_i hl
      simp only [Bool.and_eq_true, decide_eq_true_eq] at hl
      have hlt := mbLive_lt hl.1
      have h1 := wf_setMbCode hm i (abortedCode alt)
      have hmem : Memory.wf ((s.setMbCode i (abortedCode alt)).stampIfSent i alt).mem = true :=
        wf_stampIfSent h1 i alt
      have hword : ∀ j w, j ≠ i →
          ((s.setMbCode i (abortedCode alt)).stampIfSent i alt).mbWord j w = s.mbWord j w := by
        intro j w hj
        simp [mbWord_stampIfSent h1, mbWord_setMbCode hm, hj]
      have hrest : ∃ mem, (s.setMbCode i (abortedCode alt)).stampIfSent i alt = { s with mem := mem } := by
        cases alt <;> exact ⟨_, rfl⟩
      obtain ⟨mem, he⟩ := hrest
      rw [he] at hmem hword ⊢
      refine .inr ⟨⟨_, _, _, _, rfl⟩, hmem, hword, ?_, ?_, ?_, ?_, ?_, ?_, ?_, fun _ => hl.2, .inl hl.1, hlt⟩
      · intro j hj
        rw [State.dropAbort_flag, flag_setFlag (by omega : i < 32)]
        simp only [hj, decide_false, Bool.or_false]
        rfl
      · simp
      · intro h
        simp [not_mem_removeIndex] at h
      · simp
      · intro hb
        exact .inr ⟨by simpa using hb, by simp [hc, receptionCode]⟩
      · simp [hc, inertCode]
      · simp [hc, wholeFrameCode]
    · exact .inl rfl
  | _ => exact .inl rfl

/-- R87. -/
theorem unconstrained_move {s : State} (hm : Memory.wf s.mem = true) (hp : s.params.numMb ≤ 32) {i : Nat}
    (hc : s.mbCode i = 0b0001#4 ∨ s.mbCode i = 0b1010#4 ∨ s.mbCode i = 0b1011#4 ∨ s.mbCode i = 0b1101#4 ∨
      s.mbCode i = 0b1110#4 ∨ s.mbCode i = 0b1111#4) (m : MbMove) :
    unconstrained i m s = s ∨ MailboxMove i s (unconstrained i m s) := by
  cases m with
  | scramble cs id d0 d1 b =>
    simp only [unconstrained]
    split
    · refine .inr (scramble_move hm hp ‹_› ?_ ?_ ?_ (fun _ => ?_) _ _ _ _ _) <;>
        rcases hc with h | h | h | h | h | h <;> simp [h, inertCode, wholeFrameCode, receptionCode]
    · exact .inl rfl
  | _ => exact .inl rfl

/-- The meaning of the code of mailbox `i` on the controller's turn on that mailbox: one of the moves of R83 to R87, or
nothing. -/
theorem exec_mailbox_turn {s : State} (hm : Memory.wf s.mem = true) (hp : s.params.numMb ≤ 32) {i : Nat} {m : MbMove}
    (ht : s.turn = .mailbox i m) :
    ∃ u, exec (decodeCode (s.mbCode i)) s = .next u ∧ (u = s ∨ MailboxMove i s u) := by
  have hrow : ∀ v (f : Nat → MbMove → State → State), codeRow v f s = .next (f i m s) := by
    intro v f
    simp only [codeRow, ht]
  have hv : ∀ v : BitVec 4, s.mbCode i = v → ∃ u, exec (decodeCode v) s = .next u ∧ (u = s ∨ MailboxMove i s u) := by
    intro v hc
    have hcases : ∀ v : BitVec 4, v = 0#4 ∨ v = 1#4 ∨ v = 2#4 ∨ v = 3#4 ∨ v = 4#4 ∨ v = 5#4 ∨ v = 6#4 ∨ v = 7#4 ∨ v = 8#4 ∨
        v = 9#4 ∨ v = 10#4 ∨ v = 11#4 ∨ v = 12#4 ∨ v = 13#4 ∨ v = 14#4 ∨ v = 15#4 := by decide
    rcases hcases v with rfl | rfl | rfl | rfl | rfl | rfl | rfl | rfl | rfl | rfl | rfl | rfl | rfl | rfl | rfl | rfl
    · exact ⟨_, hrow _ _, .inl rfl⟩
    · exact ⟨_, hrow _ _, unconstrained_move hm hp (by simp [hc]) m⟩
    · exact ⟨_, hrow _ _, beginReception_move hm (by simp) (by simp [hc, codeBits, rxBits]) m⟩
    · exact ⟨_, hrow _ _, receiving_move hm hp _ (by simp [hc, receptionCode]) m⟩
    · exact ⟨_, hrow _ _, beginReception_move hm (by simp) (by simp [hc, codeBits, rxBits]) m⟩
    · exact ⟨_, hrow _ _, receiving_move hm hp _ (by simp [hc, receptionCode]) m⟩
    · exact ⟨_, hrow _ _, beginReception_move hm (by simp) (by simp [hc, codeBits, rxBits]) m⟩
    · exact ⟨_, hrow _ _, receiving_move hm hp _ (by simp [hc, receptionCode]) m⟩
    · exact ⟨_, hrow _ _, .inl rfl⟩
    · exact ⟨_, hrow _ _, completeAbort_move hm hp hc m⟩
    · exact ⟨_, hrow _ _, unconstrained_move hm hp (by simp [hc]) m⟩
    · exact ⟨_, hrow _ _, unconstrained_move hm hp (by simp [hc]) m⟩
    · exact ⟨_, hrow _ _, completeTransmission_move hm hp hc m⟩
    · exact ⟨_, hrow _ _, unconstrained_move hm hp (by simp [hc]) m⟩
    · exact ⟨_, hrow _ _, unconstrained_move hm hp (by simp [hc]) m⟩
    · exact ⟨_, hrow _ _, unconstrained_move hm hp (by simp [hc]) m⟩
  exact hv _ rfl

/-! ## Every reception ended at once -/

/-- The state a reception of 20_memory.md R84 ends in (R85), by the code it shows. -/
def receivedCode (v : BitVec 4) : BitVec 4 := if v = 0b0101#4 then 0b0010#4 else 0b0110#4

/-- A reception in progress in a mailbox that exists ends as R85 says. -/
theorem finishReception_begun {s : State} {i : Nat} (hb : receptionCode (s.mbCode i)) (hi : i ∈ s.rxBegun)
    (hp : i < s.params.numMb) :
    s.finishReception i = (((s.setMbCode i (receivedCode (s.mbCode i))).stampMb i).setFlag i).markEnded i := by
  have hg : (decide (i ∈ s.rxBegun) && decide (i < s.params.numMb) || s.mbLive i) = true := by simp [hi, hp]
  unfold State.finishReception
  rcases hb with h | h | h <;> rw [h] <;> simp only [codeValue, receiving, hg, if_true] <;> rfl

/-- The end of a reception is one of the controller's moves on its mailbox, or nothing. -/
theorem finishReception_move {s : State} (hm : Memory.wf s.mem = true) (hp : s.params.numMb ≤ 32) (i : Nat) :
    s.finishReception i = s ∨ MailboxMove i s (s.finishReception i) := by
  unfold State.finishReception
  split
  · rename_i h; rw [codeValue_eq_some] at h
    exact receiving_move hm hp _ (by rw [h]; simp [receptionCode, codeBits, rxBits]) _
  · rename_i h; rw [codeValue_eq_some] at h
    exact receiving_move hm hp _ (by rw [h]; simp [receptionCode, codeBits, rxBits]) _
  · rename_i h; rw [codeValue_eq_some] at h
    exact receiving_move hm hp _ (by rw [h]; simp [receptionCode, codeBits, rxBits]) _
  · exact .inl rfl

/-- Whatever the controller's moves keep, ending every reception keeps, the list of receptions apart. -/
theorem finishReceptions_keeps {P : State → Prop} (hwf : ∀ u, P u → Memory.wf u.mem = true ∧ u.params.numMb ≤ 32)
    (hmove : ∀ u v i, P u → MailboxMove i u v → P v) {s : State} (h : P s) (l : List Nat) :
    P (l.foldl (fun t i => t.finishReception i) s) := by
  induction l generalizing s with
  | nil => exact h
  | cons i l ih =>
    refine ih ?_
    show P (s.finishReception i)
    rcases finishReception_move (hwf s h).1 (hwf s h).2 i with e | e
    · rw [e]; exact h
    · exact hmove _ _ _ h e

theorem finishReceptions_nil {s : State} (h : s.rxBegun = []) : s.finishReceptions = s := by
  cases s; cases h; rfl

theorem receiving_act_only (st : RxState) (i : Nat) (b : Bool) (s : State) :
    ∃ mem fl rb, receiving st i (.act b) s = { s with mem := mem, iflag := fl, rxBegun := rb } := by
  simp only [receiving]
  split
  · exact ⟨_, _, _, rfl⟩
  · exact ⟨s.mem, s.iflag, s.rxBegun, rfl⟩

theorem finishReception_only (i : Nat) (s : State) :
    ∃ mem fl rb, s.finishReception i = { s with mem := mem, iflag := fl, rxBegun := rb } := by
  unfold State.finishReception
  split
  · exact receiving_act_only _ _ _ _
  · exact receiving_act_only _ _ _ _
  · exact receiving_act_only _ _ _ _
  · exact ⟨s.mem, s.iflag, s.rxBegun, rfl⟩

/-- Ending every reception changes the mailbox file, the flags and the list of receptions, no other field. -/
theorem finishReceptions_only (s : State) :
    ∃ mem fl, s.finishReceptions = { s with mem := mem, iflag := fl, rxBegun := [] } := by
  have key : ∀ (l : List Nat) (u : State), ∃ mem fl rb,
      l.foldl (fun t i => t.finishReception i) u = { u with mem := mem, iflag := fl, rxBegun := rb } := by
    intro l
    induction l with
    | nil => exact fun u => ⟨u.mem, u.iflag, u.rxBegun, rfl⟩
    | cons i l ih =>
      intro u
      obtain ⟨m₁, f₁, r₁, e₁⟩ := finishReception_only i u
      obtain ⟨m₂, f₂, r₂, e₂⟩ := ih (u.finishReception i)
      refine ⟨m₂, f₂, r₂, ?_⟩
      rw [List.foldl_cons, e₂, e₁]
  obtain ⟨mem, fl, rb, h⟩ := key s.rxBegun s
  exact ⟨mem, fl, by rw [State.finishReceptions, h]⟩

/-- What the freeze acknowledgment can do: `FRZACK` set to a value, the receptions ended first where it is drawn 1. -/
theorem ackFreeze_cases (d : Bool) (s : State) :
    s.ackFreeze d = s ∨ (∃ b, s.ackFreeze d = s.setFrzack b) ∨ s.ackFreeze d = s.finishReceptions.setFrzack true := by
  simp only [State.ackFreeze, State.drawFrzack]
  repeat' split
  all_goals first | exact .inl rfl | exact .inr (.inl ⟨_, rfl⟩) | exact .inr (.inr rfl)

/-- It changes GCR, the mailbox file, the flags and the list of receptions, no other field. -/
theorem ackFreeze_only (d : Bool) (s : State) :
    ∃ g mem fl rb, s.ackFreeze d = { s with gcr := g, mem := mem, iflag := fl, rxBegun := rb } := by
  rcases ackFreeze_cases d s with h | ⟨b, h⟩ | h <;> rw [h]
  · exact ⟨s.gcr, s.mem, s.iflag, s.rxBegun, rfl⟩
  · exact ⟨(s.setFrzack b).gcr, s.mem, s.iflag, s.rxBegun, rfl⟩
  · obtain ⟨mem, fl, e⟩ := finishReceptions_only s
    rw [e]
    exact ⟨_, _, _, _, rfl⟩

/-- Where R82 specifies it no reception is touched. -/
theorem ackFreeze_specified {s : State} (h1 : s.lpmack = false) (h2 : s.frz = s.halt) (d : Bool) :
    s.ackFreeze d = s ∨ ∃ b, s.ackFreeze d = s.setFrzack b := by
  simp only [State.ackFreeze, h1, h2, Bool.false_eq_true, if_false, ne_eq, not_true]
  repeat' split
  all_goals first | exact .inl rfl | exact .inr ⟨_, rfl⟩

end Sys2Proof.Machine
end

