-- ==== Sys2Proof/Laws/Encoding.lean ====
section
/-! SUPPORT. The bits of a command word, and how decoding and encoding take it apart. -/

namespace Sys2Proof.Machine

open Sys2Proof

/-- The bits of a command word (30_encoding.md R90). -/
theorem getLsbD_commandWord (a : BitVec 4) (m k : Nat) : (commandWord a m).getLsbD k =
    if k < 8 then m.testBit k else if k < 28 then false else a.getLsbD (k - 28) := by
  show (a ++ 0#20 ++ BitVec.ofNat 8 m : BitVec (4 + 20 + 8)).getLsbD k = _
  rw [BitVec.getLsbD_append, BitVec.getLsbD_append]
  by_cases h1 : k < 8
  · simp [h1, ← BitVec.getLsbD_eq_getElem, BitVec.getLsbD_ofNat]
  · by_cases h2 : k < 28
    · simp [h1, h2, show k - 8 < 20 by omega]
    · simp [h1, h2, show ¬ k - 8 < 20 by omega, show k - 8 - 20 = k - 28 by omega]

/-- Decoding takes a command word apart as R90 puts it together. -/
theorem word_split (a : BitVec 4) (m : Nat) (hm : m < 256) :
    decodeWord (commandWord a m) = decodeSelector a (BitVec.ofNat 8 m) := by
  have h1 : (commandWord a m).extractLsb' 8 20 = 0#20 := by
    apply BitVec.eq_of_getLsbD_eq; intro i hi
    simp [getLsbD_commandWord, hi]
    intro h1; omega
  have h2 : (commandWord a m).extractLsb' 28 4 = a := by
    apply BitVec.eq_of_getLsbD_eq; intro i hi
    simp [getLsbD_commandWord, hi, show ¬ 28 + i < 8 by omega]
  have h3 : (commandWord a m).extractLsb' 0 8 = BitVec.ofNat 8 m := by
    apply BitVec.eq_of_getLsbD_eq; intro i hi
    simp [getLsbD_commandWord, hi, ← BitVec.getLsbD_eq_getElem, BitVec.getLsbD_ofNat]
  simp only [decodeWord, h1, if_true, h2, h3]

/-- A word with bits 27:8 zero is the command word of its selector and index. -/
theorem word_join (w : Word) (h : w.extractLsb' 8 20 = 0#20) : commandWord (w.extractLsb' 28 4)
    (w.extractLsb' 0 8).toNat = w := by
  apply BitVec.eq_of_getLsbD_eq; intro i hi
  have hk : ∀ j, j < 20 → w.getLsbD (8 + j) = false := by
    intro j hj
    have := congrArg (fun x => x.getLsbD j) h
    simpa [hj] using this
  rw [getLsbD_commandWord]
  by_cases h1 : i < 8
  · rw [if_pos h1, BitVec.testBit_toNat]; simp [h1]
  · by_cases h2 : i < 28
    · have := hk (i - 8) (by omega)
      rw [show 8 + (i - 8) = i by omega] at this
      simp [h1, h2, this]
    · simp [h1, h2, show 28 + (i - 28) = i by omega, show i - 28 < 4 by omega]

end Sys2Proof.Machine
end

