-- ==== Sys2Proof/Laws/Engine.lean ====
section
/-! SUPPORT. The engine's steps: which step a command takes at each position, and the closure lemma, that what every shared
operation keeps is kept by every command. -/

namespace Sys2Proof.Machine

/-! ## The arms of `exec` (by `rfl`: the equations of `exec` itself are costly to make) -/

@[simp] theorem exec_btcalc (s : State) : exec .btcalc s = execBtcalc s := rfl
@[simp] theorem exec_encode (s : State) : exec .encode s = execEncode s := rfl
@[simp] theorem exec_decode (s : State) : exec .decode s = execDecode s := rfl
@[simp] theorem exec_init (s : State) : exec .init s = execInit s := rfl
@[simp] theorem exec_transmit (s : State) : exec .transmit s = execTransmit s := rfl
@[simp] theorem exec_receive (m : Nat) (s : State) : exec (.receive m) s = execReceive m s := rfl
@[simp] theorem exec_abort (m : Nat) (s : State) : exec (.abort m) s = execAbort m s := rfl
@[simp] theorem exec_codeRxInactive (s : State) : exec .codeRxInactive s = execCodeRxInactive s := rfl
@[simp] theorem exec_codeRxInactiveBusy (s : State) : exec .codeRxInactiveBusy s = execCodeRxInactiveBusy s := rfl
@[simp] theorem exec_codeRxFull (s : State) : exec .codeRxFull s = execCodeRxFull s := rfl
@[simp] theorem exec_codeRxFullBusy (s : State) : exec .codeRxFullBusy s = execCodeRxFullBusy s := rfl
@[simp] theorem exec_codeRxEmpty (s : State) : exec .codeRxEmpty s = execCodeRxEmpty s := rfl
@[simp] theorem exec_codeRxEmptyBusy (s : State) : exec .codeRxEmptyBusy s = execCodeRxEmptyBusy s := rfl
@[simp] theorem exec_codeRxOverrun (s : State) : exec .codeRxOverrun s = execCodeRxOverrun s := rfl
@[simp] theorem exec_codeRxOverrunBusy (s : State) : exec .codeRxOverrunBusy s = execCodeRxOverrunBusy s := rfl
@[simp] theorem exec_codeTxInactive (s : State) : exec .codeTxInactive s = execCodeTxInactive s := rfl
@[simp] theorem exec_codeTxAbort (s : State) : exec .codeTxAbort s = execCodeTxAbort s := rfl
@[simp] theorem exec_codeRxRemoteAnswer (s : State) : exec .codeRxRemoteAnswer s = execCodeRxRemoteAnswer s := rfl
@[simp] theorem exec_codeRxRemoteAnswerBusy (s : State) : exec .codeRxRemoteAnswerBusy s = execCodeRxRemoteAnswerBusy s := rfl
@[simp] theorem exec_codeTxDataOrRemotePending (s : State) : exec .codeTxDataOrRemotePending s = execCodeTxDataOrRemotePending s := rfl
@[simp] theorem exec_codeUndecodable1101 (s : State) : exec .codeUndecodable1101 s = execCodeUndecodable1101 s := rfl
@[simp] theorem exec_codeTxRemoteAnswerPending (s : State) : exec .codeTxRemoteAnswerPending s = execCodeTxRemoteAnswerPending s := rfl
@[simp] theorem exec_codeUndecodable1111 (s : State) : exec .codeUndecodable1111 s = execCodeUndecodable1111 s := rfl

/-! ## Which step is taken -/

theorem exec_init_run {s : State} {l : InitStep} {i : Fin 32} {n : Nat} (h : s.seq = .run (.init l) i n) :
    exec .init s = initStep l i n s := by
  simp only [exec_init, execInit, serve, h]

theorem exec_transmit_run {s : State} {l : TransmitStep} {i : Fin 32} {n : Nat} (h : s.seq = .run (.transmit l) i n) :
    exec .transmit s = transmitStep l i s := by
  simp only [exec_transmit, execTransmit, serve, h]

theorem exec_receive_run {s : State} {l : ReceiveStep} {i : Fin 32} {n mbx : Nat} (h : s.seq = .run (.receive l) i n) :
    exec (.receive mbx) s = receiveStep mbx l i s := by
  simp only [exec_receive, execReceive, serve, h]

theorem exec_abort_run {s : State} {l : AbortStep} {i : Fin 32} {n mbx : Nat} (h : s.seq = .run (.abort l) i n) :
    exec (.abort mbx) s = abortStep mbx l i n s := by
  simp only [exec_abort, execAbort, serve, h]

theorem exec_btcalc_run {s : State} {l : SingleStep} {i : Fin 32} {n : Nat} (h : s.seq = .run (.btcalc l) i n) :
    exec .btcalc s = endBtcalc (btcalc s.ops.sourceFrequency.toNat s.ops.canFrequency.toNat) s := by
  cases l; simp only [exec_btcalc, execBtcalc, serve, h]

theorem exec_encode_run {s : State} {l : SingleStep} {i : Fin 32} {n : Nat} (h : s.seq = .run (.encode l) i n) :
    exec .encode s = encodeStep s := by
  cases l; simp only [exec_encode, execEncode, serve, h]

theorem exec_decode_run {s : State} {l : SingleStep} {i : Fin 32} {n : Nat} (h : s.seq = .run (.decode l) i n) :
    exec .decode s = decodeStep s := by
  cases l; simp only [exec_decode, execDecode, serve, h]

/-- The operation of a command is served by its meaning: the three cases of `serve` (10_state.md R25). -/
theorem exec_served {i : Instr} {op : Op} (h : commandOp i = some op) (s : State) :
    ∃ k, exec i s = serve op k s ∧ ∀ p j n, p.op ≠ op → k p j n = .fault .commandWhileRunning := by
  cases i <;> cases h
  all_goals
    refine ⟨_, rfl, fun p j n hp => ?_⟩
    cases p <;> first | rfl | exact absurd rfl hp

/-- An idle engine accepts a command (R25). -/
theorem exec_idle {s : State} {i : Instr} {op : Op} (ho : commandOp i = some op) (h : s.seq = .idle) :
    exec i s = .next (s.goto op.start 0) := by
  obtain ⟨k, hk, -⟩ := exec_served ho s
  simp only [hk, serve, h]

/-- A faulted engine refuses it (60_exceptions.md R223). -/
theorem exec_faulted {s : State} {i : Instr} {op : Op} (ho : commandOp i = some op) (h : s.seq = .faulted) :
    exec i s = .next (s.refuse .engineFaulted) := by
  obtain ⟨k, hk, -⟩ := exec_served ho s
  simp only [hk, serve, h, refuse]

/-! ## What every command keeps -/

/-- `o` answers no next state outside `P`. -/
def Keeps (P : State → Prop) (o : Out) : Prop := ∀ t, o = .next t → P t

/-- `P` is kept by each of the engine's shared operations. -/
structure EngineClosed (P : State → Prop) : Prop where
  read : ∀ r s, P s → P (s.afterRead r)
  writeFlag : ∀ v s, P s → P (s.afterWrite .iflag v)
  writeMb : ∀ i w v s, P s → P (s.afterWrite (.mb i w) v)
  keep : ∀ w s, P s → P (s.keep w)
  goto : ∀ p i s, P s → P (s.goto p i)
  stay : ∀ p i n s, P s → P (s.stay p i n)
  close : ∀ r q s, P s → P (s.close r q)
  refuse : ∀ r s, P s → P (s.refuse r)
  engageLock : ∀ i c s, P s → P (s.engageLock i c)

/-- `P` is also kept by what only `INIT` does: writes of the global registers, `mode`, `max_mailbox` (10_state.md R27, R28,
R32). -/
structure InitClosed (P : State → Prop) : Prop extends EngineClosed P where
  writeGlobal : ∀ r v s, P s → P (s.afterWrite r v)
  setMode : ∀ m s, P s → P (s.setMode m)
  latch : ∀ s, P s → P s.latchMaxMailbox

variable {P : State → Prop}

theorem keeps_next {s : State} (h : P s) : Keeps P (.next s) := by
  rintro t ⟨⟩; exact h

theorem keeps_fault (f : Fault) : Keeps P (.fault f) := by
  rintro t ⟨⟩

theorem keeps_ite {c : Prop} [Decidable c] {a b : Out} (ha : Keeps P a) (hb : Keeps P b) :
    Keeps P (if c then a else b) := by
  split <;> assumption

theorem keeps_readReg {r : Reg} {k : Word → State → Out} {s : State} (h : ∀ v, Keeps P (k v (s.afterRead r))) :
    Keeps P (readReg r k s) :=
  fun t ht => h _ t (readReg_next ht).2

theorem keeps_writeReg {r : Reg} {v : Word} {k : State → Out} {s : State} (h : Keeps P (k (s.afterWrite r v))) :
    Keeps P (writeReg r v k s) :=
  fun t ht => h t (writeReg_next ht).2

theorem EngineClosed.finish (hP : EngineClosed P) (r : Result) {s : State} (h : P s) : Keeps P (finish r s) :=
  keeps_next (hP.close _ _ _ h)

theorem EngineClosed.raiseFatal (hP : EngineClosed P) (f : Fatal) {s : State} (h : P s) : Keeps P (raiseFatal f s) :=
  keeps_next (hP.close _ _ _ h)

theorem EngineClosed.refused (hP : EngineClosed P) (r : Refused) {s : State} (h : P s) : Keeps P (Machine.refuse r s) :=
  keeps_next (hP.refuse _ _ h)

theorem EngineClosed.waitAgain (hP : EngineClosed P) (p : Position) (i : Fin 32) (n : Nat) {s : State} (h : P s) :
    Keeps P (waitAgain p i n s) :=
  keeps_ite (hP.raiseFatal _ h) (keeps_next (hP.stay _ _ _ _ h))

theorem EngineClosed.waitUntil (hP : EngineClosed P) {r : Reg} {b : Nat} {val : Bool} {p : Position} {i : Fin 32} {n : Nat}
    {done : State → Out} {s : State} (h : P s) (hd : ∀ t, P t → Keeps P (done t)) :
    Keeps P (waitUntil r b val p i n done s) :=
  keeps_readReg fun _ => keeps_ite (hd _ (hP.read _ _ h)) (hP.waitAgain _ _ _ (hP.read _ _ h))

theorem EngineClosed.decodedAt (hP : EngineClosed P) {i : Nat} {v : BitVec 4} {k : MessageBufferCode → Out} {s : State}
    (h : P s) (hk : ∀ c, Keeps P (k c)) : Keeps P (decodedAt i v k s) := by
  simp only [Machine.decodedAt]
  split
  · exact hk _
  · exact hP.raiseFatal _ h

theorem EngineClosed.scanNext (hP : EngineClosed P) (i : Fin 32) {s : State} (h : P s) : Keeps P (scanNext i s) :=
  keeps_ite (keeps_next (hP.goto _ _ _ h)) (hP.finish _ h)

theorem EngineClosed.engineOnCode (hP : EngineClosed P) (v : BitVec 4) {s : State} (h : P s) :
    Keeps P (engineOnCode v s) := by
  simp only [Machine.engineOnCode]
  split
  · refine hP.decodedAt h fun c => ?_
    simp only [writeCheckOn]
    split
    · exact keeps_next (hP.goto _ _ _ h)
    · exact hP.finish _ h
    · exact hP.finish _ h
  · exact hP.decodedAt h fun c => keeps_next (hP.goto _ _ _ h)
  · refine hP.decodedAt h fun c => ?_
    simp only [scanOn]
    split
    · exact keeps_next (hP.goto _ _ _ h)
    · exact hP.scanNext _ (hP.keep _ _ h)
    · exact hP.scanNext _ (hP.keep _ _ h)
  · exact hP.decodedAt h fun c => keeps_ite (hP.waitAgain _ _ _ h) (keeps_next (hP.goto _ _ _ h))
  · exact hP.decodedAt h fun c => keeps_ite (keeps_next (hP.goto _ _ _ h)) (hP.finish _ h)
  · exact keeps_next h

theorem EngineClosed.rmwRead (hP : EngineClosed P) (r : Reg) (l : InitStep) (i : Fin 32) {s : State} (h : P s) :
    Keeps P (rmwRead r l i s) :=
  keeps_readReg fun _ => keeps_next (hP.goto _ _ _ (hP.keep _ _ (hP.read _ _ h)))

theorem InitClosed.rmwWrite (hP : InitClosed P) (r : Reg) (f : Word → Word) (l : InitStep) (i : Fin 32) {s : State}
    (h : P s) : Keeps P (rmwWrite r f l i s) :=
  keeps_writeReg (keeps_next (hP.goto _ _ _ (hP.writeGlobal _ _ _ h)))

theorem EngineClosed.flagGo (hP : EngineClosed P) (v : Word) (p : Position) (i : Fin 32) {s : State} (h : P s) :
    Keeps P (writeReg .iflag v (fun t => .next (t.goto p i)) s) :=
  keeps_writeReg (keeps_next (hP.goto _ _ _ (hP.writeFlag _ _ h)))

theorem EngineClosed.mbGo (hP : EngineClosed P) (j : Nat) (w : MbWord) (v : Word) (p : Position) (i : Fin 32) {s : State}
    (h : P s) : Keeps P (writeReg (.mb j w) v (fun t => .next (t.goto p i)) s) :=
  keeps_writeReg (keeps_next (hP.goto _ _ _ (hP.writeMb _ _ _ _ h)))

theorem EngineClosed.withHeader (hP : EngineClosed P) {i : Nat} {k : MailboxHeader → Out} {s : State} (h : P s)
    (hk : ∀ hd, Keeps P (k hd)) : Keeps P (withHeader i k s) := by
  simp only [Machine.withHeader]
  split
  · exact hk _
  · exact keeps_next (hP.goto _ _ _ h)

theorem InitClosed.enterMode (hP : InitClosed P) (m : Mode) (l : InitStep) {s : State} (h : P s) :
    Keeps P (enterMode m l s) :=
  keeps_next (hP.goto _ _ _ (hP.setMode _ _ h))

theorem InitClosed.initStep (hP : InitClosed P) (l : InitStep) (i : Fin 32) (n : Nat) {s : State} (h : P s) :
    Keeps P (initStep l i n s) := by
  cases l <;> simp only [Machine.initStep, mbWriteFlag, flagClear, mbWriteId, mbWriteD0, mbWriteD1, mbWriteCs]
  case v0 =>
    simp only [validateAdmission]
    split
    · exact hP.refused _ h
    · split
      · exact hP.refused _ h
      · exact keeps_next (hP.goto _ _ _ (hP.keep _ _ h))
  case v1 => exact keeps_ite (hP.finish _ h) (keeps_next (hP.goto _ _ _ h))
  case v2 =>
    simp only [validateTiming]
    split
    · exact hP.finish _ h
    · exact hP.raiseFatal _ h
    · exact hP.refused _ h
    · exact keeps_next (hP.goto _ _ _ (hP.keep _ _ h))
  case v3 => exact keeps_ite (hP.refused _ h) (keeps_next (hP.goto _ _ _ h))
  case a2 | a5 | a7 => exact hP.waitUntil h fun t ht => keeps_next (hP.goto _ _ _ ht)
  case a9 | b2 | c2 => exact hP.waitUntil h fun t ht => hP.enterMode _ _ ht
  case f2 => exact hP.waitUntil h fun t ht => hP.finish _ (hP.setMode _ _ ht)
  case d1w => exact hP.rmwWrite _ _ _ _ (hP.latch _ h)
  case d3 => exact keeps_writeReg (keeps_next (hP.goto _ _ _ (hP.writeGlobal _ _ _ h)))
  case e1 =>
    exact hP.withHeader h fun _ => keeps_readReg fun _ => keeps_next (hP.goto _ _ _ (hP.keep _ _ (hP.read _ _ h)))
  case e3 => exact hP.withHeader h fun _ => keeps_readReg fun _ => hP.engineOnCode _ (hP.read _ _ h)
  case w1 => exact hP.withHeader h fun _ => hP.flagGo _ _ _ h
  case e2 | w2 | w3 | w4 => exact hP.withHeader h fun _ => hP.mbGo _ _ _ _ _ h
  case w5 =>
    exact hP.withHeader h fun _ => keeps_writeReg
      (keeps_ite (keeps_next (hP.goto _ _ _ (hP.writeMb _ _ _ _ h))) (keeps_next (hP.goto _ _ _ (hP.writeMb _ _ _ _ h))))
  all_goals first | exact hP.rmwRead _ _ _ h | exact hP.rmwWrite _ _ _ _ h

theorem EngineClosed.transmitStep (hP : EngineClosed P) (l : TransmitStep) (i : Fin 32) {s : State} (h : P s) :
    Keeps P (transmitStep l i s) := by
  cases l <;> simp only [Machine.transmitStep, mbWriteFlag, flagClear, mbWriteId, mbWriteD0, mbWriteD1, mbWriteCs]
  case s0 =>
    simp only [startTransmit]
    split
    · exact hP.refused _ h
    · split
      · exact hP.refused _ h
      · exact keeps_next (hP.goto _ _ _ (hP.keep _ _ h))
  case s1 => exact keeps_readReg fun _ => hP.engineOnCode _ (hP.keep _ _ (hP.read _ _ h))
  case s2 => exact hP.engineOnCode _ h
  case s3 => exact keeps_readReg fun _ => keeps_next (hP.goto _ _ _ (hP.keep _ _ (hP.read _ _ h)))
  case s8 => exact keeps_writeReg (hP.finish _ (hP.writeMb _ _ _ _ h))
  case s4 => exact hP.flagGo _ _ _ h
  all_goals exact hP.mbGo _ _ _ _ _ h

theorem EngineClosed.receiveStep (hP : EngineClosed P) (mbx : Nat) (l : ReceiveStep) (i : Fin 32) {s : State} (h : P s) :
    Keeps P (receiveStep mbx l i s) := by
  cases l <;> simp only [Machine.receiveStep, flagClear, startReceive]
  case s0 =>
    exact keeps_ite (hP.refused _ h) (keeps_ite (hP.refused _ h) (keeps_next (hP.goto _ _ _ (hP.keep _ _ h))))
  case s1 =>
    exact keeps_readReg fun _ => keeps_ite (keeps_next (hP.goto _ _ _ (hP.read _ _ h))) (hP.finish _ (hP.read _ _ h))
  case s2 =>
    exact keeps_readReg fun _ => hP.engineOnCode _ (hP.engageLock _ _ _ (hP.keep _ _ (hP.read _ _ h)))
  case s3 | s4 | s5 => exact keeps_readReg fun _ => keeps_next (hP.goto _ _ _ (hP.keep _ _ (hP.read _ _ h)))
  case s6 =>
    split
    · exact keeps_next (hP.goto _ _ _ (hP.keep _ _ h))
    · exact hP.raiseFatal _ h
  case s7 => exact hP.decodedAt h fun _ => keeps_next (hP.goto _ _ _ (hP.keep _ _ h))
  case s8 => exact hP.flagGo _ _ _ h
  case s9 => exact keeps_readReg fun _ => hP.finish _ (hP.read _ _ h)

theorem EngineClosed.abortStep (hP : EngineClosed P) (mbx : Nat) (l : AbortStep) (i : Fin 32) (n : Nat) {s : State} (h : P s) :
    Keeps P (abortStep mbx l i n s) := by
  cases l <;> simp only [Machine.abortStep, flagClear, startAbort]
  case s0 =>
    exact keeps_ite (hP.refused _ h) (keeps_ite (hP.refused _ h) (keeps_next (hP.goto _ _ _ (hP.keep _ _ h))))
  case s1 => exact keeps_readReg fun _ => hP.engineOnCode _ (hP.keep _ _ (hP.read _ _ h))
  case s2 => exact hP.flagGo _ _ _ h
  case s3 => exact hP.mbGo _ _ _ _ _ h
  case s4 => exact hP.waitUntil h fun t ht => hP.finish _ ht

theorem EngineClosed.serve (hP : EngineClosed P) {op : Op} {s : State} {k : Position → Fin 32 → Nat → Out} (h : P s)
    (hk : ∀ p i n, Keeps P (k p i n)) : Keeps P (serve op k s) := by
  simp only [Machine.serve]
  split
  · exact hP.refused _ h
  · exact keeps_next (hP.goto _ _ _ h)
  · exact hk _ _ _

/-- What the shared operations keep is kept by every command but `INIT`. -/
theorem EngineClosed.command (hP : EngineClosed P) {i : Instr} {s : State}
    (hi : i = .btcalc ∨ i = .encode ∨ i = .decode ∨ i = .transmit ∨ (∃ m, i = .receive m) ∨ ∃ m, i = .abort m)
    (h : P s) : Keeps P (exec i s) := by
  rcases hi with rfl | rfl | rfl | rfl | ⟨m, rfl⟩ | ⟨m, rfl⟩
  all_goals
    refine hP.serve h fun p _ _ => ?_
    cases p <;> try exact keeps_fault _
  · simp only [endBtcalc]
    split
    · exact hP.finish _ h
    · exact hP.finish _ h
    · exact hP.raiseFatal _ h
    · exact hP.refused _ h
  · simp only [encodeStep]
    split
    · exact hP.finish _ h
    · exact hP.refused _ h
  · simp only [decodeStep]
    split
    · split
      · exact hP.finish _ h
      · exact hP.raiseFatal _ h
    · exact hP.refused _ h
  · exact hP.transmitStep _ _ h
  · exact hP.receiveStep _ _ _ h
  · exact hP.abortStep _ _ _ _ h

/-- What every operation of the engine keeps is kept by `INIT`. -/
theorem InitClosed.init (hP : InitClosed P) {s : State} (h : P s) : Keeps P (exec .init s) := by
  refine hP.serve h fun p _ _ => ?_
  cases p <;> first | exact hP.initStep _ _ _ h | exact keeps_fault _

/-- What every operation of the engine keeps is kept by every command. -/
theorem InitClosed.command (hP : InitClosed P) {i : Instr} {s : State}
    (hi : i = .btcalc ∨ i = .encode ∨ i = .decode ∨ i = .init ∨ i = .transmit ∨ (∃ m, i = .receive m) ∨ ∃ m, i = .abort m)
    (h : P s) : Keeps P (exec i s) := by
  rcases hi with hi | hi | hi | rfl | hi | hi | hi
  case inr.inr.inr.inl => exact hP.init h
  all_goals exact hP.toEngineClosed.command (by simp [hi]) h

/-- What a command word decodes to is one of the seven commands. -/
theorem decodeWord_command {w : Word} {i : Instr} (h : decodeWord w = .ok i) :
    i = .btcalc ∨ i = .encode ∨ i = .decode ∨ i = .init ∨ i = .transmit ∨ (∃ m, i = .receive m) ∨ ∃ m, i = .abort m := by
  simp only [decodeWord] at h
  split at h
  · simp only [decodeSelector, withoutMailbox] at h
    repeat' split at h
    all_goals first | (cases h; simp) | cases h
  · cases h

end Sys2Proof.Machine
end

