-- ==== Sys2Proof/Laws/Operands.lean ====
section
/-! SUPPORT. What operands that pass admission satisfy (60_exceptions.md R217). -/

namespace Sys2Proof.Machine

/-- A header that passes has a code that is not busy (10_state.md R48). -/
theorem checkHeader_notBusy {h : HeaderOperand} {a : MailboxHeader} (hc : checkHeader h = some a) :
    MessageBufferCode.isBusy a.code = false := by
  simp only [checkHeader] at hc
  split at hc
  · split at hc
    · rename_i hb
      cases hc
      simp only [Bool.and_eq_true, Bool.not_eq_true'] at hb
      exact hb.1
    · cases hc
  · cases hc

/-- A header sequence that passes keeps its length, and no code of it is busy. -/
theorem checkHeaders_some {hs : List HeaderOperand} :
    ∀ {as : List MailboxHeader}, checkHeaders hs = some as →
      as.length = hs.length ∧ ∀ a ∈ as, MessageBufferCode.isBusy a.code = false := by
  induction hs with
  | nil => intro as h; cases h; simp
  | cons h hs ih =>
    intro as hc
    simp only [checkHeaders] at hc
    split at hc
    · rename_i a bs h1 h2
      cases hc
      obtain ⟨hl, hb⟩ := ih h2
      simp only [List.length_cons, hl, List.mem_cons, forall_eq_or_imp, true_and]
      exact ⟨checkHeader_notBusy h1, hb⟩
    · cases hc

/-- The bounds of 42_controller_init.md R161 on a sequence that passes. -/
theorem checkHeaderSequence_some {numMb : Nat} {hs : List HeaderOperand} {as : List MailboxHeader}
    (h : checkHeaderSequence numMb hs = some as) :
    1 ≤ as.length ∧ as.length ≤ numMb ∧ ∀ a ∈ as, MessageBufferCode.isBusy a.code = false := by
  simp only [checkHeaderSequence] at h
  split at h
  · rename_i hl
    obtain ⟨h1, h2⟩ := checkHeaders_some h
    exact ⟨by omega, by omega, h2⟩
  · cases h

/-- A frame that passes has at most 8 payload bytes (R46). -/
theorem checkFrame_wf {o : FrameOperand} {f : CanFrame} (h : checkFrame o = some f) : CanFrame.wf f = true := by
  cases o with
  | data id p =>
    simp only [checkFrame] at h
    split at h
    · rename_i hp
      simp only [Option.map_eq_some_iff] at h
      obtain ⟨a, _, rfl⟩ := h
      simpa [CanFrame.wf] using hp
    · cases h
  | remote id =>
    simp only [checkFrame, Option.map_eq_some_iff] at h
    obtain ⟨a, _, rfl⟩ := h
    rfl

end Sys2Proof.Machine
end

