-- ==== Sys2Proof/Laws/Packing.lean ====
section
/-! SUPPORT. The bits of packed words (30_encoding.md R100 to R110). -/

namespace Sys2Proof.Machine

open Sys2Proof

/-- The table of R93 and the codec agree. -/
theorem codeTable_iff : ∀ (v : BitVec 4) (c : MessageBufferCode), (v, c) ∈ codeTable → codeValue v = some c ∧
    codeBits c = v := by
  intro v c h
  have h2 : codeValue v = some c := by
    have : ∀ p ∈ codeTable, codeValue p.1 = some p.2 := by decide
    exact this _ h
  exact ⟨h2, codeBits_of_codeValue h2⟩

/-- The bits of a packed control word (30_encoding.md R101). -/
theorem getLsbD_packCs (h : MailboxHeader) {f : CanFrame} (hf : CanFrame.wf f = true) (k : Nat) :
   (packCs h f).getLsbD k = if k < 16 then h.timestamp.getLsbD k else if k < 20 then (dlcOf f).testBit (k - 16) else if k = 20 then isRemote f
     else if k = 21 then isExtended f.id else if k < 24 then false else if k < 28 then (codeBits h.code).getLsbD (k - 24) else if k = 29 then h.errorStateIndicator else false := by
  have hd : dlcOf f < 16 := by
    cases f with
    | data id p => simp only [CanFrame.wf, decide_eq_true_eq] at hf; simp only [dlcOf]; omega
    | remote id => simp [dlcOf]
  have h4 : ∀ k, 4 ≤ k → (dlcOf f).testBit k = false := fun k hk =>
    Nat.testBit_lt_two_pow (Nat.lt_of_lt_of_le hd (Nat.pow_le_pow_right (n := 2) (by omega) hk))
  have hb : ∀ (b : Bool) k, b.toNat.testBit k = (decide (k = 0) && b) := by
    intro b k
    by_cases hk : k = 0
    · subst hk; cases b <;> rfl
    · have : b.toNat.testBit k = false := Nat.testBit_lt_two_pow (Nat.lt_of_lt_of_le (Bool.toNat_lt b) (Nat.pow_le_pow_right (n := 2) (by omega) (show 1 ≤ k by omega)))
      simp [this, hk]
  have ht : ∀ k, 16 ≤ k → h.timestamp.getLsbD k = false := fun k hk => BitVec.getLsbD_of_ge _ _ hk
  have hc : ∀ k, 4 ≤ k → (codeBits h.code).getLsbD k = false := fun k hk => BitVec.getLsbD_of_ge _ _ hk
  simp only [packCs, BitVec.getLsbD_or, BitVec.getLsbD_shiftLeft, BitVec.getLsbD_ofNat, BitVec.getLsbD_setWidth, hb]
  by_cases h32 : k < 32
  · interval_cases k <;> simp [ht, hc, h4]
  · simp [h32, show ¬ k < 16 by omega, show ¬ k < 20 by omega, show ¬ k < 24 by omega, show ¬ k < 28 by omega,
      show k ≠ 20 by omega, show k ≠ 21 by omega, show k ≠ 29 by omega]

theorem laneOf_data (id p) (k : Nat) : laneOf (.data id p) k = p.getD k 0#8 := rfl

/-- Lane `k` of the packed data words is payload byte `k` (R108, R109). -/
theorem laneAt_pack (f : CanFrame) (k : Nat) (hk : k < 8) : laneAt (packData f 0) (packData f 1) k = laneOf f k := by
  have hp : ∀ j, (packData f j).extractLsb' 24 8 = laneOf f (4*j) ∧ (packData f j).extractLsb' 16 8 = laneOf f (4*j+1) ∧ (packData f j).extractLsb' 8 8 = laneOf f (4*j+2) ∧ (packData f j).extractLsb' 0 8 = laneOf f (4*j+3) := by
    intro j
    have e : packData f j = (laneOf f (4 * j) ++ laneOf f (4 * j + 1) ++ laneOf f (4 * j + 2) ++ laneOf f (4 * j + 3) : BitVec (8+8+8+8)) := rfl
    refine ⟨?_, ?_, ?_, ?_⟩ <;> (apply BitVec.eq_of_getLsbD_eq; intro i hi; rw [e, BitVec.getLsbD_extractLsb',
        BitVec.getLsbD_append, BitVec.getLsbD_append, BitVec.getLsbD_append]; interval_cases i <;> simp)
  interval_cases k <;> simp [laneAt, hp]

/-- The bits of a control word with its code replaced. -/
theorem getLsbD_withCode (c : Word) (v : BitVec 4) (k : Nat) : (withCode c v).getLsbD k = if 24 ≤ k ∧
    k < 28 then v.getLsbD (k - 24) else c.getLsbD k := by
  simp only [withCode, getLsbD_set, Field.covers, Cs.code]
  by_cases h : 24 ≤ k ∧ k < 28
  · simp [h, show k < 32 by omega, BitVec.testBit_toNat]
  · have : (decide (24 ≤ k) && decide (k < 24 + 4) && decide (k < 32)) = false := by
      simp only [Bool.and_eq_false_iff, decide_eq_false_iff_not]; omega
    simp only [this, Bool.false_eq_true, if_false, if_neg h]

/-- The bits of a control word with its timestamp replaced. -/
theorem getLsbD_stamp (c t : Word) (k : Nat) :
    (blend Cs.timestamp.mask c t).getLsbD k = if k < 16 then t.getLsbD k else c.getLsbD k := by
  rw [getLsbD_blend, getLsbD_mask]
  simp only [Field.covers, Cs.timestamp]
  by_cases h : k < 16
  · simp [h, show k < 32 by omega]
  · simp [h]

/-- The control word after the controller wrote its code and, where `b`, its timestamp. -/
def csAfter (c t : Word) (v : BitVec 4) (b : Bool) :
    Word := if b then blend Cs.timestamp.mask (withCode c v) t else withCode c v

theorem codeOf_csAfter (c t : Word) (v : BitVec 4) (b : Bool) : codeOf (csAfter c t v b) = v := by
  cases b <;> simp [csAfter]

/-- What that control word shows in its other fields. -/
theorem extract_csAfter (c t : Word) (v : BitVec 4) (b : Bool) :
    (csAfter c t v b).extractLsb' 0 16 = (if b then t else c).extractLsb' 0 16 ∧
    (csAfter c t v b).extractLsb' 16 8 = c.extractLsb' 16 8 ∧ (csAfter c t v b).extractLsb' 28 4 = c.extractLsb' 28 4 := by
  refine ⟨?_, ?_, ?_⟩ <;> apply BitVec.eq_of_getLsbD_eq <;> intro k hk <;> simp only [BitVec.getLsbD_extractLsb', hk,
      csAfter]
  · cases b <;> simp [getLsbD_stamp, getLsbD_withCode, hk, show ¬ 24 ≤ k by omega]
  · cases b <;> simp [getLsbD_stamp, getLsbD_withCode, show ¬ 24 ≤ 16 + k by omega]
  · cases b <;> simp [getLsbD_stamp, getLsbD_withCode, show ¬ 28 + k < 16 by omega]

theorem withCode_withCode (c : Word) (a b : BitVec 4) : withCode (withCode c a) b = withCode c b := by
  apply BitVec.eq_of_getLsbD_eq; intro i hi
  simp only [withCode, getLsbD_set]
  split <;> rfl

/-- A packed frame is rebuilt (44_receive.md R191). -/
theorem buildFrame_pack {f : CanFrame} (hf : CanFrame.wf f = true) (p : BitVec 3) {c : Word}
    (h21 : c.getLsbD 21 = isExtended f.id) (h20 : c.getLsbD 20 = isRemote f)
    (hd : c.extractLsb' 16 4 = BitVec.ofNat 4 (dlcOf f)) :
   buildFrame c (packId p f.id) (packData f 0) (packData f 1) = some f := by
  have hid : unpackId (isExtended f.id) (packId p f.id) = f.id := by
    cases f.id with
    | base b =>
      simp only [isExtended, unpackId, packId, Bool.false_eq_true, if_false, CanIdentifier.base.injEq]
      apply BitVec.eq_of_getLsbD_eq
      intro i hi
      interval_cases i <;> simp
    | extended e =>
      simp only [isExtended, unpackId, packId, if_true, CanIdentifier.extended.injEq]
      apply BitVec.eq_of_getLsbD_eq
      intro i hi
      simp [hi, show i < 32 by omega]
  simp only [buildFrame, unpackCs, h21, h20, hd, hid]
  cases f with
  | remote id => simp [isRemote, CanFrame.id]
  | data id pl =>
    simp only [CanFrame.wf, decide_eq_true_eq] at hf
    have : (BitVec.ofNat 4 (dlcOf (.data id pl))).toNat = pl.length := by simp [dlcOf]; omega
    simp only [isRemote, Bool.false_eq_true, if_false, this, show ¬ 8 < pl.length by omega]
    refine congrArg _ (congrArg _ (List.ext_getElem (by simp [unpackData]) ?_))
    intro k h1 h2
    simp only [unpackData, List.length_map, List.length_range] at h1
    simp [unpackData, laneAt_pack _ k (by omega), laneOf_data, h2]

theorem or_bit_withCode (c : Word) (v : BitVec 4) (h : codeOf c = v) (hv : v = 0b0010#4 ∨ v = 0b0100#4 ∨ v = 0b0110#4) :
    withCode c (v ||| 1#4) = c ||| (1#32 <<< 24) := by
  apply BitVec.eq_of_getLsbD_eq; intro k hk
  have e : (1#32 <<< 24).getLsbD k = decide (k = 24) := by interval_cases k <;> rfl
  rw [getLsbD_withCode, BitVec.getLsbD_or (x := c), e]
  by_cases h24 : 24 ≤ k ∧ k < 28
  · have : c.getLsbD k = v.getLsbD (k - 24) := by
      rw [← h]; simp [codeOf, show k - 24 < 4 by omega, show 24 + (k - 24) = k by omega]
    rw [if_pos h24, this, BitVec.getLsbD_or]
    congr 1
    have : k = 24 ∨ k = 25 ∨ k = 26 ∨ k = 27 := by omega
    rcases this with rfl | rfl | rfl | rfl <;> rfl
  · rw [if_neg h24]; simp; omega

theorem get_if {f : Field} {c : Bool} {a v w : Word} (h : ∀ k, f.lo ≤ k → k < f.lo + f.width →
    w.getLsbD k = if c then v.getLsbD k else a.getLsbD k) :
   f.get w = if c then f.get v else f.get a := by
  cases c with
  | true => exact get_congr (by simpa using h)
  | false => exact get_congr (by simpa using h)

end Sys2Proof.Machine
end

