-- ==== Sys2Proof/Laws/Step.lean ====
section
/-! SUPPORT. The one inversion lemma of `step`: the moves of the three agents, and that the end of a turn is all a step
adds. An invariant of every step is a property kept by each constructor of `Moves`. -/

namespace Sys2Proof.Machine

/-- Every way a turn can change the state, the end of the turn apart. -/
inductive Moves (s : State) : State → Prop where
  /-- The engine takes a step of the command it serves. -/
  | command (w : Word) (i : Instr) (u : State) (ht : s.turn = .engine) (hc : s.cmd = some w)
      (hd : decodeWord w = .ok i) (hx : exec i s = .next u) : Moves s u
  /-- The command word is no command. -/
  | illegal (w : Word) (e : DecodeReject) (ht : s.turn = .engine) (hc : s.cmd = some w)
      (hd : decodeWord w = .error e) : Moves s s.rejectWord
  /-- The engine has no command. -/
  | quiet (ht : s.turn = .engine) (hc : s.cmd = none) : Moves s s
  /-- The controller moves on a mailbox that exists. -/
  | mailbox (i : Nat) (m : MbMove) (u : State) (ht : s.turn = .mailbox i m) (hi : i < s.params.numMb)
      (hx : exec (decodeCode (s.mbCode i)) s = .next u) : Moves s u
  /-- The mailbox does not exist. -/
  | noMailbox (i : Nat) (m : MbMove) (ht : s.turn = .mailbox i m) (hi : s.params.numMb ≤ i) : Moves s s
  | host (w : Word) (ops : OperandPort) (ht : s.turn = .host w ops) : Moves s (s.issue w ops)
  | lowPower (ht : s.turn = .lowPower) : Moves s s.ackLowPower
  | softReset (gcr btr rxmask iflag timer : Word) (ht : s.turn = .softReset gcr btr rxmask iflag timer) :
      Moves s (s.softReset gcr btr rxmask iflag timer)
  | freeze (draw : Bool) (ht : s.turn = .freeze draw) : Moves s (s.ackFreeze draw)
  | timer (v : Word) (ht : s.turn = .timer v) : Moves s (s.tickTimer v)
  | floating (v : Word) (ht : s.turn = .floating v) : Moves s (s.floatFlags v)

/-- Everything a step can do. -/
theorem step_next {s t : State} (h : step s = .next t) : ∃ u, Moves s u ∧ t = u.endTurn := by
  cases ht : s.turn with
  | engine =>
    cases hc : s.cmd with
    | none =>
      simp only [step, fetch, ht, fetchCommand, hc, State.environment] at h
      cases h
      exact ⟨_, .quiet ht hc, rfl⟩
    | some w =>
      cases hd : decodeWord w with
      | error e =>
        simp only [step, fetch, ht, fetchCommand, hc, hd] at h
        cases h
        exact ⟨_, .illegal w e ht hc hd, rfl⟩
      | ok i =>
        simp only [step, fetch, ht, fetchCommand, hc, hd] at h
        cases hx : exec i s with
        | next u =>
          rw [hx] at h
          cases h
          exact ⟨_, .command w i u ht hc hd hx, rfl⟩
        | fault r => rw [hx] at h; cases h
        | refused r => rw [hx] at h; cases h
  | mailbox i m =>
    by_cases hi : i < s.params.numMb
    · simp only [step, fetch, ht, fetchCode, if_pos hi] at h
      cases hx : exec (decodeCode (s.mbCode i)) s with
      | next u =>
        rw [hx] at h
        cases h
        exact ⟨_, .mailbox i m u ht hi hx, rfl⟩
      | fault r => rw [hx] at h; cases h
      | refused r => rw [hx] at h; cases h
    · simp only [step, fetch, ht, fetchCode, if_neg hi, State.environment] at h
      cases h
      exact ⟨_, .noMailbox i m ht (by omega), rfl⟩
  | host w ops =>
    simp only [step, fetch, ht, State.environment] at h
    cases h; exact ⟨_, .host w ops ht, rfl⟩
  | lowPower =>
    simp only [step, fetch, ht, State.environment] at h
    cases h; exact ⟨_, .lowPower ht, rfl⟩
  | softReset g b r f tm =>
    simp only [step, fetch, ht, State.environment] at h
    cases h; exact ⟨_, .softReset g b r f tm ht, rfl⟩
  | freeze d =>
    simp only [step, fetch, ht, State.environment] at h
    cases h; exact ⟨_, .freeze d ht, rfl⟩
  | timer v =>
    simp only [step, fetch, ht, State.environment] at h
    cases h; exact ⟨_, .timer v ht, rfl⟩
  | floating v =>
    simp only [step, fetch, ht, State.environment] at h
    cases h; exact ⟨_, .floating v ht, rfl⟩

/-- The engine's turn on a command word that is a command. -/
theorem step_command {s : State} {w : Word} {i : Instr} (ht : s.turn = .engine) (hc : s.cmd = some w)
    (hd : decodeWord w = .ok i) : step s = afterTurn (exec i s) := by
  simp only [step, fetch, ht, fetchCommand, hc, hd]

/-- The controller's turn on a mailbox. -/
theorem step_mailbox {s : State} {i : Nat} {m : MbMove} (ht : s.turn = .mailbox i m) (hi : i < s.params.numMb) :
    step s = afterTurn (exec (decodeCode (s.mbCode i)) s) := by
  simp only [step, fetch, ht, fetchCode, if_pos hi]

/-- The turn at the head of the script. -/
theorem turn_of_script {s : State} {t : Turn} {r : List Turn} (h : s.script = t :: r) : s.turn = t := by
  simp only [State.turn, h]

end Sys2Proof.Machine
end

