-- ==== Sys2Proof/Laws/Progress.lean ====
section
/-! SUPPORT. The structural layer of the invariant, and that every command of a structured state answers a next state. -/

namespace Sys2Proof.Machine

open Sys2Proof

theorem fetchCommand_congr {s t : State} (h : t.cmd = s.cmd) : fetchCommand t = fetchCommand s := by
  simp only [fetchCommand, h]

/-- What a step of `INIT` does to the sequencer, the mode, the command and the kept operands. -/
def InitNext (s t : State) : Prop :=
  (t.maxMailbox = s.maxMailbox ∨ (t.maxMailbox = BitVec.ofNat 5 (s.work.headers.length - 1) ∧ 0 < s.work.headers.length ∧
      s.work.headers.length ≤ s.params.numMb)) ∧
  ((∃ l i n, t.seq = .run (.init l) i n ∧ l ≠ .v0 ∧ t.cmd = s.cmd ∧ t.params = s.params ∧ t.mode ≠ .running ∧
     i.val < t.work.headers.length ∧ t.work.headers.length ≤ s.params.numMb) ∨
  ((t.seq = .idle ∨ t.seq = .faulted) ∧ t.work = Work.empty))

theorem initNext {s : State} {l : InitStep} {i : Fin 32} {n : Nat} (hseq : s.seq = .run (.init l) i n)
    (hk : l ≠ .v0 → s.mode ≠ .running ∧ i.val < s.work.headers.length ∧ s.work.headers.length ≤ s.params.numMb)
    {t : State} (h : initStep l i n s = .next t) : InitNext s t := by
  by_cases hv : l = .v0
  · subst hv
    simp only [initStep, validateAdmission, refuse] at h
    split at h
    · cases h; simp [InitNext, hseq]
    · rename_i hmode
      split at h
      · cases h; simp [InitNext, hseq]
      · rename_i hs' hchk
        obtain ⟨k1, k2, _⟩ := checkHeaderSequence_some hchk
        cases h
        refine ⟨.inl rfl, .inl ⟨.v1, 0, 0, rfl, by simp, by simp, by simp, by simpa using hmode, ?_, by simpa using k2⟩⟩
        simp; omega
  obtain ⟨hm, hi, hlen⟩ := hk hv
  have h0 : 0 < s.work.headers.length := by omega
  have hw : ∀ {r b val p i n done} {s t : State}, waitUntil r b val p i n done s = .next t →
    done (s.afterRead r) = .next t ∨ t = (s.afterRead r).stay p i (n+1) ∨ ∃ f, t = (s.afterRead r).close (.fatal f) .faulted := by
    intro r b val p i n done s t h
    obtain ⟨_, h | ⟨_, h⟩⟩ := waitUntil_next h
    · exact .inl h.2
    · rcases waitAgain_next h with ⟨_, h⟩ | ⟨_, h⟩
      · exact .inr (.inl h)
      · exact .inr (.inr ⟨_, h⟩)
  cases l <;> simp only [initStep, rmwRead, rmwWrite, withHeader, mbWriteFlag, flagClear, mbWriteId, mbWriteD0, mbWriteD1,
      mbWriteCs, enterMode, finish] at h
  case v0 => exact absurd rfl hv
  case v1 =>
    simp only [validateDma, finish] at h
    split at h <;> cases h <;> simp [InitNext, hm, hi, hlen]
  case v2 =>
    simp only [validateTiming, finish, raiseFatal, refuse] at h
    split at h <;> cases h <;> simp [InitNext, hm, hi, hlen, hseq]
  case v3 =>
    simp only [validateFifo, refuse] at h
    split at h <;> cases h <;> simp [InitNext, hm, hi, hlen, hseq]
  case a2 | a5 | a7 =>
    rcases hw h with h | h | ⟨f, h⟩ <;> cases h <;> simp [InitNext, hm, hi, hlen]
  case a9 | b2 | c2 =>
    rcases hw h with h | h | ⟨f, h⟩ <;> cases h <;> simp [InitNext, hm, hi, h0, hlen]
  case f2 =>
    rcases hw h with h | h | ⟨f, h⟩ <;> cases h <;> simp [InitNext, hm, hi, hlen]
  case e3 =>
    split at h
    · replace h := (readReg_next h).2
      simp only [engineOnCode, State.afterRead_seq, hseq] at h
      rcases decodedAt_next h with ⟨c, _, h⟩ | ⟨_, h⟩
      · simp only [writeCheckOn, finish] at h
        split at h <;> cases h <;> simp [InitNext, hm, hi, hlen]
      · cases h; simp [InitNext]
    · cases h; simp [InitNext, hm, h0, hlen]
  case w5 =>
    split at h
    · replace h := (writeReg_next h).2
      simp only [nextMailbox] at h
      have hsucc := succ_val_le i
      split at h <;> cases h
      · rename_i hlt
        simp only [State.afterWrite_work] at hlt
        refine ⟨.inl (by simp), .inl ⟨_, _, _, rfl, by simp, by simp, by simp, by simpa using hm, ?_, by simpa using hlen⟩⟩
        simp only [State.goto_work, State.afterWrite_work]; omega
      · simp [InitNext, hm, h0, hlen]
    · cases h; simp [InitNext, hm, h0, hlen]
  case e1 =>
    split at h
    · replace h := (readReg_next h).2
      cases h; simp [InitNext, hm, hi, hlen]
    · cases h; simp [InitNext, hm, h0, hlen]
  case e2 | w1 | w2 | w3 | w4 =>
    split at h
    · replace h := (writeReg_next h).2
      cases h; simp [InitNext, hm, hi, hlen]
    · cases h; simp [InitNext, hm, h0, hlen]
  all_goals first
    | (replace h := (readReg_next h).2; cases h; simp [InitNext, hm, hi, h0, hlen])
    | (replace h := (writeReg_next h).2; cases h; simp [InitNext, hm, hi, h0, hlen])

/-- What a step of an admitted `TRANSMIT` does to the sequencer. -/
def RunNext (s t : State) (p : Position → Prop) : Prop :=
  (∃ l i n, t.seq = .run l i n ∧ p l ∧ t.cmd = s.cmd ∧ t.params = s.params ∧ t.mode = s.mode ∧ t.maxMailbox = s.maxMailbox ∧
     t.work.frame = s.work.frame ∧ t.work.report.length = s.work.report.length ∧ i.val ≤ s.maxMailbox.toNat) ∨
  ((t.seq = .idle ∨ t.seq = .faulted) ∧ t.work = Work.empty)

theorem transmitNext {s : State} {l : TransmitStep} {i : Fin 32} {n : Nat} (hl : l ≠ .s0)
    (hseq : s.seq = .run (.transmit l) i n)
    (hi : i.val ≤ s.maxMailbox.toNat) {t : State} (h : transmitStep l i s = .next t) : RunNext s t (fun p => ∃ l,
        l ≠ .s0 ∧ p = .transmit l) := by
  cases l <;> simp only [transmitStep, mbWriteFlag, flagClear, mbWriteId, mbWriteD0, mbWriteD1, mbWriteCs, finish] at h
  case s0 => exact absurd rfl hl
  case s1 =>
    replace h := (readReg_next h).2
    simp only [engineOnCode, State.keep_seq, State.afterRead_seq, hseq] at h
    rcases decodedAt_next h with ⟨c, _, h⟩ | ⟨_, h⟩ <;> cases h <;> simp [RunNext, hi]
  case s2 =>
    simp only [engineOnCode, hseq] at h
    rcases decodedAt_next h with ⟨c, _, h⟩ | ⟨_, h⟩
    · simp only [scanOn] at h
      split at h
      · cases h; simp [RunNext, hi]
      · rcases scanNext_next h with ⟨h1, h⟩ | ⟨h1, h⟩ <;> cases h <;> simp [RunNext, State.noteSkipped]
        have := succ_val_le i; simp at h1; omega
      · rcases scanNext_next h with ⟨h1, h⟩ | ⟨h1, h⟩ <;> cases h <;> simp [RunNext, State.noteSkipped]
        have := succ_val_le i; simp at h1; omega
    · cases h; simp [RunNext]
  all_goals first
    | (replace h := (readReg_next h).2; cases h; simp [RunNext, hi])
    | (replace h := (writeReg_next h).2; cases h; simp [RunNext, hi])

/-- The same for `RECEIVE` and `ABORT`, whose index does not move. -/
def IdxNext (s t : State) (p : Position → Prop) (i : Fin 32) : Prop :=
  (∃ l n, t.seq = .run l i n ∧ p l ∧ t.cmd = s.cmd ∧ t.params = s.params ∧ t.mode = s.mode ∧ t.maxMailbox = s.maxMailbox) ∨
  ((t.seq = .idle ∨ t.seq = .faulted) ∧ t.work = Work.empty)

theorem receiveNext {s : State} {l : ReceiveStep} {m : Nat} {i : Fin 32} {n : Nat} (hl : l ≠ .s0)
    (hseq : s.seq = .run (.receive l) i n)
    {t : State} (h : receiveStep m l i s = .next t) : IdxNext s t (fun p => ∃ l, l ≠ .s0 ∧ p = .receive l) i := by
  cases l <;> simp only [receiveStep, flagClear, finish, raiseFatal] at h
  case s0 => exact absurd rfl hl
  case s1 =>
    replace h := (readReg_next h).2
    split at h <;> cases h <;> simp [IdxNext]
  case s2 =>
    replace h := (readReg_next h).2
    simp only [engineOnCode, State.engageLock_seq, State.keep_seq, State.afterRead_seq, hseq] at h
    rcases decodedAt_next h with ⟨c, _, h⟩ | ⟨_, h⟩
    · simp only [busyTestOn] at h
      split at h
      · rcases waitAgain_next h with ⟨_, h⟩ | ⟨_, h⟩ <;> cases h <;> simp [IdxNext]
      · cases h; simp [IdxNext]
    · cases h; simp [IdxNext]
  case s6 =>
    split at h <;> cases h <;> simp [IdxNext]
  case s7 =>
    rcases decodedAt_next h with ⟨c, _, h⟩ | ⟨_, h⟩ <;> cases h <;> simp [IdxNext]
  all_goals first
    | (replace h := (readReg_next h).2; cases h; simp [IdxNext])
    | (replace h := (writeReg_next h).2; cases h; simp [IdxNext])

theorem abortNext {s : State} {l : AbortStep} {m : Nat} {i : Fin 32} {n : Nat} (hl : l ≠ .s0)
    (hseq : s.seq = .run (.abort l) i n)
    {t : State} (h : abortStep m l i n s = .next t) : IdxNext s t (fun p => ∃ l, l ≠ .s0 ∧ p = .abort l) i := by
  cases l <;> simp only [abortStep, flagClear] at h
  case s0 => exact absurd rfl hl
  case s1 =>
    replace h := (readReg_next h).2
    simp only [engineOnCode, State.keep_seq, State.afterRead_seq, hseq] at h
    rcases decodedAt_next h with ⟨c, _, h⟩ | ⟨_, h⟩
    · simp only [abortTestOn, finish] at h
      split at h <;> cases h <;> simp [IdxNext]
    · cases h; simp [IdxNext]
  case s4 =>
    obtain ⟨_, h | ⟨_, h⟩⟩ := waitUntil_next h
    · obtain ⟨_, h⟩ := h; simp only [finish] at h; cases h; simp [IdxNext]
    · rcases waitAgain_next h with ⟨_, h⟩ | ⟨_, h⟩ <;> cases h <;> simp [IdxNext]
  all_goals first
    | (replace h := (readReg_next h).2; cases h; simp [IdxNext])
    | (replace h := (writeReg_next h).2; cases h; simp [IdxNext])

theorem abortReq_rising_write (r : Reg) (v : Word) (s : State) (h : rising s.abortReq) :
    rising (s.afterWrite r v).abortReq := by
  cases r with
  | mb i w =>
    simp only [State.afterWrite_abortReq, State.poke, State.pokeMb]
    split
    · exact h
    · cases w <;> simp only [State.setMbWord_abortReq] <;> try exact h
      simp only [State.noteCsWrite]; split
      · exact insertIndex_rising h
      · exact h
  | _ => simpa using h

theorem rxBegun_rising_write (r : Reg) (v : Word) (s : State) (h : rising s.rxBegun) :
    rising (s.afterWrite r v).rxBegun := by
  cases r with
  | mb i w =>
    simp only [State.afterWrite_rxBegun, State.poke, State.pokeMb]
    split
    · exact h
    · cases w <;> simp only [State.setMbWord_rxBegun] <;> try exact h
      simp only [State.noteCsWrite]; exact removeIndex_rising h
  | _ => simpa using h

/-- The part of the structural layer that no sequencer position enters. -/
def BaseOk (p : Params) (s : State) : Prop := s.params = p ∧ Params.wf s.params = true ∧ Memory.wf s.mem = true ∧
    rising s.abortReq ∧ rising s.rxBegun

theorem baseOk_closed (p : Params) : InitClosed (BaseOk p) where
  read r s h := by simpa [BaseOk] using h
  writeFlag v s h := by
    obtain ⟨h0, h1, h2, h3, h4⟩ := h
    exact ⟨by simpa using h0, by simpa using h1, wf_afterWrite h2 .iflag v, abortReq_rising_write .iflag v s h3,
        rxBegun_rising_write .iflag v s h4⟩
  writeMb i w v s h := by
    obtain ⟨h0, h1, h2, h3, h4⟩ := h
    exact ⟨by simpa using h0, by simpa using h1, wf_afterWrite h2 (.mb i w) v, abortReq_rising_write (.mb i w) v s h3,
        rxBegun_rising_write (.mb i w) v s h4⟩
  writeGlobal r v s h := by
    obtain ⟨h0, h1, h2, h3, h4⟩ := h
    exact ⟨by simpa using h0, by simpa using h1, wf_afterWrite h2 r v, abortReq_rising_write r v s h3,
        rxBegun_rising_write r v s h4⟩
  keep w s h := by simpa [BaseOk] using h
  goto p i s h := by simpa [BaseOk] using h
  stay p i n s h := by simpa [BaseOk] using h
  close r q s h := by simpa [BaseOk] using h
  refuse r s h := by simpa [BaseOk] using h
  setMode m s h := by simpa [BaseOk] using h
  engageLock i c s h := by simpa [BaseOk] using h
  latch s h := by simpa [BaseOk] using h

theorem mmx_closed (m : BitVec 5) (md : Mode) : EngineClosed (fun t => t.maxMailbox = m ∧ t.mode = md) where
  read r s h := by simpa using h
  writeFlag v s h := by simpa using h
  writeMb i w v s h := by simpa using h
  keep w s h := by simpa using h
  goto p i s h := by simpa using h
  stay p i n s h := by simpa using h
  close r q s h := by simpa using h
  refuse r s h := by simpa using h
  engageLock i c s h := by simpa using h

/-- The move a command makes in a structured state, one case for each way the engine can stand. -/
inductive EngineMove (s u : State) : Prop where
  | accept (i : Instr) (op : Op) (hq : s.seq = .idle) (hw : s.work = Work.empty) (hf : fetchCommand s = .instr i)
      (ho : commandOp i = some op) (hu : u = s.goto op.start 0)
  | faulted (hq : s.seq = .faulted) (hw : s.work = Work.empty) (hu : u = s.refuse .engineFaulted)
  | btcalc (l : SingleStep) (j : Fin 32) (n : Nat) (hq : s.seq = .run (.btcalc l) j n) (hw : s.work = Work.empty)
      (hx : endBtcalc (btcalc s.ops.sourceFrequency.toNat s.ops.canFrequency.toNat) s = .next u)
  | encode (l : SingleStep) (j : Fin 32) (n : Nat) (hq : s.seq = .run (.encode l) j n) (hw : s.work = Work.empty)
      (hx : encodeStep s = .next u)
  | decode (l : SingleStep) (j : Fin 32) (n : Nat) (hq : s.seq = .run (.decode l) j n) (hw : s.work = Work.empty)
      (hx : decodeStep s = .next u)
  | init (l : InitStep) (j : Fin 32) (n : Nat) (hq : s.seq = .run (.init l) j n) (hx : initStep l j n s = .next u)
  | transmit (l : TransmitStep) (j : Fin 32) (n : Nat) (hq : s.seq = .run (.transmit l) j n)
      (hx : transmitStep l j s = .next u)
  | receive (m : Nat) (l : ReceiveStep) (j : Fin 32) (n : Nat) (hq : s.seq = .run (.receive l) j n)
      (hf : fetchCommand s = .instr (.receive m)) (hx : receiveStep m l j s = .next u)
  | abort (m : Nat) (l : AbortStep) (j : Fin 32) (n : Nat) (hq : s.seq = .run (.abort l) j n)
      (hf : fetchCommand s = .instr (.abort m)) (hx : abortStep m l j n s = .next u)

/-- A command word is the command of an operation. -/
theorem commandOp_of_decode {w : Word} {i : Instr} (h : decodeWord w = .ok i) : ∃ op, commandOp i = some op := by
  rcases decodeWord_command h with rfl | rfl | rfl | rfl | rfl | ⟨m, rfl⟩ | ⟨m, rfl⟩ <;> exact ⟨_, rfl⟩

/-- Every command’s step is one of those moves. -/
theorem engine_move {s u : State} (hs : s.Structural) {w : Word} {i : Instr} (hc : s.cmd = some w)
    (hd : decodeWord w = .ok i) (hx : exec i s = .next u) : EngineMove s u := by
  obtain ⟨op, ho⟩ := commandOp_of_decode hd
  have hfc : fetchCommand s = .instr i := by simp [fetchCommand, hc, hd]
  have hso := hs.seq
  cases hq : s.seq with
  | idle =>
    rw [exec_idle ho hq] at hx
    cases hx
    exact .accept i op hq (by simpa [State.seqOk, hq] using hso) hfc ho rfl
  | faulted =>
    rw [exec_faulted ho hq] at hx
    cases hx
    exact .faulted hq (by simpa [State.seqOk, hq] using hso) rfl
  | run p j n =>
    simp only [State.seqOk, hq, hfc] at hso
    cases p <;> rename_i l <;> simp only at hso
    · obtain ⟨e, hw⟩ := hso; cases e
      rw [exec_btcalc_run hq] at hx; exact .btcalc l j n hq hw hx
    · obtain ⟨e, hw⟩ := hso; cases e
      rw [exec_encode_run hq] at hx; exact .encode l j n hq hw hx
    · obtain ⟨e, hw⟩ := hso; cases e
      rw [exec_decode_run hq] at hx; exact .decode l j n hq hw hx
    · obtain ⟨e, _⟩ := hso; cases e
      rw [exec_init_run hq] at hx; exact .init l j n hq hx
    · obtain ⟨e, _⟩ := hso; cases e
      rw [exec_transmit_run hq] at hx; exact .transmit l j n hq hx
    · obtain ⟨m, e, _⟩ := hso; cases e
      rw [exec_receive_run hq] at hx; exact .receive m l j n hq hfc hx
    · obtain ⟨m, e, _⟩ := hso; cases e
      rw [exec_abort_run hq] at hx; exact .abort m l j n hq hfc hx

theorem seqOk_ended {s : State} (h : s.seq = .idle ∨ s.seq = .faulted) (hw : s.work = Work.empty) : s.seqOk := by
  rcases h with h | h <;> simp [State.seqOk, h, hw]

/-- An accepted command leaves the sequencer as the structural layer asks. -/
theorem seqOk_accepted {s : State} {i : Instr} {op : Op} (hw : s.work = Work.empty) (hf : fetchCommand s = .instr i)
    (ho : commandOp i = some op) : (s.goto op.start 0).seqOk := by
  have hf' : fetchCommand (s.goto op.start 0) = .instr i := by rw [← hf]; exact fetchCommand_congr (by simp)
  cases i <;> cases ho <;> simp [State.seqOk, Op.start, hw] <;>
    first | exact hf' | exact ⟨_, hf'⟩

/-- The one step of `BTCALC`, `ENCODE` and `DECODE` ends the operation. -/
theorem single_ended {s u : State}
    (h : endBtcalc (btcalc s.ops.sourceFrequency.toNat s.ops.canFrequency.toNat) s = .next u ∨
    encodeStep s = .next u ∨ decodeStep s = .next u) (hq : ∃ p j n, s.seq = .run p j n) :
    (u.seq = .idle ∨ u.seq = .faulted) ∧ u.work = Work.empty := by
  obtain ⟨p, j, n, hq⟩ := hq
  rcases h with h | h | h <;> simp only [endBtcalc, encodeStep, decodeStep, refuse, finish, raiseFatal] at h
  all_goals
    repeat' split at h
    all_goals (cases h; simp [hq])

/-- A command keeps the structural layer. -/
theorem structural_command {s u : State} (hs : s.Structural) {w : Word} {i : Instr} (hc : s.cmd = some w)
    (hd : decodeWord w = .ok i) (hx : exec i s = .next u) : u.Structural := by
  have hi := decodeWord_command hd
  have hb : BaseOk s.params u := (baseOk_closed s.params).command hi ⟨rfl, hs.params, hs.mem, hs.abortReq, hs.rxBegun⟩ u hx
  obtain ⟨b0, b1, b2, b3, b4⟩ := hb
  have hnum : s.params.numMb ≤ 32 := by
    have := hs.params; simp [Params.wf] at this; omega
  have hfc : fetchCommand s = .instr i := by simp [fetchCommand, hc, hd]
  have hso := hs.seq
  have hmm := hs.maxMailbox
  have hkeep : i ≠ .init → u.maxMailbox = s.maxMailbox ∧ u.mode = s.mode := fun hne =>
    (mmx_closed s.maxMailbox s.mode).command (by rcases hi with h | h | h | h | h | h | h <;> simp_all) ⟨rfl, rfl⟩ u hx
  suffices h : u.maxMailbox.toNat < s.params.numMb ∧ u.seqOk from
    ⟨b1, b2, by rw [b0]; exact h.1, h.2, b3, b4⟩
  cases engine_move hs hc hd hx with
  | accept i' op hq hw hf ho hu => subst hu; exact ⟨hmm, seqOk_accepted hw hf ho⟩
  | faulted hq hw hu => subst hu; exact ⟨hmm, seqOk_ended (by simp [hq]) (by simp)⟩
  | btcalc l j n hq hw hx' =>
    simp only [State.seqOk, hq, hfc] at hso; cases hso.1
    obtain ⟨d1, d2⟩ := single_ended (.inl hx') ⟨_, _, _, hq⟩
    exact ⟨by rw [(hkeep (by simp)).1]; exact hmm, seqOk_ended d1 d2⟩
  | encode l j n hq hw hx' =>
    simp only [State.seqOk, hq, hfc] at hso; cases hso.1
    obtain ⟨d1, d2⟩ := single_ended (.inr (.inl hx')) ⟨_, _, _, hq⟩
    exact ⟨by rw [(hkeep (by simp)).1]; exact hmm, seqOk_ended d1 d2⟩
  | decode l j n hq hw hx' =>
    simp only [State.seqOk, hq, hfc] at hso; cases hso.1
    obtain ⟨d1, d2⟩ := single_ended (.inr (.inr hx')) ⟨_, _, _, hq⟩
    exact ⟨by rw [(hkeep (by simp)).1]; exact hmm, seqOk_ended d1 d2⟩
  | init l j n hq hx' =>
    simp only [State.seqOk, hq] at hso
    obtain ⟨c1, -, c2⟩ := hso
    obtain ⟨hmx, hn⟩ := initNext hq c2 hx'
    constructor
    · rcases hmx with h | ⟨h, h0, h1⟩
      · rw [h]; exact hmm
      · rw [h]; simp only [BitVec.toNat_ofNat]
        have : (s.work.headers.length - 1) % 2^5 ≤ s.work.headers.length - 1 := Nat.mod_le _ _
        omega
    · rcases hn with ⟨l', i', n', d1, d0, d2, d3, d4, d5, d6⟩ | ⟨d1, d2⟩
      · simp only [State.seqOk, d1]
        refine ⟨?_, fun h => absurd h d0, fun _ => ⟨d4, d5, by rw [d3]; exact d6⟩⟩
        rw [← c1]; exact fetchCommand_congr d2
      · exact seqOk_ended d1 d2
  | transmit l j n hq hx' =>
    simp only [State.seqOk, hq] at hso
    obtain ⟨c1, -, c2⟩ := hso
    rw [hfc] at c1; cases c1
    have hk := hkeep (by simp)
    refine ⟨by rw [hk.1]; exact hmm, ?_⟩
    by_cases hl : l = .s0
    · subst hl
      simp only [transmitStep, startTransmit, refuse] at hx'
      split at hx'
      · cases hx'; exact seqOk_ended (by simp [hq]) (by simp)
      · rename_i hmode
        split at hx'
        · cases hx'; exact seqOk_ended (by simp [hq]) (by simp)
        · rename_i f hf
          cases hx'
          simp only [State.seqOk, State.goto_seq]
          refine ⟨?_, by simp, fun _ => ⟨by simpa using hmode, by simp, by simpa using checkFrame_wf hf, by simp⟩⟩
          rw [← hfc]; exact fetchCommand_congr (by simp)
    · obtain ⟨c2, c3, c4, c5⟩ := c2 hl
      rcases transmitNext hl hq c3 hx' with ⟨l', i', n', d1, ⟨l'', d0, rfl⟩, d2, d3, d4, d5, d6, d7, d8⟩ | ⟨d1, d2⟩
      · simp only [State.seqOk, d1]
        refine ⟨?_, fun h => absurd h d0, fun _ => ⟨by rw [d4]; exact c2, by rw [d5]; exact d8, by rw [d6]; exact c4,
            by rw [d7, d5]; exact c5⟩⟩
        rw [← hfc]; exact fetchCommand_congr d2
      · exact seqOk_ended d1 d2
  | receive m l j n hq hf hx' =>
    simp only [State.seqOk, hq] at hso
    obtain ⟨m', c1, -, c2⟩ := hso
    rw [hf] at c1; cases c1
    have hi' : i = .receive m := by rw [hfc] at hf; cases hf; rfl
    have hk := hkeep (by simp [hi'])
    refine ⟨by rw [hk.1]; exact hmm, ?_⟩
    by_cases hl : l = .s0
    · subst hl
      simp only [receiveStep, startReceive, refuse] at hx'
      split at hx'
      · cases hx'; exact seqOk_ended (by simp [hq]) (by simp)
      · rename_i hmode
        split at hx'
        · cases hx'; exact seqOk_ended (by simp [hq]) (by simp)
        · rename_i hle
          have hv : (Fin.ofNat 32 m).val = m := ofNat_val (Nat.not_lt.1 hle)
          cases hx'
          simp only [State.seqOk, State.goto_seq]
          refine ⟨m, ?_, by simp, fun _ => ⟨hv.symm, by simpa using hmode, ?_⟩⟩
          · rw [← hf]; exact fetchCommand_congr (by simp)
          · rw [hv]; exact Nat.not_lt.1 hle
    · obtain ⟨c2, c3, c4⟩ := c2 hl
      rcases receiveNext hl hq hx' with ⟨l', n', d1, ⟨l'', d0, rfl⟩, d2, d3, d4, d5⟩ | ⟨d1, d2⟩
      · simp only [State.seqOk, d1]
        refine ⟨m, ?_, fun h => absurd h d0, fun _ => ⟨c2, by rw [d4]; exact c3, by rw [d5]; exact c4⟩⟩
        rw [← hf]; exact fetchCommand_congr d2
      · exact seqOk_ended d1 d2
  | abort m l j n hq hf hx' =>
    simp only [State.seqOk, hq] at hso
    obtain ⟨m', c1, -, c2⟩ := hso
    rw [hf] at c1; cases c1
    have hi' : i = .abort m := by rw [hfc] at hf; cases hf; rfl
    have hk := hkeep (by simp [hi'])
    refine ⟨by rw [hk.1]; exact hmm, ?_⟩
    by_cases hl : l = .s0
    · subst hl
      simp only [abortStep, startAbort, refuse] at hx'
      split at hx'
      · cases hx'; exact seqOk_ended (by simp [hq]) (by simp)
      · rename_i hmode
        split at hx'
        · cases hx'; exact seqOk_ended (by simp [hq]) (by simp)
        · rename_i hle
          have hv : (Fin.ofNat 32 m).val = m := ofNat_val (Nat.not_lt.1 hle)
          cases hx'
          simp only [State.seqOk, State.goto_seq]
          refine ⟨m, ?_, by simp, fun _ => ⟨hv.symm, by simpa using hmode, ?_⟩⟩
          · rw [← hf]; exact fetchCommand_congr (by simp)
          · rw [hv]; exact Nat.not_lt.1 hle
    · obtain ⟨c2, c3, c4⟩ := c2 hl
      rcases abortNext hl hq hx' with ⟨l', n', d1, ⟨l'', d0, rfl⟩, d2, d3, d4, d5⟩ | ⟨d1, d2⟩
      · simp only [State.seqOk, d1]
        refine ⟨m, ?_, fun h => absurd h d0, fun _ => ⟨c2, by rw [d4]; exact c3, by rw [d5]; exact c4⟩⟩
        rw [← hf]; exact fetchCommand_congr d2
      · exact seqOk_ended d1 d2

theorem seqOk_congr {s t : State} (h1 : t.seq = s.seq) (h2 : t.cmd = s.cmd) (h3 : t.mode = s.mode) (h4 : t.work = s.work)
    (h5 : t.params = s.params) (h6 : t.maxMailbox = s.maxMailbox) (h : s.seqOk) : t.seqOk := by
  have hf : fetchCommand t = fetchCommand s := fetchCommand_congr h2
  simp only [State.seqOk] at h ⊢
  rw [h1]; revert h
  split <;> intro h <;> simpa [h3, h4, h5, h6, hf] using h

theorem structural_congr {s t : State} (h1 : t.seq = s.seq) (h2 : t.cmd = s.cmd) (h3 : t.mode = s.mode)
    (h4 : t.work = s.work)
    (h5 : t.params = s.params) (h6 : t.maxMailbox = s.maxMailbox) (h7 : Memory.wf t.mem = true) (h8 : rising t.abortReq)
    (h9 : rising t.rxBegun) (h : s.Structural) : t.Structural :=
  ⟨by rw [h5]; exact h.params, h7, by rw [h5, h6]; exact h.maxMailbox, seqOk_congr h1 h2 h3 h4 h5 h6 h.seq, h8, h9⟩

theorem numMb_le {s : State} (h : s.Structural) : s.params.numMb ≤ 32 := by
  have := h.params; simp [Params.wf] at this; omega

/-- A move on a mailbox keeps the structural layer. -/
theorem structural_mailboxMove {s u : State} {i : Nat} (hs : s.Structural) (h : MailboxMove i s u) : u.Structural := by
  obtain ⟨mem, fl, ar, rb, rfl⟩ := h.only
  refine structural_congr (s := s) rfl rfl rfl rfl rfl rfl h.wf ?_ ?_ hs
  · rcases h.abortReq with h | h <;> rw [h]
    · exact hs.abortReq
    · exact removeIndex_rising hs.abortReq
  · rcases h.rxBegun with h | h | h <;> rw [h]
    · exact hs.rxBegun
    · exact removeIndex_rising hs.rxBegun
    · exact insertIndex_rising hs.rxBegun

/-- So does ending every reception. -/
theorem structural_finishReceptions {s : State} (hs : s.Structural) : s.finishReceptions.Structural := by
  have h : (s.rxBegun.foldl (fun t i => t.finishReception i) s).Structural :=
    finishReceptions_keeps (P := State.Structural) (fun u h => ⟨h.mem, numMb_le h⟩)
      (fun _ _ _ h hm => structural_mailboxMove h hm) hs s.rxBegun
  refine structural_congr (s := s.rxBegun.foldl (fun t i => t.finishReception i) s) rfl rfl rfl rfl rfl rfl h.mem h.abortReq ?_ h
  simp [State.finishReceptions, rising]

/-- So does every other move. -/
theorem structural_moves {s u : State} (hs : s.Structural) (h : Moves s u) : u.Structural := by
  cases h with
  | command w i u ht hc hd hx => exact structural_command hs hc hd hx
  | illegal w e ht hc hd =>
    have hso := hs.seq
    have : (s.rejectWord).seqOk ∨ ∃ p i n, s.seq = .run p i n := by
      cases hq : s.seq with
      | run p i n => exact .inr ⟨_, _, _, rfl⟩
      | idle =>
        have hwk : s.work = Work.empty := by simpa [State.seqOk, hq] using hso
        exact .inl (seqOk_ended (by simp [State.rejectWord, hq]) (by simp [State.rejectWord, hq]))
      | faulted =>
        have hwk : s.work = Work.empty := by simpa [State.seqOk, hq] using hso
        exact .inl (seqOk_ended (by simp [State.rejectWord, hq]) (by simp [State.rejectWord, hq]))
    have hrej : ∃ r, s.rejectWord = s.refuse r := by
      simp only [State.rejectWord]; split <;> exact ⟨_, rfl⟩
    obtain ⟨r, hr⟩ := hrej
    rcases this with h | ⟨p, i, n, hq⟩
    · rw [hr] at h ⊢
      exact ⟨hs.params, hs.mem, hs.maxMailbox, h, hs.abortReq, hs.rxBegun⟩
    · exfalso
      simp only [State.seqOk, hq] at hso
      have hf : fetchCommand s = .illegal := by simp [fetchCommand, hc, hd]
      cases p <;> simp [hf] at hso
  | quiet => exact hs
  | mailbox i m u ht hi hx =>
    obtain ⟨u', hx', h⟩ := exec_mailbox_turn hs.mem (numMb_le hs) ht
    rw [hx] at hx'; cases hx'
    rcases h with rfl | h
    · exact hs
    · exact structural_mailboxMove hs h
  | noMailbox => exact hs
  | host w ops ht =>
    simp only [State.issue]
    split
    · rename_i hq _
      have hwk : s.work = Work.empty := by simpa [State.seqOk, hq] using hs.seq
      exact ⟨hs.params, hs.mem, hs.maxMailbox, seqOk_ended (.inl hq) hwk, hs.abortReq, hs.rxBegun⟩
    · rename_i hq _
      have hwk : s.work = Work.empty := by simpa [State.seqOk, hq] using hs.seq
      exact ⟨hs.params, hs.mem, hs.maxMailbox, seqOk_ended (.inr hq) hwk, hs.abortReq, hs.rxBegun⟩
    · exact hs
    · exact hs
  | lowPower ht => exact structural_congr (s := s) rfl rfl rfl rfl rfl rfl hs.mem hs.abortReq hs.rxBegun hs
  | softReset g b r f tm ht =>
    simp only [State.softReset]
    split
    · exact structural_congr (s := s) rfl rfl rfl rfl rfl rfl hs.mem (by simp [rising]) (by simp [rising]) hs
    · exact hs
  | freeze d ht =>
    have hb : ∀ (u : State) b, u.Structural → (u.setFrzack b).Structural := fun u b h =>
      structural_congr (s := u) rfl rfl rfl rfl rfl rfl h.mem h.abortReq h.rxBegun h
    rcases ackFreeze_cases d s with h | ⟨b, h⟩ | h <;> rw [h]
    · exact hs
    · exact hb s b hs
    · exact hb _ _ (structural_finishReceptions hs)
  | timer v ht => exact structural_congr (s := s) rfl rfl rfl rfl rfl rfl hs.mem hs.abortReq hs.rxBegun hs
  | floating v ht => exact structural_congr (s := s) rfl rfl rfl rfl rfl rfl hs.mem hs.abortReq hs.rxBegun hs

theorem structural_endTurn {u : State} (h : u.Structural) : u.endTurn.Structural :=
  structural_congr (s := u) rfl rfl rfl rfl rfl rfl h.mem h.abortReq h.rxBegun h

/-- The outcome is a next state. -/
def Runs (o : Out) : Prop := ∃ t, o = .next t

theorem runs_next (s : State) : Runs (.next s) := ⟨s, rfl⟩

theorem runs_ite {c : Prop} [Decidable c] {a b : Out} (ha : Runs a) (hb : Runs b) :
    Runs (if c then a else b) := by split <;> assumption

theorem runs_read {r k s} (hr : Params.has s.params r = true) (h : ∀ v, Runs (k v (s.afterRead r))) :
    Runs (readReg r k s) := by
  rw [readReg_of_has hr]; exact h _

theorem runs_write {r v k s} (hr : Params.has s.params r = true) (h : Runs (k (s.afterWrite r v))) :
    Runs (writeReg r v k s) := by
  rw [writeReg_of_has hr]; exact h

theorem runs_waitAgain (p i n s) : Runs (waitAgain p i n s) := runs_ite (runs_next _) (runs_next _)

theorem runs_wait {r b val p i n done s} (hr : Params.has s.params r = true) (h : ∀ t, Runs (done t)) :
    Runs (waitUntil r b val p i n done s) :=
  runs_read hr fun _ => runs_ite (h _) (runs_waitAgain _ _ _ _)

theorem runs_decodedAt {i v k s} (h : ∀ c, Runs (k c)) : Runs (decodedAt i v k s) := by
  simp only [decodedAt]; split
  · exact h _
  · exact runs_next _

theorem runs_scanNext (i s) : Runs (scanNext i s) := runs_ite (runs_next _) (runs_next _)

theorem runs_code (v s) : Runs (engineOnCode v s) := by
  simp only [engineOnCode]
  split
  · refine runs_decodedAt fun c => ?_
    simp only [writeCheckOn]; split <;> exact runs_next _
  · exact runs_decodedAt fun c => runs_next _
  · refine runs_decodedAt fun c => ?_
    simp only [scanOn]; split
    · exact runs_next _
    · exact runs_scanNext _ _
    · exact runs_scanNext _ _
  · exact runs_decodedAt fun c => runs_ite (runs_waitAgain _ _ _ _) (runs_next _)
  · exact runs_decodedAt fun c => runs_ite (runs_next _) (runs_next _)
  · exact runs_next _

theorem runs_init {s : State} {l : InitStep} {i : Fin 32} {n : Nat} (hi : l ≠ .v0 → i.val < s.params.numMb) :
    Runs (initStep l i n s) := by
  have hh : ∀ k, (∀ h, Runs (k h)) → Runs (withHeader i k s) := by
    intro k hk; simp only [withHeader]; split
    · exact hk _
    · exact runs_next _
  cases l <;> simp only [initStep, rmwRead, rmwWrite, mbWriteFlag, flagClear, mbWriteId, mbWriteD0, mbWriteD1, mbWriteCs]
  case v0 =>
    simp only [validateAdmission]
    repeat' split
    all_goals exact runs_next _
  case v1 => exact runs_ite (runs_next _) (runs_next _)
  case v2 => simp only [validateTiming]; split <;> exact runs_next _
  case v3 => exact runs_ite (runs_next _) (runs_next _)
  case a2 | a5 | a7 | a9 | b2 | c2 | f2 => exact runs_wait rfl fun t => runs_next _
  case e1 => exact hh _ fun _ => runs_read (by simpa using hi (by simp)) fun _ => runs_next _
  case e3 => exact hh _ fun _ => runs_read (by simpa using hi (by simp)) fun _ => runs_code _ _
  case w5 => exact hh _ fun _ => runs_write (by simpa using hi (by simp)) (runs_ite (runs_next _) (runs_next _))
  case e2 | w1 | w2 | w3 | w4 => exact hh _ fun _ => runs_write (by simpa using hi (by simp)) (runs_next _)
  all_goals first | exact runs_read rfl fun _ => runs_next _ | exact runs_write rfl (runs_next _)

theorem runs_transmit {s : State} {l : TransmitStep} {i : Fin 32} (hi : l ≠ .s0 → i.val < s.params.numMb) :
    Runs (transmitStep l i s) := by
  cases l <;> simp only [transmitStep, mbWriteFlag, flagClear, mbWriteId, mbWriteD0, mbWriteD1, mbWriteCs]
  case s0 =>
    simp only [startTransmit]
    repeat' split
    all_goals exact runs_next _
  case s1 => exact runs_read (by simpa using hi (by simp)) fun _ => runs_code _ _
  case s2 => exact runs_code _ _
  all_goals first | exact runs_read (by simpa using hi (by simp)) fun _ => runs_next _ | exact runs_write (by simpa using hi (by simp)) (runs_next _)

theorem runs_receive {s : State} {m : Nat} {l : ReceiveStep} {i : Fin 32} (hi : l ≠ .s0 → i.val < s.params.numMb) :
    Runs (receiveStep m l i s) := by
  cases l <;> simp only [receiveStep, flagClear]
  case s0 => exact runs_ite (runs_next _) (runs_ite (runs_next _) (runs_next _))
  case s1 => exact runs_read (by simpa using hi (by simp)) fun _ => runs_ite (runs_next _) (runs_next _)
  case s2 => exact runs_read (by simpa using hi (by simp)) fun _ => runs_code _ _
  case s6 => split <;> exact runs_next _
  case s7 => exact runs_decodedAt fun _ => runs_next _
  all_goals first | exact runs_read (by simpa using hi (by simp)) fun _ => runs_next _ | exact runs_write (by simpa using hi (by simp)) (runs_next _)

theorem runs_abort {s : State} {m : Nat} {l : AbortStep} {i : Fin 32} {n : Nat} (hi : l ≠ .s0 → i.val < s.params.numMb) :
    Runs (abortStep m l i n s) := by
  cases l <;> simp only [abortStep, flagClear]
  case s0 => exact runs_ite (runs_next _) (runs_ite (runs_next _) (runs_next _))
  case s1 => exact runs_read (by simpa using hi (by simp)) fun _ => runs_code _ _
  case s4 => exact runs_wait rfl fun t => runs_next _
  all_goals exact runs_write (by simpa using hi (by simp)) (runs_next _)

theorem runs_command {s : State} (hs : s.Structural) {i : Instr} (h : fetchCommand s = .instr i) : Runs (exec i s) := by
  obtain ⟨w, hc, hd⟩ : ∃ w, s.cmd = some w ∧ decodeWord w = .ok i := by
    simp only [fetchCommand] at h
    split at h
    · cases h
    · split at h
      · cases h; exact ⟨_, ‹_›, ‹_›⟩
      · cases h
  have hso := hs.seq
  have hmm := hs.maxMailbox
  obtain ⟨op, ho⟩ := commandOp_of_decode hd
  cases hq : s.seq with
  | faulted => rw [exec_faulted ho hq]; exact runs_next _
  | idle => rw [exec_idle ho hq]; exact runs_next _
  | run p j n =>
    simp only [State.seqOk, hq, h] at hso
    cases p <;> rename_i l <;> simp only at hso
    · obtain ⟨e, _⟩ := hso; cases e
      rw [exec_btcalc_run hq]; simp only [endBtcalc]; split <;> exact runs_next _
    · obtain ⟨e, _⟩ := hso; cases e
      rw [exec_encode_run hq]; simp only [encodeStep]; split <;> exact runs_next _
    · obtain ⟨e, _⟩ := hso; cases e
      rw [exec_decode_run hq]; simp only [decodeStep]
      repeat' split
      all_goals exact runs_next _
    · obtain ⟨e, -, h2⟩ := hso; cases e
      rw [exec_init_run hq]; exact runs_init fun hl => by have := h2 hl; omega
    · obtain ⟨e, -, h2⟩ := hso; cases e
      rw [exec_transmit_run hq]; exact runs_transmit fun hl => by have := h2 hl; omega
    · obtain ⟨m, e, -, h2⟩ := hso; cases e
      rw [exec_receive_run hq]; exact runs_receive fun hl => by have := h2 hl; omega
    · obtain ⟨m, e, -, h2⟩ := hso; cases e
      rw [exec_abort_run hq]; exact runs_abort fun hl => by have := h2 hl; omega

end Sys2Proof.Machine
end

