-- ==== Sys2Proof/Laws/Timing.lean ====
section
/-! SUPPORT. Arithmetic of the Bit-Timing Calculator (40_bit_timing.md R130 to R134). -/

namespace Sys2Proof.Machine

open Sys2Proof

theorem div_facts {S C : Nat} (hC : 0 < C) (hm : S % C = 0) : S = C * (S / C) := by
  have := Nat.div_add_mod S C; omega

/-- `btcalc` as a function of the quotient of the frequencies alone (40_bit_timing.md R130, R134). -/
theorem bt_unfold {S C : Nat} (hC : 0 < C) (hm : S % C = 0) : btcalc S C = if S / C < 5 then .settingsError else
   if 255 < S / C / 25 then .refused .presdivOutOfRange else
     match tqTable (S / C / (S / C / 25 + 1)) with
      | none => .tqsOutOfRange (S / C / (S / C / 25 + 1))
      | some (pseg2, rjw) => .ok (segments (S / C / 25) (S / C / (S / C / 25 + 1)) pseg2 rjw) := by
  have hd := div_facts hC hm
  generalize hq : S / C = q at *
  have e1 : S / (q / 25 + 1) / C = q / (q / 25 + 1) := by rw [Nat.div_div_eq_div_mul, Nat.mul_comm,
      ← Nat.div_div_eq_div_mul, hq]
  have e2 : S < 5 * C ↔ q < 5 := by
    constructor
    · intro h; by_contra h'; have : C * 5 ≤ C * q := Nat.mul_le_mul_left _ (by omega); omega
    · intro h; have : C * (q+1) ≤ C * 5 := Nat.mul_le_mul_left _ (by omega); rw [Nat.mul_add] at this; omega
  simp only [btcalc, show C ≠ 0 by omega, if_false, hm, ne_eq, not_true, false_or, e2, hq, e1]
  all_goals rfl

/-- Above 24 the number of quanta is 12 to 24 (R134). -/
theorem tq_small {q : Nat} (h : 25 ≤ q) (h2 : q < 6400) : 12 ≤ q / (q / 25 + 1) ∧ q / (q / 25 + 1) ≤ 24 := by
  have h3 : q < 25 * (q / 25 + 1) := by omega
  have h4 : 25 * (q / 25) ≤ q := by omega
  have h5 : 1 ≤ q / 25 := by omega
  constructor
  · rw [Nat.le_div_iff_mul_le (by omega)]; omega
  · rw [← Nat.lt_succ_iff, Nat.div_lt_iff_lt_mul (by omega)]; omega

/-- The number of quanta an admissible quotient leads to. -/
theorem tq_range {q : Nat} (h : 8 ≤ q) (h2 : q < 6400) : 8 ≤ q / (q / 25 + 1) ∧ q / (q / 25 + 1) ≤ 24 := by
  by_cases h3 : q < 25
  · have : q / 25 = 0 := by omega
    simp [this]; omega
  · have := tq_small (by omega) h2; omega

/-- A result of `btcalc` fits its register fields (R134 (c)). -/
theorem segments_ranges {S C : Nat} {bt : BitTiming} (h : btcalc S C = .ok bt) : bt.presdiv < 256 ∧ bt.propseg < 8 ∧
    bt.pseg1 < 8 ∧ bt.pseg2 < 8 ∧ bt.rjw < 4 := by
  simp only [btcalc] at h
  split at h
  · cases h
  split at h
  · cases h
  split at h
  · cases h
  rename_i h3
  split at h
  · cases h
  · rename_i a b htab
    cases h
    simp only [segments]
    generalize S / (S / C / 25 + 1) / C = tqs at htab
    have : ∀ tqs, tqs < 26 → ∀ a b, tqTable tqs = some (a,
        b) → tqs - (a+1) - ((tqs - (a+1))/2 - 1 + 1) - 2 < 8 ∧ (tqs - (a+1))/2 - 1 < 8 ∧ a < 8 ∧ b < 4 := by
      intro tqs h a b hab
      interval_cases tqs <;> simp [tqTable] at hab <;> (obtain ⟨rfl, rfl⟩ := hab; decide)
    have hlt : tqs < 26 := by
      by_contra hge
      simp only [tqTable] at htab
      repeat' split at htab
      all_goals first | omega | cases htab
    have := this tqs hlt a b htab
    refine ⟨by omega, this.1, this.2.1, this.2.2.1, this.2.2.2⟩

end Sys2Proof.Machine
end

