-- ==== Sys2Proof/Laws/Phase.lean ====
section
/-! SUPPORT. The controller phase layer of the invariant (60_exceptions.md R230). -/

namespace Sys2Proof.Machine

open Sys2Proof

/-- GCR is the same but for the two acknowledgment bits. -/
def GcrLike (s u : State) : Prop := ∀ k, ackBits.getLsbD k = false → u.gcr.getLsbD k = s.gcr.getLsbD k

theorem gcrLike_bit {s u : State} (h : GcrLike s u) (f : Field) (hf : ackBits.getLsbD f.lo = false) :
    f.bit u.gcr = f.bit s.gcr := h _ hf

theorem gcrLike_refl (s : State) : GcrLike s s := fun _ _ => rfl

theorem gcrLike_maxmb {s u : State} (h : GcrLike s u) : u.maxmb = s.maxmb := by
  refine get_congr fun k h1 h2 => h k ?_
  have : ∀ k, k < 7 → ackBits.getLsbD k = false := by decide
  exact this k h2

theorem ack_lo_bits : ackBits.getLsbD 31 = false ∧ ackBits.getLsbD 30 = false ∧ ackBits.getLsbD 28 = false ∧
    ackBits.getLsbD 25 = false ∧ ackBits.getLsbD 29 = false ∧ ackBits.getLsbD 17 = false ∧ ackBits.getLsbD 16 = false ∧
    ackBits.getLsbD 15 = false := by decide

theorem latched_iff (s : State) : s.latchedGcr ↔ ∀ k, ackBits.getLsbD k = false → s.work.t.getLsbD k = s.gcr.getLsbD k := by
  constructor
  · intro h k hk
    have := congrArg (fun w : Word => w.getLsbD k) h
    simp only [getLsbD_blend, hk] at this
    simpa using this
  · intro h
    apply BitVec.eq_of_getLsbD_eq
    intro k hk
    rw [getLsbD_blend]
    cases hb : ackBits.getLsbD k with
    | true => simp
    | false => simp [h k hb]

/-- A move of the controller that leaves GCR like this keeps the phase. -/
theorem phase_env {s u : State} (hg : GcrLike s u) (hseq : u.seq = s.seq) (hmode : u.mode = s.mode)
    (hmm : u.maxMailbox = s.maxMailbox)
    (hwork : u.work = s.work) (hb : u.btr = s.btr) (hr : u.rxmask = s.rxmask)
    (hlp : u.lpmack = s.lpmack ∨ u.lpmack = s.mdis) (hf1 : s.frozen → u.frzack = true) (hf2 : s.leaving → s.frzack = false →
        u.frzack = false)
    (h : s.PhaseOk) : u.PhaseOk := by
  obtain ⟨b1, b2, b3, b4, b5, b6, b7, b8⟩ := ack_lo_bits
  have e1 : u.mdis = s.mdis := hg _ b1
  have e2 : u.frz = s.frz := hg _ b2
  have e3 : u.halt = s.halt := hg _ b3
  have e4 : u.softrst = s.softrst := hg _ b4
  have e5 : Gcr.rfen.bit u.gcr = Gcr.rfen.bit s.gcr := hg _ b5
  have e6 : Gcr.srxdis.bit u.gcr = Gcr.srxdis.bit s.gcr := hg _ b6
  have e7 : Gcr.irmq.bit u.gcr = Gcr.irmq.bit s.gcr := hg _ b7
  have e8 : Gcr.dma.bit u.gcr = Gcr.dma.bit s.gcr := hg _ b8
  have e9 := gcrLike_maxmb hg
  have ek : s.clockSelected → u.clockSelected := by simp only [State.clockSelected, hwork, hb]; exact id
  have eg : s.gcrConfigured → u.gcrConfigured := by
    simp only [State.gcrConfigured, e5, e6, e7, e8, e9, hwork, hmm]; exact id
  have ebt : s.btrConfigured → u.btrConfigured := by simp only [State.btrConfigured, hwork, hb]; exact id
  have ec : s.configured → u.configured := by
    rintro ⟨a, b, c⟩; exact ⟨eg a, ebt b, by rw [hr]; exact c⟩
  have eaw : s.awake → u.awake := by
    rintro ⟨a, b, c⟩
    exact ⟨e1.trans a, e4.trans b, hlp.elim (·.trans c) (·.trans a)⟩
  have eh : s.halting → u.halting := by
    rintro ⟨a, b, c⟩; exact ⟨eaw a, e2.trans b, e3.trans c⟩
  have ef : s.frozen → u.frozen := fun h => ⟨eh h.1, hf1 h⟩
  have el : s.leaving → u.leaving := by
    rintro ⟨a, b, c⟩; exact ⟨eaw a, e2.trans b, e3.trans c⟩
  have elt : s.latchedGcr → u.latchedGcr := by
    rw [latched_iff, latched_iff]; intro h k hk; rw [hwork, hg k hk]; exact h k hk
  have elp : s.mdis = true → s.lpmack = true → u.lpmack = true := fun a b => hlp.elim (·.trans b) (·.trans a)
  have eio : ∀ l, s.initOperands l → u.initOperands l := by intro l; simp only [State.initOperands, hwork]; exact id
  constructor
  · intro hm
    rw [hmode] at hm
    obtain ⟨a, b, c, d, e, f⟩ := h.running hm
    exact ⟨el a, hf2 a b, by rw [e9, hmm]; exact c, by rw [e5]; exact d, by rw [e8]; exact e, by rw [hr]; exact f⟩
  · intro l i n hq
    rw [hseq] at hq
    obtain ⟨h1, h2⟩ := h.init l i n hq
    refine ⟨eio l h1, ?_⟩
    cases l <;> simp only [State.initPhase, e1, e4, hmode, hwork] at h2 ⊢
    case a3r | a3w => exact ⟨h2.1, elp h2.1 h2.2⟩
    case a4r | a4w => exact ⟨h2.1, elp h2.1 h2.2.1, ek h2.2.2⟩
    case a5 | a6r | a7 => exact ⟨h2.1, ek h2.2⟩
    case a6w | a8r | a9 => exact ⟨h2.1, h2.2.1, ek h2.2.2⟩
    case a8w => exact ⟨h2.1, h2.2.1, h2.2.2.1, ek h2.2.2.2⟩
    case b1r => exact ⟨h2.1, h2.2.1, elp h2.2.1 h2.2.2.1, h2.2.2.2.1, ek h2.2.2.2.2⟩
    case b1w => exact ⟨h2.1, h2.2.1, elp h2.2.1 h2.2.2.1, h2.2.2.2.1, h2.2.2.2.2.1, ek h2.2.2.2.2.2⟩
    case b2 => exact ⟨h2.1, h2.2.1, h2.2.2.1, ek h2.2.2.2⟩
    case c1r => exact ⟨h2.1, eaw h2.2.1, ek h2.2.2⟩
    case c1w => exact ⟨h2.1, eaw h2.2.1, elt h2.2.2.1, ek h2.2.2.2⟩
    case c2 => exact ⟨h2.1, eh h2.2.1, ek h2.2.2⟩
    case d1r => exact ⟨h2.1, ef h2.2.1, ek h2.2.2⟩
    case d1w => exact ⟨h2.1, ef h2.2.1, elt h2.2.2.1, ek h2.2.2.2⟩
    case d2r | d2w => exact ⟨h2.1, ef h2.2.1, ek h2.2.2.1, eg h2.2.2.2⟩
    case d3 => exact ⟨h2.1, ef h2.2.1, ek h2.2.2.1, eg h2.2.2.2.1, ebt h2.2.2.2.2⟩
    case f1w => exact ⟨h2.1, ef h2.2.1, elt h2.2.2.1, ek h2.2.2.2.1, ec h2.2.2.2.2⟩
    case f2 => exact ⟨h2.1, el h2.2.1, ek h2.2.2.1, ec h2.2.2.2⟩
    case e1 | e2 | e3 | w1 | w2 | w3 | w4 | w5 | f1r => exact ⟨h2.1, ef h2.2.1, ek h2.2.2.1, ec h2.2.2.2⟩
    all_goals first | trivial | exact h2

theorem phase_congr {s u : State} (hg : u.gcr = s.gcr) (hseq : u.seq = s.seq) (hmode : u.mode = s.mode)
    (hmm : u.maxMailbox = s.maxMailbox)
    (hwork : u.work = s.work) (hb : u.btr = s.btr) (hr : u.rxmask = s.rxmask) (h : s.PhaseOk) : u.PhaseOk := by
  refine phase_env (s := s) (fun k _ => by rw [hg]) hseq hmode hmm hwork hb hr (.inl ?_) ?_ ?_ h
  · simp only [State.lpmack, hg]
  · intro hf; have := hf.2; simpa only [State.frzack, hg] using this
  · intro _ hf; simpa only [State.frzack, hg] using hf

theorem phase_lowPower {s : State} (h : s.PhaseOk) : s.ackLowPower.PhaseOk := by
  have hfz : s.ackLowPower.frzack = s.frzack := by
    simp only [State.frzack, State.ackLowPower, bit_set]; rfl
  refine phase_env (s := s) ?_ rfl rfl rfl rfl rfl rfl (.inr ?_) ?_ ?_ h
  · intro k hk
    simp only [State.ackLowPower, getLsbD_set]
    split
    · rename_i hc
      exfalso
      have : ∀ k, Gcr.lpmack.covers k = true → k < 32 := by intro k hc; simp [Field.covers] at hc; omega
      have h3 : ∀ k < 32, Gcr.lpmack.covers k = true → ackBits.getLsbD k = true := by decide
      have := h3 k (this k hc) hc
      rw [hk] at this; cases this
    · rfl
  · simp only [State.lpmack, State.ackLowPower, bit_set]
    cases s.mdis <;> rfl
  · intro hf; rw [hfz]; exact hf.2
  · intro _ hf; rw [hfz]; exact hf

theorem setFrzack_frzack (b : Bool) (s : State) : (s.setFrzack b).frzack = b := by
  simp only [State.frzack, State.setFrzack, bit_set]
  cases b <;> rfl

theorem phase_setFrzack {s : State} {b : Bool} (h1 : s.frozen → b = true) (h2 : s.leaving → s.frzack = false → b = false)
    (h : s.PhaseOk) : (s.setFrzack b).PhaseOk := by
  refine phase_env (s := s) ?_ rfl rfl rfl rfl rfl rfl (.inl ?_) ?_ ?_ h
  · intro k hk
    simp only [State.setFrzack, getLsbD_set]
    split
    · rename_i hc
      exfalso
      have : ∀ k, Gcr.frzack.covers k = true → k < 32 := by intro k hc; simp [Field.covers] at hc; omega
      have h3 : ∀ k < 32, Gcr.frzack.covers k = true → ackBits.getLsbD k = true := by decide
      have := h3 k (this k hc) hc
      rw [hk] at this; cases this
    · rfl
  · simp only [State.lpmack, State.setFrzack, bit_set]; rfl
  · intro hf; rw [setFrzack_frzack]; exact h1 hf
  · intro hl hf; rw [setFrzack_frzack]; exact h2 hl hf

theorem phase_finishReceptions {s : State} (h : s.PhaseOk) : s.finishReceptions.PhaseOk := by
  obtain ⟨mem, fl, e⟩ := finishReceptions_only s
  rw [e]
  exact phase_congr (s := s) rfl rfl rfl rfl rfl rfl rfl h

theorem finishReceptions_gcr (s : State) : s.finishReceptions.gcr = s.gcr := by
  obtain ⟨mem, fl, e⟩ := finishReceptions_only s
  rw [e]

/-- FRZACK drawn where R82 calls it unspecified keeps the phase, since no phase that names it is in force there. -/
theorem phase_drawFrzack {s : State} (d : Bool) (h1 : ¬s.frozen) (h2 : ¬s.leaving) (h : s.PhaseOk) :
    (s.drawFrzack d).PhaseOk := by
  have hg := finishReceptions_gcr s
  cases d
  · exact phase_setFrzack (fun hf => absurd hf h1) (fun hl => absurd hl h2) h
  · refine phase_setFrzack (s := s.finishReceptions) (fun _ => rfl) (fun hl => ?_) (phase_finishReceptions h)
    refine absurd ?_ h2
    simpa only [State.leaving, State.awake, State.mdis, State.softrst, State.lpmack, State.frz, State.halt, hg] using hl

theorem phase_freeze {s : State} (d : Bool) (h : s.PhaseOk) : (s.ackFreeze d).PhaseOk := by
  simp only [State.ackFreeze]
  split
  · rename_i hlp
    refine phase_drawFrzack d ?_ ?_ h
    · intro hf; have := hf.1.1.2.2; simp [hlp] at this
    · intro hf; have := hf.1.2.2; simp [hlp] at this
  split
  · rename_i hne
    refine phase_drawFrzack d ?_ ?_ h
    · intro hf; exact absurd (hf.1.2.1.trans hf.1.2.2.symm) hne
    · intro hf; exact absurd (hf.2.1.trans hf.2.2.symm) hne
  split
  · exact h
  split
  · rename_i hfz
    refine phase_setFrzack ?_ ?_ h
    · intro hf; simp [hf.2]
    · intro hf; have := hf.2.1; simp [hfz] at this
  · rename_i hfz
    refine phase_setFrzack ?_ ?_ h
    · intro hf; exact absurd hf.1.2.1 hfz
    · intro _ _; rfl

theorem phase_softReset {s : State} (gcr btr rxmask iflag timer : Word) (h : s.PhaseOk) :
    (s.softReset gcr btr rxmask iflag timer).PhaseOk := by
  simp only [State.softReset]
  split
  · rename_i hc
    simp only [Bool.and_eq_true, Bool.not_eq_true'] at hc
    obtain ⟨hs, hl⟩ := hc
    constructor
    · intro hm
      have := (h.running hm).1.1.2.1
      rw [hs] at this; cases this
    · intro l i n hq
      obtain ⟨h1, h2⟩ := h.init l i n hq
      refine ⟨h1, ?_⟩
      set u : State := { s with
        gcr := Gcr.softrst.set (Gcr.mdis.set gcr s.mdis.toNat) 0
        btr := Btr.clksrc.set btr (Btr.clksrc.bit s.btr).toNat
        rxmask := rxmask, iflag := iflag, timer := timer, lock := none, abortReq := [], rxBegun := [] } with hu
      have e1 : u.mdis = s.mdis := by
        simp only [State.mdis, hu, bit_set]
        cases Gcr.mdis.bit s.gcr <;> rfl
      have ek : s.clockSelected → u.clockSelected := by
        intro h
        simp only [State.clockSelected, hu, bit_set] at h ⊢
        rw [← h]
        cases Btr.clksrc.bit s.btr <;> rfl
      have ew : u.work = s.work := rfl
      cases l <;> simp only [State.initPhase, e1, hs, hl, State.awake, State.halting, State.frozen, State.leaving,
          ew] at h2 ⊢
      case a5 | a6r | a7 => exact ⟨h2.1, ek h2.2⟩
      case a6w => exact ⟨h2.1, h2.2.1, ek h2.2.2⟩
      case a2 => exact h2
      all_goals first | (exfalso; simp at h2; done) | trivial
  · exact h

theorem phase_other {s u : State} (hq : ∀ l i n, u.seq ≠ .run (.init l) i n) (hg : u.gcr = s.gcr) (hmode : u.mode = s.mode)
    (hmm : u.maxMailbox = s.maxMailbox)
   (hr : u.rxmask = s.rxmask) (h : s.PhaseOk) : u.PhaseOk := by
  refine ⟨fun hm => ?_, fun l i n h => absurd h (hq l i n)⟩
  have := h.running (hmode ▸ hm)
  simpa only [State.normalOperation, State.leaving, State.awake, State.mdis, State.softrst, State.lpmack, State.frz,
      State.halt, State.frzack, State.maxmb, hg, hmm, hr] using this

theorem ctl_closed (s0 : State) : EngineClosed (fun t => t.gcr = s0.gcr ∧ t.btr = s0.btr ∧ t.rxmask = s0.rxmask ∧
    t.timer = s0.timer ∧ t.mode = s0.mode ∧ t.maxMailbox = s0.maxMailbox) where
  read r s h := by simpa using h
  writeFlag v s h := by simpa using h
  writeMb i w v s h := by simpa using h
  keep w s h := by simpa using h
  goto p i s h := by simpa using h
  stay p i n s h := by simpa using h
  close r q s h := by simpa using h
  refuse r s h := by simpa using h
  engageLock i c s h := by simpa using h

/-- A command other than `INIT` leaves the sequencer outside the labels of `INIT`. -/
theorem seq_other {s u : State} (h : EngineMove s u) (hne : fetchCommand s ≠ .instr .init) (hs : s.Structural) :
    ∀ l i n, u.seq ≠ .run (.init l) i n := by
  have hend : (u.seq = .idle ∨ u.seq = .faulted) → ∀ l i n, u.seq ≠ .run (.init l) i n := by
    rintro (h | h) l i n <;> simp [h]
  cases h with
  | accept i op hq hw hf ho hu =>
    subst hu
    cases i <;> cases ho <;> first | exact absurd hf hne | simp [Op.start]
  | faulted hq hw hu => subst hu; exact hend (by simp [hq])
  | btcalc l j n hq hw hx => exact hend (single_ended (.inl hx) ⟨_, _, _, hq⟩).1
  | encode l j n hq hw hx => exact hend (single_ended (.inr (.inl hx)) ⟨_, _, _, hq⟩).1
  | decode l j n hq hw hx => exact hend (single_ended (.inr (.inr hx)) ⟨_, _, _, hq⟩).1
  | init l j n hq hx =>
    have hso := hs.seq
    simp only [State.seqOk, hq] at hso
    exact absurd hso.1 hne
  | transmit l j n hq hx =>
    by_cases hl : l = .s0
    · subst hl
      simp only [transmitStep, startTransmit, refuse] at hx
      repeat' split at hx
      all_goals (cases hx; simp [hq])
    · have hso := hs.seq
      simp only [State.seqOk, hq] at hso
      rcases transmitNext hl hq (hso.2.2 hl).2.1 hx with ⟨l', i', n', d1, ⟨l'', _, rfl⟩, _⟩ | ⟨d1, d2⟩
      · simp [d1]
      · exact hend d1
  | receive m l j n hq hf hx =>
    by_cases hl : l = .s0
    · subst hl
      simp only [receiveStep, startReceive, refuse] at hx
      repeat' split at hx
      all_goals (cases hx; simp [hq])
    · rcases receiveNext hl hq hx with ⟨l', n', d1, ⟨l'', _, rfl⟩, _⟩ | ⟨d1, d2⟩
      · simp [d1]
      · exact hend d1
  | abort m l j n hq hf hx =>
    by_cases hl : l = .s0
    · subst hl
      simp only [abortStep, startAbort, refuse] at hx
      repeat' split at hx
      all_goals (cases hx; simp [hq])
    · rcases abortNext hl hq hx with ⟨l', n', d1, ⟨l'', _, rfl⟩, _⟩ | ⟨d1, d2⟩
      · simp [d1]
      · exact hend d1

theorem bit_pairs (w : Word) (v : Nat) :
   Gcr.mdis.bit (Gcr.softrst.set w v) = Gcr.mdis.bit w ∧ Gcr.softrst.bit (Gcr.mdis.set w v) = Gcr.softrst.bit w ∧
   Gcr.mdis.bit (Gcr.mdis.set w 1) = true ∧ Gcr.mdis.bit (Gcr.mdis.set w 0) = false := by
  simp only [bit_set]; exact ⟨rfl, rfl, rfl, rfl⟩

theorem freeze_bits (w : Word) (v : Nat) (f : Field) (h1 : Gcr.halt.covers f.lo = false) (h2 : Gcr.frz.covers f.lo = false) :
    f.bit (Gcr.halt.set (Gcr.frz.set w v) v) = f.bit w := by
  simp [bit_set, h1, h2]

theorem mdis_set1 (w : Word) : Gcr.mdis.bit (Gcr.mdis.set w 1) = true := (bit_pairs w 0).2.2.1

theorem mdis_set0 (w : Word) : Gcr.mdis.bit (Gcr.mdis.set w 0) = false := (bit_pairs w 0).2.2.2

theorem sr_mdis (w : Word) (v : Nat) : Gcr.softrst.bit (Gcr.mdis.set w v) = Gcr.softrst.bit w := (bit_pairs w v).2.1

theorem mdis_sr (w : Word) (v : Nat) : Gcr.mdis.bit (Gcr.softrst.set w v) = Gcr.mdis.bit w := (bit_pairs w v).1

theorem bt_bit (w : Word) (v : Nat) : Btr.clksrc.bit (Btr.clksrc.set w v) = v.testBit 0 := by simp only [bit_set]; rfl

theorem gcrConfigured_write {s : State} (hf : s.frzack = true) (hn : s.work.headers.length ≤ 32)
    (h0 : 0 < s.work.headers.length) :
    (s.latchMaxMailbox.afterWrite .gcr (configureGcr s.work.settings s.work.headers.length s.work.t)).gcrConfigured := by
  have hb : ∀ f : Field, (Gcr.rfen.covers f.lo || Gcr.srxdis.covers f.lo || Gcr.irmq.covers f.lo || Gcr.dma.covers f.lo || Gcr.maxmb.covers f.lo) = true →
     (Gcr.mdis.covers f.lo || Gcr.frz.covers f.lo || Gcr.halt.covers f.lo) = false → Gcr.softrst.covers f.lo = false →
     f.bit (s.latchMaxMailbox.afterWrite .gcr (configureGcr s.work.settings s.work.headers.length s.work.t)).gcr = f.bit (configureGcr s.work.settings s.work.headers.length s.work.t) := by
    intro f h1 h2 h3
    simp only [Field.bit, State.afterWrite_gcr, State.poke, gcrAfter_frozenBit _ _ h1 h2 h3, State.latchMaxMailbox_frzack,
        hf, if_true]
  refine ⟨?_, ?_, ?_, ?_, ?_, ?_⟩
  · rw [hb _ rfl rfl rfl]; simp only [configureGcr, bit_set]
    simp only [State.afterWrite_work, State.latchMaxMailbox_work]
    cases s.work.settings.fifoEnabled <;> rfl
  · rw [hb _ rfl rfl rfl]; simp only [configureGcr, bit_set]
    simp only [State.afterWrite_work, State.latchMaxMailbox_work]
    cases s.work.settings.selfReception <;> rfl
  · rw [hb _ rfl rfl rfl]; simp only [configureGcr, bit_set]
    simp only [State.afterWrite_work, State.latchMaxMailbox_work]
    cases s.work.settings.individualMasking <;> rfl
  · rw [hb _ rfl rfl rfl]; simp only [configureGcr, bit_set]
    simp only [State.afterWrite_work, State.latchMaxMailbox_work]
    cases s.work.settings.dmaEnable <;> rfl
  · rw [afterWrite_gcr_maxmb]
    simp only [State.latchMaxMailbox_frzack, hf, if_true, configureGcr, State.afterWrite_work, State.latchMaxMailbox_work]
    exact get_set_same _ (by show s.work.headers.length - 1 < 128; omega) (by decide)
  · simp only [State.afterWrite_maxMailbox, State.latchMaxMailbox_maxMailbox, State.afterWrite_work,
      State.latchMaxMailbox_work, BitVec.toNat_ofNat]
    exact Nat.mod_eq_of_lt (by omega)

theorem btrMask_frozen {s : State} (hf : s.frzack = true) (hl : s.lpmack = false) : s.btrMask = Btr.frozenMask := by
  simp [State.btrMask, hf, hl]

theorem btr_get_write {s : State} (hf : s.frzack = true) (hl : s.lpmack = false) (v : Word) (f : Field)
    (h : ∀ k, k < 32 → f.lo ≤ k → k < f.lo + f.width → Btr.frozenMask.getLsbD k = true) (hw : f.lo + f.width ≤ 32) :
    f.get (s.afterWrite .btr v).btr = f.get v := by
  refine get_congr fun k h1 h2 => ?_
  simp only [State.afterWrite_btr, State.poke, State.btrAfter, getLsbD_blend, btrMask_frozen hf hl, h k (by omega) h1 h2,
      if_true]

theorem btr_clk_write {s : State} (hl : s.lpmack = false) (v : Word) :
    Btr.clksrc.bit (s.afterWrite .btr v).btr = Btr.clksrc.bit s.btr := by
  simp only [Field.bit, State.afterWrite_btr, State.poke, State.btrAfter, getLsbD_blend]
  have : s.btrMask.getLsbD Btr.clksrc.lo = false := by
    simp only [State.btrMask, hl]; cases s.frzack <;> decide
  simp [this]

theorem btrConfigured_write {s : State} (hf : s.frzack = true) (hl : s.lpmack = false) {S C : Nat}
    (hb : btcalc S C = .ok s.work.bt) :
    (s.afterWrite .btr (configureBtr s.work.settings s.work.bt s.work.t)).btrConfigured := by
  obtain ⟨r1, r2, r3, r4, r5⟩ := segments_ranges hb
  simp only [State.btrConfigured, State.afterWrite_work]
  have key := fun f h hw => btr_get_write hf hl (configureBtr s.work.settings s.work.bt s.work.t) f h hw
  refine ⟨?_, ?_, ?_, ?_, ?_, ?_⟩
  · rw [key _ (by decide) (by decide)]; simp only [configureBtr]
    rw [get_set_disjoint _ _ (by decide), get_set_disjoint _ _ (by decide), get_set_disjoint _ _ (by decide),
        get_set_disjoint _ _ (by decide), get_set_disjoint _ _ (by decide), get_set_same _ r1 (by decide)]
  · rw [key _ (by decide) (by decide)]; simp only [configureBtr]
    rw [get_set_disjoint _ _ (by decide), get_set_disjoint _ _ (by decide), get_set_disjoint _ _ (by decide),
        get_set_disjoint _ _ (by decide), get_set_same _ r5 (by decide)]
  · rw [key _ (by decide) (by decide)]; simp only [configureBtr]
    rw [get_set_disjoint _ _ (by decide), get_set_disjoint _ _ (by decide), get_set_disjoint _ _ (by decide),
        get_set_same _ r3 (by decide)]
  · rw [key _ (by decide) (by decide)]; simp only [configureBtr]
    rw [get_set_disjoint _ _ (by decide), get_set_disjoint _ _ (by decide), get_set_same _ r4 (by decide)]
  · rw [key _ (by decide) (by decide)]; simp only [configureBtr]
    rw [get_set_disjoint _ _ (by decide), get_set_same _ r2 (by decide)]
  · simp only [Field.bit, State.afterWrite_btr, State.poke, State.btrAfter, getLsbD_blend, btrMask_frozen hf hl]
    have : Btr.frozenMask.getLsbD Btr.lpb.lo = true := by decide
    simp only [this, if_true, configureBtr, getLsbD_set]
    cases s.work.settings.loopbackMode <;> rfl

/-- `INIT` stands at label `l` with what the phase asks for there. -/
def InitAt (l : InitStep) (t : State) : Prop := (∃ i n, t.seq = .run (.init l) i n) ∧ t.mode ≠ .running ∧ t.initOperands l ∧
    t.initPhase l

theorem InitAt.phase {l : InitStep} {t : State} (h : InitAt l t) : t.PhaseOk := by
  obtain ⟨⟨i, n, hq⟩, hm, h1, h2⟩ := h
  refine ⟨fun h => absurd h hm, fun l' i' n' hq' => ?_⟩
  rw [hq] at hq'; cases hq'; exact ⟨h1, h2⟩

theorem phase_ended {t : State} (h : t.seq = .idle ∨ t.seq = .faulted) (hr : t.mode = .running → t.normalOperation) :
    t.PhaseOk :=
  ⟨hr, fun l i n hq => by rcases h with h | h <;> rw [h] at hq <;> cases hq⟩

theorem wait_cases {r b val p i n done} {s t : State} (h : waitUntil r b val p i n done s = .next t) :
    (((s.peek r).getLsbD b = val) ∧
        done (s.afterRead r) = .next t) ∨ t = (s.afterRead r).stay p i (n+1) ∨ ∃ f, t = (s.afterRead r).close (.fatal f) .faulted := by
  obtain ⟨_, h | ⟨_, h⟩⟩ := waitUntil_next h
  · exact .inl h
  · rcases waitAgain_next h with ⟨_, h⟩ | ⟨_, h⟩
    · exact .inr (.inl h)
    · exact .inr (.inr ⟨_, h⟩)

theorem initPhase_congr {l : InitStep} {s u : State} (hg : u.gcr = s.gcr) (hmode : u.mode = s.mode)
    (hmm : u.maxMailbox = s.maxMailbox)
    (hw : u.work.settings = s.work.settings ∧ u.work.headers = s.work.headers ∧ u.work.bt = s.work.bt ∧
        u.work.t = s.work.t) (hb : u.btr = s.btr) (hr : u.rxmask = s.rxmask) (h : s.initPhase l) : u.initPhase l := by
  obtain ⟨w1, w2, w3, w4⟩ := hw
  revert h
  cases l <;> simp only [State.initPhase, State.awake, State.halting, State.frozen, State.leaving, State.clockSelected,
      State.gcrConfigured, State.btrConfigured, State.configured, State.latchedGcr,
    State.mdis, State.softrst, State.lpmack, State.frz, State.halt, State.frzack, State.maxmb, hg, hmode, hmm, w1, w2, w3, w4, hb, hr] <;> exact id

theorem initOperands_congr {l : InitStep} {s u : State} (hw : u.work.settings = s.work.settings ∧
    u.work.headers = s.work.headers ∧ u.work.bt = s.work.bt) (h : s.initOperands l) : u.initOperands l := by
  obtain ⟨w1, w2, w3⟩ := hw
  simpa only [State.initOperands, w1, w2, w3] using h

/-- Past validation the operands are the same facts at every label. -/
theorem initOperands_all {l : InitStep} {s : State} (hl : l ∉ [InitStep.v0, .v1, .v2, .v3]) (h : s.initOperands l)
    (l' : InitStep) : s.initOperands l' := by
  obtain ⟨h1, h2, h3, h4⟩ := h
  simp only [List.mem_cons, List.not_mem_nil, or_false, not_or] at hl
  exact ⟨fun _ => h1 hl.1, fun _ => h2 (by simp [hl]), fun _ => h3 (by simp [hl]), fun _ => h4 (by simp [hl])⟩

/-- The labels of validation keep the phase. -/
theorem phase_validate {s : State} (hp : s.PhaseOk) {l : InitStep} {i : Fin 32} {n : Nat} (hl : l ∈ [InitStep.v0, .v1, .v2,
    .v3]) (hseq : s.seq = .run (.init l) i n)
    (hm : l ≠ .v0 → s.mode ≠ .running) {t : State} (h : initStep l i n s = .next t) : t.PhaseOk := by
  obtain ⟨⟨o1, o2, o3, -⟩, -⟩ := hp.init l i n hseq
  have hend : ∀ t : State, t.seq = .idle ∨ t.seq = .faulted → t.gcr = s.gcr → t.mode = s.mode → t.maxMailbox = s.maxMailbox → t.rxmask = s.rxmask → t.PhaseOk :=
    fun t h1 h2 h3 h4 h5 => phase_other (by rcases h1 with h | h <;> simp [h]) h2 h3 h4 h5 hp
  simp only [List.mem_cons, List.not_mem_nil, or_false] at hl
  rcases hl with rfl | rfl | rfl | rfl <;> simp only [initStep, validateAdmission, validateDma, validateTiming,
      validateFifo, refuse, finish, raiseFatal] at h
  · split at h
    · cases h; exact hend _ (by simp [hseq]) rfl rfl rfl rfl
    · rename_i hmode
      split at h
      · cases h; exact hend _ (by simp [hseq]) rfl rfl rfl rfl
      · rename_i hs' hchk
        cases h
        exact InitAt.phase (l := .v1) ⟨⟨_, _, rfl⟩, by simpa using hmode, ⟨fun _ => (checkHeaderSequence_some hchk).2.2,
            by simp, by simp, by simp⟩, trivial⟩
  · split at h
    · cases h; exact hend _ (by simp) rfl rfl rfl rfl
    · rename_i hc
      cases h
      refine InitAt.phase (l := .v2) ⟨⟨_, _, rfl⟩, by simpa using hm (by simp), ⟨fun _ => o1 (by simp), fun _ => ?_,
          by simp,
          by simp⟩, trivial⟩
      simpa using hc
  · split at h
    · cases h; exact hend _ (by simp) rfl rfl rfl rfl
    · cases h; exact hend _ (by simp) rfl rfl rfl rfl
    · cases h; exact hend _ (by simp [hseq]) rfl rfl rfl rfl
    · rename_i hbt
      cases h
      exact InitAt.phase (l := .v3) ⟨⟨_, _, rfl⟩, by simpa using hm (by simp), ⟨fun _ => o1 (by simp),
          fun _ => o2 (by simp),
          fun _ => hbt, by simp⟩, trivial⟩
  · split at h
    · cases h; exact hend _ (by simp [hseq]) rfl rfl rfl rfl
    · rename_i hc
      cases h
      exact InitAt.phase (l := .a1r) ⟨⟨_, _, rfl⟩, by simpa using hm (by simp), ⟨fun _ => o1 (by simp),
          fun _ => o2 (by simp),
          fun _ => o3 (by simp), fun _ => by simpa using hc⟩, trivial⟩

/-- A step of `INIT` keeps the phase (60_exceptions.md R230). -/
theorem phase_initStep {s : State} (hp : s.PhaseOk) {l : InitStep} {i : Fin 32} {n : Nat}
    (hseq : s.seq = .run (.init l) i n)
    (hk : l ≠ .v0 → s.mode ≠ .running ∧ i.val < s.work.headers.length ∧
        s.work.headers.length ≤ 32) {t : State} (h : initStep l i n s = .next t) : t.PhaseOk := by
  by_cases hv : l ∈ [InitStep.v0, .v1, .v2, .v3]
  · exact phase_validate hp hv hseq (fun h => (hk h).1) h
  obtain ⟨hm, hi, hlen⟩ := hk (by rintro rfl; simp at hv)
  obtain ⟨ho, hph⟩ := hp.init l i n hseq
  replace ho := initOperands_all hv ho
  -- what ends
  have hfat : ∀ r q f, ((s.afterRead r).close (.fatal f) q).mode ≠ .running := by simp [hm]
  have hstay : ∀ r p n', p = Position.init l → ((s.afterRead r).stay p i n').PhaseOk := by
    rintro r p n' rfl
    exact InitAt.phase ⟨⟨_, _, rfl⟩, by simpa using hm, initOperands_congr (s := s) (by simp) (ho _),
        initPhase_congr (s := s) (by simp) (by simp) (by simp) (by simp) (by simp) (by simp) hph⟩
  have hclose : ∀ r f, ((s.afterRead r).close (.fatal f) .faulted).PhaseOk := fun r f => phase_ended (.inr rfl) (fun h => absurd h (by simp [hm]))
  -- a read that goes on
  have hread : ∀ r l' j w, (w.settings = s.work.settings ∧ w.headers = s.work.headers ∧ w.bt = s.work.bt) →
      State.initPhase l' (((s.afterRead r).keep w).goto (.init l') j) → (((s.afterRead r).keep w).goto (.init l') j).PhaseOk :=
    fun r l' j w hw hph' => InitAt.phase ⟨⟨_, _, rfl⟩, by simpa using hm,
        initOperands_congr (s := s) (by simpa using hw) (ho _), hph'⟩
  have hwrite : ∀ r v l' j, State.initPhase l' ((s.afterWrite r v).goto (.init l') j) → ((s.afterWrite r v).goto (.init l') j).PhaseOk :=
    fun r v l' j hph' => InitAt.phase ⟨⟨_, _, rfl⟩, by simpa using hm, initOperands_congr (s := s) (by simp) (ho _), hph'⟩
  cases l <;> simp only [initStep, rmwRead, rmwWrite, withHeader, mbWriteFlag, flagClear, mbWriteId, mbWriteD0, mbWriteD1,
      mbWriteCs, enterMode, finish] at h
  case v0 | v1 | v2 | v3 => simp at hv
  case a1r =>
    replace h := (readReg_next h).2; cases h
    exact hread _ _ _ _ (by simp) trivial
  case a1w =>
    replace h := (writeReg_next h).2; cases h
    refine hwrite _ _ _ _ ?_
    simp [State.initPhase, mdis_set0, mdis_set1, sr_mdis, mdis_sr]
  case a2 =>
    rcases wait_cases h with ⟨hb, h⟩ | h | ⟨f, h⟩
    · cases h
      exact InitAt.phase ⟨⟨_, _, rfl⟩, by simpa using hm, initOperands_congr (s := s) (by simp) (ho _),
          by simpa [State.initPhase] using ⟨hph, hb⟩⟩
    · cases h; exact hstay _ _ _ rfl
    · cases h; exact hclose _ _
  case a3r =>
    replace h := (readReg_next h).2; cases h
    exact hread _ _ _ _ (by simp) (by simpa [State.initPhase] using hph)
  case a3w =>
    replace h := (writeReg_next h).2; cases h
    refine hwrite _ _ _ _ ?_
    simp only [State.initPhase, State.goto_mdis, State.goto_lpmack, State.afterWrite_btr_mdis, State.afterWrite_btr_lpmack]
    refine ⟨hph.1, hph.2, ?_⟩
    simp only [State.clockSelected, State.goto_btr, State.goto_work, State.afterWrite_work, State.afterWrite_btr,
        State.poke, State.btrAfter, Field.bit, getLsbD_blend]
    have : s.btrMask.getLsbD Btr.clksrc.lo = true := by
      simp only [State.btrMask, hph.2]; cases s.frzack <;> decide
    rw [this, if_pos rfl]
    have := bt_bit s.work.t s.work.settings.clockSource.toNat
    simp only [Field.bit] at this; rw [this]
    cases s.work.settings.clockSource <;> rfl
  case a4r =>
    replace h := (readReg_next h).2; cases h
    exact hread _ _ _ _ (by simp) (by simpa [State.initPhase, State.clockSelected] using hph)
  case a4w =>
    replace h := (writeReg_next h).2; cases h
    refine hwrite _ _ _ _ ?_
    simp only [State.initPhase, State.goto_mdis, afterWrite_gcr_mdis, mdis_set0, mdis_set1, sr_mdis, mdis_sr, true_and]
    simpa [State.clockSelected, State.poke] using hph.2.2
  case a5 =>
    rcases wait_cases h with ⟨hb, h⟩ | h | ⟨f, h⟩
    · cases h
      exact InitAt.phase ⟨⟨_, _, rfl⟩, by simpa using hm, initOperands_congr (s := s) (by simp) (ho _),
          by simpa [State.initPhase, State.clockSelected] using hph⟩
    · cases h; exact hstay _ _ _ rfl
    · cases h; exact hclose _ _
  case a6r =>
    replace h := (readReg_next h).2; cases h
    refine hread _ _ _ _ (by simp) ?_
    simp only [State.initPhase, State.goto_mdis, State.keep_mdis, State.afterRead_mdis, State.goto_work, State.keep_work,
        peek_gcr]
    exact ⟨hph.1, hph.1, by simpa [State.clockSelected] using hph.2⟩
  case a6w =>
    replace h := (writeReg_next h).2; cases h
    refine hwrite _ _ _ _ ?_
    simp only [State.initPhase, State.goto_mdis, afterWrite_gcr_mdis, mdis_set0, mdis_set1, sr_mdis, mdis_sr]
    exact ⟨hph.2.1, by simpa [State.clockSelected, State.poke] using hph.2.2⟩
  case a7 =>
    rcases wait_cases h with ⟨hb, h⟩ | h | ⟨f, h⟩
    · cases h
      refine InitAt.phase ⟨⟨_, _, rfl⟩, by simpa using hm, initOperands_congr (s := s) (by simp) (ho _), ?_⟩
      simp only [State.initPhase, State.goto_mdis, State.afterRead_mdis, State.goto_softrst, State.afterRead_softrst]
      exact ⟨hph.1, hb, by simpa [State.clockSelected] using hph.2⟩
    · cases h; exact hstay _ _ _ rfl
    · cases h; exact hclose _ _
  case a8r =>
    replace h := (readReg_next h).2; cases h
    refine hread _ _ _ _ (by simp) ?_
    simp only [State.initPhase, State.goto_mdis, State.keep_mdis, State.afterRead_mdis, State.goto_softrst,
        State.keep_softrst, State.afterRead_softrst, State.goto_work, State.keep_work, peek_gcr]
    exact ⟨hph.1, hph.2.1, hph.2.1, by simpa [State.clockSelected] using hph.2.2⟩
  case a8w =>
    replace h := (writeReg_next h).2; cases h
    refine hwrite _ _ _ _ ?_
    simp only [State.initPhase, State.goto_mdis, afterWrite_gcr_mdis, State.goto_softrst, afterWrite_gcr_softrst, mdis_set0,
        mdis_set1, sr_mdis, mdis_sr, true_and, hph.2.1, hph.2.2.1, Bool.or_self]
    simpa [State.clockSelected, State.poke] using hph.2.2.2
  case a9 =>
    rcases wait_cases h with ⟨hb, h⟩ | h | ⟨f, h⟩
    · cases h
      refine InitAt.phase ⟨⟨_, _, rfl⟩, by simp, initOperands_congr (s := s) (by simp) (ho _), ?_⟩
      simp only [State.initPhase, State.goto_mode, State.setMode_mode, State.goto_mdis, State.setMode_mdis,
          State.afterRead_mdis, State.goto_softrst, State.setMode_softrst, State.afterRead_softrst, State.goto_lpmack, State.setMode_lpmack, State.afterRead_lpmack, true_and]
      exact ⟨hph.1, hb, hph.2.1, by simpa [State.clockSelected] using hph.2.2⟩
    · cases h; exact hstay _ _ _ rfl
    · cases h; exact hclose _ _
  case b1r =>
    replace h := (readReg_next h).2; cases h
    refine hread _ _ _ _ (by simp) ?_
    simp only [State.initPhase, State.goto_mode, State.keep_mode, State.afterRead_mode, State.goto_mdis, State.keep_mdis,
        State.afterRead_mdis, State.goto_softrst, State.keep_softrst, State.afterRead_softrst, State.goto_lpmack, State.keep_lpmack, State.afterRead_lpmack, State.goto_work, State.keep_work, peek_gcr]
    exact ⟨hph.1, hph.2.1, hph.2.2.1, hph.2.2.2.1, hph.2.2.2.1, by simpa [State.clockSelected] using hph.2.2.2.2⟩
  case b1w =>
    replace h := (writeReg_next h).2; cases h
    refine hwrite _ _ _ _ ?_
    simp only [State.initPhase, State.goto_mode, State.afterWrite_mode, State.goto_mdis, afterWrite_gcr_mdis,
        State.goto_softrst, afterWrite_gcr_softrst, mdis_set0, mdis_set1, sr_mdis, mdis_sr, true_and, hph.1, hph.2.2.2.1, hph.2.2.2.2.1, Bool.or_self]
    simpa [State.clockSelected, State.poke] using hph.2.2.2.2.2
  case b2 =>
    rcases wait_cases h with ⟨hb, h⟩ | h | ⟨f, h⟩
    · cases h
      refine InitAt.phase ⟨⟨_, _, rfl⟩, by simp, initOperands_congr (s := s) (by simp) (ho _), ?_⟩
      simp only [State.initPhase, State.awake, State.goto_mode, State.setMode_mode, State.goto_mdis, State.setMode_mdis,
          State.afterRead_mdis, State.goto_softrst, State.setMode_softrst, State.afterRead_softrst, State.goto_lpmack, State.setMode_lpmack, State.afterRead_lpmack, true_and]
      exact ⟨⟨hph.2.1, hph.2.2.1, hb⟩, by simpa [State.clockSelected] using hph.2.2.2⟩
    · cases h; exact hstay _ _ _ rfl
    · cases h; exact hclose _ _
  case c1r =>
    replace h := (readReg_next h).2; cases h
    refine hread _ _ _ _ (by simp) ?_
    simp only [State.initPhase, State.awake, State.goto_mode, State.keep_mode, State.afterRead_mode, State.goto_mdis,
        State.keep_mdis, State.afterRead_mdis, State.goto_softrst, State.keep_softrst, State.afterRead_softrst, State.goto_lpmack, State.keep_lpmack, State.afterRead_lpmack]
    refine ⟨hph.1, hph.2.1, ?_, by simpa [State.clockSelected] using hph.2.2⟩
    rw [latched_iff]; intro k _; simp
  case c1w =>
    replace h := (writeReg_next h).2; cases h
    refine hwrite _ _ _ _ ?_
    obtain ⟨h1, ⟨h2, h3, h4⟩, h5, h6⟩ := hph
    rw [latched_iff] at h5
    have t1 : Gcr.mdis.bit s.work.t = false := (h5 _ ack_lo_bits.1).trans h2
    have t2 : Gcr.softrst.bit s.work.t = false := (h5 _ ack_lo_bits.2.2.2.1).trans h3
    simp only [State.initPhase, State.halting, State.awake, State.goto_mode, State.afterWrite_mode, State.goto_mdis,
        afterWrite_gcr_mdis, State.goto_softrst, afterWrite_gcr_softrst, State.goto_lpmack, afterWrite_gcr_lpmack,
      State.goto_frz, afterWrite_gcr_frz, State.goto_halt, afterWrite_gcr_halt, freeze_bits _ _ Gcr.mdis rfl rfl, freeze_bits _ _ Gcr.softrst rfl rfl, t1, t2, h1, h3, h4, Bool.or_self, true_and, and_true]
    refine ⟨⟨?_, ?_⟩, by simpa [State.clockSelected, State.poke] using h6⟩ <;> (simp only [bit_set]; rfl)
  case c2 =>
    rcases wait_cases h with ⟨hb, h⟩ | h | ⟨f, h⟩
    · cases h
      refine InitAt.phase ⟨⟨_, _, rfl⟩, by simp, initOperands_congr (s := s) (by simp) (ho _), ?_⟩
      obtain ⟨h1, ⟨⟨h2, h3, h4⟩, h5, h6⟩, h7⟩ := hph
      simp only [State.initPhase, State.frozen, State.halting, State.awake, State.goto_mode, State.setMode_mode,
          State.goto_mdis, State.setMode_mdis, State.afterRead_mdis, State.goto_softrst, State.setMode_softrst, State.afterRead_softrst, State.goto_lpmack, State.setMode_lpmack, State.afterRead_lpmack,
        State.goto_frz, State.setMode_frz, State.afterRead_frz, State.goto_halt, State.setMode_halt, State.afterRead_halt, State.goto_frzack, State.setMode_frzack, State.afterRead_frzack, true_and, h2, h3, h4, h5, h6]
      exact ⟨hb, by simpa [State.clockSelected] using h7⟩
    · cases h; exact hstay _ _ _ rfl
    · cases h; exact hclose _ _
  case d1r =>
    replace h := (readReg_next h).2; cases h
    refine hread _ _ _ _ (by simp) ?_
    simp only [State.initPhase, State.frozen, State.halting, State.awake, State.goto_mode, State.keep_mode,
        State.afterRead_mode, State.goto_mdis, State.keep_mdis, State.afterRead_mdis, State.goto_softrst, State.keep_softrst, State.afterRead_softrst, State.goto_lpmack, State.keep_lpmack, State.afterRead_lpmack,
        State.goto_frz, State.keep_frz, State.afterRead_frz, State.goto_halt, State.keep_halt, State.afterRead_halt, State.goto_frzack, State.keep_frzack, State.afterRead_frzack]
    refine ⟨hph.1, hph.2.1, ?_, by simpa [State.clockSelected] using hph.2.2⟩
    rw [latched_iff]; intro k _; simp
  case d1w =>
    replace h := (writeReg_next h).2; cases h
    obtain ⟨h1, ⟨⟨⟨h2, h3, h4⟩, h7, h8⟩, h9⟩, h5, h6⟩ := hph
    refine InitAt.phase ⟨⟨_, _, rfl⟩, by simpa using hm, initOperands_congr (s := s) (by simp) (ho _), ?_⟩
    rw [latched_iff] at h5
    have t1 : Gcr.mdis.bit s.work.t = false := (h5 _ ack_lo_bits.1).trans h2
    have t2 : Gcr.softrst.bit s.work.t = false := (h5 _ ack_lo_bits.2.2.2.1).trans h3
    have t3 : Gcr.frz.bit s.work.t = true := (h5 _ ack_lo_bits.2.1).trans h7
    have t4 : Gcr.halt.bit s.work.t = true := (h5 _ ack_lo_bits.2.2.1).trans h8
    have hcfg : ∀ f : Field, Gcr.maxmb.covers f.lo = false → Gcr.dma.covers f.lo = false → Gcr.irmq.covers f.lo = false → Gcr.srxdis.covers f.lo = false → Gcr.rfen.covers f.lo = false →
        f.bit (configureGcr s.work.settings s.work.headers.length s.work.t) = f.bit s.work.t := by
      intro f a b c d e; simp [configureGcr, bit_set, a, b, c, d, e]
    have hcfg' : ∀ f : Field, Gcr.maxmb.covers f.lo = false → Gcr.dma.covers f.lo = false → Gcr.irmq.covers f.lo = false → Gcr.srxdis.covers f.lo = false → Gcr.rfen.covers f.lo = false →
        f.bit (configureGcr s.work.settings s.work.headers.length s.latchMaxMailbox.work.t) = f.bit s.work.t := hcfg
    refine ⟨by simpa using h1, ⟨⟨⟨?_, ?_, ?_⟩, ?_, ?_⟩, ?_⟩, ?_, ?_⟩
    · simp only [State.goto_mdis, afterWrite_gcr_mdis]; rw [hcfg' _ rfl rfl rfl rfl rfl]; exact t1
    · simp only [State.goto_softrst, afterWrite_gcr_softrst]; rw [hcfg' _ rfl rfl rfl rfl rfl, t2]; simpa using h3
    · simpa using h4
    · simp only [State.goto_frz, afterWrite_gcr_frz]; rw [hcfg' _ rfl rfl rfl rfl rfl]; exact t3
    · simp only [State.goto_halt, afterWrite_gcr_halt]; rw [hcfg' _ rfl rfl rfl rfl rfl]; exact t4
    · simpa using h9
    · simpa [State.clockSelected, State.poke] using h6
    · have := gcrConfigured_write (s := s) h9 hlen (by omega)
      simpa only [State.gcrConfigured, State.goto_gcr, State.goto_work, State.goto_maxmb, State.goto_maxMailbox,
          State.latchMaxMailbox_work] using this
  case d2r =>
    replace h := (readReg_next h).2; cases h
    exact hread _ _ _ _ (by simp) (by simpa [State.initPhase, State.frozen, State.halting, State.awake, State.clockSelected,
        State.gcrConfigured] using hph)
  case d2w =>
    replace h := (writeReg_next h).2; cases h
    refine hwrite _ _ _ _ ?_
    obtain ⟨h1, hf, h6, hg⟩ := hph
    refine ⟨by simpa using h1, by simpa [State.frozen, State.halting, State.awake] using hf, ?_, ?_, ?_⟩
    · have := btr_clk_write (s := s) hf.1.1.2.2 (configureBtr s.work.settings s.work.bt s.work.t)
      simp only [State.clockSelected, State.goto_btr, State.goto_work, State.afterWrite_work, this]; exact h6
    · simpa [State.gcrConfigured] using hg
    · have := btrConfigured_write (s := s) hf.2 hf.1.1.2.2 ((ho .a1r).2.2.1 (by decide))
      simpa only [State.btrConfigured, State.goto_btr, State.goto_work] using this
  case d3 =>
    replace h := (writeReg_next h).2; cases h
    refine hwrite _ _ _ _ ?_
    obtain ⟨h1, hf, h6, hg, hb⟩ := hph
    refine ⟨by simpa using h1, by simpa [State.frozen, State.halting, State.awake] using hf,
        by simpa [State.clockSelected] using h6, by simpa [State.gcrConfigured] using hg,
        by simpa [State.btrConfigured] using hb, ?_⟩
    simp [State.poke, hf.2]
  case f1r =>
    replace h := (readReg_next h).2; cases h
    refine hread _ _ _ _ (by simp) ?_
    obtain ⟨h1, hf, h6, hc⟩ := hph
    refine ⟨by simpa using h1, by simpa [State.frozen, State.halting, State.awake] using hf, ?_,
        by simpa [State.clockSelected] using h6, by simpa [State.configured, State.gcrConfigured,
        State.btrConfigured] using hc⟩
    rw [latched_iff]; intro k _; simp
  case f1w =>
    replace h := (writeReg_next h).2; cases h
    refine hwrite _ _ _ _ ?_
    obtain ⟨h1, ⟨⟨⟨h2, h3, h4⟩, h7, h8⟩, h9⟩, h5, h6, ⟨g1, g2, g3, g4, g5, g6⟩, hb, hr⟩ := hph
    rw [latched_iff] at h5
    have t1 : Gcr.mdis.bit s.work.t = false := (h5 _ ack_lo_bits.1).trans h2
    have t2 : Gcr.softrst.bit s.work.t = false := (h5 _ ack_lo_bits.2.2.2.1).trans h3
    have hfz : ∀ f : Field, (Gcr.rfen.covers f.lo || Gcr.srxdis.covers f.lo || Gcr.irmq.covers f.lo || Gcr.dma.covers f.lo || Gcr.maxmb.covers f.lo) = true →
       (Gcr.mdis.covers f.lo || Gcr.frz.covers f.lo || Gcr.halt.covers f.lo) = false → Gcr.softrst.covers f.lo = false → ackBits.getLsbD f.lo = false → Gcr.halt.covers f.lo = false → Gcr.frz.covers f.lo = false →
       f.bit (s.afterWrite .gcr (Gcr.halt.set (Gcr.frz.set s.work.t 0) 0)).gcr = f.bit s.gcr := by
      intro f a1 a2 a3 a4 a5 a6
      simp only [Field.bit, State.afterWrite_gcr, State.poke, gcrAfter_frozenBit _ _ a1 a2 a3, h9, if_true]
      have := freeze_bits s.work.t 0 f a5 a6
      simp only [Field.bit] at this; rw [this]; exact h5 _ a4
    have hmx : (s.afterWrite .gcr (Gcr.halt.set (Gcr.frz.set s.work.t 0) 0)).maxmb = s.maxmb := by
      rw [afterWrite_gcr_maxmb, if_pos h9, get_set_disjoint _ _ (by decide), get_set_disjoint _ _ (by decide)]
      refine get_congr fun k _ hk => h5 k ?_
      have : ∀ k, k < 7 → ackBits.getLsbD k = false := by decide
      exact this k hk
    refine ⟨by simpa using h1, ⟨⟨?_, ?_, ?_⟩, ?_, ?_⟩, by simpa [State.clockSelected, State.poke] using h6, ⟨?_,
        by simpa [State.btrConfigured, State.poke] using hb, by simpa [State.poke] using hr⟩⟩
    · simp only [State.goto_mdis, afterWrite_gcr_mdis]; rw [freeze_bits _ _ _ rfl rfl]; exact t1
    · simp only [State.goto_softrst, afterWrite_gcr_softrst]; rw [freeze_bits _ _ _ rfl rfl, t2]; simpa using h3
    · simpa using h4
    · simp only [State.goto_frz, afterWrite_gcr_frz, bit_set]; rfl
    · simp only [State.goto_halt, afterWrite_gcr_halt, bit_set]; rfl
    · simp only [State.gcrConfigured, State.goto_gcr, State.goto_work, State.goto_maxmb, State.goto_maxMailbox,
        State.afterWrite_work, State.afterWrite_maxMailbox, hmx]
      exact ⟨(hfz _ rfl rfl rfl (by decide) rfl rfl).trans g1, (hfz _ rfl rfl rfl (by decide) rfl rfl).trans g2,
          (hfz _ rfl rfl rfl (by decide) rfl rfl).trans g3, (hfz _ rfl rfl rfl (by decide) rfl rfl).trans g4, g5, g6⟩
  case f2 =>
    rcases wait_cases h with ⟨hb, h⟩ | h | ⟨f, h⟩
    · cases h
      refine phase_ended (.inl rfl) fun _ => ?_
      obtain ⟨h1, ⟨⟨h2, h3, h4⟩, h7, h8⟩, h6, ⟨g1, g2, g3, g4, g5, g6⟩, hbt, hr⟩ := hph
      have o2 := (ho .a1r).2.2.2 (by decide)
      have o3 : s.work.settings.dmaEnable = false := by
        have := (ho .a1r).2.1 (by decide)
        rw [o2] at this
        simpa using this
      refine ⟨⟨⟨?_, ?_, ?_⟩, ?_, ?_⟩, ?_, ?_, ?_, ?_, ?_⟩
      · simpa using h2
      · simpa using h3
      · simpa using h4
      · simpa using h7
      · simpa using h8
      · simpa [State.frzack, Field.bit] using hb
      · simpa [g6] using g5
      · simpa [o2] using g1
      · simpa [o3] using g4
      · simpa using hr
    · cases h; exact hstay _ _ _ rfl
    · cases h; exact hclose _ _
  -- the loop labels: nothing of the phase moves, all eight labels have one phase
  all_goals
    have hloop : ∀ (l' : InitStep) (u : State) (j : Fin 32), (l' = .e1 ∨ l' = .e2 ∨ l' = .e3 ∨ l' = .w1 ∨ l' = .w2 ∨
        l' = .w3 ∨ l' = .w4 ∨ l' = .w5 ∨ l' = .f1r) → u.gcr = s.gcr → u.btr = s.btr → u.rxmask = s.rxmask →
        u.mode = s.mode → u.maxMailbox = s.maxMailbox → (u.work.settings = s.work.settings ∧
            u.work.headers = s.work.headers ∧ u.work.bt = s.work.bt) → (u.goto (.init l') j).PhaseOk := by
      intro l' u j hl e1 e2 e3 e4 e5 e6
      refine InitAt.phase (l := l') ⟨⟨_, _, rfl⟩, by simpa [e4] using hm,
          initOperands_congr (s := s) (by simpa using e6) (ho _), ?_⟩
      have : State.initPhase .e1 (u.goto (.init l') j) := by
        have hs0 : State.initPhase .e1 s := hph
        obtain ⟨w1, w2, w3⟩ := e6
        revert hs0
        simp only [State.initPhase, State.awake, State.halting, State.frozen, State.clockSelected, State.gcrConfigured,
            State.btrConfigured, State.configured,
           State.mdis, State.softrst, State.lpmack, State.frz, State.halt, State.frzack, State.maxmb, State.goto_gcr, State.goto_btr, State.goto_work, State.goto_mode, State.goto_maxMailbox, State.goto_rxmask, e1, e2, e3, e4, e5, w1, w2, w3]
        exact id
      rcases hl with rfl | rfl | rfl | rfl | rfl | rfl | rfl | rfl | rfl <;> exact this
  case e1 =>
    split at h
    · replace h := (readReg_next h).2; cases h; exact hloop _ _ _ (by simp) (by simp) (by simp) (by simp) (by simp) (by simp) (by simp)
    · cases h; exact hloop _ _ _ (by simp) rfl rfl rfl rfl rfl (by simp)
  case e2 | w1 | w2 | w3 | w4 =>
    split at h
    · replace h := (writeReg_next h).2; cases h; exact hloop _ _ _ (by simp) (by simp) (by simp) (by simp) (by simp) (by simp) (by simp)
    · cases h; exact hloop _ _ _ (by simp) rfl rfl rfl rfl rfl (by simp)
  case e3 =>
    split at h
    · replace h := (readReg_next h).2
      simp only [engineOnCode, State.afterRead_seq, hseq] at h
      rcases decodedAt_next h with ⟨c, _, h⟩ | ⟨_, h⟩
      · simp only [writeCheckOn, finish] at h
        split at h
        · cases h; exact hloop _ _ _ (by simp) (by simp) (by simp) (by simp) (by simp) (by simp) (by simp)
        · cases h; exact phase_ended (.inl rfl) (fun h => absurd h (by simp [hm]))
        · cases h; exact phase_ended (.inl rfl) (fun h => absurd h (by simp [hm]))
      · cases h; exact hclose _ _
    · cases h; exact hloop _ _ _ (by simp) rfl rfl rfl rfl rfl (by simp)
  case w5 =>
    split at h
    · replace h := (writeReg_next h).2
      simp only [nextMailbox] at h
      split at h <;> cases h <;> exact hloop _ _ _ (by simp) (by simp) (by simp) (by simp) (by simp) (by simp) (by simp)
    · cases h; exact hloop _ _ _ (by simp) rfl rfl rfl rfl rfl (by simp)

/-- Every move keeps the phase. -/
theorem phase_moves {s u : State} (hs : s.Structural) (hp : s.PhaseOk) (h : Moves s u) : u.PhaseOk := by
  cases h with
  | command w i u ht hc hd hx =>
    have hfc : fetchCommand s = .instr i := by simp [fetchCommand, hc, hd]
    have hmv := engine_move hs hc hd hx
    by_cases hi : i = .init
    · subst hi
      cases hmv with
      | accept i op hq hw hf ho hu =>
        rw [hfc] at hf; cases hf; cases ho; subst hu
        refine ⟨fun hm => ?_, fun l i n h => ?_⟩
        · exact (phase_congr (s := s) (u := { s with seq := s.seq }) rfl rfl rfl rfl rfl rfl rfl hp).running hm
        · cases h; exact ⟨⟨by simp, by simp, by simp, by simp⟩, trivial⟩
      | faulted hq hw hu => subst hu; exact phase_other (s := s) (by simp [hq]) rfl rfl rfl rfl hp
      | init l j n hq hx' =>
        have hso := hs.seq
        simp only [State.seqOk, hq] at hso
        exact phase_initStep hp hq (fun hl => by have := hso.2.2 hl; have := numMb_le hs; exact ⟨by tauto, by omega,
            by omega⟩) hx'
      | _ =>
        have hso := hs.seq
        simp [State.seqOk, *] at hso
    · have hi' : i = .btcalc ∨ i = .encode ∨ i = .decode ∨ i = .transmit ∨ (∃ m, i = .receive m) ∨ ∃ m, i = .abort m := by
        rcases decodeWord_command hd with h | h | h | h | h | h | h <;> simp_all
      obtain ⟨c1, c2, c3, c4, c5, c6⟩ := (ctl_closed s).command hi' ⟨rfl, rfl, rfl, rfl, rfl, rfl⟩ u hx
      exact phase_other (seq_other hmv (by rw [hfc]; intro h; cases h; exact hi rfl) hs) c1 c5 c6 c3 hp
  | illegal w e ht hc hd =>
    have : ∃ r, s.rejectWord = s.refuse r := by simp only [State.rejectWord]; split <;> exact ⟨_, rfl⟩
    obtain ⟨r, hr⟩ := this
    rw [hr]
    refine phase_other (s := s) ?_ rfl rfl rfl rfl hp
    intro l i n
    simp only [State.refuse_seq]
    cases s.seq <;> simp
  | quiet => exact hp
  | mailbox i m u ht hi hx =>
    obtain ⟨u', hx', h⟩ := exec_mailbox_turn hs.mem (numMb_le hs) ht
    rw [hx] at hx'; cases hx'
    rcases h with rfl | h
    · exact hp
    · obtain ⟨mem, fl, ar, rb, rfl⟩ := h.only
      exact phase_congr (s := s) rfl rfl rfl rfl rfl rfl rfl hp
  | noMailbox => exact hp
  | host w ops ht =>
    have : (s.issue w ops).gcr = s.gcr ∧ (s.issue w ops).seq = s.seq ∧ (s.issue w ops).mode = s.mode ∧ (s.issue w ops).maxMailbox = s.maxMailbox ∧ (s.issue w ops).work = s.work ∧ (s.issue w ops).btr = s.btr ∧ (s.issue w ops).rxmask = s.rxmask := by
      simp only [State.issue]; split <;> simp
    obtain ⟨a, b, c, d, e, f, g⟩ := this
    exact phase_congr a b c d e f g hp
  | lowPower ht => exact phase_lowPower hp
  | softReset g b r f tm ht => exact phase_softReset _ _ _ _ _ hp
  | freeze d ht => exact phase_freeze _ hp
  | timer v ht => exact phase_congr (s := s) rfl rfl rfl rfl rfl rfl rfl hp
  | floating v ht => exact phase_congr (s := s) rfl rfl rfl rfl rfl rfl rfl hp

end Sys2Proof.Machine
end

