-- ==== Sys2Proof/Laws/Protocol.lean ====
section
/-! SUPPORT. The mailbox protocol layer of the invariant. -/

namespace Sys2Proof.Machine

open Sys2Proof

theorem hidden_congr {s u : State} (h1 : u.abortReq = s.abortReq) (h2 : u.rxBegun = s.rxBegun) (h3 : ∀ i,
    u.mbCode i = s.mbCode i)
    (h4 : u.maxMailbox = s.maxMailbox) (h5 : u.params = s.params) (h7 : u.mode = s.mode) (h8 : u.mode ≠ .running → u.lock = none)
    (h9 : u.frzack = s.frzack) (h10 : s.frzack = false → u.maxmb = s.maxmb)
    (h : s.HiddenOk) : u.HiddenOk := by
  refine ⟨?_, ?_, ?_, ?_, ?_⟩
  · intro i hi; rw [h1] at hi; rw [h4, h3]; exact h.abort i hi
  · intro i hi; rw [h2] at hi; rw [h5, h3]; exact h.begun i hi
  · intro hf; rw [h2]; exact h.still (h9 ▸ hf)
  · intro i hi
    rw [h2] at hi
    cases hf : s.frzack with
    | true => rw [h.still hf] at hi; simp at hi
    | false => rw [h10 hf]; exact h.inUse i hi
  · intro hm; exact ⟨h8 hm, by rw [h1]; exact (h.fresh (h7 ▸ hm)).2⟩

theorem mbLive_le {s : State} {i : Nat} (h : s.mbLive i = true) : i ≤ s.maxmb := by
  simp only [State.mbLive, Bool.and_eq_true, decide_eq_true_eq] at h
  exact h.1.2

/-- In freeze mode no move on a mailbox is left (10_state.md R44, 42_controller_init.md R164). -/
theorem mailboxMove_frozen {s u : State} {i : Nat} (h : s.HiddenOk) (hf : s.frzack = true) : ¬MailboxMove i s u := by
  intro hm
  rcases hm.enabled with hl | ⟨hb, _⟩
  · rw [mbLive_frzack hl] at hf; cases hf
  · rw [h.still hf] at hb; simp at hb

/-- Above MAXMB no move on a mailbox is left (20_memory.md R89). -/
theorem mailboxMove_above {s u : State} {i : Nat} (h : s.HiddenOk) (hi : s.maxmb < i) : ¬MailboxMove i s u := by
  intro hm
  rcases hm.enabled with hl | ⟨hb, _⟩
  · have := mbLive_le hl; omega
  · have := h.inUse i hb; omega

/-- A move of the controller keeps the hidden state in agreement with the codes. -/
theorem hidden_move {s u : State} {i : Nat} (h : s.HiddenOk) (hm : MailboxMove i s u) : u.HiddenOk := by
  obtain ⟨mem, fl, ar, rb, hu⟩ := hm.only
  have e1 : u.maxMailbox = s.maxMailbox := by rw [hu]; rfl
  have e2 : u.params = s.params := by rw [hu]; rfl
  have e3 : u.gcr = s.gcr := by rw [hu]; rfl
  have e4 : u.mode = s.mode := by rw [hu]; rfl
  have e5 : u.lock = s.lock := by rw [hu]; rfl
  have hcode : ∀ j, j ≠ i → u.mbCode j = s.mbCode j := fun j hj => by simp only [State.mbCode, hm.words j .cs hj]
  have hsub : ∀ j, j ∈ u.abortReq → j ∈ s.abortReq := by
    intro j hj
    rcases hm.abortReq with h | h <;> rw [h] at hj
    · exact hj
    · exact ((mem_removeIndex _ _ _).1 hj).1
  have e6 : u.frzack = s.frzack := by simp only [State.frzack, e3]
  have e7 : u.maxmb = s.maxmb := by simp only [State.maxmb, e3]
  have hrb : ∀ j, j ≠ i → j ∈ u.rxBegun → j ∈ s.rxBegun := by
    intro j hji hj
    rcases hm.rxBegun with h | h | h <;> rw [h] at hj
    · exact hj
    · exact ((mem_removeIndex _ _ _).1 hj).1
    · exact ((mem_insertIndex _ _ _).1 hj).resolve_left hji
  refine ⟨?_, ?_, ?_, ?_, ?_⟩
  · intro j hj
    have hj' := hsub j hj
    obtain ⟨a, b⟩ := h.abort j hj'
    refine ⟨by rw [e1]; exact a, ?_⟩
    by_cases hji : j = i
    · subst hji; exact absurd b (hm.aborting hj)
    · rw [hcode j hji]; exact b
  · intro j hj
    by_cases hji : j = i
    · subst hji
      refine ⟨by rw [e2]; exact hm.exists_, ?_⟩
      rcases hm.begun hj with h' | ⟨h', h''⟩
      · exact h'
      · have := (h.begun j h').2
        rw [h'' this]; exact this
    · rw [e2, hcode j hji]; exact h.begun j (hrb j hji hj)
  · intro hf
    exact absurd hm (mailboxMove_frozen h (e6 ▸ hf))
  · intro j hj
    rw [e7]
    by_cases hji : j = i
    · subst hji
      rcases hm.enabled with hl | ⟨hb, _⟩
      · exact mbLive_le hl
      · exact h.inUse j hb
    · exact h.inUse j (hrb j hji hj)
  · intro hmode
    obtain ⟨a, b⟩ := h.fresh (e4 ▸ hmode)
    refine ⟨e5.trans a, ?_⟩
    rw [List.eq_nil_iff_forall_not_mem]
    intro j hj
    have := hsub j hj; rw [b] at this; simp at this

theorem not_receptionCode {c : MessageBufferCode} (h : MessageBufferCode.isBusy c = false) :
    ¬receptionCode (codeBits c) := by
  rcases c with ⟨st, b⟩ | st
  · cases b <;> cases st <;> simp [receptionCode, codeBits, rxBits, MessageBufferCode.isBusy] at h ⊢
  · cases st <;> simp [receptionCode, codeBits]

theorem not_receptionCode_inactive (c : MessageBufferCode) : ¬receptionCode (inactiveBits c) := by
  simp only [inactiveBits]; split <;> simp [receptionCode]

theorem codeOf_cs {s : State} {i : Nat} {c : Word} (h : s.mbWord i .cs = c) :
    s.mbCode i = codeOf c := by simp only [State.mbCode, h]

/-- A move of the controller keeps the progress of the operation in course. -/
theorem progress_move {s u : State} {i : Nat} (hph : s.PhaseOk) (hp : s.progress) (hm : MailboxMove i s u) :
    u.progress := by
  obtain ⟨mem, fl, ar, rb, hu⟩ := hm.only
  have e1 : u.maxMailbox = s.maxMailbox := by rw [hu]; rfl
  have e2 : u.work = s.work := by rw [hu]; rfl
  have e3 : u.seq = s.seq := by rw [hu]; rfl
  have e4 : u.lock = s.lock := by rw [hu]; rfl
  -- in freeze mode only a reception begun can end, in a mailbox with a busy code
  have hbusy : s.frzack = true → receptionCode (s.mbCode i) := by
    intro hf
    rcases hm.enabled with h | ⟨_, h⟩
    · have := mbLive_frzack h; rw [hf] at this; cases this
    · exact h
  have hcode : ∀ j, j ≠ i → u.mbCode j = s.mbCode j := fun j hj => by simp only [State.mbCode, hm.words j .cs hj]
  have eh : u.txHeader = s.txHeader := by simp only [State.txHeader, e2]
  simp only [State.progress, e3] at hp ⊢
  split <;> rename_i hq <;> simp only [hq] at hp
  case h_6 l j n =>
    have hphl := (hph.init l j n hq).2
    cases l <;> simp only [State.initMailboxes] at hp ⊢
    case f2 =>
      intro k h hk hin
      rw [e2] at hk
      obtain ⟨⟨w1, w2, w3, w4⟩, w5⟩ := hp k h hk hin
      have hki : k ≠ i := by
        rintro rfl
        refine hm.notInert ?_
        rw [codeOf_cs w1, codeOf_packCs (by rfl)]; exact hin
      exact ⟨⟨(hm.words k .cs hki).trans w1, (hm.words k .id hki).trans w2, (hm.words k .d0 hki).trans w3,
          (hm.words k .d1 hki).trans w4⟩, (hm.flags k hki).trans w5⟩
    all_goals first
      | trivial
      | (have hfz : s.frzack = true := hphl.2.1.2
         have hrc := hbusy hfz
         have hbel : ∀ k, s.configuredBelow k → u.configuredBelow k := by
           intro k hc k' hd hk' hhd
           rw [e2] at hhd
           obtain ⟨⟨w1, w2, w3, w4⟩, w5⟩ := hc k' hd hk' hhd
           have hki : k' ≠ i := by
             rintro rfl
             have hnb := (hph.init _ j n hq).1.1 (by simp) hd (List.mem_of_getElem? hhd)
             rw [codeOf_cs w1, codeOf_packCs (by rfl)] at hrc
             exact not_receptionCode hnb hrc
           exact ⟨⟨(hm.words k' .cs hki).trans w1, (hm.words k' .id hki).trans w2, (hm.words k' .d0 hki).trans w3,
               (hm.words k' .d1 hki).trans w4⟩, (hm.flags k' hki).trans w5⟩
         have hji : ∀ hd, s.mbCode j = inactiveBits hd → j.val ≠ i := by
           rintro hd hc rfl
           rw [hc] at hrc
           exact not_receptionCode_inactive hd hrc
         first
           | exact hbel _ hp
           | (rw [e2]; exact hbel _ hp)
           | (refine ⟨hbel _ hp.1, fun h hh => ?_⟩
              rw [e2] at hh
              have := hp.2 h hh
              have hne := hji h.code (by first | exact this | exact this.1)
              have hc' := hcode j hne
              have hw' := fun w => hm.words j w hne
              have hf' := hm.flags j hne
              simp only [hc', hw', hf']
              exact this))
  case h_7 l j n =>
    obtain ⟨hr, hp⟩ := hp
    refine ⟨by simpa only [State.reportUpTo, e1, e2] using hr, ?_⟩
    have hfree : s.targetFree j → j.val ≠ i := by
      rintro ⟨a, b⟩ rfl
      refine hm.notInert ?_
      rw [codeOf_cs b, a]; exact .inr rfl
    have tf : s.targetFree j → u.targetFree j := by
      intro h
      have hji := hfree h
      refine ⟨by rw [e2]; exact h.1, by rw [hm.words j .cs hji, e2]; exact h.2⟩
    have ww : ∀ w v, s.targetFree j → s.mbWord j w = v → u.mbWord j w = v := fun w v h h' => (hm.words j w (hfree h)).trans h'
    have wf : s.targetFree j → s.flag j = false → u.flag j = false := fun h h' => (hm.flags j (hfree h)).trans h'
    cases l <;> simp only [eh, e2] at hp ⊢
    case s2 => exact fun h => tf (hp h)
    case s3 => exact tf hp
    case s4 => exact ⟨tf hp.1, ww _ _ hp.1 hp.2⟩
    case s5 => exact ⟨tf hp.1, ww _ _ hp.1 hp.2.1, wf hp.1 hp.2.2⟩
    case s6 => exact ⟨tf hp.1, wf hp.1 hp.2.1, ww _ _ hp.1 hp.2.2⟩
    case s7 => exact ⟨tf hp.1, wf hp.1 hp.2.1, ww _ _ hp.1 hp.2.2.1, ww _ _ hp.1 hp.2.2.2⟩
    case s8 => exact ⟨tf hp.1, wf hp.1 hp.2.1, ww _ _ hp.1 hp.2.2.1, ww _ _ hp.1 hp.2.2.2.1, ww _ _ hp.1 hp.2.2.2.2⟩
  case h_8 l j n =>
    have hne : wholeFrameCode (codeOf s.work.c) → s.lock = some j → s.mbWord j .cs = s.work.c → j.val ≠ i := by
      rintro h1 h2 h3 rfl
      exact hm.unlocked (by rw [codeOf_cs h3]; exact h1) h2
    have ww : ∀ w v, j.val ≠ i → s.mbWord j w = v → u.mbWord j w = v := fun w v h h' => (hm.words j w h).trans h'
    cases l <;> simp only [State.receiveProgress, e2, e4] at hp ⊢
    case s3 =>
      refine ⟨hp.1, fun h => ?_⟩
      obtain ⟨a, b⟩ := hp.2 h
      exact ⟨a, ww _ _ (hne h a b) b⟩
    case s4 =>
      refine ⟨hp.1, fun h => ?_⟩
      obtain ⟨a, b, c⟩ := hp.2 h
      exact ⟨a, ww _ _ (hne h a b) b, ww _ _ (hne h a b) c⟩
    case s5 =>
      refine ⟨hp.1, fun h => ?_⟩
      obtain ⟨a, b, c, d⟩ := hp.2 h
      exact ⟨a, ww _ _ (hne h a b) b, ww _ _ (hne h a b) c, ww _ _ (hne h a b) d⟩
    case s6 =>
      refine ⟨hp.1, fun h => ?_⟩
      obtain ⟨a, b, c, d, e⟩ := hp.2 h
      exact ⟨a, ww _ _ (hne h a b) b, ww _ _ (hne h a b) c, ww _ _ (hne h a b) d, ww _ _ (hne h a b) e⟩
    case s7 =>
      refine ⟨hp.1, hp.2.1, fun h => ?_⟩
      obtain ⟨a, b, c, d, e⟩ := hp.2.2 h
      exact ⟨a, ww _ _ (hne h a b) b, ww _ _ (hne h a b) c, ww _ _ (hne h a b) d, ww _ _ (hne h a b) e⟩
    case s8 | s9 =>
      refine ⟨hp.1, hp.2.1, hp.2.2.1, fun h => ?_⟩
      obtain ⟨a, b, c, d, e⟩ := hp.2.2.2 h
      exact ⟨a, ww _ _ (hne h a b) b, ww _ _ (hne h a b) c, ww _ _ (hne h a b) d, ww _ _ (hne h a b) e⟩
  case h_9 l j n =>
    cases l <;> simp only [State.abortProgress, e2] at hp ⊢ <;> exact hp
  all_goals trivial

theorem progress_congr {s u : State} (hs : s.Structural) (e1 : u.maxMailbox = s.maxMailbox) (e2 : u.work = s.work)
    (e3 : u.seq = s.seq) (e4 : u.lock = s.lock)
    (hw : ∀ j w, u.mbWord j w = s.mbWord j w) (hf : ∀ j,
        j < s.params.numMb → u.flag j = s.flag j) (hp : s.progress) : u.progress := by
  have hcode : ∀ j, u.mbCode j = s.mbCode j := fun j => by simp only [State.mbCode, hw]
  have eh : u.txHeader = s.txHeader := by simp only [State.txHeader, e2]
  have hso := hs.seq
  simp only [State.progress, e3] at hp ⊢
  split <;> rename_i hq <;> simp only [hq] at hp
  case h_6 l j n =>
    simp only [State.seqOk, hq] at hso
    by_cases hl : l = .v0
    · subst hl; trivial
    have hso := hso.2.2 hl
    have hj : j.val < s.params.numMb := by omega
    have hcb : ∀ k, s.configuredBelow k → u.configuredBelow k := by
      intro k h j' hd hjk hh
      rw [e2] at hh
      have hj' : j' < s.params.numMb := by
        have := (List.getElem?_eq_some_iff.1 hh).1; omega
      have := h j' hd hjk hh
      simpa only [State.mbConfigured, State.mbHolds, hw, hf j' hj'] using this
    cases l <;> simp only [State.initMailboxes, hw, hcode, hf j hj, e2] at hp ⊢
    case f2 =>
      intro k h hk hin
      have hk' : k < s.params.numMb := by
        have := (List.getElem?_eq_some_iff.1 hk).1; omega
      simpa only [State.mbConfigured, State.mbHolds, hw, hf k hk'] using hp k h hk hin
    case e1 | e2 => exact hcb _ hp
    case f1r | f1w => exact hcb _ hp
    case e3 | w1 | w2 | w3 | w4 | w5 => exact ⟨hcb _ hp.1, hp.2⟩
  case h_7 l j n =>
    simp only [State.seqOk, hq] at hso
    by_cases hl : l = .s0
    · subst hl; exact ⟨fun h => absurd rfl h, trivial⟩
    have hj : j.val < s.params.numMb := by have := hs.maxMailbox; have := hso.2.2 hl; omega
    cases l <;> simp only [State.transmitProgress, State.reportUpTo, State.targetFree, e1, e2, eh, hw,
        hf j hj] at hp ⊢ <;> exact hp
  case h_8 l j n =>
    cases l <;> simp only [State.receiveProgress, e2, e4, hw] at hp ⊢ <;> exact hp
  case h_9 l j n =>
    cases l <;> simp only [State.abortProgress, e2] at hp ⊢ <;> exact hp
  all_goals trivial

theorem mbWord_of {s u : State} (h1 : u.mem = s.mem) (h2 : u.params = s.params) (j : Nat) (w : MbWord) :
    u.mbWord j w = s.mbWord j w := by
  simp only [State.mbWord, State.mbAddr, h1, h2]

theorem protocol_env {s u : State} (hs : s.Structural) (hp : s.ProtocolOk) (hm : u.mem = s.mem) (hpar : u.params = s.params)
    (e1 : u.maxMailbox = s.maxMailbox) (e2 : u.work = s.work) (e3 : u.seq = s.seq) (e4 : u.lock = s.lock)
   (e5 : u.mode = s.mode) (e6 : u.abortReq = s.abortReq) (e7 : u.rxBegun = s.rxBegun)
   (e8 : u.frzack = s.frzack) (e9 : u.maxmb = s.maxmb) (hf : ∀ j,
       j < s.params.numMb → u.flag j = s.flag j) : u.ProtocolOk := by
  have hw := mbWord_of hm hpar
  have hc : ∀ j, u.mbCode j = s.mbCode j := fun j => by simp only [State.mbCode, hw]
  exact ⟨hidden_congr e6 e7 hc e1 hpar e5 (fun h => e4.trans (hp.hidden.fresh (e5 ▸ h)).1) e8 (fun _ => e9) hp.hidden,
    progress_congr hs e1 e2 e3 e4 hw hf hp.progress⟩

theorem setFrzack_maxmb (b : Bool) (s : State) : (s.setFrzack b).maxmb = s.maxmb := by
  simp only [State.maxmb, State.setFrzack]
  exact get_set_disjoint _ _ (by decide)

theorem protocol_setFrzack {s : State} (hs : s.Structural) (hp : s.ProtocolOk) {b : Bool}
    (hb : b = true → s.rxBegun = []) : (s.setFrzack b).ProtocolOk := by
  refine ⟨⟨hp.hidden.abort, hp.hidden.begun, ?_, ?_, hp.hidden.fresh⟩,
    progress_congr hs rfl rfl rfl rfl (fun _ _ => rfl) (fun _ _ => rfl) hp.progress⟩
  · intro hf; rw [setFrzack_frzack] at hf; exact hb hf
  · intro i hi; rw [setFrzack_maxmb]; exact hp.hidden.inUse i hi

/-- Ending every reception keeps the protocol. -/
theorem protocol_finishReceptions {s : State} (hs : s.Structural) (hph : s.PhaseOk) (hp : s.ProtocolOk) :
    s.finishReceptions.ProtocolOk := by
  have h := finishReceptions_keeps (P := fun u => u.Structural ∧ u.PhaseOk ∧ u.ProtocolOk)
    (fun u h => ⟨h.1.mem, numMb_le h.1⟩)
    (fun u v i h hm => ⟨structural_mailboxMove h.1 hm, by
      obtain ⟨_, _, _, _, e⟩ := hm.only
      rw [e]; exact phase_congr (s := u) rfl rfl rfl rfl rfl rfl rfl h.2.1,
      hidden_move h.2.2.hidden hm, progress_move h.2.1 h.2.2.progress hm⟩) (s := s) ⟨hs, hph, hp⟩ s.rxBegun
  exact ⟨⟨h.2.2.hidden.abort, by simp [State.finishReceptions], by simp [State.finishReceptions],
    by simp [State.finishReceptions], h.2.2.hidden.fresh⟩,
    progress_congr h.1 rfl rfl rfl rfl (fun _ _ => rfl) (fun _ _ => rfl) h.2.2.progress⟩

/-- So does the freeze acknowledgment. -/
theorem protocol_freeze {s : State} (hs : s.Structural) (hph : s.PhaseOk) (hp : s.ProtocolOk) (d : Bool) :
    (s.ackFreeze d).ProtocolOk := by
  have hdraw : (s.drawFrzack d).ProtocolOk := by
    cases d
    · exact protocol_setFrzack hs hp (by simp)
    · exact protocol_setFrzack (structural_finishReceptions hs) (protocol_finishReceptions hs hph hp) (fun _ => rfl)
  simp only [State.ackFreeze]
  split
  · exact hdraw
  split
  · exact hdraw
  split
  · exact hp
  split
  · refine protocol_setFrzack hs hp (fun h => ?_)
    rcases Bool.or_eq_true _ _ ▸ h with h | h
    · exact hp.hidden.still h
    · exact List.isEmpty_iff.1 h
  · exact protocol_setFrzack hs hp (by simp)

/-- Every move that is not the engine’s keeps the protocol. -/
theorem protocol_env_moves {s u : State} (hs : s.Structural) (hph : s.PhaseOk) (hp : s.ProtocolOk) (h : Moves s u)
    (hne : s.turn ≠ .engine) : u.ProtocolOk := by
  cases h with
  | command w i u ht hc hd hx => exact absurd ht hne
  | illegal w e ht hc hd => exact absurd ht hne
  | quiet ht => exact absurd ht hne
  | mailbox i m u ht hi hx =>
    obtain ⟨u', hx', h⟩ := exec_mailbox_turn hs.mem (numMb_le hs) ht
    rw [hx] at hx'; cases hx'
    rcases h with rfl | h
    · exact hp
    · exact ⟨hidden_move hp.hidden h, progress_move hph hp.progress h⟩
  | noMailbox => exact hp
  | host w ops ht =>
    simp only [State.issue]
    split
    · exact protocol_env (s := s) hs hp rfl rfl rfl rfl rfl rfl rfl rfl rfl rfl rfl (fun _ _ => rfl)
    · exact protocol_env (s := s) hs hp rfl rfl rfl rfl rfl rfl rfl rfl rfl rfl rfl (fun _ _ => rfl)
    · exact hp
    · exact hp
  | lowPower ht =>
    exact protocol_env (s := s) hs hp rfl rfl rfl rfl rfl rfl rfl rfl rfl
      (by simp only [State.frzack, State.ackLowPower, bit_set]; rfl)
      (by simp only [State.maxmb, State.ackLowPower]; exact get_set_disjoint _ _ (by decide)) (fun _ _ => rfl)
  | freeze d ht =>
    exact protocol_freeze hs hph hp d
  | timer v ht => exact protocol_env (s := s) hs hp rfl rfl rfl rfl rfl rfl rfl rfl rfl rfl rfl (fun _ _ => rfl)
  | floating v ht =>
    refine protocol_env (s := s) hs hp rfl rfl rfl rfl rfl rfl rfl rfl rfl rfl rfl ?_
    intro j hj
    have h32 : j < 32 := by have := numMb_le hs; omega
    have hb : (flagBits s.params.numMb).getLsbD j = true := by
      rw [flagBits, BitVec.getLsbD_ofNat, Nat.testBit_two_pow_sub_one]; simp [h32, hj]
    simp only [State.flag, State.floatFlags, getLsbD_blend, BitVec.getLsbD_not, hb]
    simp
  | softReset g b r f tm ht =>
    simp only [State.softReset]
    split
    · rename_i hc
      simp only [Bool.and_eq_true, Bool.not_eq_true'] at hc
      set u : State := { s with
        gcr := Gcr.softrst.set (Gcr.mdis.set g s.mdis.toNat) 0
        btr := Btr.clksrc.set b (Btr.clksrc.bit s.btr).toNat
        rxmask := r, iflag := f, timer := tm, lock := none, abortReq := [], rxBegun := [] } with hu
      refine ⟨⟨by simp [hu], by simp [hu], by simp [hu], by simp [hu], by simp [hu]⟩, ?_⟩
      have hpr := hp.progress
      simp only [State.progress] at hpr ⊢
      have e3 : u.seq = s.seq := rfl
      rw [e3]
      split <;> rename_i hq
      case h_6 l i n =>
        have h2 := (hph.init l i n hq).2
        cases l <;> simp only [State.initPhase, State.frozen, State.halting, State.leaving, State.awake, hc.1, hc.2] at h2 <;> first | trivial | (exfalso; simp at h2; done)
      case h_7 l i n =>
        have hso := hs.seq
        simp only [State.seqOk, hq] at hso
        by_cases hl : l = .s0
        · subst hl; exact ⟨fun h => absurd rfl h, trivial⟩
        · have := (hph.running (hso.2.2 hl).1).1.1.2.1
          rw [hc.1] at this; cases this
      case h_8 l i n =>
        have hso := hs.seq
        simp only [State.seqOk, hq] at hso
        obtain ⟨m, -, -, h2⟩ := hso
        by_cases hl : l = .s0
        · subst hl; trivial
        · have := (hph.running (h2 hl).2.1).1.1.2.1
          rw [hc.1] at this; cases this
      case h_9 l i n =>
        have hso := hs.seq
        simp only [State.seqOk, hq] at hso
        obtain ⟨m, -, -, h2⟩ := hso
        by_cases hl : l = .s0
        · subst hl; trivial
        · have := (hph.running (h2 hl).2.1).1.1.2.1
          rw [hc.1] at this; cases this
      all_goals trivial
    · exact hp

theorem hidden_read {s : State} (r : Reg) (h : s.HiddenOk) : (s.afterRead r).HiddenOk := by
  refine hidden_congr (s := s) (by simp) (by simp) (by simp) (by simp) (by simp) (by simp) ?_ (by simp) (by simp) h
  intro hm
  have := (h.fresh (by simpa using hm)).1
  cases r <;> simp [State.afterRead, this]

theorem hidden_writeGlobal {s : State} (r : Reg) (hr : ∀ i w, r ≠ .mb i w) (v : Word) (h : s.HiddenOk) :
    (s.afterWrite r v).HiddenOk := by
  have hmax : s.frzack = false → (s.afterWrite r v).maxmb = s.maxmb := by
    intro hf
    cases r <;> simp [afterWrite_gcr_maxmb, hf]
  cases r with
  | mb i w => exact absurd rfl (hr i w)
  | _ =>
    refine hidden_congr (s := s) (by simp) (by simp) (by simp) (by simp) (by simp) (by simp) ?_ (by simp) hmax h
    intro hm; simpa using (h.fresh (by simpa using hm)).1

theorem hidden_writeMb {s : State} (hwf : Memory.wf s.mem = true) (i : Nat) {w : MbWord} (hw : w ≠ .cs) (v : Word)
    (h : s.HiddenOk) : (s.afterWrite (.mb i w) v).HiddenOk := by
  have hmem : (s.afterWrite (.mb i w) v).abortReq = s.abortReq ∧ (s.afterWrite (.mb i w) v).rxBegun = s.rxBegun := by
    simp only [State.afterWrite_abortReq, State.afterWrite_rxBegun, State.poke, State.pokeMb]
    split
    · exact ⟨rfl, rfl⟩
    · cases w <;> simp at hw ⊢
  refine hidden_congr (s := s) hmem.1 hmem.2 ?_ (by simp) (by simp) (by simp) ?_ (by simp) (by simp) h
  · intro j
    cases hl : s.lpmack with
    | true => simp [State.mbCode, State.mbWord, State.mbAddr, State.poke, State.pokeMb, hl]
    | false =>
      simp only [State.mbCode, mbWord_afterWrite_mb hwf hl]
      rw [if_neg (fun h => hw h.2.symm)]
  · intro hm; simpa using (h.fresh (by simpa using hm)).1

/-- A control-word write of the engine keeps the hidden state in agreement. -/
theorem hidden_writeCs {s : State} (hwf : Memory.wf s.mem = true) (i : Nat) (v : Word) (h : s.HiddenOk)
    (h1 : i ∈ s.abortReq → codeOf v = 0b1001#4) (h2 : codeOf v = 0b1001#4 → s.mbCode i = 0b1100#4 → i ≤ s.maxMailbox.toNat ∧ s.mode = .running) : (s.afterWrite (.mb i .cs) v).HiddenOk := by
  cases hl : s.lpmack with
  | true =>
    refine hidden_congr (s := s) ?_ ?_ ?_ (by simp) (by simp) (by simp) ?_ (by simp) (by simp) h
    · simp [State.poke, State.pokeMb, hl]
    · simp [State.poke, State.pokeMb, hl]
    · intro j; simp [State.mbCode, State.mbWord, State.mbAddr, State.poke, State.pokeMb, hl]
    · intro hm; simpa using (h.fresh (by simpa using hm)).1
  | false =>
    have hab : ∀ j, j ∈ (s.afterWrite (.mb i .cs) v).abortReq → j ∈ s.abortReq ∨ (j = i ∧ codeOf v = 0b1001#4 ∧ s.mbCode i = 0b1100#4) := by
      intro j hj
      simp only [State.afterWrite_abortReq, State.poke, State.pokeMb, hl, State.setMbWord_abortReq, State.noteCsWrite,
          Bool.false_eq_true, if_false] at hj
      split at hj
      · rename_i hc
        rw [codeValue_eq_some, codeValue_eq_some] at hc
        rcases (mem_insertIndex _ _ _).1 hj with rfl | hj
        · exact .inr ⟨rfl, hc.1, hc.2⟩
        · exact .inl hj
      · exact .inl hj
    have hrb : (s.afterWrite (.mb i .cs) v).rxBegun = removeIndex i s.rxBegun := by
      simp [State.poke, State.pokeMb, hl, State.noteCsWrite]
    have hcode : ∀ j, (s.afterWrite (.mb i .cs) v).mbCode j = if j = i then codeOf v else s.mbCode j := by
      intro j
      simp only [State.mbCode, mbWord_afterWrite_mb hwf hl]
      by_cases hj : j = i <;> simp [hj]
    refine ⟨?_, ?_, ?_, ?_, ?_⟩
    · intro j hj
      rw [hcode]
      simp only [State.afterWrite_maxMailbox]
      rcases hab j hj with hj' | ⟨rfl, a, b⟩
      · obtain ⟨c, d⟩ := h.abort j hj'
        refine ⟨c, ?_⟩
        split
        · rename_i e; exact h1 (e ▸ hj')
        · exact d
      · exact ⟨(h2 a b).1, by simp [a]⟩
    · intro j hj
      rw [hrb, mem_removeIndex] at hj
      rw [hcode, if_neg hj.2]
      simpa using h.begun j hj.1
    · intro hf
      rw [hrb, h.still (by simpa using hf)]; rfl
    · intro j hj
      rw [hrb, mem_removeIndex] at hj
      simpa using h.inUse j hj.1
    · intro hm
      simp only [State.afterWrite_mode] at hm
      refine ⟨by simpa using (h.fresh hm).1, ?_⟩
      rw [List.eq_nil_iff_forall_not_mem]
      intro j hj
      rcases hab j hj with hj | ⟨rfl, a, b⟩
      · rw [(h.fresh hm).2] at hj; simp at hj
      · exact hm (h2 a b).2

theorem hidden_same {s u : State} (h1 : u.abortReq = s.abortReq) (h2 : u.rxBegun = s.rxBegun) (h3 : u.mem = s.mem)
    (h4 : u.maxMailbox = s.maxMailbox) (h5 : u.params = s.params) (h7 : u.mode = s.mode) (h8 : u.lock = s.lock) (h9 : u.gcr = s.gcr) (h : s.HiddenOk) : u.HiddenOk := by
  refine hidden_congr h1 h2 (fun i => by simp only [State.mbCode, mbWord_of h3 h5]) h4 h5 h7 ?_ (by simp only [State.frzack,
      h9])
    (fun _ => by simp only [State.maxmb, h9]) h
  intro hm; rw [h8]; exact (h.fresh (h7 ▸ hm)).1

theorem protocol_ended {t : State} (h : t.HiddenOk) (hq : t.seq = .idle ∨ t.seq = .faulted) : t.ProtocolOk :=
  ⟨h, by simp only [State.progress]; rcases hq with h | h <;> rw [h] <;> trivial⟩

theorem hidden_close {s : State} (r q) (h : s.HiddenOk) :
    (s.close r q).HiddenOk := hidden_same (s := s) rfl rfl rfl rfl rfl rfl rfl rfl h

theorem hidden_goto {s : State} (p i) (h : s.HiddenOk) :
    (s.goto p i).HiddenOk := hidden_same (s := s) rfl rfl rfl rfl rfl rfl rfl rfl h

theorem hidden_keep {s : State} (w) (h : s.HiddenOk) :
    (s.keep w).HiddenOk := hidden_same (s := s) rfl rfl rfl rfl rfl rfl rfl rfl h

theorem hidden_stay {s : State} (p i n) (h : s.HiddenOk) :
    (s.stay p i n).HiddenOk := hidden_same (s := s) rfl rfl rfl rfl rfl rfl rfl rfl h

theorem hidden_refuse {s : State} (r) (h : s.HiddenOk) :
    (s.refuse r).HiddenOk := hidden_same (s := s) rfl rfl rfl rfl rfl rfl rfl rfl h

theorem awake_of_phase {s : State} (hp : s.PhaseOk) (hm : s.mode = .running) : s.lpmack = false := (hp.running hm).1.1.2.2

theorem reportUpTo_next {s : State} {i : Nat} (hl : s.work.report.length = s.maxMailbox.toNat + 1) (h : s.reportUpTo i)
    (hi : i ≤ s.maxMailbox.toNat) {e : ReportEntry}
    (he : e = .mailboxBusy ∨ e = .mailboxConfigurationError) : (s.noteSkipped i e).reportUpTo (i + 1) := by
  intro k hk
  simp only [State.noteSkipped, State.keep_maxMailbox] at hk
  obtain ⟨a, b⟩ := h k hk
  simp only [State.noteSkipped, State.keep_work, List.getElem?_set]
  by_cases hik : i = k
  · subst hik
    have : i < s.work.report.length := by omega
    simp only [if_true, this]
    refine ⟨fun _ => ?_, fun h => by omega⟩
    rcases he with rfl | rfl <;> simp
  · rw [if_neg hik]
    exact ⟨fun h => a (by omega), fun h => b (by omega)⟩

theorem reportUpTo_zero (s : State) (w : Work) (hw : w.report = List.replicate (s.maxMailbox.toNat + 1) .none) :
    (s.keep w).reportUpTo 0 := by
  intro k hk
  simp only [State.keep_maxMailbox] at hk
  refine ⟨fun h => by omega, fun _ => ?_⟩
  simp only [State.keep_work, hw, List.getElem?_replicate]
  rw [if_pos (by omega)]

/-- A step of `TRANSMIT` keeps the protocol. -/
theorem protocol_transmit {s : State} (hs : s.Structural) (hph : s.PhaseOk)
    (hp : s.ProtocolOk) {l : TransmitStep} {i : Fin 32} {n : Nat} (hq : s.seq = .run (.transmit l) i n)
   {t : State} (h : transmitStep l i s = .next t) : t.ProtocolOk := by
  by_cases hl : l = .s0
  · subst hl
    simp only [transmitStep, startTransmit, refuse] at h
    split at h
    · cases h; exact protocol_ended (hidden_refuse _ hp.hidden) (by simp [hq])
    · split at h
      · cases h; exact protocol_ended (hidden_refuse _ hp.hidden) (by simp [hq])
      · cases h
        exact ⟨hidden_goto _ _ (hidden_keep _ hp.hidden), fun _ => reportUpTo_zero s _ rfl, trivial⟩
  have hso := hs.seq
  simp only [State.seqOk, hq] at hso
  obtain ⟨hm, hi, hwf, hlen⟩ := hso.2.2 hl
  have hi32 : i.val < 32 := i.isLt
  have hpr := hp.progress
  simp only [State.progress, hq] at hpr
  obtain ⟨hr, hpr⟩ := hpr
  replace hr := hr hl
  have hlp := awake_of_phase hph hm
  have hh := hp.hidden
  have hgo : ∀ (l' : TransmitStep) (j : Fin 32) (u : State), u.HiddenOk → u.transmitProgress l' j → (u.goto (.transmit l') j).ProtocolOk := by
    intro l' j u h1 h2
    refine ⟨hidden_goto _ _ h1, ?_⟩
    simp only [State.progress, State.goto_seq]
    have : (u.goto (.transmit l') j).transmitProgress l' j ↔ u.transmitProgress l' j := by
      cases l' <;> simp [State.transmitProgress, State.reportUpTo, State.targetFree, State.txHeader]
    exact this.2 h2
  have key := fun w v => mbWord_afterWrite_mb hs.mem hlp i w v
  cases l <;> simp only [transmitStep, mbWriteFlag, flagClear, mbWriteId, mbWriteD0, mbWriteD1, mbWriteCs, finish] at h
  case s0 => exact absurd rfl hl
  case s1 =>
    replace h := (readReg_next h).2
    simp only [engineOnCode, State.keep_seq, State.afterRead_seq, hq] at h
    rcases decodedAt_next h with ⟨c, _, h⟩ | ⟨_, h⟩
    · cases h
      refine hgo _ _ _ (hidden_keep _ (hidden_read _ hh)) ⟨fun _ => by simpa [State.reportUpTo] using hr, fun h => ⟨h, by simp⟩⟩
    · cases h; exact protocol_ended (hidden_close _ _ (hidden_keep _ (hidden_read _ hh))) (by simp)
  case s2 =>
    simp only [engineOnCode, hq] at h
    rcases decodedAt_next h with ⟨c, hc, h⟩ | ⟨_, h⟩
    · simp only [scanOn] at h
      split at h
      · rename_i hv
        cases h
        have : c = .transmit .inactive := by
          revert hv; rcases c with ⟨st, b⟩ | st <;> cases st <;> try cases b
          all_goals simp [mbVerdict]
        subst this
        exact hgo _ _ _ hh ⟨fun _ => hr, hpr ((codeValue_eq_some _ _).1 hc)⟩
      · rcases scanNext_next h with ⟨h1, h⟩ | ⟨h1, h⟩ <;> cases h
        · refine hgo _ _ _ (hidden_keep _ hh) ⟨fun _ => ?_, trivial⟩
          rw [succ_val_of_lt h1]; exact reportUpTo_next hlen hr hi (by simp)
        · exact protocol_ended (hidden_close _ _ (hidden_keep _ hh)) (by simp)
      · rcases scanNext_next h with ⟨h1, h⟩ | ⟨h1, h⟩ <;> cases h
        · refine hgo _ _ _ (hidden_keep _ hh) ⟨fun _ => ?_, trivial⟩
          rw [succ_val_of_lt h1]; exact reportUpTo_next hlen hr hi (by simp)
        · exact protocol_ended (hidden_close _ _ (hidden_keep _ hh)) (by simp)
    · cases h; exact protocol_ended (hidden_close _ _ hh) (by simp)
  case s3 =>
    replace h := (readReg_next h).2; cases h
    exact hgo _ _ _ (hidden_keep _ (hidden_read _ hh)) ⟨fun _ => by simpa [State.reportUpTo] using hr, ⟨by simpa [State.targetFree] using hpr, by simp⟩⟩
  case s4 =>
    replace h := (writeReg_next h).2; cases h
    refine hgo _ _ _ (hidden_writeGlobal _ (by simp) _ hh) ⟨fun _ => by simpa [State.reportUpTo] using hr, by simpa [State.targetFree] using hpr.1, by simpa using hpr.2, ?_⟩
    rw [flag_clear hi32]; simp
  case s5 =>
    replace h := (writeReg_next h).2; cases h
    refine hgo _ _ _ (hidden_writeMb hs.mem _ (by simp) _ hh) ⟨fun _ => by simpa [State.reportUpTo] using hr, ?_, by simpa using hpr.2.2, ?_⟩
    · refine ⟨by simpa using hpr.1.1, ?_⟩
      rw [key]; simpa using hpr.1.2
    · rw [key]; simp [State.txHeader]
  case s6 =>
    replace h := (writeReg_next h).2; cases h
    refine hgo _ _ _ (hidden_writeMb hs.mem _ (by simp) _ hh) ⟨fun _ => by simpa [State.reportUpTo] using hr, ?_, by simpa using hpr.2.1, ?_, ?_⟩
    · refine ⟨by simpa using hpr.1.1, ?_⟩
      rw [key]; simpa using hpr.1.2
    · rw [key]; simpa [State.txHeader] using hpr.2.2
    · rw [key]; simp
  case s7 =>
    replace h := (writeReg_next h).2; cases h
    refine hgo _ _ _ (hidden_writeMb hs.mem _ (by simp) _ hh) ⟨fun _ => by simpa [State.reportUpTo] using hr, ?_, by simpa using hpr.2.1, ?_, ?_, ?_⟩
    · refine ⟨by simpa using hpr.1.1, ?_⟩
      rw [key]; simpa using hpr.1.2
    · rw [key]; simpa [State.txHeader] using hpr.2.2.1
    · rw [key]; simpa using hpr.2.2.2
    · rw [key]; simp
  case s8 =>
    replace h := (writeReg_next h).2; cases h
    refine protocol_ended (hidden_close _ _ (hidden_writeCs hs.mem i _ hh ?_ ?_)) (by simp)
    · intro hab
      have := (hh.abort i hab).2
      rw [codeOf_cs hpr.1.2, hpr.1.1] at this; cases this
    · intro _ _; exact ⟨hi, hm⟩

/-- A step of `RECEIVE` keeps the protocol. -/
theorem protocol_receive {s : State} (hs : s.Structural)
    (hp : s.ProtocolOk) {m : Nat} {l : ReceiveStep} {i : Fin 32} {n : Nat} (hq : s.seq = .run (.receive l) i n)
   {t : State} (h : receiveStep m l i s = .next t) : t.ProtocolOk := by
  by_cases hl : l = .s0
  · subst hl
    simp only [receiveStep, startReceive, refuse] at h
    repeat' split at h
    all_goals cases h
    · exact protocol_ended (hidden_refuse _ hp.hidden) (by simp [hq])
    · exact protocol_ended (hidden_refuse _ hp.hidden) (by simp [hq])
    · exact ⟨hidden_goto _ _ (hidden_keep _ hp.hidden), trivial⟩
  have hso := hs.seq
  simp only [State.seqOk, hq] at hso
  obtain ⟨m', -, -, h2⟩ := hso
  obtain ⟨-, hm, hi⟩ := h2 hl
  have hpr := hp.progress
  simp only [State.progress, hq] at hpr
  have hh := hp.hidden
  have hgo : ∀ (l' : ReceiveStep) (j : Fin 32) (u : State), u.HiddenOk → u.receiveProgress l' j → (u.goto (.receive l') j).ProtocolOk := by
    intro l' j u h1 h2
    refine ⟨hidden_goto _ _ h1, ?_⟩
    simp only [State.progress, State.goto_seq]
    have : (u.goto (.receive l') j).receiveProgress l' j ↔ u.receiveProgress l' j := by
      cases l' <;> simp [State.receiveProgress]
    exact this.2 h2
  have hlk : ∀ w, w ≠ .timer → (s.afterRead w).lock = s.lock := by
    intro w hw; cases w <;> first | rfl | exact absurd rfl hw
  cases l <;> simp only [receiveStep, flagClear, finish, raiseFatal] at h
  case s0 => exact absurd rfl hl
  case s1 =>
    replace h := (readReg_next h).2
    split at h <;> cases h
    · exact hgo _ _ _ (hidden_read _ hh) trivial
    · exact protocol_ended (hidden_close _ _ (hidden_read _ hh)) (by simp)
  case s2 =>
    replace h := (readReg_next h).2
    have hlock : ∀ v, ((State.keep { (s.afterRead (.mb i .cs)).work with c := v } (s.afterRead (.mb i .cs))).engageLock i v).HiddenOk := by
      intro v
      refine hidden_congr (s := s) (by simp) (by simp) (by simp) (by simp) (by simp) (by simp) ?_ (by simp) (by simp) hh
      intro h; exact absurd hm (by simpa using h)
    simp only [engineOnCode, State.engageLock_seq, State.keep_seq, State.afterRead_seq, hq] at h
    rcases decodedAt_next h with ⟨c, hc, h⟩ | ⟨_, h⟩
    · simp only [busyTestOn] at h
      split at h
      · rcases waitAgain_next h with ⟨_, h⟩ | ⟨_, h⟩ <;> cases h
        · exact ⟨hidden_stay _ _ _ (hlock _), by simp [State.progress, State.receiveProgress]⟩
        · exact protocol_ended (hidden_close _ _ (hlock _)) (by simp)
      · rename_i hb
        cases h
        refine hgo _ _ _ (hlock _) ⟨⟨c, by simpa using hc, by simpa using hb⟩, fun hw => ⟨?_, by simp⟩⟩
        simp only [State.engageLock_work, State.keep_work] at hw
        simp only [State.engageLock]
        rcases hw with hw | hw <;> rw [hw] <;> rfl
    · cases h; exact protocol_ended (hidden_close _ _ (hlock _)) (by simp)
  case s3 =>
    replace h := (readReg_next h).2; cases h
    refine hgo _ _ _ (hidden_keep _ (hidden_read _ hh)) ?_
    simpa [State.receiveProgress, hlk] using hpr
  case s4 =>
    replace h := (readReg_next h).2; cases h
    refine hgo _ _ _ (hidden_keep _ (hidden_read _ hh)) ?_
    simpa [State.receiveProgress, hlk] using hpr
  case s5 =>
    replace h := (readReg_next h).2; cases h
    refine hgo _ _ _ (hidden_keep _ (hidden_read _ hh)) ?_
    simpa [State.receiveProgress, hlk] using hpr
  case s6 =>
    split at h
    · rename_i f hf
      cases h
      refine hgo _ _ _ (hidden_keep _ hh) ?_
      simp only [State.receiveProgress] at hpr
      exact ⟨by simpa using hpr.1, by simpa using hf, by simpa using hpr.2⟩
    · cases h; exact protocol_ended (hidden_close _ _ hh) (by simp)
  case s7 =>
    rcases decodedAt_next h with ⟨c, hc, h⟩ | ⟨_, h⟩ <;> cases h
    · refine hgo _ _ _ (hidden_keep _ hh) ?_
      simp only [State.receiveProgress] at hpr
      exact ⟨by simpa using hpr.1, by simpa using hpr.2.1, ⟨c, by simpa using hc, by simp⟩, by simpa using hpr.2.2⟩
    · exact protocol_ended (hidden_close _ _ hh) (by simp)
  case s8 =>
    replace h := (writeReg_next h).2; cases h
    refine hgo _ _ _ (hidden_writeGlobal _ (by simp) _ hh) ?_
    simpa [State.receiveProgress] using hpr
  case s9 =>
    replace h := (readReg_next h).2; cases h
    exact protocol_ended (hidden_close _ _ (hidden_read _ hh)) (by simp)

/-- A step of `ABORT` keeps the protocol. -/
theorem protocol_abort {s : State} (hs : s.Structural) (hp : s.ProtocolOk) {m : Nat} {l : AbortStep} {i : Fin 32} {n : Nat}
    (hq : s.seq = .run (.abort l) i n)
   {t : State} (h : abortStep m l i n s = .next t) : t.ProtocolOk := by
  by_cases hl : l = .s0
  · subst hl
    simp only [abortStep, startAbort, refuse] at h
    repeat' split at h
    all_goals cases h
    · exact protocol_ended (hidden_refuse _ hp.hidden) (by simp [hq])
    · exact protocol_ended (hidden_refuse _ hp.hidden) (by simp [hq])
    · exact ⟨hidden_goto _ _ (hidden_keep _ hp.hidden), trivial⟩
  have hso := hs.seq
  simp only [State.seqOk, hq] at hso
  obtain ⟨m', -, -, h2⟩ := hso
  obtain ⟨-, hm, hi⟩ := h2 hl
  have hpr := hp.progress
  simp only [State.progress, hq] at hpr
  have hh := hp.hidden
  have hgo : ∀ (l' : AbortStep) (j : Fin 32) (u : State), u.HiddenOk → u.abortProgress l' → (u.goto (.abort l') j).ProtocolOk := by
    intro l' j u h1 h2
    refine ⟨hidden_goto _ _ h1, ?_⟩
    simp only [State.progress, State.goto_seq]
    have : (u.goto (.abort l') j).abortProgress l' ↔ u.abortProgress l' := by
      cases l' <;> simp [State.abortProgress]
    exact this.2 h2
  cases l <;> simp only [abortStep, flagClear] at h
  case s0 => exact absurd rfl hl
  case s1 =>
    replace h := (readReg_next h).2
    simp only [engineOnCode, State.keep_seq, State.afterRead_seq, hq] at h
    rcases decodedAt_next h with ⟨c, hc, h⟩ | ⟨_, h⟩
    · simp only [abortTestOn, finish] at h
      split at h
      · rename_i he; subst he; cases h
        exact hgo _ _ _ (hidden_keep _ (hidden_read _ hh)) (by simpa [State.abortProgress, codeBits] using (codeValue_eq_some _ _).1 hc)
      · cases h; exact protocol_ended (hidden_close _ _ (hidden_keep _ (hidden_read _ hh))) (by simp)
    · cases h; exact protocol_ended (hidden_close _ _ (hidden_keep _ (hidden_read _ hh))) (by simp)
  case s2 =>
    replace h := (writeReg_next h).2; cases h
    exact hgo _ _ _ (hidden_writeGlobal _ (by simp) _ hh) (by simpa [State.abortProgress] using hpr)
  case s3 =>
    replace h := (writeReg_next h).2; cases h
    refine hgo _ _ _ (hidden_writeCs hs.mem _ _ hh (fun _ => by simp [codeBits]) (fun _ _ => ⟨hi, hm⟩)) (by simpa [State.abortProgress] using hpr)
  case s4 =>
    rcases wait_cases h with ⟨hb, h⟩ | h | ⟨f, h⟩
    · simp only [finish] at h; cases h
      exact protocol_ended (hidden_close _ _ (hidden_read _ hh)) (by simp)
    · cases h
      exact ⟨hidden_stay _ _ _ (hidden_read _ hh), by simpa [State.progress, State.abortProgress] using hpr⟩
    · cases h; exact protocol_ended (hidden_close _ _ (hidden_read _ hh)) (by simp)

theorem hidden_setMode {s : State} (m : Mode) (hm : s.mode ≠ .running) (h : s.HiddenOk) : (s.setMode m).HiddenOk := by
  refine ⟨?_, ?_, ?_, ?_, ?_⟩
  · simpa using h.abort
  · simpa using h.begun
  · exact h.still
  · exact h.inUse
  · intro _; exact h.fresh hm

theorem hidden_latch {s : State} (hm : s.mode ≠ .running) (h : s.HiddenOk) : s.latchMaxMailbox.HiddenOk := by
  refine ⟨?_, ?_, ?_, ?_, ?_⟩
  · intro i hi
    simp only [State.latchMaxMailbox_abortReq, (h.fresh hm).2] at hi; simp at hi
  · simpa using h.begun
  · exact h.still
  · exact h.inUse
  · intro _; exact h.fresh hm

theorem inactive_ne (c : MessageBufferCode) : inactiveBits c ≠ 0b1001#4 ∧ inactiveBits c ≠ 0b1100#4 ∧
    inertCode (inactiveBits c) := by
  simp only [inactiveBits]; split <;> simp [inertCode]

/-- A step of `INIT` keeps the protocol. -/
theorem protocol_init {s : State} (hs : s.Structural) (hph : s.PhaseOk)
    (hp : s.ProtocolOk) {l : InitStep} {i : Fin 32} {n : Nat} (hq : s.seq = .run (.init l) i n)
   {t : State} (h : initStep l i n s = .next t) : t.ProtocolOk := by
  have hso := hs.seq
  simp only [State.seqOk, hq] at hso
  by_cases hv : l ∈ [InitStep.v0, .v1, .v2, .v3]
  · simp only [List.mem_cons, List.not_mem_nil, or_false] at hv
    rcases hv with rfl | rfl | rfl | rfl <;>
      simp only [initStep, validateAdmission, validateDma, validateTiming, validateFifo, refuse, finish, raiseFatal] at h
    all_goals
      repeat' split at h
      all_goals cases h
      all_goals first
        | exact protocol_ended (hidden_refuse _ hp.hidden) (by simp [hq])
        | exact protocol_ended (hidden_close _ _ hp.hidden) (by simp)
        | exact ⟨hidden_goto _ _ (hidden_keep _ hp.hidden), trivial⟩
        | exact ⟨hidden_goto _ _ hp.hidden, trivial⟩
  obtain ⟨hm, hi, hlen⟩ := hso.2.2 (by rintro rfl; simp at hv)
  have h0 : 0 < s.work.headers.length := by omega
  have hi32 : i.val < 32 := i.isLt
  have hpr := hp.progress
  simp only [State.progress, hq] at hpr
  obtain ⟨ho, hphl⟩ := hph.init l i n hq
  have hh := hp.hidden
  -- a state that only moved on: same words, flags, work.headers, and c kept unless said
  have hgo : ∀ (l' : InitStep) (j : Fin 32) (u : State), u.HiddenOk → u.initMailboxes l' j → (u.goto (.init l') j).ProtocolOk := by
    intro l' j u h1 h2
    refine ⟨hidden_goto _ _ h1, ?_⟩
    simp only [State.progress, State.goto_seq]
    have : (u.goto (.init l') j).initMailboxes l' j ↔ u.initMailboxes l' j := by
      cases l' <;> simp [State.initMailboxes, State.configuredBelow, State.mbConfigured, State.mbHolds]
    exact this.2 h2
  have hst : ∀ (u : State) (n' : Nat), u.HiddenOk → u.initMailboxes l i → (u.stay (.init l) i n').ProtocolOk := by
    intro u n' h1 h2
    refine ⟨hidden_stay _ _ _ h1, ?_⟩
    simp only [State.progress, State.stay_seq]
    have : (u.stay (.init l) i n').initMailboxes l i ↔ u.initMailboxes l i := by
      cases l <;> simp [State.initMailboxes, State.configuredBelow, State.mbConfigured, State.mbHolds]
    exact this.2 h2
  have hrd : ∀ r, (s.afterRead r).initMailboxes l i := by
    intro r
    have : (s.afterRead r).initMailboxes l i ↔ s.initMailboxes l i := by
      cases l <;> simp [State.initMailboxes, State.configuredBelow, State.mbConfigured, State.mbHolds]
    exact this.2 hpr
  have hend : ∀ (u : State) r q, u.HiddenOk → q = .idle ∨ q = .faulted → (u.close r q).ProtocolOk :=
    fun u r q h1 h2 => protocol_ended (hidden_close _ _ h1) (by simpa using h2)
  have hwait : ∀ {r b val done} {t : State}, waitUntil r b val (.init l) i n done s = .next t → (∀ u,
      u = s.afterRead r → done u = .next t → t.ProtocolOk) → t.ProtocolOk := by
    intro r b val done t h hd
    rcases wait_cases h with ⟨hb, h⟩ | h | ⟨f, h⟩
    · exact hd _ rfl h
    · cases h; exact hst _ _ (hidden_read _ hh) (hrd _)
    · cases h; exact hend _ _ _ (hidden_read _ hh) (.inr rfl)
  cases l <;> simp only [initStep, rmwRead, rmwWrite, mbWriteFlag, flagClear, mbWriteId, mbWriteD0, mbWriteD1, mbWriteCs,
      enterMode, finish] at h
  case v0 | v1 | v2 | v3 => simp at hv
  case a2 | a5 | a7 =>
    refine hwait h fun u hu hd => ?_
    cases hd; subst hu; exact hgo _ _ _ (hidden_read _ hh) trivial
  case a9 | b2 | c2 =>
    refine hwait h fun u hu hd => ?_
    cases hd; subst hu
    exact hgo _ _ _ (hidden_setMode _ (by simpa using hm) (hidden_read _ hh)) trivial
  case f2 =>
    refine hwait h fun u hu hd => ?_
    cases hd; subst hu
    exact hend _ _ _ (hidden_setMode _ (by simpa using hm) (hidden_read _ hh)) (.inl rfl)
  case d1w =>
    replace h := (writeReg_next h).2; cases h
    exact hgo _ _ _ (hidden_writeGlobal _ (by simp) _ (hidden_latch hm hh)) trivial
  case d3 =>
    replace h := (writeReg_next h).2; cases h
    refine hgo _ _ _ (hidden_writeGlobal _ (by simp) _ hh) ?_
    intro j h hj; simp at hj
  case f1r =>
    replace h := (readReg_next h).2; cases h
    refine hgo _ _ _ (hidden_keep _ (hidden_read _ hh)) ?_
    simpa [State.initMailboxes, State.configuredBelow, State.mbConfigured, State.mbHolds] using hpr
  case f1w =>
    replace h := (writeReg_next h).2; cases h
    refine hgo _ _ _ (hidden_writeGlobal _ (by simp) _ hh) ?_
    intro k hd hk hin
    have hk' : s.work.headers[k]? = some hd := by simpa using hk
    have hlt := (List.getElem?_eq_some_iff.1 hk').1
    have := hpr k hd hlt hk'
    simpa [State.mbConfigured, State.mbHolds] using this
  case a1r | a1w | a3r | a3w | a4r | a4w | a6r | a6w | a8r | a8w | b1r | b1w | c1r | c1w | d1r | d2r | d2w =>
    first
    | (replace h := (readReg_next h).2; cases h; exact hgo _ _ _ (hidden_keep _ (hidden_read _ hh)) trivial)
    | (replace h := (writeReg_next h).2; cases h; exact hgo _ _ _ (hidden_writeGlobal _ (by simp) _ hh) trivial)
  -- the loop
  all_goals
    have hlp : s.lpmack = false := hphl.2.1.1.1.2.2
    have key := fun w v => mbWord_afterWrite_mb hs.mem hlp i w v
    obtain ⟨hd, hhd⟩ : ∃ hd, s.work.headers[i.val]? = some hd := ⟨_, List.getElem?_eq_getElem hi⟩
    simp only [withHeader, hhd] at h
    -- what is below i is not touched by writes at i
    have hbelow : ∀ w v, s.configuredBelow i → (s.afterWrite (.mb i w) v).configuredBelow i := by
      intro w v hc j h' hj hjh
      have hne : j ≠ i.val := by omega
      have := hc j h' hj (by simpa using hjh)
      simp only [State.mbConfigured, State.mbHolds, key, hne, false_and, if_false, State.afterWrite_mb_flag]
      exact this
  case e1 =>
    replace h := (readReg_next h).2; cases h
    refine hgo _ _ _ (hidden_keep _ (hidden_read _ hh)) ?_
    simpa [State.initMailboxes, State.configuredBelow, State.mbConfigured, State.mbHolds] using hpr
  case e2 =>
    replace h := (writeReg_next h).2; cases h
    refine hgo _ _ _ (hidden_writeCs hs.mem _ _ hh ?_ ?_) ⟨hbelow _ _ hpr, ?_⟩
    · intro hab; rw [(hh.fresh hm).2] at hab; simp at hab
    · intro hc; rw [codeOf_withCode] at hc; exact absurd hc (inactive_ne _).1
    · intro h' hh'
      simp only [State.afterWrite_work, hhd, Option.some.injEq] at hh'; subst hh'
      simp only [State.mbCode, key]; simp
  case e3 =>
    replace h := (readReg_next h).2
    simp only [engineOnCode, State.afterRead_seq, hq] at h
    rcases decodedAt_next h with ⟨c, _, h⟩ | ⟨_, h⟩
    · simp only [writeCheckOn, finish] at h
      split at h
      · cases h
        exact hgo _ _ _ (hidden_read _ hh) (hrd _)
      · cases h; exact hend _ _ _ (hidden_read _ hh) (.inl rfl)
      · cases h; exact hend _ _ _ (hidden_read _ hh) (.inl rfl)
    · cases h; exact hend _ _ _ (hidden_read _ hh) (.inr rfl)
  case w1 =>
    replace h := (writeReg_next h).2; cases h
    refine hgo _ _ _ (hidden_writeGlobal _ (by simp) _ hh) ⟨?_, ?_⟩
    · intro j h' hj hjh
      obtain ⟨a, b⟩ := hpr.1 j h' hj (by simpa using hjh)
      refine ⟨by simpa [State.mbHolds] using a, ?_⟩
      rw [flag_clear hi32]; simp [b]
    · intro h' hh'
      refine ⟨by simpa using hpr.2 h' (by simpa using hh'), ?_⟩
      rw [flag_clear hi32]; simp
  case w2 =>
    replace h := (writeReg_next h).2; cases h
    refine hgo _ _ _ (hidden_writeMb hs.mem _ (by simp) _ hh) ⟨hbelow _ _ hpr.1, ?_⟩
    intro h' hh'
    have hh'' : s.work.headers[i.val]? = some h' := by simpa using hh'
    obtain ⟨a, b⟩ := hpr.2 h' hh''
    have e : hd = h' := by rw [hhd] at hh''; exact Option.some.inj hh''
    subst e
    refine ⟨?_, by simpa using b, ?_⟩
    · simp only [State.mbCode, key] at a ⊢; simpa using a
    · rw [key]; simp
  case w3 =>
    replace h := (writeReg_next h).2; cases h
    refine hgo _ _ _ (hidden_writeMb hs.mem _ (by simp) _ hh) ⟨hbelow _ _ hpr.1, ?_⟩
    intro h' hh'
    have hh'' : s.work.headers[i.val]? = some h' := by simpa using hh'
    obtain ⟨a, b, c⟩ := hpr.2 h' hh''
    refine ⟨?_, by simpa using b, ?_, ?_⟩
    · simp only [State.mbCode, key] at a ⊢; simpa using a
    · rw [key]; simpa using c
    · rw [key]; simp
  case w4 =>
    replace h := (writeReg_next h).2; cases h
    refine hgo _ _ _ (hidden_writeMb hs.mem _ (by simp) _ hh) ⟨hbelow _ _ hpr.1, ?_⟩
    intro h' hh'
    have hh'' : s.work.headers[i.val]? = some h' := by simpa using hh'
    obtain ⟨a, b, c, d⟩ := hpr.2 h' hh''
    refine ⟨?_, by simpa using b, ?_, ?_, ?_⟩
    · simp only [State.mbCode, key] at a ⊢; simpa using a
    · rw [key]; simpa using c
    · rw [key]; simpa using d
    · rw [key]; simp
  case w5 =>
    replace h := (writeReg_next h).2
    obtain ⟨a, b, c, d, e⟩ := hpr.2 hd hhd
    have hhid : (s.afterWrite (.mb i .cs) (packCs hd fillerFrame)).HiddenOk := by
      refine hidden_writeCs hs.mem _ _ hh ?_ ?_
      · intro hab; rw [(hh.fresh hm).2] at hab; simp at hab
      · intro _ hc; rw [a] at hc; exact absurd hc (inactive_ne _).2.1
    have hcb : (s.afterWrite (.mb i .cs) (packCs hd fillerFrame)).configuredBelow (i + 1) := by
      intro j h' hj hjh
      by_cases hji : j = i.val
      · subst hji
        have hh'' : s.work.headers[i.val]? = some h' := by simpa using hjh
        have e' : hd = h' := by rw [hhd] at hh''; exact Option.some.inj hh''
        subst e'
        refine ⟨⟨?_, ?_, ?_, ?_⟩, by simpa using b⟩
        · rw [key]; simp
        · rw [key]; simpa using c
        · rw [key]; simpa using d
        · rw [key]; simpa using e
      · exact hbelow _ _ hpr.1 j h' (by omega) hjh
    simp only [nextMailbox] at h
    split at h <;> cases h
    · rename_i hlt
      refine hgo _ _ _ hhid ?_
      have hsucc : (i + 1).val = i.val + 1 :=
        succ_val (by have := numMb_le hs; simp only [State.afterWrite_work] at hlt; omega)
      simp only [State.initMailboxes, hsucc]
      exact hcb
    · rename_i hlast
      refine hgo _ _ _ hhid ?_
      have : (s.afterWrite (.mb i .cs) (packCs hd fillerFrame)).work.headers.length = i + 1 := by
        simp only [State.afterWrite_work] at hlast ⊢; omega
      simp only [State.initMailboxes, this]; exact hcb

theorem protocol_command {s u : State} (hs : s.Structural) (hph : s.PhaseOk) (hp : s.ProtocolOk) {w : Word} {i : Instr}
    (hc : s.cmd = some w)
    (hd : decodeWord w = .ok i) (hx : exec i s = .next u) : u.ProtocolOk := by
  have hh := hp.hidden
  cases engine_move hs hc hd hx with
  | accept i op hq hw hf ho hu =>
    subst hu
    refine ⟨hidden_goto _ _ hh, ?_⟩
    cases i <;> cases ho <;> first | trivial | exact ⟨fun h => absurd rfl h, trivial⟩
  | faulted hq hw hu => subst hu; exact protocol_ended (hidden_refuse _ hh) (by simp [hq])
  | btcalc l j n hq hw hx =>
    simp only [endBtcalc, refuse, finish, raiseFatal] at hx
    split at hx <;> cases hx <;>
      first | exact protocol_ended (hidden_close _ _ hh) (by simp) | exact protocol_ended (hidden_refuse _ hh) (by simp [hq])
  | encode l j n hq hw hx =>
    simp only [encodeStep, refuse, finish] at hx
    split at hx <;> cases hx <;>
      first | exact protocol_ended (hidden_close _ _ hh) (by simp) | exact protocol_ended (hidden_refuse _ hh) (by simp [hq])
  | decode l j n hq hw hx =>
    simp only [decodeStep, refuse, finish, raiseFatal] at hx
    repeat' split at hx
    all_goals cases hx
    all_goals
      first | exact protocol_ended (hidden_close _ _ hh) (by simp) | exact protocol_ended (hidden_refuse _ hh) (by simp [hq])
  | init l j n hq hx => exact protocol_init hs hph hp hq hx
  | transmit l j n hq hx => exact protocol_transmit hs hph hp hq hx
  | receive m l j n hq hf hx => exact protocol_receive hs hp hq hx
  | abort m l j n hq hf hx => exact protocol_abort hs hp hq hx

end Sys2Proof.Machine
end

