-- ==== Sys2Proof/Laws/Mailbox.lean ====
section
/-! SUPPORT. What a turn of the controller on a mailbox can change, as one fact about all sixteen codes. -/

namespace Sys2Proof.Machine

open Sys2Proof

/-- `u` is `s` but for the four fields a move on a mailbox can change. -/
def OnlyMailbox (s u : State) : Prop := ∃ mem iflag ar rb, u = s.withMailboxState mem iflag ar rb

theorem only_refl (s : State) : OnlyMailbox s s := ⟨s.mem, s.iflag, s.abortReq, s.rxBegun, rfl⟩

theorem only_ite {c : Prop} [Decidable c] {s a : State} (h : OnlyMailbox s a) : OnlyMailbox s (if c then a else s) := by
  split
  · exact h
  · exact only_refl s

theorem only_scramble (i cs id d0 d1 b) (s : State) : OnlyMailbox s (s.scrambleMb i cs id d0 d1 b) :=
  ⟨_, _, _, _, eq_withMailboxState (by simp)⟩

theorem only_controller {f : Nat → MbMove → State → State} (h : f = inert ∨ f = unconstrained ∨ f = completeAbort ∨
    f = completeTransmission ∨ (∃ st, f = beginReception st) ∨ ∃ st, f = receiving st)
    (i : Nat) (m : MbMove) (s : State) : OnlyMailbox s (f i m s) := by
  rcases h with rfl | rfl | rfl | rfl | ⟨st, rfl⟩ | ⟨st, rfl⟩
  · exact only_refl s
  all_goals cases m
  all_goals simp only [unconstrained, completeAbort, completeTransmission, beginReception, receiving]
  all_goals try split
  all_goals exact ⟨_, _, _, _, eq_withMailboxState (by simp)⟩

/-- On the controller’s turn a code is the controller’s move. -/
theorem codeRow_mailbox {s : State} {i : Nat} {m : MbMove} (ht : s.turn = .mailbox i m) (v) (f : Nat → MbMove → State →
    State) : codeRow v f s = .next (f i m s) := by
  simp only [codeRow, ht]

/-- The sixteen code patterns. -/
theorem bv4_cases (v : BitVec 4) : v = 0#4 ∨ v = 1#4 ∨ v = 2#4 ∨ v = 3#4 ∨ v = 4#4 ∨ v = 5#4 ∨ v = 6#4 ∨ v = 7#4 ∨ v = 8#4 ∨
    v = 9#4 ∨ v = 10#4 ∨ v = 11#4 ∨ v = 12#4 ∨ v = 13#4 ∨ v = 14#4 ∨ v = 15#4 := by
  revert v; decide

/-- A turn on a mailbox changes only those four fields, under every code. -/
theorem only_mailbox {s u : State} {i : Nat} {m : MbMove} (ht : s.turn = .mailbox i m) {v : BitVec 4}
    (hx : exec (decodeCode v) s = .next u) : OnlyMailbox s u := by
  rcases bv4_cases v with rfl | rfl | rfl | rfl | rfl | rfl | rfl | rfl | rfl | rfl | rfl | rfl | rfl | rfl | rfl | rfl <;>
    (replace hx := (codeRow_mailbox ht _ _).symm.trans hx; cases hx; exact only_controller (by simp) i m s)

end Sys2Proof.Machine
end

