-- ==== Sys2Proof/Laws/Runs.lean ====
section
/-! SUPPORT. Runs of several steps, and what ends of operations leave untouched. -/

namespace Sys2Proof.Machine

open Sys2Proof

theorem untouched_close (r q) (s : State) : untouched s (s.close r q) := by
  simp [untouched, sameBlock, sameControl, sameBytes, sameHidden, sameEngine]

theorem untouched_refuse (r) (s : State) : untouched s (s.refuse r) := by
  simp [untouched, sameBlock, sameControl, sameBytes, sameHidden, sameEngine]

theorem untouched_start (w p i) (s : State) : untouched s ((s.keep w).goto p i) := by
  simp [untouched, sameBlock, sameControl, sameBytes, sameHidden, sameEngine]

theorem samePorts_start (w p i) (s : State) : samePorts s ((s.keep w).goto p i) := ⟨rfl, rfl, rfl, rfl⟩

theorem sameBytesOutside_writeWord {s t : State} (hm : Memory.wf s.mem = true) {a v} (h : t.mem = writeWord a v s.mem) :
    sameBytesOutside a 4 s t := by
  intro b hb
  rw [h, readByte_writeWord hm, if_neg (by omega), if_neg (by omega), if_neg (by omega), if_neg (by omega)]

/-- Runs compose. -/
theorem runSteps_add (a b : Nat) (s : State) :
    runSteps (a + b) s = match runSteps a s with | .next t => runSteps b t | .fault r => .fault r | .refused r => .refused r := by
  induction a generalizing s with
  | zero => simp [runSteps]
  | succ a ih =>
    rw [show a + 1 + b = (a + b) + 1 by omega]
    simp only [runSteps]
    cases step s with
    | next t => simp [ih]
    | fault r => rfl
    | refused r => rfl

theorem runSteps_succ {s t : State} (k : Nat) (h : step s = .next t) :
    runSteps (k + 1) s = runSteps k t := by simp [runSteps, h]

/-- A step of the engine with the engine’s turn at the head of the script. -/
theorem engine_step {s u : State} {w : Word} {i : Instr} {rest : List Turn} (hs : s.script = .engine :: rest)
    (hc : s.cmd = some w) (hd : decodeWord w = .ok i) (hx : exec i s = .next u) :
   step s = .next u.endTurn := by
  rw [step_command (turn_of_script hs) hc hd, hx]; rfl

/-- The state in which an accepted operation stands, `k` engine turns ahead. -/
def State.begun (op : Op) (k : Nat) (s : State) : State := ((s.alone (k + 1)).goto op.start 0).endTurn

/-- An idle engine accepts a command. -/
theorem begin_step {s : State} {w : Word} {i : Instr} {op : Op} (k : Nat) (hi : s.seq = .idle) (hc : s.cmd = some w)
    (hd : decodeWord w = .ok i) (ho : commandOp i = some op) :
   step (s.alone (k + 1)) = .next (s.begun op k) :=
  engine_step (rest := List.replicate k .engine ++ s.script) rfl hc hd (exec_idle ho hi)

/-- The admission of `RECEIVE`. -/
theorem receive_begun {s : State} {w : Word} {i : Nat} (k : Nat) (hc : s.cmd = some w)
    (hd : decodeWord w = .ok (.receive i)) (hm : s.mode = .running) (hle : i ≤ s.maxMailbox.toNat) :
   step (s.begun .receive (k + 1)) = .next ((((s.begun .receive (k + 1)).keep Work.empty).goto (.receive .s1) (Fin.ofNat 32 i)).endTurn) := by
  refine engine_step (s := s.begun .receive (k + 1)) (rest := List.replicate k .engine ++ s.script) (w := w) rfl hc hd ?_
  rw [exec_receive_run (l := .s0) (i := 0) (n := 0) rfl]
  simp only [receiveStep, startReceive]
  rw [if_neg (by intro h; exact h hm), if_neg (by show ¬ s.maxMailbox.toNat < i; omega)]

/-- The admission of `ABORT`. -/
theorem abort_begun {s : State} {w : Word} {i : Nat} (k : Nat) (hc : s.cmd = some w) (hd : decodeWord w = .ok (.abort i))
    (hm : s.mode = .running) (hle : i ≤ s.maxMailbox.toNat) :
   step (s.begun .abort (k + 1)) = .next ((((s.begun .abort (k + 1)).keep Work.empty).goto (.abort .s1) (Fin.ofNat 32 i)).endTurn) := by
  refine engine_step (s := s.begun .abort (k + 1)) (rest := List.replicate k .engine ++ s.script) (w := w) rfl hc hd ?_
  rw [exec_abort_run (l := .s0) (i := 0) (n := 0) rfl]
  simp only [abortStep, startAbort]
  rw [if_neg (by intro h; exact h hm), if_neg (by show ¬ s.maxMailbox.toNat < i; omega)]

end Sys2Proof.Machine
end

