-- ==== Sys2Proof/Laws/Frames.lean ====
section
/-! SUPPORT. What one step of an operation leaves unchanged. -/

namespace Sys2Proof.Machine

open Sys2Proof

theorem bytes_setMbWord {s : State} (hm : Memory.wf s.mem = true) (i x v) :
    sameBytesOutside (s.mbAddr i x) 4 s (s.setMbWord i x v) :=
  sameBytesOutside_writeWord hm rfl

theorem bytes_trans {a n : Nat} {s t u : State} (h1 : sameBytesOutside a n s t) (h2 : sameBytesOutside a n t u) :
    sameBytesOutside a n s u := fun b hb => (h2 b hb).trans (h1 b hb)

theorem bytes_mem {a n : Nat} {s t u : State} (h1 : sameBytesOutside a n s t) (h2 : u.mem = t.mem) :
    sameBytesOutside a n s u := fun b hb => by rw [h2]; exact h1 b hb

theorem bytes_two {s : State} (hm : Memory.wf s.mem = true) (i v) :
    sameBytesOutside (s.mbAddr i .cs) 4 s ((s.setMbCode i v).stampMb i) :=
  bytes_trans (t := s.setMbCode i v) (bytes_setMbWord hm i .cs _) (bytes_setMbWord (s := s.setMbCode i v) (wf_setMbCode hm i v) i .cs _)

theorem bytes_ifSent {s : State} (hm : Memory.wf s.mem = true) (i v b) :
    sameBytesOutside (s.mbAddr i .cs) 4 s ((s.setMbCode i v).stampIfSent i b) := by
  cases b
  · exact bytes_setMbWord hm i .cs _
  · exact bytes_two hm i v

theorem live_iff {s : State} {i : Nat} : s.mbLive i = true ↔ s.active = true ∧ i ≤ s.maxmb ∧ i < s.params.numMb := by
  simp [State.mbLive, and_assoc]

theorem bytes_scramble {s : State} (hm : Memory.wf s.mem = true) (i cs id d0 d1 b) :
    sameBytesOutside (s.mbAddr i .cs) 16 s (s.scrambleMb i cs id d0 d1 b) := by
  have h1 := wf_setMbWord hm i .cs cs
  have h2 := wf_setMbWord h1 i .id id
  have h3 := wf_setMbWord h2 i .d0 d0
  have ad : ∀ x, s.mbAddr i .cs ≤ s.mbAddr i x ∧ s.mbAddr i x + 4 ≤ s.mbAddr i .cs + 16 := by
    intro x; cases x <;> simp only [State.mbAddr, regAddr, MbWord.index] <;> omega
  have wide : ∀ {t u : State} (x : MbWord), sameBytesOutside (s.mbAddr i x) 4 t u → sameBytesOutside (s.mbAddr i .cs) 16 t u := by
    intro t u x h b hb; have := ad x; exact h b (by omega)
  refine bytes_mem (t := (((s.setMbWord i .cs cs).setMbWord i .id id).setMbWord i .d0 d0).setMbWord i .d1 d1) ?_ (by simp [State.scrambleMb])
  exact bytes_trans (bytes_trans (bytes_trans (wide .cs (bytes_setMbWord hm i .cs cs)) (wide .id (bytes_setMbWord h1 i .id id))) (wide .d0 (bytes_setMbWord h2 i .d0 d0))) (wide .d1 (bytes_setMbWord h3 i .d1 d1))

/-- A move of the controller stays inside its mailbox. -/
theorem bytes_controller {s : State} (hm : Memory.wf s.mem = true) {f : Nat → MbMove → State → State} (h : f = inert ∨
    f = unconstrained ∨ f = completeAbort ∨ f = completeTransmission ∨ (∃ st, f = beginReception st) ∨
    ∃ st, f = receiving st) (i : Nat) (m : MbMove) :
   sameBytesOutside (s.mbAddr i .cs) 16 s (f i m s) := by
  have ad : ∀ x, s.mbAddr i .cs ≤ s.mbAddr i x ∧ s.mbAddr i x + 4 ≤ s.mbAddr i .cs + 16 := by
    intro x; cases x <;> simp only [State.mbAddr, regAddr, MbWord.index] <;> omega
  have wide : ∀ {t u : State} (x : MbWord), sameBytesOutside (s.mbAddr i x) 4 t u → sameBytesOutside (s.mbAddr i .cs) 16 t u := by
    intro t u x h b hb; have := ad x; exact h b (by omega)
  have refl : sameBytesOutside (s.mbAddr i .cs) 16 s s := fun _ _ => rfl
  rcases h with rfl | rfl | rfl | rfl | ⟨st, rfl⟩ | ⟨st, rfl⟩
  · exact refl
  · cases m <;> simp only [unconstrained] <;> first | exact refl | (split; exact bytes_scramble hm _ _ _ _ _ _; exact refl)
  · cases m <;> simp only [completeAbort] <;> first | exact refl | (split; exact wide .cs (bytes_mem (bytes_ifSent hm i _ _) (by simp; rfl)); exact refl)
  · cases m <;> simp only [completeTransmission] <;> first | exact refl | (split; exact wide .cs (bytes_mem (bytes_two hm i _) (by simp; rfl)); exact refl)
  · cases m <;> simp only [beginReception] <;> first | exact refl | (split; exact wide .cs (bytes_mem (bytes_setMbWord hm i .cs _) (by simp [State.setMbCode]; rfl)); exact refl)
  · cases m <;> simp only [receiving]
    · split
      · exact wide .cs (bytes_mem (bytes_two hm i _) (by simp; rfl))
      · exact refl
    · split
      · exact wide _ (bytes_setMbWord hm i _ _)
      · exact refl
    · split
      · exact wide _ (bytes_setMbWord hm i _ _)
      · exact refl
    · split
      · exact wide _ (bytes_setMbWord hm i _ _)
      · exact refl
    · split
      · exact wide _ (bytes_setMbWord hm i _ _)
      · exact refl
    · split
      · exact bytes_scramble hm _ _ _ _ _ _
      · exact refl

/-- What a mailbox that is not live still allows: the end of a reception begun. -/
theorem dormant {s : State} {i : Nat} (hl : s.mbLive i = false) {f : Nat → MbMove → State → State} (h : f = inert ∨
    f = unconstrained ∨ f = completeAbort ∨ f = completeTransmission ∨ (∃ st, f = beginReception st) ∨
    ∃ st, f = receiving st) (m : MbMove) :
    f i m s = s ∨ (i ∈ s.rxBegun ∧ ∃ alt, m = .act alt) := by
  rcases h with rfl | rfl | rfl | rfl | ⟨st, rfl⟩ | ⟨st, rfl⟩
  · exact .inl rfl
  all_goals cases m
  all_goals simp only [unconstrained, completeAbort, completeTransmission, beginReception, receiving, hl, Bool.false_and,
      Bool.or_false, Bool.false_eq_true, if_false]
  all_goals try exact .inl trivial
  split
  · rename_i h; simp only [Bool.and_eq_true, decide_eq_true_eq] at h; exact .inr ⟨h.1, _, rfl⟩
  · exact .inl rfl

/-- What a turn of the controller on a mailbox leaves unchanged. -/
theorem confined {s t : State} {i : Nat} {m : MbMove} (hm : Memory.wf s.mem = true) (hp : s.params.numMb ≤ 32)
    (ht : s.turn = .mailbox i m) (hx : exec (decodeCode (s.mbCode i)) s = .next t) :
    sameControl s t ∧ sameEngine s t ∧ t.seq = s.seq ∧ t.result = s.result ∧ t.report = s.report ∧
    t.work = s.work ∧ t.cmd = s.cmd ∧ t.history = s.history ∧ t.lock = s.lock ∧
    sameBytesOutside (s.mbAddr i .cs) 16 s t ∧ (∀ j, j ≠ i → t.flag j = s.flag j) ∧
    (∀ j, j ≠ i → (j ∈ t.abortReq ↔ j ∈ s.abortReq) ∧ (j ∈ t.rxBegun ↔ j ∈ s.rxBegun)) ∧
    (s.active = false ∨ s.maxmb < i →
      t = s ∨ (i ∈ s.rxBegun ∧ receptionCode (s.mbCode i) ∧ ∃ alt, m = .act alt)) := by
  have hbytes : sameBytesOutside (s.mbAddr i .cs) 16 s t ∧ (s.mbLive i = false → t = s ∨ (i ∈ s.rxBegun ∧ ∃ alt,
      m = .act alt)) := by
    revert hx
    generalize s.mbCode i = v
    intro hx
    rcases bv4_cases v with rfl | rfl | rfl | rfl | rfl | rfl | rfl | rfl | rfl | rfl | rfl | rfl | rfl | rfl | rfl | rfl <;>
    (replace hx := (codeRow_mailbox ht _ _).symm.trans hx; cases hx; exact ⟨bytes_controller hm (by simp) i m,
        fun hl => dormant hl (by simp) m⟩)
  obtain ⟨hbytes, hdorm⟩ := hbytes
  obtain ⟨u', hx', hu⟩ := exec_mailbox_turn hm hp ht
  rw [hx] at hx'; cases hx'
  rcases hu with rfl | hmv
  · exact ⟨⟨rfl, rfl, rfl, rfl⟩, ⟨rfl, rfl, rfl, rfl, rfl, rfl⟩, rfl, rfl, rfl, rfl, rfl, rfl, rfl, hbytes, fun _ _ => rfl,
      fun _ _ => ⟨Iff.rfl, Iff.rfl⟩, fun _ => .inl rfl⟩
  · obtain ⟨mem, fl, ar, rb, hu⟩ := hmv.only
    refine ⟨?_, ?_, ?_, ?_, ?_, ?_, ?_, ?_, ?_, hbytes, hmv.flags, ?_, ?_⟩
    · rw [hu]; exact ⟨rfl, rfl, rfl, rfl⟩
    · rw [hu]; exact ⟨rfl, rfl, rfl, rfl, rfl, rfl⟩
    all_goals try (rw [hu]; rfl)
    · intro j hj
      refine ⟨?_, ?_⟩
      · rcases hmv.abortReq with h | h <;> rw [h]
        simp [mem_removeIndex, hj]
      · rcases hmv.rxBegun with h | h | h <;> rw [h]
        · simp [mem_removeIndex, hj]
        · simp [mem_insertIndex, hj]
    · intro h1
      have hl : s.mbLive i = false := by
        rw [← Bool.not_eq_true, live_iff]
        rcases h1 with h1 | h1
        · simp [h1]
        · omega
      rcases hdorm hl with h | ⟨h, alt, rfl⟩
      · exact .inl h
      · rcases hmv.enabled with h2 | ⟨_, h3⟩
        · rw [hl] at h2; cases h2
        · exact .inr ⟨h, h3, alt, rfl⟩

/-- From the invariant the controller leaves a mailbox alone in freeze mode and above MAXMB. -/
theorem still_of_inv {s t : State} {i : Nat} {m : MbMove} (h : s.Inv) (ht : s.turn = .mailbox i m)
    (hb : s.frzack = true ∨ s.maxmb < i) (hx : exec (decodeCode (s.mbCode i)) s = .next t) : t = s := by
  obtain ⟨u, hx', hu⟩ := exec_mailbox_turn h.structural.mem (numMb_le h.structural) ht
  rw [hx] at hx'; cases hx'
  rcases hu with rfl | hmv
  · rfl
  · rcases hb with hb | hb
    · exact absurd hmv (mailboxMove_frozen h.protocol.hidden hb)
    · exact absurd hmv (mailboxMove_above h.protocol.hidden hb)

/-- The labels of `INIT` at which freeze mode is in force. -/
theorem frozen_of_label {s : State} {l : InitStep} {i : Fin 32} {n : Nat} (h : s.Inv) (hq : s.seq = .run (.init l) i n)
    (hl : l ∈ [InitStep.d1r, .d1w, .d2r, .d2w, .d3, .e1, .e2, .e3, .w1, .w2, .w3, .w4, .w5, .f1r, .f1w]) : s.frozen := by
  have h2 := (h.phase.init l i n hq).2
  cases l <;> simp only [State.initPhase] at h2 <;> first | exact h2.2.1 | (simp at hl; done)

/-- Every reception begun ended: what each mailbox and flag shows then, and that no other byte changes (20_memory.md R85). -/
theorem finish_all {s : State} (hm : Memory.wf s.mem = true) (hp : s.params.numMb ≤ 32) (l : List Nat) (hr : rising l)
    (hb : ∀ i ∈ l, i ∈ s.rxBegun ∧ i < s.params.numMb ∧ receptionCode (s.mbCode i)) :
    (∀ i ∈ l, (l.foldl (fun t i => t.finishReception i) s).mbWord i .cs =
      csAfter (s.mbWord i .cs) s.timer (receivedCode (s.mbCode i)) true) ∧
    (∀ j, (l.foldl (fun t i => t.finishReception i) s).flag j = (s.flag j || decide (j ∈ l))) ∧
    (∀ a, (∀ i ∈ l, a < s.mbAddr i .cs ∨ s.mbAddr i .cs + 4 ≤ a) →
      readByte (l.foldl (fun t i => t.finishReception i) s).mem a = readByte s.mem a) ∧
    (∀ i, i ∉ l → (l.foldl (fun t i => t.finishReception i) s).mbWord i .cs = s.mbWord i .cs) := by
  induction l generalizing s with
  | nil => exact ⟨by simp, by simp, by simp, by simp⟩
  | cons i l ih =>
    simp only [rising, List.pairwise_cons] at hr
    obtain ⟨b1, b2, b3⟩ := hb i (by simp)
    have he := finishReception_begun b3 b1 b2
    set v := receivedCode (s.mbCode i) with hv
    set u : State := (((s.setMbCode i v).stampMb i).setFlag i).markEnded i with hu
    have hmu : Memory.wf u.mem = true := by
      simpa [hu] using wf_stampMb (wf_setMbCode hm i v) i
    have hwu : ∀ j, u.mbWord j .cs = if j = i then csAfter (s.mbWord i .cs) s.timer v true else s.mbWord j .cs := by
      intro j
      by_cases hj : j = i <;> simp [hu, mbWord_stampMb (wf_setMbCode hm i _), mbWord_setMbCode hm, csAfter, hj]
    have hil : i ∉ l := fun h => absurd (hr.1 i h) (by omega)
    have hne : ∀ j ∈ l, j ≠ i := fun j hj h => hil (h ▸ hj)
    have hcu : ∀ j ∈ l, u.mbCode j = s.mbCode j := fun j hj => by
      simp only [State.mbCode, hwu, if_neg (hne j hj)]
    obtain ⟨h1, h2, h3, h4⟩ := ih (s := u) hmu (by simpa [hu] using hp) hr.2 (fun j hj => by
      obtain ⟨c1, c2, c3⟩ := hb j (by simp [hj])
      refine ⟨?_, by simpa [hu] using c2, by rw [hcu j hj]; exact c3⟩
      simp [hu, mem_removeIndex, c1, hne j hj])
    rw [List.foldl_cons, he]
    refine ⟨?_, ?_, ?_, ?_⟩
    · intro j hj
      rcases List.mem_cons.1 hj with rfl | hj
      · rw [h4 _ hil, hwu, if_pos rfl]
      · rw [h1 j hj, hwu, if_neg (hne j hj), hcu j hj]
        simp [hu]
    · intro j
      rw [h2]
      simp only [hu, State.markEnded_flag, flag_setFlag (show i < 32 by omega), State.stampMb_flag, State.setMbCode_flag,
        List.mem_cons, Bool.decide_or]
      cases s.flag j <;> simp
    · intro a ha
      rw [h3 a (fun j hj => by have := ha j (by simp [hj]); simpa [hu] using this)]
      exact bytes_mem (bytes_two hm i v) (by simp [hu]) a (ha i (by simp))
    · intro j hj
      simp only [List.mem_cons, not_or] at hj
      rw [h4 j hj.2, hwu, if_neg hj.1]

theorem mode_initStep {s : State} {l : InitStep} {i : Fin 32} {n : Nat} {t : State} (h : initStep l i n s = .next t)
    (hq : s.seq = .run (.init l) i n) :
  t.mode = s.mode ∨ (l = .a9 ∧ t.mode = .reset) ∨ (l = .b2 ∧ t.mode = .enabled) ∨ (l = .c2 ∧ t.mode = .frozen) ∨ (l = .f2 ∧
      t.mode = .running) := by
  cases l <;> simp only [initStep, validateAdmission, validateDma, validateTiming, validateFifo, rmwRead, rmwWrite,
      withHeader, mbWriteFlag, flagClear, mbWriteId, mbWriteD0, mbWriteD1, mbWriteCs, enterMode, finish] at h
  case v0 | v1 | v2 | v3 =>
    try simp only [Machine.refuse, raiseFatal] at h
    repeat' split at h
    all_goals cases h; simp
  case a2 | a5 | a7 | a9 | b2 | c2 | f2 => rcases wait_cases h with ⟨_, h⟩ | h | ⟨f, h⟩ <;> cases h <;> simp
  case e3 =>
    split at h
    · replace h := (readReg_next h).2
      simp only [engineOnCode, State.afterRead_seq, hq] at h
      rcases decodedAt_next h with ⟨c, _, h⟩ | ⟨_, h⟩
      · simp only [writeCheckOn, finish] at h
        split at h <;> cases h <;> simp
      · cases h; simp
    · cases h; simp
  case w5 =>
    split at h
    · replace h := (writeReg_next h).2
      simp only [nextMailbox] at h
      split at h <;> cases h <;> simp
    · cases h; simp
  case e1 =>
    split at h
    · replace h := (readReg_next h).2
      cases h; simp
    · cases h; simp
  case e2 | w1 | w2 | w3 | w4 =>
    split at h
    · replace h := (writeReg_next h).2
      cases h; simp
    · cases h; simp
  all_goals first
    | (replace h := (readReg_next h).2; cases h; simp; done)
    | (replace h := (writeReg_next h).2; cases h; simp; done)

theorem mode_moves {s u : State} (hm : Moves s u) : u.mode = s.mode ∨
    (s.turn = .engine ∧ fetchCommand s = .instr .init ∧ ∃ i n,
      (s.seq = .run (.init .a9) i n ∧ u.mode = .reset) ∨ (s.seq = .run (.init .b2) i n ∧ u.mode = .enabled) ∨
      (s.seq = .run (.init .c2) i n ∧ u.mode = .frozen) ∨ (s.seq = .run (.init .f2) i n ∧ u.mode = .running)) := by
  cases hm with
  | command w i u ht hc hd hx =>
    by_cases hi : i = .init
    · subst hi
      have hfc : fetchCommand s = .instr .init := by simp [fetchCommand, hc, hd]
      cases hq : s.seq with
      | idle =>
        rw [exec_idle rfl hq] at hx; cases hx; simp
      | faulted =>
        rw [exec_faulted rfl hq] at hx; cases hx; simp
      | run p j n =>
        cases p with
        | init l =>
          rw [exec_init_run hq] at hx
          rcases mode_initStep hx hq with h | ⟨rfl, h⟩ | ⟨rfl, h⟩ | ⟨rfl, h⟩ | ⟨rfl, h⟩
          · exact .inl h
          all_goals exact .inr ⟨ht, hfc, j, n, by simp [h]⟩
        | _ => simp [execInit, serve, hq] at hx
    · have := decodeWord_command hd
      have hk := (mmx_closed s.maxMailbox s.mode).command (i := i) (by simpa [hi] using this) ⟨rfl, rfl⟩ u hx
      exact .inl hk.2
  | illegal w e ht hc hd => simp only [State.rejectWord]; split <;> simp
  | mailbox i m u ht hi hx =>
    obtain ⟨_, _, _, _, rfl⟩ := only_mailbox ht hx
    exact .inl rfl
  | host w ops ht => left; simp only [State.issue]; split <;> rfl
  | softReset a b c d e ht => left; simp only [State.softReset]; split <;> rfl
  | freeze d ht => left; obtain ⟨_, _, _, _, e⟩ := ackFreeze_only d s; rw [e]
  | _ => exact .inl rfl

theorem turn_congr {s t : State} (h : t.script = s.script) (h2 : t.tick = s.tick) :
    t.turn = s.turn := by simp only [State.turn, h, h2]

/-- On the engine’s turn a code row is the engine’s verdict on it. -/
theorem exec_code_engine {s : State} (ht : s.turn = .engine) (v : BitVec 4) : exec (decodeCode v) s = engineOnCode v s := by
  have hrow : ∀ v f, codeRow v f s = engineOnCode v s := by intro v f; simp only [codeRow, ht]
  rcases bv4_cases v with rfl | rfl | rfl | rfl | rfl | rfl | rfl | rfl | rfl | rfl | rfl | rfl | rfl | rfl | rfl | rfl <;> exact hrow _ _

/-- What one step of a mailbox operation can change. -/
structure FrameOk (s t : State) : Prop where
  store : storesOnly s.storeAddress s t
  flags : (∀ j, t.flag j = s.flag j ∨ (t.flag j = false ∧ ∃ p k n, s.seq = .run p k n ∧ k.val = j))
  timer : t.timer = s.timer
  ar : (t.abortReq = s.abortReq ∨ ∃ p j n, s.seq = .run p j n ∧ t.abortReq = insertIndex j s.abortReq)
  rb : (t.rxBegun = s.rxBegun ∨ ∃ p j n, s.seq = .run p j n ∧ t.rxBegun = removeIndex j s.rxBegun)
  misc : t.params = s.params ∧ t.ops = s.ops ∧ t.script = s.script ∧ t.tick = s.tick
  hist : (t.history = s.history ∨ ∃ e, t.history = e :: s.history)

theorem storesOnly_of_bytes {s t : State} (h : sameBytes s t) : storesOnly s.storeAddress s t := by
  simp only [storesOnly]; split
  · exact fun b _ => h b
  · exact h

theorem FrameOk.same {s t : State} (h1 : t.mem = s.mem) (h2 : t.iflag = s.iflag) (h3 : t.timer = s.timer)
    (h4 : t.abortReq = s.abortReq) (h5 : t.rxBegun = s.rxBegun) (h6 : t.params = s.params ∧ t.ops = s.ops ∧
    t.script = s.script ∧ t.tick = s.tick) (h7 : (t.history = s.history ∨ ∃ e, t.history = e :: s.history)) : FrameOk s t :=
  ⟨storesOnly_of_bytes (fun a => by rw [h1]), fun j => .inl (by simp only [State.flag, h2]), h3, .inl h4, .inl h5, h6, h7⟩

theorem FrameOk.clear {s : State} {p} {i : Fin 32} {n} (hq : s.seq = .run p i n) {t} (h1 : t.mem = s.mem)
    (h2 : t.iflag = clearFlags s.iflag (flagMask i)) (h3 : t.timer = s.timer) (h4 : t.abortReq = s.abortReq)
    (h5 : t.rxBegun = s.rxBegun) (h6 : t.params = s.params ∧ t.ops = s.ops ∧ t.script = s.script ∧ t.tick = s.tick)
    (h7 : (t.history = s.history ∨ ∃ e, t.history = e :: s.history)) : FrameOk s t := by
  refine ⟨storesOnly_of_bytes (fun a => by rw [h1]), fun j => ?_, h3, .inl h4, .inl h5, h6, h7⟩
  simp only [State.flag, h2, clearFlags, BitVec.getLsbD_and, BitVec.getLsbD_not]
  by_cases h32 : j < 32
  · by_cases hi : i.val < 32
    · rw [getLsbD_flagMask i j hi]
      by_cases hj : j = i.val
      · right; simp [hj, hq]
      · left; simp [hj, h32]
    · have : flagMask i = 0#32 := by
        apply BitVec.eq_of_getLsbD_eq; intro k hk; simp [flagMask]; omega
      left; simp [this, h32]
  · left; simp [h32, BitVec.getLsbD_of_ge _ j (Nat.le_of_not_lt h32)]

theorem FrameOk.write {s : State} (hwf : Memory.wf s.mem = true) {p} {i : Fin 32} {n} (hq : s.seq = .run p i n) {x v}
    (hst : s.storeAddress = some (s.mbAddr i x)) {t} (h1 : t.mem = (s.afterWrite (.mb i x) v).mem) (h2 : t.iflag = s.iflag)
    (h3 : t.timer = s.timer)
   (h4 : t.abortReq = (s.afterWrite (.mb i x) v).abortReq) (h5 : t.rxBegun = (s.afterWrite (.mb i x) v).rxBegun) (h6 : t.params = s.params ∧ t.ops = s.ops ∧ t.script = s.script ∧ t.tick = s.tick) (h7 : (t.history = s.history ∨ ∃ e, t.history = e :: s.history)) : FrameOk s t := by
  refine ⟨?_, fun j => .inl (by simp only [State.flag, h2]), h3, ?_, ?_, h6, h7⟩
  · simp only [hst, storesOnly]
    intro b hb
    rw [h1]
    simp only [State.afterWrite_mem, State.poke, State.pokeMb]
    split
    · rfl
    · have hw : ∀ u : State, u.mem = s.mem → u.params = s.params → readByte (u.setMbWord i x v).mem b = readByte s.mem b := by
        intro u hu hp
        have e : (u.setMbWord i x v).mem = writeWord (s.mbAddr i x) v s.mem := by simp only [State.setMbWord, State.mbAddr,
            hu, hp]
        rw [e]
        exact sameBytesOutside_writeWord (t := { s with mem := writeWord (s.mbAddr i x) v s.mem }) hwf rfl b hb
      cases x
      · exact hw _ rfl rfl
      all_goals exact hw _ rfl rfl
  · rw [h4]
    simp only [State.afterWrite_abortReq, State.poke, State.pokeMb]
    split
    · exact .inl rfl
    · cases x
      · simp only [State.setMbWord_abortReq, State.noteCsWrite]; split
        · exact .inr ⟨p, i, n, hq, rfl⟩
        · exact .inl rfl
      all_goals exact .inl rfl
  · rw [h5]
    simp only [State.afterWrite_rxBegun, State.poke, State.pokeMb]
    split
    · exact .inl rfl
    · cases x
      · exact .inr ⟨p, i, n, hq, rfl⟩
      all_goals exact .inl rfl

theorem FrameOk.goto {s u : State} (h : FrameOk s u) (p i) : FrameOk s (u.goto p i) := ⟨h.store, h.flags, h.timer, h.ar,
    h.rb, h.misc, h.hist⟩

theorem FrameOk.close {s u : State} (h : FrameOk s u) (p i) : FrameOk s (u.close p i) := ⟨h.store, h.flags, h.timer, h.ar,
    h.rb, h.misc, h.hist⟩

theorem FrameOk.wr {s : State} (hwf : Memory.wf s.mem = true) {p} {i : Fin 32} {n} (hq : s.seq = .run p i n) {x} (v)
    (hst : s.storeAddress = some (s.mbAddr i x)) : FrameOk s (s.afterWrite (.mb i x) v) :=
  FrameOk.write hwf hq hst rfl (by simp) (by simp) rfl rfl (by simp) (.inr ⟨_, State.afterWrite_history _ _ _⟩)

/-- A verdict on a code changes no register. -/
theorem frame_code {s u : State} {v t} (h : engineOnCode v u = .next t) : t.mem = u.mem ∧ t.iflag = u.iflag ∧
    t.timer = u.timer ∧ t.abortReq = u.abortReq ∧ t.rxBegun = u.rxBegun ∧ (t.params = u.params ∧ t.ops = u.ops ∧
    t.script = u.script ∧ t.tick = u.tick) ∧ t.history = u.history := by
  simp only [engineOnCode] at h
  split at h
  · rcases decodedAt_next h with ⟨c, _, h⟩ | ⟨_, h⟩
    · simp only [writeCheckOn, finish] at h
      split at h <;> cases h <;> simp
    · subst h; simp
  · rcases decodedAt_next h with ⟨c, _, h⟩ | ⟨_, h⟩
    · cases h; simp
    · subst h; simp
  · rcases decodedAt_next h with ⟨c, _, h⟩ | ⟨_, h⟩
    · simp only [scanOn] at h
      split at h
      · cases h; simp
      · rcases scanNext_next h with ⟨_, h⟩ | ⟨_, h⟩ <;> subst h <;> simp [State.noteSkipped]
      · rcases scanNext_next h with ⟨_, h⟩ | ⟨_, h⟩ <;> subst h <;> simp [State.noteSkipped]
    · subst h; simp
  · rcases decodedAt_next h with ⟨c, _, h⟩ | ⟨_, h⟩
    · simp only [busyTestOn] at h
      split at h
      · rcases waitAgain_next h with ⟨_, h⟩ | ⟨_, h⟩ <;> subst h <;> simp
      · cases h; simp
    · subst h; simp
  · rcases decodedAt_next h with ⟨c, _, h⟩ | ⟨_, h⟩
    · simp only [abortTestOn, finish] at h
      split at h <;> cases h <;> simp
    · subst h; simp
  · cases h; simp

theorem frame_wait {s t : State} {r b val p i n done} (hd : ∀ u t, done u = .next t → FrameOk s u → FrameOk s t)
    (h : waitUntil r b val p i n done s = .next t) : FrameOk s t := by
  have h0 : FrameOk s (s.afterRead r) := FrameOk.same (by simp) (by simp) (by simp) (by simp) (by simp) (by simp) (.inr ⟨.read r (s.peek r), by simp⟩)
  rcases wait_cases h with ⟨_, h⟩ | h | ⟨f, h⟩
  · exact hd _ _ h h0
  · subst h; exact FrameOk.same (by simp) (by simp) (by simp) (by simp) (by simp) (by simp) (.inr ⟨.read r (s.peek r),
      by simp⟩)
  · subst h; exact FrameOk.same (by simp) (by simp) (by simp) (by simp) (by simp) (by simp) (.inr ⟨.read r (s.peek r),
      by simp⟩)

theorem frame_init {s : State} (hwf : Memory.wf s.mem = true) {l : InitStep} {i : Fin 32} {n : Nat}
    (hq : s.seq = .run (.init l) i n) {t : State} (h : initStep l i n s = .next t) : FrameOk s t := by
  cases l <;> simp only [initStep, validateAdmission, validateDma, validateTiming, validateFifo, rmwRead, rmwWrite,
      withHeader, mbWriteFlag, flagClear, mbWriteId, mbWriteD0, mbWriteD1, mbWriteCs, enterMode, finish] at h
  case v0 | v1 | v2 | v3 =>
    try simp only [Machine.refuse, raiseFatal] at h
    repeat' split at h
    all_goals cases h; exact FrameOk.same rfl rfl rfl rfl rfl ⟨rfl, rfl, rfl, rfl⟩ (.inl rfl)
  case a2 | a5 | a7 | a9 | b2 | c2 | f2 =>
    refine frame_wait ?_ h
    intro u t hu hf
    cases hu
    exact ⟨hf.store, hf.flags, hf.timer, hf.ar, hf.rb, hf.misc, hf.hist⟩
  case e3 =>
    split at h
    · replace h := (readReg_next h).2
      obtain ⟨a, b, c, d, e, f, g⟩ := frame_code (s := s) h
      exact FrameOk.same (by simpa using a) (by simpa using b) (by simpa using c) (by simpa using d) (by simpa using e) (by simpa using f) (.inr ⟨_, by rw [g]; simp; rfl⟩)
    · cases h; exact FrameOk.same rfl rfl rfl rfl rfl ⟨rfl, rfl, rfl, rfl⟩ (.inl rfl)
  case e1 =>
    split at h
    · replace h := (readReg_next h).2
      cases h; exact FrameOk.same (by simp) (by simp) (by simp) (by simp) (by simp) (by simp) (.inr ⟨_, by simp; rfl⟩)
    · cases h; exact FrameOk.same rfl rfl rfl rfl rfl ⟨rfl, rfl, rfl, rfl⟩ (.inl rfl)
  case w1 =>
    split at h
    · replace h := (writeReg_next h).2
      cases h; exact FrameOk.clear hq (by simp [State.poke]) (by simp [State.poke]) (by simp) (by simp [State.poke]) (by simp [State.poke]) (by simp) (.inr ⟨_, by simp; rfl⟩)
    · cases h; exact FrameOk.same rfl rfl rfl rfl rfl ⟨rfl, rfl, rfl, rfl⟩ (.inl rfl)
  case e2 | w2 | w3 | w4 =>
    split at h
    · rename_i hh
      have hlen : i.val < s.work.headers.length := (List.getElem?_eq_some_iff.1 hh).1
      replace h := (writeReg_next h).2
      cases h; exact (FrameOk.wr hwf hq _ (by simp only [State.storeAddress, hq, hlen, if_true])).goto _ _
    · cases h; exact FrameOk.same rfl rfl rfl rfl rfl ⟨rfl, rfl, rfl, rfl⟩ (.inl rfl)
  case w5 =>
    split at h
    · rename_i hh
      have hlen : i.val < s.work.headers.length := (List.getElem?_eq_some_iff.1 hh).1
      replace h := (writeReg_next h).2
      simp only [nextMailbox] at h
      split at h <;> cases h <;> exact (FrameOk.wr hwf hq _ (by simp only [State.storeAddress, hq, hlen, if_true])).goto _ _
    · cases h; exact FrameOk.same rfl rfl rfl rfl rfl ⟨rfl, rfl, rfl, rfl⟩ (.inl rfl)
  case d3 =>
    replace h := (writeReg_next h).2; cases h
    simp only [State.afterWrite, State.poke]
    split <;> exact FrameOk.same (by simp) (by simp) (by simp) (by simp) (by simp) (by simp) (.inr ⟨_, by simp; rfl⟩)
  all_goals first
    | (replace h := (readReg_next h).2; cases h; exact FrameOk.same (by simp) (by simp) (by simp) (by simp) (by simp) (by simp) (.inr ⟨_, by simp; rfl⟩))
    | (replace h := (writeReg_next h).2; cases h; exact FrameOk.same (by simp [State.poke]) (by simp [State.poke]) (by simp [State.poke]) (by simp [State.poke]) (by simp [State.poke]) (by simp) (.inr ⟨_, by simp; rfl⟩))

theorem frame_transmit {s : State} (hwf : Memory.wf s.mem = true) {l : TransmitStep} {i : Fin 32} {n : Nat}
    (hq : s.seq = .run (.transmit l) i n) {t : State} (h : transmitStep l i s = .next t) : FrameOk s t := by
  cases l <;> simp only [transmitStep, mbWriteFlag, flagClear, mbWriteId, mbWriteD0, mbWriteD1, mbWriteCs, finish] at h
  case s0 =>
    simp only [startTransmit, Machine.refuse] at h
    repeat' split at h
    all_goals cases h; exact FrameOk.same rfl rfl rfl rfl rfl ⟨rfl, rfl, rfl, rfl⟩ (.inl rfl)
  case s1 =>
    replace h := (readReg_next h).2
    obtain ⟨a, b, c, d, e, f, g⟩ := frame_code (s := s) h
    exact FrameOk.same (by simpa using a) (by simpa using b) (by simpa using c) (by simpa using d) (by simpa using e) (by simpa using f) (.inr ⟨_, by rw [g]; simp; rfl⟩)
  case s2 =>
    obtain ⟨a, b, c, d, e, f, g⟩ := frame_code (s := s) h
    exact FrameOk.same a b c d e f (.inl g)
  case s3 => replace h := (readReg_next h).2; cases h; exact FrameOk.same (by simp) (by simp) (by simp) (by simp) (by simp) (by simp) (.inr ⟨_, by simp; rfl⟩)
  case s4 => replace h := (writeReg_next h).2; cases h; exact FrameOk.clear hq (by simp [State.poke]) (by simp [State.poke]) (by simp) (by simp [State.poke]) (by simp [State.poke]) (by simp) (.inr ⟨_, by simp; rfl⟩)
  all_goals
    replace h := (writeReg_next h).2
    cases h; first | exact (FrameOk.wr hwf hq _ (by simp only [State.storeAddress, hq])).goto _ _ | exact (FrameOk.wr hwf hq _ (by simp only [State.storeAddress, hq])).close _ _

theorem frame_receive {s : State} {m : Nat} {l : ReceiveStep} {i : Fin 32} {n : Nat}
    (hq : s.seq = .run (.receive l) i n) {t : State} (h : receiveStep m l i s = .next t) : FrameOk s t := by
  cases l <;> simp only [receiveStep, flagClear, finish, raiseFatal] at h
  case s0 =>
    simp only [startReceive, Machine.refuse] at h
    repeat' split at h
    all_goals cases h; exact FrameOk.same rfl rfl rfl rfl rfl ⟨rfl, rfl, rfl, rfl⟩ (.inl rfl)
  case s1 =>
    replace h := (readReg_next h).2
    split at h <;> cases h <;> exact FrameOk.same (by simp) (by simp) (by simp) (by simp) (by simp) (by simp) (.inr ⟨_,
        by simp; rfl⟩)
  case s2 =>
    replace h := (readReg_next h).2
    obtain ⟨a, b, c, d, e, f, g⟩ := frame_code (s := s) h
    exact FrameOk.same (by simpa using a) (by simpa using b) (by simpa using c) (by simpa using d) (by simpa using e) (by simpa using f) (.inr ⟨_, by rw [g]; simp; rfl⟩)
  case s6 => split at h <;> cases h <;> exact FrameOk.same (by simp) (by simp) (by simp) (by simp) (by simp) (by simp) (.inl (by simp))
  case s7 => rcases decodedAt_next h with ⟨c, _, h⟩ | ⟨_,
      h⟩ <;> cases h <;> exact FrameOk.same (by simp) (by simp) (by simp) (by simp) (by simp) (by simp) (.inl (by simp))
  case s8 => replace h := (writeReg_next h).2; cases h; exact FrameOk.clear hq (by simp [State.poke]) (by simp [State.poke]) (by simp) (by simp [State.poke]) (by simp [State.poke]) (by simp) (.inr ⟨_, by simp; rfl⟩)
  all_goals replace h := (readReg_next h).2; cases h; exact FrameOk.same (by simp) (by simp) (by simp) (by simp) (by simp) (by simp) (.inr ⟨_, by simp; rfl⟩)

theorem frame_abort {s : State} (hwf : Memory.wf s.mem = true) {m : Nat} {l : AbortStep} {i : Fin 32} {n : Nat}
    (hq : s.seq = .run (.abort l) i n) {t : State} (h : abortStep m l i n s = .next t) : FrameOk s t := by
  cases l <;> simp only [abortStep, flagClear] at h
  case s0 =>
    simp only [startAbort, Machine.refuse] at h
    repeat' split at h
    all_goals cases h; exact FrameOk.same rfl rfl rfl rfl rfl ⟨rfl, rfl, rfl, rfl⟩ (.inl rfl)
  case s1 =>
    replace h := (readReg_next h).2
    obtain ⟨a, b, c, d, e, f, g⟩ := frame_code (s := s) h
    exact FrameOk.same (by simpa using a) (by simpa using b) (by simpa using c) (by simpa using d) (by simpa using e) (by simpa using f) (.inr ⟨_, by rw [g]; simp; rfl⟩)
  case s2 => replace h := (writeReg_next h).2; cases h; exact FrameOk.clear hq (by simp [State.poke]) (by simp [State.poke]) (by simp) (by simp [State.poke]) (by simp [State.poke]) (by simp) (.inr ⟨_, by simp; rfl⟩)
  case s3 =>
    replace h := (writeReg_next h).2
    cases h; first | exact (FrameOk.wr hwf hq _ (by simp only [State.storeAddress, hq])).goto _ _ | exact (FrameOk.wr hwf hq _ (by simp only [State.storeAddress, hq])).close _ _
  case s4 =>
    refine frame_wait ?_ h
    intro u t hu hf
    simp only [finish] at hu
    cases hu
    exact ⟨hf.store, hf.flags, hf.timer, hf.ar, hf.rb, hf.misc, hf.hist⟩

theorem code_lock {v} {u t : State} (h : engineOnCode v u = .next t) : t.lock = u.lock := by
  simp only [engineOnCode] at h
  split at h
  · rcases decodedAt_next h with ⟨c, _, h⟩ | ⟨_, h⟩
    · simp only [writeCheckOn, finish] at h
      split at h <;> cases h <;> simp
    · subst h; simp
  · rcases decodedAt_next h with ⟨c, _, h⟩ | ⟨_, h⟩
    · cases h; simp
    · subst h; simp
  · rcases decodedAt_next h with ⟨c, _, h⟩ | ⟨_, h⟩
    · simp only [scanOn] at h
      split at h
      · cases h; simp
      · rcases scanNext_next h with ⟨_, h⟩ | ⟨_, h⟩ <;> subst h <;> simp [State.noteSkipped]
      · rcases scanNext_next h with ⟨_, h⟩ | ⟨_, h⟩ <;> subst h <;> simp [State.noteSkipped]
    · subst h; simp
  · rcases decodedAt_next h with ⟨c, _, h⟩ | ⟨_, h⟩
    · simp only [busyTestOn] at h
      split at h
      · rcases waitAgain_next h with ⟨_, h⟩ | ⟨_, h⟩ <;> subst h <;> simp
      · cases h; simp
    · subst h; simp
  · rcases decodedAt_next h with ⟨c, _, h⟩ | ⟨_, h⟩
    · simp only [abortTestOn, finish] at h
      split at h <;> cases h <;> simp
    · subst h; simp
  · cases h; simp

theorem lock_init {s : State} {l : InitStep} {i : Fin 32} {n : Nat} {t : State} (h : initStep l i n s = .next t) :
    t.lock = s.lock := by
  cases l <;> simp only [initStep, validateAdmission, validateDma, validateTiming, validateFifo, rmwRead, rmwWrite,
      withHeader, mbWriteFlag, flagClear, mbWriteId, mbWriteD0, mbWriteD1, mbWriteCs, enterMode, finish] at h
  case v0 | v1 | v2 | v3 =>
    try simp only [Machine.refuse, raiseFatal] at h
    repeat' split at h
    all_goals cases h; rfl
  case a2 | a5 | a7 | a9 | b2 | c2 | f2 => rcases wait_cases h with ⟨_, h⟩ | h | ⟨f, h⟩ <;> cases h <;> simp
  case e3 =>
    split at h
    · replace h := (readReg_next h).2
      rw [code_lock h]; simp
    · cases h; simp
  case w5 =>
    split at h
    · replace h := (writeReg_next h).2
      simp only [nextMailbox] at h
      split at h <;> cases h <;> simp
    · cases h; simp
  case e1 =>
    split at h
    · replace h := (readReg_next h).2
      cases h; simp
    · cases h; simp
  case e2 | w1 | w2 | w3 | w4 =>
    split at h
    · replace h := (writeReg_next h).2
      cases h; simp
    · cases h; simp
  all_goals first
    | (replace h := (readReg_next h).2; cases h; simp; done)
    | (replace h := (writeReg_next h).2; cases h; simp; done)

theorem lock_transmit {s : State} {l : TransmitStep} {i : Fin 32} {t : State} (h : transmitStep l i s = .next t) :
    t.lock = s.lock := by
  cases l <;> simp only [transmitStep, mbWriteFlag, flagClear, mbWriteId, mbWriteD0, mbWriteD1, mbWriteCs, finish] at h
  case s0 =>
    simp only [startTransmit, Machine.refuse] at h
    repeat' split at h
    all_goals cases h; rfl
  case s1 => replace h := (readReg_next h).2; rw [code_lock h]; simp
  case s2 => exact code_lock h
  case s3 => replace h := (readReg_next h).2; cases h; simp
  all_goals replace h := (writeReg_next h).2; cases h; simp

theorem lock_abort {s : State} {m : Nat} {l : AbortStep} {i : Fin 32} {n : Nat} {t : State}
    (h : abortStep m l i n s = .next t) : t.lock = s.lock := by
  cases l <;> simp only [abortStep, flagClear] at h
  case s0 =>
    simp only [startAbort, Machine.refuse] at h
    repeat' split at h
    all_goals cases h; rfl
  case s1 => replace h := (readReg_next h).2; rw [code_lock h]; simp
  case s4 => rcases wait_cases h with ⟨_, h⟩ | h | ⟨f, h⟩ <;> first | (simp only [finish] at h; cases h; simp; done) | (cases h; simp; done)
  all_goals replace h := (writeReg_next h).2; cases h; simp

/-- The labels at which an operation can be refused. -/
def refusingLabels : List Position := [Position.btcalc .s0, .encode .s0, .decode .s0, .init .v0, .init .v2, .init .v3,
    .transmit .s0, .receive .s0,
           .abort .s0]

/-- How a step of a command ends, when the command is served. -/
inductive Ends (s t : State) : Prop where
  | goes (h : t.cmd = s.cmd)
  | refused (r : Refused) (h : t = s.refuse r) (hq : s.seq = .faulted ∨ ∃ p j n, s.seq = .run p j n ∧ p ∈ refusingLabels)
  | ok (v : OkValue) (h : t.result = .ok v) (hc : t.cmd = none) (hs : t.seq = .idle)
  | failNow (r : Result) (q : Seq) (h : t = s.close r q) (hr : (∃ f, r = .fatal f ∧ q = .faulted) ∨ (∃ e,
      r = .err e ∧ q = .idle))
  | failRead (rg : Reg) (w : Work) (L : Option Nat) (r : Result) (q : Seq) (hL : L = s.lock ∨ ∃ j n,
      s.seq = .run (.receive .s2) j n ∧ L = some j) (ht : rg ≠ .timer)
     (h : t = { ((s.afterRead rg).keep w) with lock := L }.close r q) (hr : (∃ f, r = .fatal f ∧ q = .faulted) ∨ (∃ e, r = .err e ∧ q = .idle))
  | failScan (w : Work) (r : Result) (q : Seq) (h : t = (s.keep w).close r q) (hr : (∃ f,
      r = .fatal f ∧ q = .faulted) ∨ (∃ e, r = .err e ∧ q = .idle))

theorem ends_wait {s t : State} {r b val p i n done} (hrt : r ≠ .timer) (hd : ∀ t, done (s.afterRead r) = .next t →
    (t.cmd = s.cmd ∨ ∃ v, t.result = .ok v ∧ t.cmd = none ∧
    t.seq = .idle)) (h : waitUntil r b val p i n done s = .next t) : Ends s t := by
  rcases wait_cases h with ⟨_, h⟩ | h | ⟨f, h⟩
  · rcases hd _ h with h | ⟨v, h, h1, h2⟩
    · exact .goes h
    · exact .ok v h h1 h2
  · subst h; exact .goes (by simp)
  · subst h
    exact .failRead r s.work s.lock _ _ (.inl rfl) hrt (by cases r <;> first | exact absurd rfl hrt | rfl) (.inl ⟨f, rfl, rfl⟩)

theorem engage_eq (c : Word) (i) (x : State) : x.engageLock i c = { x with lock := (x.engageLock i c).lock } := by
  simp only [State.engageLock]; split <;> rfl

theorem ends_code {s t : State} {v} {rg : Reg} (hrt : rg ≠ .timer) {w : Work} {L : Option Nat} (hL : L = s.lock ∨ ∃ j n, s.seq = .run (.receive .s2) j n ∧ L = some j) (h : engineOnCode v { ((s.afterRead rg).keep w) with lock := L } = .next t) : Ends s t := by
  have fr : ∀ r q, ((∃ f, r = .fatal f ∧ q = .faulted) ∨ (∃ e, r = .err e ∧ q = .idle)) → Ends s ({ ((s.afterRead rg).keep w) with lock := L }.close r q) := fun r q hr => .failRead rg w L r q hL hrt rfl hr
  have scan : ∀ {i e}, scanNext i (State.noteSkipped i e { ((s.afterRead rg).keep w) with lock := L }) = .next t → Ends s t := by
    intro i e h
    rcases scanNext_next h with ⟨_, h⟩ | ⟨_, h⟩ <;> subst h
    · exact .goes (by simp [State.noteSkipped])
    · exact .failRead rg { w with report := w.report.set i e } L _ _ hL hrt rfl (.inr ⟨_, rfl, rfl⟩)
  simp only [engineOnCode] at h
  split at h
  · rcases decodedAt_next h with ⟨c, _, h⟩ | ⟨_, h⟩
    · simp only [writeCheckOn, finish] at h
      split at h <;> cases h
      · exact .goes (by simp)
      · exact fr _ _ (.inr ⟨_, rfl, rfl⟩)
      · exact fr _ _ (.inr ⟨_, rfl, rfl⟩)
    · subst h; exact fr _ _ (.inl ⟨_, rfl, rfl⟩)
  · rcases decodedAt_next h with ⟨c, _, h⟩ | ⟨_, h⟩
    · cases h; exact .goes (by simp)
    · subst h; exact fr _ _ (.inl ⟨_, rfl, rfl⟩)
  · rcases decodedAt_next h with ⟨c, _, h⟩ | ⟨_, h⟩
    · simp only [scanOn] at h
      split at h
      · cases h; exact .goes (by simp)
      · exact scan h
      · exact scan h
    · subst h; exact fr _ _ (.inl ⟨_, rfl, rfl⟩)
  · rcases decodedAt_next h with ⟨c, _, h⟩ | ⟨_, h⟩
    · simp only [busyTestOn] at h
      split at h
      · rcases waitAgain_next h with ⟨_, h⟩ | ⟨_, h⟩ <;> subst h
        · exact .goes (by simp)
        · exact fr _ _ (.inl ⟨_, rfl, rfl⟩)
      · cases h; exact .goes (by simp)
    · subst h; exact fr _ _ (.inl ⟨_, rfl, rfl⟩)
  · rcases decodedAt_next h with ⟨c, _, h⟩ | ⟨_, h⟩
    · simp only [abortTestOn, finish] at h
      split at h <;> cases h
      · exact .goes (by simp)
      · exact .ok _ rfl rfl rfl
    · subst h; exact fr _ _ (.inl ⟨_, rfl, rfl⟩)
  · cases h; exact .goes (by simp)

theorem ends_init {s : State} {l : InitStep} {i : Fin 32} {n : Nat} (hq : s.seq = .run (.init l) i n) {t : State}
    (h : initStep l i n s = .next t) : Ends s t := by
  cases l <;> simp only [initStep, validateAdmission, validateDma, validateTiming, validateFifo, rmwRead, rmwWrite,
      withHeader, mbWriteFlag, flagClear, mbWriteId, mbWriteD0, mbWriteD1, mbWriteCs, enterMode, finish] at h
  case v0 | v1 | v2 | v3 =>
    try simp only [Machine.refuse, raiseFatal] at h
    repeat' split at h
    all_goals cases h
    all_goals first | exact .refused _ rfl (.inr ⟨_, _, _, hq, by decide⟩) | exact .failNow _ _ rfl (.inr ⟨_, rfl, rfl⟩) | exact .failNow _ _ rfl (.inl ⟨_, rfl, rfl⟩) | exact .goes rfl
  case a2 | a5 | a7 | a9 | b2 | c2 => exact ends_wait (by simp) (fun t ht => by cases ht; exact .inl (by simp)) h
  case f2 => exact ends_wait (by simp) (fun t ht => by cases ht; exact .inr ⟨_, rfl, rfl, rfl⟩) h
  case e3 =>
    split at h
    · replace h := (readReg_next h).2
      exact ends_code (rg := .mb i .cs) (w := s.work) (L := s.lock) (by simp) (.inl rfl) h
    · cases h; exact .goes rfl
  case w5 =>
    split at h
    · replace h := (writeReg_next h).2
      simp only [nextMailbox] at h
      split at h <;> cases h <;> exact .goes (by simp)
    · cases h; exact .goes rfl
  case e1 =>
    split at h
    · replace h := (readReg_next h).2
      cases h; exact .goes (by simp)
    · cases h; exact .goes rfl
  case e2 | w1 | w2 | w3 | w4 =>
    split at h
    · replace h := (writeReg_next h).2
      cases h; exact .goes (by simp)
    · cases h; exact .goes rfl
  all_goals first
    | (replace h := (readReg_next h).2; cases h; exact .goes (by simp))
    | (replace h := (writeReg_next h).2; cases h; exact .goes (by simp))

theorem ends_transmit {s : State} {l : TransmitStep} {i : Fin 32} {n : Nat}
    (hq : s.seq = .run (.transmit l) i n) {t : State} (h : transmitStep l i s = .next t) : Ends s t := by
  cases l <;> simp only [transmitStep, mbWriteFlag, flagClear, mbWriteId, mbWriteD0, mbWriteD1, mbWriteCs, finish] at h
  case s0 =>
    simp only [startTransmit, Machine.refuse] at h
    repeat' split at h
    all_goals cases h
    all_goals first | exact .refused _ rfl (.inr ⟨_, _, _, hq, by decide⟩) | exact .failNow _ _ rfl (.inr ⟨_, rfl, rfl⟩) | exact .failNow _ _ rfl (.inl ⟨_, rfl, rfl⟩) | exact .goes rfl
  case s1 =>
    replace h := (readReg_next h).2
    exact ends_code (rg := .mb i .cs) (w := { s.work with c := s.peek (.mb i .cs) }) (L := s.lock) (by simp) (.inl rfl) h
  case s2 =>
    simp only [engineOnCode, hq] at h
    rcases decodedAt_next h with ⟨c, _, h⟩ | ⟨_, h⟩
    · simp only [scanOn] at h
      split at h
      · cases h; exact .goes (by simp)
      · rcases scanNext_next h with ⟨_, h⟩ | ⟨_, h⟩ <;> subst h
        · exact .goes (by simp [State.noteSkipped])
        · exact .failScan _ _ _ rfl (.inr ⟨_, rfl, rfl⟩)
      · rcases scanNext_next h with ⟨_, h⟩ | ⟨_, h⟩ <;> subst h
        · exact .goes (by simp [State.noteSkipped])
        · exact .failScan _ _ _ rfl (.inr ⟨_, rfl, rfl⟩)
    · subst h; exact .failNow _ _ rfl (.inl ⟨_, rfl, rfl⟩)
  case s3 => replace h := (readReg_next h).2; cases h; exact .goes (by simp)
  case s8 => replace h := (writeReg_next h).2; cases h; exact .ok _ rfl rfl rfl
  all_goals replace h := (writeReg_next h).2; cases h; exact .goes (by simp)

theorem ends_receive {s : State} {m : Nat} {l : ReceiveStep} {i : Fin 32} {n : Nat}
    (hq : s.seq = .run (.receive l) i n) {t : State} (h : receiveStep m l i s = .next t) : Ends s t := by
  cases l <;> simp only [receiveStep, flagClear, finish, raiseFatal] at h
  case s0 =>
    simp only [startReceive, Machine.refuse] at h
    repeat' split at h
    all_goals cases h
    all_goals first | exact .refused _ rfl (.inr ⟨_, _, _, hq, by decide⟩) | exact .failNow _ _ rfl (.inr ⟨_, rfl, rfl⟩) | exact .failNow _ _ rfl (.inl ⟨_, rfl, rfl⟩) | exact .goes rfl
  case s1 =>
    replace h := (readReg_next h).2
    split at h <;> cases h
    · exact .goes (by simp)
    · exact .failRead .iflag s.work s.lock _ _ (.inl rfl) (by simp) rfl (.inr ⟨_, rfl, rfl⟩)
  case s2 =>
    replace h := (readReg_next h).2
    rw [engage_eq] at h
    refine ends_code (rg := .mb i .cs) (w := _) (L := _) (by simp) ?_ h
    simp only [State.engageLock]
    split
    all_goals first | exact .inr ⟨i, n, hq, rfl⟩ | exact .inl rfl
  case s6 =>
    split at h <;> cases h
    · exact .goes (by simp)
    · exact .failNow _ _ rfl (.inl ⟨_, rfl, rfl⟩)
  case s7 =>
    rcases decodedAt_next h with ⟨c, _, h⟩ | ⟨_, h⟩ <;> cases h
    · exact .goes (by simp)
    · exact .failNow _ _ rfl (.inl ⟨_, rfl, rfl⟩)
  case s8 => replace h := (writeReg_next h).2; cases h; exact .goes (by simp)
  case s9 => replace h := (readReg_next h).2; cases h; exact .ok _ rfl rfl rfl
  all_goals replace h := (readReg_next h).2; cases h; exact .goes (by simp)

theorem ends_abort {s : State} {m : Nat} {l : AbortStep} {i : Fin 32} {n : Nat}
    (hq : s.seq = .run (.abort l) i n) {t : State} (h : abortStep m l i n s = .next t) : Ends s t := by
  cases l <;> simp only [abortStep, flagClear] at h
  case s0 =>
    simp only [startAbort, Machine.refuse] at h
    repeat' split at h
    all_goals cases h
    all_goals first | exact .refused _ rfl (.inr ⟨_, _, _, hq, by decide⟩) | exact .failNow _ _ rfl (.inr ⟨_, rfl, rfl⟩) | exact .failNow _ _ rfl (.inl ⟨_, rfl, rfl⟩) | exact .goes rfl
  case s1 =>
    replace h := (readReg_next h).2
    exact ends_code (rg := .mb i .cs) (w := { s.work with c := s.peek (.mb i .cs) }) (L := s.lock) (by simp) (.inl rfl) h
  case s4 => exact ends_wait (by simp) (fun t ht => by simp only [finish] at ht; cases ht; exact .inr ⟨_, rfl, rfl, rfl⟩) h
  all_goals replace h := (writeReg_next h).2; cases h; exact .goes (by simp)

theorem ends_command {s t : State} {i : Instr} {op : Op} (ho : commandOp i = some op) (h : exec i s = .next t) :
    Ends s t := by
  cases hq : s.seq with
  | faulted => rw [exec_faulted ho hq] at h; cases h; exact .refused _ rfl (.inl hq)
  | idle => rw [exec_idle ho hq] at h; cases h; exact .goes rfl
  | run p j n =>
    cases i <;> cases ho
    · cases p with
      | btcalc l =>
        cases l
        rw [exec_btcalc_run hq] at h
        simp only [endBtcalc, finish, raiseFatal, Machine.refuse] at h
        split at h <;> cases h
        · exact .ok _ rfl rfl rfl
        · exact .failNow _ _ rfl (.inr ⟨_, rfl, rfl⟩)
        · exact .failNow _ _ rfl (.inl ⟨_, rfl, rfl⟩)
        · exact .refused _ rfl (.inr ⟨_, _, _, hq, by decide⟩)
      | _ => simp [execBtcalc, serve, hq] at h
    · cases p with
      | encode l =>
        cases l
        rw [exec_encode_run hq] at h
        simp only [encodeStep, finish, Machine.refuse] at h
        split at h <;> cases h
        · exact .ok _ rfl rfl rfl
        · exact .refused _ rfl (.inr ⟨_, _, _, hq, by decide⟩)
      | _ => simp [execEncode, serve, hq] at h
    · cases p with
      | decode l =>
        cases l
        rw [exec_decode_run hq] at h
        simp only [decodeStep, finish, raiseFatal, Machine.refuse] at h
        split at h
        · split at h <;> cases h
          · exact .ok _ rfl rfl rfl
          · exact .failNow _ _ rfl (.inl ⟨_, rfl, rfl⟩)
        · cases h; exact .refused _ rfl (.inr ⟨_, _, _, hq, by decide⟩)
      | _ => simp [execDecode, serve, hq] at h
    · cases p with
      | init l => rw [exec_init_run hq] at h; exact ends_init hq h
      | _ => simp [execInit, serve, hq] at h
    · cases p with
      | transmit l => rw [exec_transmit_run hq] at h; exact ends_transmit hq h
      | _ => simp [execTransmit, serve, hq] at h
    · cases p with
      | receive l => rw [exec_receive_run hq] at h; exact ends_receive hq h
      | _ => simp [execReceive, serve, hq] at h
    · cases p with
      | abort l => rw [exec_abort_run hq] at h; exact ends_abort hq h
      | _ => simp [execAbort, serve, hq] at h

theorem ends_codeRow {s t : State} {v} (h : engineOnCode v s = .next t) : Ends s t := by
  simp only [engineOnCode] at h
  have fr : ∀ r q, ((∃ f, r = .fatal f ∧ q = .faulted) ∨ (∃ e,
      r = .err e ∧ q = .idle)) → Ends s (s.close r q) := fun r q hr => .failNow r q rfl hr
  split at h
  · rcases decodedAt_next h with ⟨c, _, h⟩ | ⟨_, h⟩
    · simp only [writeCheckOn, finish] at h
      split at h <;> cases h
      · exact .goes (by simp)
      · exact fr _ _ (.inr ⟨_, rfl, rfl⟩)
      · exact fr _ _ (.inr ⟨_, rfl, rfl⟩)
    · subst h; exact fr _ _ (.inl ⟨_, rfl, rfl⟩)
  · rcases decodedAt_next h with ⟨c, _, h⟩ | ⟨_, h⟩
    · cases h; exact .goes (by simp)
    · subst h; exact fr _ _ (.inl ⟨_, rfl, rfl⟩)
  · rcases decodedAt_next h with ⟨c, _, h⟩ | ⟨_, h⟩
    · simp only [scanOn] at h
      split at h
      · cases h; exact .goes (by simp)
      all_goals
        rcases scanNext_next h with ⟨_, h⟩ | ⟨_, h⟩ <;> subst h
        · exact .goes (by simp [State.noteSkipped])
        · exact .failScan _ _ _ rfl (.inr ⟨_, rfl, rfl⟩)
    · subst h; exact fr _ _ (.inl ⟨_, rfl, rfl⟩)
  · rcases decodedAt_next h with ⟨c, _, h⟩ | ⟨_, h⟩
    · simp only [busyTestOn] at h
      split at h
      · rcases waitAgain_next h with ⟨_, h⟩ | ⟨_, h⟩ <;> subst h
        · exact .goes (by simp)
        · exact fr _ _ (.inl ⟨_, rfl, rfl⟩)
      · cases h; exact .goes (by simp)
    · subst h; exact fr _ _ (.inl ⟨_, rfl, rfl⟩)
  · rcases decodedAt_next h with ⟨c, _, h⟩ | ⟨_, h⟩
    · simp only [abortTestOn, finish] at h
      split at h <;> cases h
      · exact .goes (by simp)
      · exact .ok _ rfl rfl rfl
    · subst h; exact fr _ _ (.inl ⟨_, rfl, rfl⟩)
  · cases h; exact .goes (by simp)

theorem only_codeRow {s t : State} {v f} (hf : f = inert ∨ f = unconstrained ∨ f = completeAbort ∨
    f = completeTransmission ∨ (∃ st, f = beginReception st) ∨
    ∃ st, f = receiving st) (h : codeRow v f s = .next t) : Ends s t := by
  simp only [codeRow] at h
  split at h
  · cases h
    obtain ⟨_, _, _, _, e⟩ := only_controller hf _ _ s
    exact .goes (by rw [e]; rfl)
  all_goals exact ends_codeRow h

/-- Every instruction ends so. -/
theorem ends_all {s t : State} (i : Instr) (h : exec i s = .next t) : Ends s t := by
  cases i
  case btcalc | encode | decode | init | transmit | receive | abort => exact ends_command rfl h
  all_goals exact only_codeRow (by simp) h

/-- While an operation runs the host places nothing. -/
theorem issue_run {s : State} {p i n} (hq : s.seq = .run p i n) (w ops) : s.issue w ops = s := by
  cases hc : s.cmd <;> simp [State.issue, hq, hc]

end Sys2Proof.Machine
end

