-- ==== Sys2Proof/Laws/PerInstr.lean ====
section
/-! SUPPORT. One statement about every instruction as syntax: its encoding, numbered as spec/opcode_table.json numbers the
bits of its row, decodes to it. -/

namespace Sys2Proof

/-- The width and the number of a row of the table with its operand in place (30_encoding.md R90, R93). -/
def tableWord : Encoding → Nat × Nat
  | .command w => (32, w.toNat)
  | .code v => (4, v.toNat)

namespace Laws.TableWord

/-- The table's number for a well-formed instruction decodes to that instruction. -/
def Statement (i : Instr) : Prop :=
  Instr.wf i = true → decodeTableWord (tableWord (encode i)).1 (tableWord (encode i)).2 = some i

/-- A command word decodes as a row of the table exactly as it decodes from the command port. -/
theorem decodeTableWord_command (w : Word) {i : Instr} (h : decodeWord w = .ok i) :
    decodeTableWord 32 w.toNat = some i := by
  have hw := w.isLt
  simp [decodeTableWord, hw, h]

theorem btcalc : Statement .btcalc := fun _ => by decide

theorem encode : Statement .encode := fun _ => by decide

theorem decode : Statement .decode := fun _ => by decide

theorem init : Statement .init := fun _ => by decide

theorem transmit : Statement .transmit := fun _ => by decide

theorem receive (mbx : Nat) : Statement (.receive mbx) := by
  intro h
  simp only [Instr.wf, decide_eq_true_eq] at h
  refine decodeTableWord_command (commandWord 0x6#4 mbx) ?_
  rw [Machine.word_split _ _ h]
  simp [decodeSelector]
  omega

theorem abort (mbx : Nat) : Statement (.abort mbx) := by
  intro h
  simp only [Instr.wf, decide_eq_true_eq] at h
  refine decodeTableWord_command (commandWord 0x7#4 mbx) ?_
  rw [Machine.word_split _ _ h]
  simp [decodeSelector]
  omega

theorem codeRxInactive : Statement .codeRxInactive := fun _ => by decide

theorem codeRxInactiveBusy : Statement .codeRxInactiveBusy := fun _ => by decide

theorem codeRxFull : Statement .codeRxFull := fun _ => by decide

theorem codeRxFullBusy : Statement .codeRxFullBusy := fun _ => by decide

theorem codeRxEmpty : Statement .codeRxEmpty := fun _ => by decide

theorem codeRxEmptyBusy : Statement .codeRxEmptyBusy := fun _ => by decide

theorem codeRxOverrun : Statement .codeRxOverrun := fun _ => by decide

theorem codeRxOverrunBusy : Statement .codeRxOverrunBusy := fun _ => by decide

theorem codeTxInactive : Statement .codeTxInactive := fun _ => by decide

theorem codeTxAbort : Statement .codeTxAbort := fun _ => by decide

theorem codeRxRemoteAnswer : Statement .codeRxRemoteAnswer := fun _ => by decide

theorem codeRxRemoteAnswerBusy : Statement .codeRxRemoteAnswerBusy := fun _ => by decide

theorem codeTxDataOrRemotePending : Statement .codeTxDataOrRemotePending := fun _ => by decide

theorem codeUndecodable1101 : Statement .codeUndecodable1101 := fun _ => by decide

theorem codeTxRemoteAnswerPending : Statement .codeTxRemoteAnswerPending := fun _ => by decide

theorem codeUndecodable1111 : Statement .codeUndecodable1111 := fun _ => by decide

end Laws.TableWord

end Sys2Proof
end

