-- ==== Sys2Proof/Laws/Scan.lean ====
section
/-! SUPPORT. The scan and the five writes of `TRANSMIT` with no other agent in between. -/

namespace Sys2Proof.Machine

open Sys2Proof

/-- The scan of a `TRANSMIT` begun in `s` stands in `u` at mailbox `k`, every lower one skipped. -/
structure ScanAt (s : State) (w : Word) (f : CanFrame) (k : Fin 32) (rest : List Turn) (u : State) : Prop where
  seq : u.seq = .run (.transmit .s1) k 0
  cmd : u.cmd = some w
  script : u.script = rest
  mem : u.mem = s.mem
  params : u.params = s.params
  ctl : sameControl s u
  ifl : u.iflag = s.iflag
  hid : sameHidden s u
  mode : u.mode = .running
  mm : u.maxMailbox = s.maxMailbox
  frame : u.work.frame = f
  len : u.work.report.length = s.maxMailbox.toNat + 1
  below : ∀ j, j < k.val → u.work.report[j]? = some (if s.mbCode j = 0b1100#4 then .mailboxBusy else .mailboxConfigurationError)
  above : ∀ j, k.val ≤ j → j ≤ s.maxMailbox.toNat → u.work.report[j]? = some .none
  reads : readCount u.history = readCount s.history + k
  writes : writeCount u.history = writeCount s.history

/-- The report entry of a skipped mailbox (43_transmit.md R184). -/
def skipEntry (v : BitVec 4) : ReportEntry := if v = 0b1100#4 then .mailboxBusy else .mailboxConfigurationError

/-- The two steps of the scan at one mailbox. -/
theorem scan_two {s : State} {w : Word} {f : CanFrame} {k : Fin 32} {rest : List Turn} {u : State}
    (hd : decodeWord w = .ok .transmit) (h : ScanAt s w f k (.engine :: .engine :: rest) u)
   (hk : k.val < s.params.numMb) {o : Out} {code} (hv : codeValue (s.mbCode k) = some code)
   (ho : scanOn k code ({ (((u.afterRead (.mb k .cs)).keep { u.work with c := s.mbWord k .cs }).goto (.transmit .s2) k).endTurn with seq := .run (.transmit .s2) k 0}) = o) :
   runSteps 2 u = afterTurn o := by
  have hw : u.mbWord k .cs = s.mbWord k .cs := by simp only [State.mbWord, State.mbAddr, h.mem, h.params]
  have hc' : codeValue (codeOf (s.mbWord k .cs)) = some code := hv
  have e1 : exec .transmit u = .next (((u.afterRead (.mb k .cs)).keep { u.work with c := s.mbWord k .cs }).goto (.transmit .s2) k) := by
    rw [exec_transmit_run h.seq]
    simp only [transmitStep]
    rw [readReg_of_has (by simp [h.params, hk])]
    simp only [peek_mb, hw, engineOnCode, State.keep_seq, State.afterRead_seq, h.seq, decodedAt, hc', State.afterRead_work]
  have s1 := engine_step (rest := .engine :: rest) h.script h.cmd hd e1
  rw [runSteps_succ _ s1]
  generalize hu' : (State.goto (Position.transmit TransmitStep.s2) k (State.keep { u.work with c := s.mbWord k .cs } (State.afterRead (Reg.mb k MbWord.cs) u))).endTurn = u' at *
  have hq : u'.seq = .run (.transmit .s2) k 0 := by subst hu'; rfl
  have e2 : exec .transmit u' = o := by
    rw [exec_transmit_run hq]
    simp only [transmitStep]
    have : u'.work.c = s.mbWord k .cs := by subst hu'; rfl
    simp only [this, engineOnCode, hq, decodedAt, hc']
    rw [← ho]; subst hu'; rfl
  have st : step u' = afterTurn o := by
    rw [step_command (w := w) (i := .transmit) (turn_of_script (r := rest) (by subst hu'; simp [h.script])) (by subst hu'; simpa using h.cmd) hd, e2]
  simp only [runSteps, st]
  cases o <;> rfl

/-- The scan skips a mailbox. -/
theorem scanAt_skip {s : State} {w : Word} {f : CanFrame} {k : Fin 32} {rest : List Turn} {u : State}
    (hd : decodeWord w = .ok .transmit) (h : ScanAt s w f k (.engine :: .engine :: rest) u)
   (hmx : s.maxMailbox.toNat < s.params.numMb) (hk : k.val ≤ s.maxMailbox.toNat) (h1 : s.mbCode k ≠ 0b1000#4) (h2 : s.mbCode k ≠ 0b1101#4) (h3 : s.mbCode k ≠ 0b1111#4) :
   ∃ t, runSteps 2 u = .next t ∧
    (k.val < s.maxMailbox.toNat → ScanAt s w f (k+1) rest t) ∧
    (k.val = s.maxMailbox.toNat → t.result = .err (.bufferFull t.report) ∧ t.seq = .idle ∧ t.cmd = none ∧ sameBlock s t ∧
        sameHidden s t ∧ t.report.length = s.maxMailbox.toNat + 1 ∧
      (∀ j, j ≤ k.val →
          t.report[j]? = some (skipEntry (s.mbCode j))) ∧ readCount t.history = readCount s.history + (k + 1) ∧ writeCount t.history = writeCount s.history) := by
  obtain ⟨code, hcv⟩ : ∃ c, codeValue (s.mbCode k) = some c := by
    cases hv : codeValue (s.mbCode k) with
    | none => rcases (codeValue_eq_none _).1 hv with h | h <;> contradiction
    | some c => exact ⟨c, rfl⟩
  have hso : ∀ u' : State, scanOn k code u' = scanNext k (u'.noteSkipped k (skipEntry (s.mbCode k))) := by
    have hcb := codeBits_of_codeValue hcv
    intro u'
    simp only [scanOn]
    rw [← hcb] at h1 ⊢
    rcases code with ⟨st, b⟩ | st
    · cases st <;> cases b <;> simp [mbVerdict, skipEntry, codeBits, rxBits]
    · cases st <;> first | exact absurd rfl h1 | simp [mbVerdict, skipEntry, codeBits]
  have hr := scan_two hd h (by omega) hcv (o := _) rfl
  rw [hso] at hr
  rw [hr]
  have hlenk : k.val < u.work.report.length := by rw [h.len]; omega
  have hset : ∀ j, j < k.val + 1 → (u.work.report.set k (skipEntry (s.mbCode k)))[j]? = some (skipEntry (s.mbCode j)) := by
    intro j hj
    by_cases hjk : j = k.val
    · simp [hjk, hlenk]
    · rw [List.getElem?_set_ne (Ne.symm hjk)]; exact h.below j (by omega)
  by_cases hlt : k.val < s.maxMailbox.toNat
  · simp only [scanNext, State.noteSkipped, State.keep_maxMailbox, State.endTurn_maxMailbox, State.goto_maxMailbox,
      State.afterRead_maxMailbox, h.mm, hlt, if_true]
    have ek := succ_val_of_lt hlt
    refine ⟨_, rfl, fun _ => ?_, fun h => by omega⟩
    refine ⟨rfl, ?_, ?_, ?_, ?_, ?_, ?_, ?_, ?_, ?_, ?_, ?_, ?_, ?_, ?_, ?_⟩
    · exact h.cmd
    · show u.script.tail.tail = rest; rw [h.script]; rfl
    · exact h.mem
    · exact h.params
    · exact h.ctl
    · exact h.ifl
    · exact h.hid
    · exact h.mode
    · simpa using h.mm
    · exact h.frame
    · show (u.work.report.set k _).length = _; simpa using h.len
    · intro j hj; exact hset j (by rw [← ek]; exact hj)
    · intro j hj hj2
      show (u.work.report.set k _)[j]? = _
      rw [List.getElem?_set_ne (show k.val ≠ j by omega)]; exact h.above j (by omega) hj2
    · show readCount (.read _ _ :: u.history) = _
      have := h.reads
      simp only [readCount, List.filter_cons, if_true, List.length_cons] at *; omega
    · show writeCount (.read _ _ :: u.history) = _
      have := h.writes
      simpa only [writeCount, List.filter_cons, Bool.false_eq_true, if_false] using this
  · simp only [scanNext, State.noteSkipped, State.keep_maxMailbox, State.endTurn_maxMailbox, State.goto_maxMailbox,
      State.afterRead_maxMailbox, h.mm, hlt, if_false, finish]
    refine ⟨_, rfl, fun h => h.elim, fun hk => ?_⟩
    refine ⟨rfl, rfl, rfl, ?_, ?_, ?_, ?_, ?_, ?_⟩
    · refine ⟨h.ctl, h.ifl, fun a => ?_⟩
      show readByte u.mem a = _; rw [h.mem]
    · exact h.hid
    · show (u.work.report.set k _).length = _; simpa using h.len
    · intro j hj; exact hset j (by omega)
    · show readCount (.read _ _ :: u.history) = _
      have := h.reads
      simp only [readCount, List.filter_cons, if_true, List.length_cons] at *; omega
    · show writeCount (.read _ _ :: u.history) = _
      have := h.writes
      simpa only [writeCount, List.filter_cons, Bool.false_eq_true, if_false] using this

/-- The scan begins. -/
theorem scan_start {s : State} {w : Word} {f : CanFrame} {N : Nat} (hi : s.seq = .idle) (hc : s.cmd = some w)
    (hd : decodeWord w = .ok .transmit) (hm : s.mode = .running) (hf : checkFrame s.ops.frame = some f) :
   ∃ u, runSteps 2 (s.alone (2 + N)) = .next u ∧ ScanAt s w f 0 (List.replicate N .engine ++ s.script) u := by
  rw [show 2 + N = N + 1 + 1 by omega, runSteps_succ _ (begin_step (N + 1) hi hc hd rfl)]
  have e1 : exec .transmit (s.begun .transmit (N + 1)) = .next (((s.begun .transmit (N + 1)).keep { Work.empty with frame := f, report := List.replicate (s.maxMailbox.toNat + 1) .none }).goto (.transmit .s1) 0) := by
    rw [exec_transmit_run (l := .s0) (i := 0) (n := 0) rfl]
    have : (s.begun .transmit (N + 1)).mode = .running := hm
    have hf' : checkFrame (s.begun .transmit (N + 1)).ops.frame = some f := hf
    simp only [transmitStep, startTransmit, this, hf', ne_eq, not_true, if_false]; rfl
  rw [runSteps_succ _ (engine_step (s := s.begun .transmit (N + 1)) (rest := List.replicate N .engine ++ s.script) (w := w) rfl hc hd e1)]
  refine ⟨_, rfl, ?_⟩
  refine ⟨rfl, hc, rfl, rfl, rfl, ⟨rfl, rfl, rfl, rfl⟩, rfl, ⟨rfl, rfl, rfl⟩, hm, rfl, rfl, ?_, ?_, ?_, ?_, ?_⟩
  · show (List.replicate _ _).length = _; simp
  · intro j hj; exact absurd hj (Nat.not_lt_zero _)
  · intro j _ hj; show (List.replicate (s.maxMailbox.toNat + 1) ReportEntry.none)[j]? = _; rw [List.getElem?_replicate,
      if_pos (by omega)]
  · rfl
  · rfl

/-- The scan stands past `k` mailboxes none of which is free. -/
theorem scan_many {s : State} {w : Word} {f : CanFrame} (hd : decodeWord w = .ok .transmit)
    (hmx : s.maxMailbox.toNat < s.params.numMb) :
   ∀ (k : Nat) (rest : List Turn) (u : State), k ≤ s.maxMailbox.toNat → (∀ j,
       j < k → s.mbCode j ≠ 0b1000#4 ∧ s.mbCode j ≠ 0b1101#4 ∧ s.mbCode j ≠ 0b1111#4) →
     ScanAt s w f 0 (List.replicate (2 * k) .engine ++ rest) u → ∃ t, runSteps (2 * k) u = .next t ∧ ∃ i : Fin 32, i.val = k ∧ ScanAt s w f i rest t := by
  intro k
  induction k with
  | zero => intro rest u _ _ h; exact ⟨u, rfl, 0, rfl, by simpa using h⟩
  | succ k ih =>
    intro rest u hk hb h
    have e : List.replicate (2 * (k + 1)) Turn.engine ++ rest = List.replicate (2 * k) .engine ++ (.engine :: .engine :: rest) := by
      rw [show 2 * (k + 1) = 2 * k + 1 + 1 by omega, List.replicate_succ', List.replicate_succ']; simp
    rw [e] at h
    obtain ⟨t, ht, i, rfl, hs⟩ := ih (.engine :: .engine :: rest) u (by omega) (fun j hj => hb j (by omega)) h
    obtain ⟨t', ht', hn,
        _⟩ := scanAt_skip hd hs hmx (by omega) (hb i (by omega)).1 (hb i (by omega)).2.1 (hb i (by omega)).2.2
    refine ⟨t', ?_, i + 1, succ_val_of_lt (m := s.maxMailbox) (by omega), hn (by omega)⟩
    rw [show 2 * (i.val + 1) = 2 * i.val + 2 by omega, runSteps_add, ht]; exact ht'

/-- The five writes of a `TRANSMIT` begun in `s` are in progress in `u`. -/
structure WAt (s : State) (w : Word) (wk : Work) (u : State) : Prop where
  cmd : u.cmd = some w
  params : u.params = s.params
  ctl : sameControl s u
  hid : sameHidden s u
  mode : u.mode = .running
  mm : u.maxMailbox = s.maxMailbox
  work : u.work = wk
  wf : Memory.wf u.mem = true

theorem WAt.lp {s w wk u} (h : WAt s w wk u) (hl : s.lpmack = false) : u.lpmack = false := by
  have := h.ctl.1; simpa only [State.lpmack, this] using hl

theorem WAt.flag {s w wk u v p} {i : Fin 32} (h : WAt s w wk u) {t} (ht : ((u.afterWrite .iflag v).goto p i).endTurn = t) :
    WAt s w wk t := by
  subst ht
  exact ⟨h.cmd, h.params, h.ctl, h.hid, h.mode, h.mm, h.work, h.wf⟩

theorem WAt.words {s w wk u v p} {i : Fin 32} {x} (h : WAt s w wk u) (hl : s.lpmack = false) {t}
    (ht : ((u.afterWrite (.mb i x) v).goto p i).endTurn = t) (j y) :
    t.mbWord j y = if j = i ∧ y = x then v else u.mbWord j y := by
  subst ht
  simp [mbWord_afterWrite_mb h.wf (h.lp hl)]

theorem WAt.mb {s w wk u v p} {i : Fin 32} {x} (h : WAt s w wk u) (hx : x ≠ MbWord.cs) {t}
    (ht : ((u.afterWrite (.mb i x) v).goto p i).endTurn = t) : WAt s w wk t := by
  subst ht
  have hh : sameHidden u (u.afterWrite (.mb i x) v) := by
    simp only [sameHidden, State.afterWrite_lock, State.afterWrite_abortReq, State.afterWrite_rxBegun, State.poke,
        State.pokeMb]
    split
    · exact ⟨by simp, rfl, rfl⟩
    · cases x <;> first | exact absurd rfl hx | simp
  refine ⟨by simpa using h.cmd, by simpa using h.params, by simpa [sameControl] using h.ctl, ?_, by simpa using h.mode,
      by simpa using h.mm, by simpa using h.work, by simpa using wf_afterWrite h.wf _ _⟩
  obtain ⟨a, b, c⟩ := h.hid
  obtain ⟨a', b', c'⟩ := hh
  exact ⟨a'.trans a, b'.trans b, c'.trans c⟩

theorem ofNat_self (i : Fin 32) : Fin.ofNat 32 i.val = i := by
  apply Fin.ext; exact Nat.mod_eq_of_lt i.isLt

/-- Acceptance and admission of `ABORT`. -/
theorem abort_begins {s : State} {w : Word} {i : Fin 32} {rest : List Turn} (hsc : s.script = .engine :: .engine :: rest)
    (hi : s.seq = .idle) (hc : s.cmd = some w)
    (hd : decodeWord w = .ok (.abort i)) (hm : s.mode = .running) (hle : i.val ≤ s.maxMailbox.toNat) :
    ∃ u, runSteps 2 s = .next u ∧ u = { s with seq := .run (.abort .s1) i 0, work := Work.empty, script := rest, tick := u.tick } := by
  rw [runSteps_succ _ (engine_step hsc hc hd (exec_idle rfl hi))]
  have e1 : exec (.abort i) (s.goto Op.abort.start 0).endTurn = .next (((s.goto Op.abort.start 0).endTurn.keep Work.empty).goto (.abort .s1) i) := by
    rw [exec_abort_run (l := .s0) (i := 0) (n := 0) rfl]
    simp only [abortStep, startAbort, ofNat_self]
    rw [if_neg (by intro h; exact h hm), if_neg (by show ¬ s.maxMailbox.toNat < i.val; omega)]
  rw [runSteps_succ _ (engine_step (s := (s.goto Op.abort.start 0).endTurn) (rest := rest) (w := w) (by show s.script.tail = _; rw [hsc]; rfl) hc hd e1)]
  refine ⟨_, rfl, ?_⟩
  simp [State.endTurn, State.goto, State.keep, hsc]

theorem mbLive_of_inv {s : State} (h : s.Inv) (hm : s.mode = .running) {i : Nat} (hle : i ≤ s.maxMailbox.toNat) :
    s.mbLive i = true := by
  obtain ⟨hl, hf, hmx, _⟩ := h.phase.running hm
  obtain ⟨⟨h1, h2, h3⟩, _, _⟩ := hl
  have := h.structural.maxMailbox
  simp only [State.mbLive, State.active, h2, h3, hf, hmx, Bool.and_eq_true, Bool.not_false, decide_eq_true_eq, true_and]
  exact ⟨hle, by omega⟩

end Sys2Proof.Machine
end

