-- ==== Sys2Proof/Tests/Slice0.lean ====
section
/-! SUPPORT. Tests: the well-formedness smoke test, written-out words for every constructor, single steps with results from
spec/95_test_vectors.md, and for every statement of Obligations.lean that has hypotheses a witness that meets them. -/

namespace Sys2Proof.Tests

open Sys2Proof Sys2Proof.Machine

/-! ## Well-formedness -/

theorem test_wf_receive_index_256 : Instr.wf (.receive 256) = false := by decide
theorem test_wf_abort_index_256 : Instr.wf (.abort 256) = false := by decide
theorem test_wf_last_index : Instr.wf (.receive 255) = true ∧ Instr.wf (.abort 255) = true := by decide
theorem test_wf_params : Params.wf ⟨0, none, 0⟩ = false ∧ Params.wf ⟨33, none, 0⟩ = false ∧
    Params.wf ⟨32, none, 2⟩ = false := by decide
theorem test_wf_frame_nine_bytes : CanFrame.wf (.data (.base 0#11) [1, 2, 3, 4, 5, 6, 7, 8, 9]) = false := by decide
theorem test_wf_memory : Memory.wf [(4, 1#8), (4, 2#8)] = false ∧ Memory.wf [(8, 1#8), (4, 2#8)] = false ∧
    Memory.wf [(4, 0#8)] = false := by decide

/-! ## Words written out from the tables (30_encoding.md R90, R93) -/

theorem test_decode_commands :
    decodeWord 0b0001_00000000000000000000_00000000#32 = .ok .btcalc ∧
    decodeWord 0b0010_00000000000000000000_00000000#32 = .ok .encode ∧
    decodeWord 0b0011_00000000000000000000_00000000#32 = .ok .decode ∧
    decodeWord 0b0100_00000000000000000000_00000000#32 = .ok .init ∧
    decodeWord 0b0101_00000000000000000000_00000000#32 = .ok .transmit ∧
    decodeWord 0b0110_00000000000000000000_00000011#32 = .ok (.receive 3) ∧
    decodeWord 0b0111_00000000000000000000_00011111#32 = .ok (.abort 31) := by decide

theorem test_decode_receive_codes :
    decodeCode 0b0000#4 = .codeRxInactive ∧ decodeCode 0b0001#4 = .codeRxInactiveBusy ∧
    decodeCode 0b0010#4 = .codeRxFull ∧ decodeCode 0b0011#4 = .codeRxFullBusy ∧
    decodeCode 0b0100#4 = .codeRxEmpty ∧ decodeCode 0b0101#4 = .codeRxEmptyBusy ∧
    decodeCode 0b0110#4 = .codeRxOverrun ∧ decodeCode 0b0111#4 = .codeRxOverrunBusy ∧
    decodeCode 0b1010#4 = .codeRxRemoteAnswer ∧ decodeCode 0b1011#4 = .codeRxRemoteAnswerBusy := by decide

theorem test_decode_transmit_codes :
    decodeCode 0b1000#4 = .codeTxInactive ∧ decodeCode 0b1001#4 = .codeTxAbort ∧
    decodeCode 0b1100#4 = .codeTxDataOrRemotePending ∧ decodeCode 0b1101#4 = .codeUndecodable1101 ∧
    decodeCode 0b1110#4 = .codeTxRemoteAnswerPending ∧ decodeCode 0b1111#4 = .codeUndecodable1111 := by decide

/-- L2-8. -/
theorem test_decode_rejects :
    decodeWord 0x00000000#32 = .error (.reservedSelector 0x0#4) ∧
    decodeWord 0x80000000#32 = .error (.reservedSelector 0x8#4) ∧
    decodeWord 0xF0000000#32 = .error (.reservedSelector 0xF#4) ∧
    decodeWord 0x10000001#32 = .error (.unexpectedMailbox 1#8) ∧
    decodeWord 0x60000100#32 = .error .nonZeroReserved := by decide

/-! ## Packing (L2-3) -/

theorem test_pack_id :
    packId 0#3 (.base 0x123#11) = 0x048C0000#32 ∧ packId 7#3 (.base 0x7FF#11) = 0xFFFC0000#32 ∧
    packId 7#3 (.extended 0x1FFFFFFF#29) = 0xFFFFFFFF#32 ∧ packId 1#3 (.extended 0x123#29) = 0x20000123#32 ∧
    unpackId false 0x048FFFFF#32 = .base 0x123#11 ∧ unpackId true 0x048C0000#32 = .extended 0x048C0000#29 := by decide

theorem test_pack_data :
    packData (.data (.base 0#11) [1, 2, 3, 4, 5]) 0 = 0x01020304#32 ∧
    packData (.data (.base 0#11) [1, 2, 3, 4, 5]) 1 = 0x05000000#32 ∧
    unpackData 0x11223344#32 0x55FFFFFF#32 5 = [0x11, 0x22, 0x33, 0x44, 0x55] := by decide

theorem test_pack_cs :
    packCs txDefault fillerFrame = 0x08000000#32 ∧ packCs rxDefault fillerFrame = 0x04000000#32 ∧
    packCs ⟨true, .receive .empty false, 0xBEEF#16, 5#3⟩ fillerFrame = 0x2400BEEF#32 ∧
    packCs ⟨false, .transmit .dataOrRemotePending, 0#16, 0#3⟩ (.remote (.extended 0x1ABCDE#29)) = 0x0C300000#32 ∧
    unpackCs 0xFFFFFFFF#32 = ⟨true, 0b1111#4, true, true, 15#4, 0xFFFF#16⟩ := by decide

theorem test_btr_image :
    configureBtr ⟨0#32, 0#32, false, false, true, false, false, false⟩ ⟨0, 1, 2, 1, 1⟩ 0#32 = 0x00511001#32 ∧
    configureBtr ⟨0#32, 0#32, false, false, false, true, false, false⟩ ⟨6, 5, 6, 7, 3⟩ 0x00002000#32 = 0x06F72005#32 := by
  decide

/-! ## Small states -/

/-- `Running`, four mailboxes in use, nothing in them. -/
def ready : State := { State.reset with mode := .running, maxMailbox := 3#5, gcr := 3#32 }

/-- The command `w` is on the port, the engine's turns follow. -/
def issued (w : Word) (s : State) : State := { s with cmd := some w, script := [.engine, .engine] }

/-- The sequencer stands at `p` on mailbox `i`. -/
def standing (p : Position) (i : Fin 32) (s : State) : State := { s with seq := .run p i 0, script := [.engine] }

/-- Mailbox `i` holds these four words. -/
def filled (i : Nat) (cs id d0 d1 : Word) (s : State) : State :=
  (((s.setMbWord i .cs cs).setMbWord i .id id).setMbWord i .d0 d0).setMbWord i .d1 d1

/-- The controller's turn on mailbox `i`. -/
def turning (i : Nat) (m : MbMove) (s : State) : State := { s with script := [.mailbox i m] }

/-- The next state, or the reset state where there is none. -/
def out (o : Out) : State :=
  match o with
  | .next t => t
  | .fault _ => State.reset
  | .refused _ => State.reset

/-- The outcome is a next state. -/
def isNext (o : Out) : Bool :=
  match o with
  | .next _ => true
  | .fault _ => false
  | .refused _ => false

theorem next_of_isNext {o : Out} (h : isNext o = true) : o = .next (out o) := by
  cases o <;> simp_all [isNext, out]

/-- The operands of L1-3, L2-7 and P1. -/
def p1Settings : CanSettings := ⟨8000000#32, 1000000#32, true, false, true, false, false, false⟩
def p1Headers : List HeaderOperand :=
  [⟨false, .value (.transmit .inactive), 0#16, 0⟩, ⟨false, .value (.receive .empty false), 0#16, 0⟩]
def p2Frame : CanFrame := .data (.base 0x123#11) [1, 2, 3, 4, 5, 6, 7, 8]
def p2Operand : FrameOperand := .data (.base 0x123) [1, 2, 3, 4, 5, 6, 7, 8]

/-! ## One step of each command -/

/-- L2-1: 80 MHz, 500 kbit/s. -/
theorem test_btcalc : (out (exec .btcalc { standing (.btcalc .s0) 0 ready with
      ops := { OperandPort.low with sourceFrequency := 80000000#32, canFrequency := 500000#32 } })).result =
    .ok (.bitTiming ⟨6, 5, 6, 7, 3⟩) := by decide

/-- L2-1: `5 * C` does not wrap. -/
theorem test_btcalc_no_wrap : (out (exec .btcalc { standing (.btcalc .s0) 0 ready with
      ops := { OperandPort.low with sourceFrequency := 4000000000#32, canFrequency := 1000000000#32 } })).result =
    .err .settingsError := by decide

/-- L2-2. -/
theorem test_encode : (out (exec .encode { standing (.encode .s0) 0 ready with
      ops := { OperandPort.low with code := .value (.receive .remoteAnswer false) } })).result =
    .ok (.code4 0b1010#4) := by decide

/-- L2-2. -/
theorem test_decode : (out (exec .decode { standing (.decode .s0) 0 ready with
      ops := { OperandPort.low with bits4 := 9 } })).result = .ok (.code (.transmit .abort)) := by decide

/-- L2-2. -/
theorem test_decode_undecodable :
    (out (exec .decode { standing (.decode .s0) 0 ready with ops := { OperandPort.low with bits4 := 13 } })).result =
      .fatal (.undecodableCode 0b1101#4 none) ∧
    (out (exec .decode { standing (.decode .s0) 0 ready with ops := { OperandPort.low with bits4 := 13 } })).seq =
      .faulted := by decide

/-- L2-7: the clock test comes before the FIFO refusal. -/
theorem test_init_validates : (out (exec .init (standing (.init .v2) 0 { State.reset with
      work := { Work.empty with
        settings := { p1Settings with sourceFrequency := 10#32, canFrequency := 3#32, fifoEnabled := true } } }))).result =
    .err .settingsError := by decide

/-- R25: acceptance and nothing else. -/
theorem test_accept : (out (step (issued 0x50000000#32 ready))).seq = .run (.transmit .s0) 0 0 ∧
    (out (step (issued 0x50000000#32 ready))).cmd = some 0x50000000#32 ∧
    (out (step (issued 0x50000000#32 ready))).history = [] := by decide

/-- P1 D1: the word written. -/
theorem test_init_d1 : (out (exec .init (standing (.init .d1w) 0 { State.reset with
      gcr := 0x5100000F#32
      mode := .frozen
      work := { Work.empty with settings := p1Settings, headers := [txDefault, rxDefault], t := 0x5100000F#32 } }))).gcr =
    0x51000001#32 := by decide

/-- L2-4, fourth row from the end: indicator, timestamp and priority carried over. -/
theorem test_transmit_arms : (out (exec .transmit (standing (.transmit .s8) 0 { ready with
      work := { Work.empty with
        c := 0x2800ABCD#32
        w := 0x60000000#32
        frame := .data (.base 1#11) [0xFF] } }))).mbWord 0 .cs = 0x2C01ABCD#32 := by decide

/-- L2-4: the undecodable code ends the scan. -/
theorem test_transmit_undecodable : (out (exec .transmit (standing (.transmit .s1) 1
      (filled 1 0x0D000000#32 0#32 0#32 0#32 ready)))).result = .fatal (.undecodableCode 0b1101#4 (some 1)) := by decide

/-- P3 row 6: busy, the lock engaged, one failing read. -/
theorem test_receive_busy :
    (out (exec (.receive 1) (standing (.receive .s2) 1 (filled 1 0x03230042#32 0#32 0#32 0#32 ready)))).lock = some 1 ∧
    (out (exec (.receive 1) (standing (.receive .s2) 1 (filled 1 0x03230042#32 0#32 0#32 0#32 ready)))).seq =
      .run (.receive .s2) 1 1 := by decide

/-- P3 row 8: the frame. -/
theorem test_receive_frame : (out (exec (.receive 1) (standing (.receive .s6) 1 { ready with
      work := { Work.empty with
        c := 0x06050100#32
        w := 0x00400000#32
        d0 := 0x11223344#32
        d1 := 0x55000000#32 } }))).work.frame = .data (.base 0x010#11) [0x11, 0x22, 0x33, 0x44, 0x55] := by decide

/-- L2-6: the word of S3. -/
theorem test_abort_requests :
    (out (exec (.abort 0) (standing (.abort .s3) 0 { filled 0 0x0C080000#32 0#32 0#32 0#32 ready with
      work := { Work.empty with c := 0x0C080000#32 } }))).mbWord 0 .cs = 0x09080000#32 ∧
    (out (exec (.abort 0) (standing (.abort .s3) 0 { filled 0 0x0C080000#32 0#32 0#32 0#32 ready with
      work := { Work.empty with c := 0x0C080000#32 } }))).abortReq = [0] := by decide

/-- L2-6: a receive mailbox is left alone. -/
theorem test_abort_not_armed :
    (out (exec (.abort 0) (standing (.abort .s1) 0 (filled 0 0x04000000#32 0#32 0#32 0#32 ready)))).result =
      .ok (.optionalFrame none) := by decide

/-! ## One move of the controller under each code -/

/-- P2 row 3: transmission complete, timer 0x1234. -/
theorem test_code_pending :
    (out (step (turning 0 (.act false) { filled 0 0x0C080000#32 0#32 0#32 0#32 ready with timer := 0x1234#32 }))).mbWord 0
      .cs = 0x08081234#32 := by decide

/-- P3 row 1: reception begins. -/
theorem test_code_empty : (out (step (turning 1 (.act false) (filled 1 0x04000000#32 0#32 0#32 0#32 ready)))).mbWord 1 .cs =
    0x05000000#32 := by decide

/-- P3 row 2: the control-word fields. -/
theorem test_code_empty_busy_fields :
    (out (step (turning 1 (.writeCsFields 0xFF230042#32) (filled 1 0x05000000#32 0#32 0#32 0#32 ready)))).mbWord 1 .cs =
      0x25230042#32 := by decide

/-- P3 row 4: reception ends, the timer at 0x0042 (10_state.md R38). -/
theorem test_code_empty_busy_ends :
    (out (step (turning 1 (.act false)
      { filled 1 0x05230000#32 0#32 0#32 0#32 ready with timer := 0x42#32 }))).mbWord 1 .cs = 0x02230042#32 ∧
    (out (step (turning 1 (.act false)
      { filled 1 0x05230000#32 0#32 0#32 0#32 ready with timer := 0x42#32 }))).iflag = 0x00000002#32 := by decide

/-- P3 row 5: a second reception begins. -/
theorem test_code_full : (out (step (turning 1 (.act false) (filled 1 0x02230042#32 0#32 0#32 0#32 ready)))).mbWord 1 .cs =
    0x03230042#32 := by decide

/-- R84: not while the lock holds the mailbox. -/
theorem test_code_full_locked :
    (out (step (turning 1 (.act false) { filled 1 0x02230042#32 0#32 0#32 0#32 ready with lock := some 1 }))).mbWord 1 .cs =
      0x02230042#32 := by decide

/-- P3 row 7: it ends as `Overrun`. -/
theorem test_code_full_busy : (out (step (turning 1 (.act false)
      { filled 1 0x03050100#32 0#32 0#32 0#32 ready with timer := 0x100#32 }))).mbWord 1 .cs = 0x06050100#32 := by decide

/-- R84, R85. -/
theorem test_code_overrun :
    (out (step (turning 1 (.act false) (filled 1 0x06050100#32 0#32 0#32 0#32 ready)))).mbWord 1 .cs = 0x07050100#32 ∧
    (out (step (turning 1 (.act false)
      { filled 1 0x07050100#32 0#32 0#32 0#32 ready with timer := 0x100#32 }))).mbWord 1 .cs = 0x06050100#32 := by decide

/-- L2-6: the two ends of an abort. -/
theorem test_code_abort :
    (out (step (turning 0 (.act false) { filled 0 0x09080000#32 0#32 0#32 0#32 ready with abortReq := [0] }))).iflag = 1#32 ∧
    (out (step (turning 0 (.act true) { filled 0 0x09080000#32 0#32 0#32 0#32 ready with abortReq := [0] }))).mbCode 0 =
      0b1000#4 := by decide

/-- R89: no request, no move. -/
theorem test_code_abort_unrequested :
    (out (step (turning 0 (.act true) (filled 0 0x09080000#32 0#32 0#32 0#32 ready)))).mem =
      (filled 0 0x09080000#32 0#32 0#32 0#32 ready).mem := by decide

/-- R89: the inactive codes. -/
theorem test_code_inactive :
    (out (step (turning 0 (.scramble 1#32 2#32 3#32 4#32 true) (filled 0 0x08000000#32 0#32 0#32 0#32 ready)))).mem =
      (filled 0 0x08000000#32 0#32 0#32 0#32 ready).mem ∧
    (out (step (turning 0 (.scramble 1#32 2#32 3#32 4#32 true) (filled 0 0x00000007#32 0#32 0#32 0#32 ready)))).mem =
      (filled 0 0x00000007#32 0#32 0#32 0#32 ready).mem := by decide

/-- R87: any word and the flag, under each of its six codes. -/
theorem test_code_unexplained_busy :
    (out (step (turning 0 (.scramble 0xA5A5A5A5#32 2#32 3#32 4#32 true) (filled 0 0x01000000#32 0#32 0#32 0#32 ready)))).mbWord
      0 .cs = 0xA5A5A5A5#32 ∧
    (out (step (turning 0 (.scramble 0xA5A5A5A5#32 2#32 3#32 4#32 true) (filled 0 0x0B000000#32 0#32 0#32 0#32 ready)))).mbWord
      0 .cs = 0xA5A5A5A5#32 := by decide

theorem test_code_unexplained_answer :
    (out (step (turning 0 (.scramble 0xA5A5A5A5#32 2#32 3#32 4#32 true) (filled 0 0x0A000000#32 0#32 0#32 0#32 ready)))).mbWord
      0 .cs = 0xA5A5A5A5#32 ∧
    (out (step (turning 0 (.scramble 0xA5A5A5A5#32 2#32 3#32 4#32 true) (filled 0 0x0E000000#32 0#32 0#32 0#32 ready)))).mbWord
      0 .cs = 0xA5A5A5A5#32 := by decide

theorem test_code_unexplained_undecodable :
    (out (step (turning 0 (.scramble 0xA5A5A5A5#32 2#32 3#32 4#32 true) (filled 0 0x0D000000#32 0#32 0#32 0#32 ready)))).mbWord
      0 .cs = 0xA5A5A5A5#32 ∧
    (out (step (turning 0 (.scramble 0xA5A5A5A5#32 2#32 3#32 4#32 true) (filled 0 0x0F000000#32 0#32 0#32 0#32 ready)))).mbWord
      0 .cs = 0xA5A5A5A5#32 := by decide

/-- The controller is not active in freeze mode (10_state.md R44). -/
theorem test_code_frozen : (out (step (turning 0 (.act false)
      { filled 0 0x0C080000#32 0#32 0#32 0#32 ready with gcr := 0x51000003#32 }))).mbWord 0 .cs = 0x0C080000#32 := by decide

/-! ## States that meet the invariant -/

/-- A state of the running phase meets the invariant when its sequencer and its progress do. -/
theorem running_inv {s : State} (hp : s.params = Params.atReset) (hm : Memory.wf s.mem = true) (hx : s.maxMailbox = 3#5)
    (ha : s.abortReq = []) (hb : s.rxBegun = []) (hmode : s.mode = .running) (hg : s.gcr = 3#32) (hr : s.rxmask = 0#32)
    (hi : ∀ l i n, s.seq ≠ .run (.init l) i n) (hso : s.seqOk) (hpr : s.progress) : s.Inv := by
  refine ⟨⟨by rw [hp]; decide, hm, by rw [hx, hp]; decide, hso, ?_, ?_⟩, ⟨fun _ => ?_, fun l i n h => absurd h (hi l i n)⟩,
    ⟨⟨?_, ?_, fun _ => hb, ?_, fun h => absurd hmode h⟩, hpr⟩⟩
  · rw [ha]; exact List.Pairwise.nil
  · rw [hb]; exact List.Pairwise.nil
  · simp only [State.normalOperation, State.leaving, State.awake, State.mdis, State.softrst, State.lpmack, State.frz,
      State.halt, State.frzack, State.maxmb, hg, hx, hr]
    decide
  · rw [ha]; simp
  · rw [hb]; simp
  · rw [hb]; simp

/-- An idle state of the running phase. -/
theorem idle_inv {s : State} (hp : s.params = Params.atReset) (hm : Memory.wf s.mem = true) (hx : s.maxMailbox = 3#5)
    (ha : s.abortReq = []) (hb : s.rxBegun = []) (hmode : s.mode = .running) (hg : s.gcr = 3#32) (hr : s.rxmask = 0#32)
    (hq : s.seq = .idle) (hw : s.work = Work.empty) : s.Inv :=
  running_inv hp hm hx ha hb hmode hg hr (by simp [hq]) (by simpa [State.seqOk, hq] using hw) (by simp [State.progress, hq])

/-- `TRANSMIT` before its last write, mailbox 0 skipped, mailbox 1 chosen. -/
def txState : State := { filled 1 0x08000000#32 0x048C0000#32 0x01020304#32 0x05060708#32 ready with
  cmd := some 0x50000000#32
  seq := .run (.transmit .s8) 1 0
  script := [.engine]
  work := { Work.empty with
    frame := p2Frame
    report := [.mailboxBusy, .none, .none, .none]
    c := 0x08000000#32 } }

theorem txState_inv : txState.Inv := by
  refine running_inv rfl (by decide) rfl rfl rfl rfl rfl rfl (by intro l i n h; cases h) ?_ ?_
  · exact ⟨by decide, (fun h => by cases h), fun _ => ⟨rfl, by decide, by decide, by decide⟩⟩
  · refine ⟨fun _ k hk => ?_, ⟨by decide, by decide⟩, by decide, by decide, by decide, by decide⟩
    replace hk : k ≤ 3 := hk
    interval_cases k <;> decide

/-- `RECEIVE` before its read of TIMER, with the whole frame of L2-5. -/
def rxState : State := { filled 1 0x02230042#32 0x1FFFFFFF#32 0xAABBCC00#32 0x00000000#32 ready with
  cmd := some 0x60000001#32
  seq := .run (.receive .s9) 1 0
  script := [.engine]
  lock := some 1
  work := { Work.empty with
    frame := .data (.extended 0x1FFFFFFF#29) [0xAA, 0xBB, 0xCC]
    header := ⟨false, .receive .full false, 0x0042#16, 0#3⟩
    c := 0x02230042#32
    w := 0x1FFFFFFF#32
    d0 := 0xAABBCC00#32 } }

theorem rxState_inv : rxState.Inv := by
  refine running_inv rfl (by decide) rfl rfl rfl rfl rfl rfl (by intro l i n h; cases h) ?_ ?_
  · exact ⟨1, by decide, (fun h => by cases h), fun _ => ⟨rfl, rfl, by decide⟩⟩
  · exact ⟨⟨.receive .full false, by decide, by decide⟩, by decide, ⟨.receive .full false, by decide, by decide⟩,
      fun _ => ⟨by decide, by decide, by decide, by decide, by decide⟩⟩

/-- `ABORT` in the hang of L2-6, row 5. -/
def hangState : State := { filled 0 0x09080000#32 0#32 0#32 0#32 ready with
  cmd := some 0x70000000#32
  seq := .run (.abort .s4) 0 0
  script := [.engine]
  work := { Work.empty with c := 0x0C080000#32 } }

theorem hangState_inv : hangState.Inv := by
  refine running_inv rfl (by decide) rfl rfl rfl rfl rfl rfl (by intro l i n h; cases h) ?_ ?_
  · exact ⟨0, by decide, (fun h => by cases h), fun _ => ⟨rfl, rfl, by decide⟩⟩
  · show codeOf 0x0C080000#32 = 0b1100#4
    decide

/-- `INIT` at a label of its last phases, one header. -/
def initState (l : InitStep) (gcr cs : Word) : State := { filled 0 cs 0#32 0#32 0#32 State.reset with
  mode := .frozen
  gcr := gcr
  btr := 0x00511001#32
  cmd := some 0x40000000#32
  seq := .run (.init l) 0 0
  script := [.engine]
  work := { Work.empty with settings := p1Settings, headers := [txDefault], bt := ⟨0, 1, 2, 1, 1⟩ } }

theorem initOperands_initState (l : InitStep) (gcr cs : Word) :
    State.initOperands l (initState l gcr cs) := by
  refine ⟨fun _ h hh => ?_, fun _ => (by decide : p1Settings.dmaEnable = true → p1Settings.fifoEnabled = true),
    fun _ => (by decide : btcalc 8000000 1000000 = .ok ⟨0, 1, 2, 1, 1⟩),
    fun _ => rfl⟩
  rw [List.mem_singleton.1 hh]
  decide

theorem e3State_inv : (initState .e3 0x51000000#32 0x08000000#32).Inv := by
  refine ⟨⟨by decide, by decide, by decide, ⟨by decide, (fun h => by cases h), fun _ => ⟨by decide, by decide, by decide⟩⟩,
      List.Pairwise.nil, List.Pairwise.nil⟩,
    ⟨fun h => ?_, fun l i n h => ?_⟩, ⟨⟨fun i h => ?_, fun i h => ?_, fun _ => rfl, fun i h => ?_, fun _ => ⟨rfl, rfl⟩⟩, ?_⟩⟩
  · cases h
  · cases h
    refine ⟨initOperands_initState _ _ _, rfl, ⟨⟨⟨by decide, by decide, by decide⟩, by decide, by decide⟩, by decide⟩,
      by show Btr.clksrc.bit _ = _; decide, ⟨by decide, by decide, by decide, by decide, by decide, by decide⟩,
      ⟨by decide, by decide, by decide, by decide, by decide, by decide⟩, by decide⟩
  · cases h
  · cases h
  · cases h
  · refine ⟨by intro j h hj; omega, fun h hh => ?_⟩
    cases hh
    decide

theorem f2State_inv : (initState .f2 0x00000000#32 0x08000000#32).Inv := by
  refine ⟨⟨by decide, by decide, by decide, ⟨by decide, (fun h => by cases h), fun _ => ⟨by decide, by decide, by decide⟩⟩,
      List.Pairwise.nil, List.Pairwise.nil⟩,
    ⟨fun h => ?_, fun l i n h => ?_⟩, ⟨⟨fun i h => ?_, fun i h => ?_, fun _ => rfl, fun i h => ?_, fun _ => ⟨rfl, rfl⟩⟩, ?_⟩⟩
  · cases h
  · cases h
    refine ⟨initOperands_initState _ _ _, rfl, ⟨⟨by decide, by decide, by decide⟩, by decide, by decide⟩,
      by show Btr.clksrc.bit _ = _; decide, ⟨by decide, by decide, by decide, by decide, by decide, by decide⟩,
      ⟨by decide, by decide, by decide, by decide, by decide, by decide⟩, by decide⟩
  · cases h
  · cases h
  · cases h
  · intro j h hj _
    match j, hj with
    | 0, hj => cases hj; exact ⟨⟨by decide, by decide, by decide, by decide⟩, by decide⟩
    | j + 1, hj => cases hj

/-- A reception in progress in mailbox 1 of a disabled module; the freeze acknowledgment is drawn 1 next. -/
def pausedState : State := { filled 1 0x05000000#32 0#32 0#32 0#32 State.reset with
  gcr := 0x00100003#32
  timer := 0x42#32
  rxBegun := [1]
  script := [.freeze true] }

theorem pausedState_inv : pausedState.Inv := by
  refine ⟨⟨by decide, by decide, by decide, rfl, List.Pairwise.nil, List.pairwise_singleton _ _⟩,
    ⟨(fun h => by cases h), (fun l i n h => by cases h)⟩,
    ⟨⟨fun i h => (by cases h), fun i h => ?_, fun h => (by revert h; decide), fun i h => ?_, fun _ => ⟨rfl, rfl⟩⟩, trivial⟩⟩
  · obtain rfl := List.mem_singleton.1 h
    exact ⟨by decide, .inr (.inl (by decide))⟩
  · obtain rfl := List.mem_singleton.1 h
    decide

/-- 10_state.md R44, 20_memory.md R85: when FRZACK becomes 1 the reception has ended, `Full`, its flag set. -/
theorem test_freeze_finishes :
    (out (step pausedState)).mbWord 1 .cs = 0x02000042#32 ∧ (out (step pausedState)).iflag = 2#32 ∧
    (out (step pausedState)).frzack = true ∧ (out (step pausedState)).rxBegun = [] := by decide

/-! ## Witnesses: for each statement with hypotheses, operands that meet them -/

theorem wit_DecodeOfEncode : Instr.wf (.receive 255) = true ∧ Instr.wf (.abort 0) = true := by decide

theorem wit_EncodeOfDecode :
    decode (.command 0x700000FF#32) = .ok (.abort 255) ∧ decode (.code 0b1111#4) = .ok .codeUndecodable1111 := by decide

theorem wit_IllegalCommandRefused :
    (issued 0x60000100#32 ready).seq = .idle ∧ (issued 0x60000100#32 ready).turn = .engine ∧
    (issued 0x60000100#32 ready).cmd = some 0x60000100#32 ∧ decodeWord 0x60000100#32 = .error .nonZeroReserved := by decide

theorem wit_StepRunsFetched :
    ((issued 0x60000000#32 ready).turn = .engine ∧ (issued 0x60000000#32 ready).cmd = some 0x60000000#32 ∧
      decodeWord 0x60000000#32 = .ok (.receive 0)) ∧
    ((turning 31 (.act true) ready).turn = .mailbox 31 (.act true) ∧ 31 < (turning 31 (.act true) ready).params.numMb) ∧
    ({ ready with script := [.engine] } : State).turn = .engine ∧ ({ ready with script := [.engine] } : State).cmd = none ∧
    ({ ready with script := [.lowPower] } : State).turn = .lowPower := by decide

/-- A faulted engine with a command. -/
def faultedState : State := { issued 0x20000000#32 ready with seq := .faulted }

theorem wit_FaultedIsFinal :
    faultedState.seq = .faulted ∧ faultedState.turn = .engine ∧ faultedState.cmd = some 0x20000000#32 ∧
    ∃ t, step faultedState = .next t :=
  ⟨rfl, rfl, rfl, _, next_of_isNext (by decide)⟩

theorem wit_HostIssuesEngineAccepts :
    (({ ready with script := [.host 0x60000001#32 OperandPort.low] } : State).turn = .host 0x60000001#32 OperandPort.low ∧
      ready.seq = .idle ∧ ready.cmd = none ∧ ({ faultedState with cmd := none } : State).seq = .faulted) ∧
    ((standing (.receive .s4) 1 ready).seq = .run (.receive .s4) 1 0 ∧ (issued 0x60000001#32 ready).cmd ≠ none) ∧
    ((issued 0x60000001#32 ready).turn = .engine ∧ (issued 0x60000001#32 ready).seq = .idle ∧
      decodeWord 0x60000001#32 = .ok (.receive 1) ∧ decodeWord 0x7000001F#32 = .ok (.abort 31)) ∧
    isNext (step { standing (.receive .s2) 1 ready with cmd := some 0x60000001#32 }) = true := by decide

/-- `BTCALC` with these operands. -/
def clocks (S C : BitVec 32) : State :=
  { standing (.btcalc .s0) 0 ready with ops := { OperandPort.low with sourceFrequency := S, canFrequency := C } }

theorem wit_BtcalcComputes : ∀ S ∈ [8, 6399],
    (clocks (BitVec.ofNat 32 S) 1#32).seq = .run (.btcalc .s0) 0 0 ∧ (clocks (BitVec.ofNat 32 S) 1#32).ops.sourceFrequency.toNat = S ∧
    (clocks (BitVec.ofNat 32 S) 1#32).ops.canFrequency.toNat = 1 ∧ 0 < 1 ∧ S % 1 = 0 ∧ 8 ≤ S / 1 ∧ S / 1 < 6400 := by
  decide

theorem wit_BtcalcRejects :
    (clocks 5#32 0#32).seq = .run (.btcalc .s0) 0 0 ∧ (clocks 5#32 0#32).ops.canFrequency.toNat = 0 ∧
    (0 < 3 ∧ (10 % 3 ≠ 0 ∨ 10 < 5 * 3)) ∧ (0 < 1 ∧ (4 % 1 ≠ 0 ∨ 4 < 5 * 1)) ∧ (clocks 0#32 5#32).ops.sourceFrequency.toNat = 0 ∧
    (0 < 1 ∧ 6400 % 1 = 0 ∧ 6400 ≤ 6400 / 1) ∧ (5 / 1 = 5 ∧ 7 / 1 = 7) ∧
    isNext (exec .btcalc (clocks 5#32 1#32)) = true ∧
    (out (exec .btcalc (clocks 5#32 1#32))).result = .fatal (.tqsOutOfRange 5) := by decide

theorem wit_BtcalcDerivedFacts :
    (25, 7, 7, 7, 3) ∈ segmentTable ∧ (8, 1, 2, 1, 1) ∈ segmentTable ∧ btcalc 8 1 = .ok ⟨0, 1, 2, 1, 1⟩ ∧
    btcalc 24 1 = .ok ⟨0, 6, 7, 7, 3⟩ ∧ btcalc 25 1 = .ok ⟨1, 2, 3, 3, 2⟩ ∧ btcalc 6399 1 = .ok ⟨255, 6, 7, 7, 3⟩ := by decide

theorem wit_EncodeGivesCode :
    (standing (.encode .s0) 0 { ready with
      ops := { OperandPort.low with code := .value (.transmit .remoteAnswerPending) } }).seq = .run (.encode .s0) 0 0 ∧
    (0b1110#4, .transmit .remoteAnswerPending) ∈ codeTable ∧ codeBits (.receive .full true) = 0b0011#4 := by decide

theorem wit_DecodeGivesValue :
    (standing (.decode .s0) 31 ready).seq = .run (.decode .s0) 31 0 ∧
    ({ ready with ops := { OperandPort.low with bits4 := 15 } } : State).ops.bits4 = (0b1111#4).toNat ∧
    ({ ready with ops := { OperandPort.low with bits4 := 0 } } : State).ops.bits4 = (0b0000#4).toNat ∧
    (0b0000#4, .receive .inactive false) ∈ codeTable := by decide

theorem wit_CodecLaws : codeValue 0b1010#4 = some (.receive .remoteAnswer false) := by decide

/-- The least operands that break each invariant. -/
theorem wit_InvalidOperandRefused :
    15 < ({ ready with ops := { OperandPort.low with bits4 := 16 } } : State).ops.bits4 ∧
    ({ ready with ops := { OperandPort.low with code := .malformed 0b10100#5 } } : State).ops.code = .malformed 0b10100#5 ∧
    8 < ([1, 2, 3, 4, 5, 6, 7, 8, 9] : List Byte).length ∧ 0x7FF < 0x800 ∧ 0x1FFFFFFF < 0x20000000 ∧
    (standing (.transmit .s0) 0 ready).mode = .running ∧
    (standing (.transmit .s0) 0 ready).seq = .run (.transmit .s0) 0 0 ∧
    (standing (.init .v0) 0 State.reset).mode ≠ .running ∧ (standing (.init .v0) 0 State.reset).seq = .run (.init .v0) 0 0 ∧
    (standing (.encode .s0) 0 ready).seq = .run (.encode .s0) 0 0 ∧ (standing (.decode .s0) 0 ready).seq = .run (.decode .s0) 0 0 ∧
    State.reset.ops.headers = [] ∧ State.reset.params.numMb < 33 ∧ 7 < 8 := by decide

theorem wit_ControlWordRoundTrip : CanFrame.wf (.data (.extended 0x1FFFFFFF#29) [1, 2, 3, 4, 5, 6, 7, 8]) = true := by decide

theorem wit_PayloadRoundTrip :
    ([1, 2, 3, 4, 5, 6, 7, 8] : List Byte).length ≤ 8 ∧ 7 < 8 ∧
    (∀ k, k < 5 → laneAt 0x11223344#32 0x55FFFFFF#32 k = laneAt 0x11223344#32 0x55000000#32 k) := by decide

theorem wit_RegisterAddresses :
    Params.wf Params.atReset = true ∧ Params.has Params.atReset (.mb 31 .d1) = true ∧
    Params.has Params.atReset .gcr = true ∧ Reg.mb 31 .d1 ≠ .gcr := by decide

theorem wit_ReadAfterWrite : Memory.wf ready.mem = true ∧ ready.lpmack = false ∧ 31 < ready.params.numMb := by decide

theorem wit_FlagClearClearsOneBit : 31 < 32 ∧ 0 < 32 := by decide

theorem wit_TimerReadReleasesLock :
    Params.has rxState.params .timer = true ∧ Params.has rxState.params (.mb 31 .cs) = true ∧ rxState.lock = some 1 := by decide

/-- `RECEIVE` reads a control word of each kind. -/
def rxReads (cs : Word) : State := standing (.receive .s2) 1 (filled 1 cs 0#32 0#32 0#32 ready)

theorem wit_LockEngagedByReceiveOnly_receive :
    isNext (exec (.receive 1) (rxReads 0x04000000#32)) = true ∧ isNext (exec (.receive 1) (rxReads 0x01000000#32)) = true ∧
    isNext (exec (.receive 1) (rxReads 0x08000000#32)) = true ∧
    codeValue ((rxReads 0x04000000#32).mbCode 1) = some (.receive .empty false) ∧
    codeValue ((rxReads 0x01000000#32).mbCode 1) = some (.receive .inactive true) ∧
    codeValue ((rxReads 0x08000000#32).mbCode 1) = some (.transmit .inactive) := by decide

theorem wit_LockEngagedByReceiveOnly_others :
    isNext (exec .transmit (standing (.transmit .s1) 1 ready)) = true ∧
    isNext (exec (.abort 1) (standing (.abort .s1) 1 ready)) = true ∧
    isNext (exec .init (initState .e1 0x51000000#32 0#32)) = true ∧
    isNext (exec .init (initState .e3 0x51000000#32 0#32)) = true := by decide

/-- `INIT` at a label of validation, from power-on. -/
def initOps (l : InitStep) (st : CanSettings) : State :=
  { standing (.init l) 0 State.reset with
    ops := { OperandPort.low with settings := st, headers := p1Headers }
    work := { Work.empty with settings := st, headers := [txDefault, rxDefault] } }

theorem wit_InitValidates :
    ((initOps .v0 p1Settings).seq = .run (.init .v0) 0 0 ∧ (initOps .v1 p1Settings).seq = .run (.init .v1) 0 0 ∧
      (initOps .v2 p1Settings).seq = .run (.init .v2) 0 0 ∧ (initOps .v3 p1Settings).seq = .run (.init .v3) 0 0) ∧
    ready.mode = .running ∧ (initOps .v0 p1Settings).mode ≠ .running ∧
    checkHeaderSequence 32 State.reset.ops.headers = none ∧
    checkHeaderSequence 32 (initOps .v0 p1Settings).ops.headers = some [txDefault, rxDefault] ∧
    btcalc 10 3 = .settingsError ∧ btcalc 6000000 1000000 = .tqsOutOfRange 6 ∧ btcalc 5 0 = .refused .canFrequencyZero ∧
    btcalc p1Settings.sourceFrequency.toNat p1Settings.canFrequency.toNat = .ok ⟨0, 1, 2, 1, 1⟩ ∧
    (initOps .v1 p1Settings).work.settings = p1Settings ∧ p1Settings.dmaEnable = false ∧ p1Settings.fifoEnabled = false ∧
    ({ p1Settings with dmaEnable := true } : CanSettings).dmaEnable = true ∧
    ({ p1Settings with fifoEnabled := true } : CanSettings).fifoEnabled = true := by decide

theorem wit_InitGlobalAccesses :
    (standing (.init .a1r) 0 State.reset).seq = .run (.init .a1r) 0 0 ∧
    (standing (.init .d1w) 0 State.reset).seq = .run (.init .d1w) 0 0 ∧
    (standing (.init .d2w) 0 State.reset).seq = .run (.init .d2w) 0 0 ∧
    (standing (.init .d3) 0 State.reset).seq = .run (.init .d3) 0 0 := by decide

theorem wit_InitMailboxAccesses (l : InitStep) :
    0 < (initState l 0x51000000#32 0#32).params.numMb ∧ (initState l 0x51000000#32 0#32).work.headers[0]? = some txDefault ∧
    (initState l 0x51000000#32 0#32).seq = .run (.init l) 0 0 := ⟨(by decide : 0 < 32), rfl, rfl⟩

/-- A bound of three failing reads. -/
def bounded (p : Position) (n : Nat) (gcr cs : Word) : State :=
  { filled 0 cs 0#32 0#32 0#32 State.reset with
    params := ⟨32, some 3, 0⟩
    gcr := gcr
    seq := .run p 0 n
    mem := (filled 0 cs 0#32 0#32 0#32 { State.reset with params := ⟨32, some 3, 0⟩ }).mem }

theorem wit_WaitsReadAgain :
    (bounded (.init .a2) 3 0x00100000#32 0#32).gcr.getLsbD 20 = true ∧
    (bounded (.init .a2) 3 0#32 0#32).gcr.getLsbD 20 ≠ true ∧
    exceeds (bounded (.init .a2) 2 0#32 0#32).params.waitLimit (2 + 1) = false ∧
    exceeds (bounded (.init .a2) 3 0#32 0#32).params.waitLimit (3 + 1) = true ∧
    (bounded (.init .f2) 3 0x01000000#32 0#32).frzack = true ∧
    (bounded (.abort .s4) 3 0#32 0#32).flag 0 = false ∧
    codeValue ((bounded (.receive .s2) 3 0#32 0x05000000#32).mbCode 0) = some (.receive .empty true) := by decide

theorem wit_InitCheckAlwaysFree :
    (initState .e3 0x51000000#32 0x08000000#32).Inv ∧
    (initState .e3 0x51000000#32 0x08000000#32).seq = .run (.init .e3) 0 0 := ⟨e3State_inv, rfl⟩

theorem wit_InitLeavesConfigured :
    (initState .f2 0x00000000#32 0x08000000#32).Inv ∧
    (initState .f2 0x00000000#32 0x08000000#32).seq = .run (.init .f2) 0 0 ∧
    (initState .f2 0x00000000#32 0x08000000#32).frzack = false ∧
    (initState .f2 0x00000000#32 0x08000000#32).work.headers[0]? = some txDefault ∧
    txDefault.code = .transmit .inactive := ⟨f2State_inv, rfl, by decide, rfl, rfl⟩

theorem wit_ModeTransitions :
    txState.Structural ∧ txState.mode = .running ∧ ∃ t, step txState = .next t :=
  ⟨txState_inv.structural, rfl, _, next_of_isNext (by decide)⟩

theorem wit_AdmissionByMode :
    ((standing (.transmit .s0) 0 State.reset).seq = .run (.transmit .s0) 0 0 ∧
      (standing (.receive .s0) 0 State.reset).seq = .run (.receive .s0) 0 0 ∧
      (standing (.abort .s0) 0 State.reset).seq = .run (.abort .s0) 0 0 ∧ (standing (.abort .s0) 0 State.reset).mode ≠ .running) ∧
    ((standing (.init .v0) 0 ready).seq = .run (.init .v0) 0 0 ∧ (standing (.init .v0) 0 ready).mode = .running ∧
      (standing (.receive .s0) 0 ready).seq = .run (.receive .s0) 0 0 ∧
      (standing (.abort .s0) 0 ready).seq = .run (.abort .s0) 0 0) ∧
    ready.maxMailbox.toNat < 4 ∧ (3 : Fin 32).val = 3 ∧ 3 ≤ ready.maxMailbox.toNat ∧
    checkFrame p2Operand = some p2Frame := by decide

theorem wit_ScanVerdicts :
    (standing (.transmit .s2) 3 ready).turn = .engine ∧ (standing (.transmit .s2) 3 ready).seq = .run (.transmit .s2) 3 0 ∧
    (2 : Fin 32).val < ready.maxMailbox.toNat ∧ ready.maxMailbox.toNat ≤ (3 : Fin 32).val := by decide

theorem wit_OtherVerdicts :
    ((standing (.init .e3) 0 ready).turn = .engine ∧ (standing (.init .e3) 0 ready).seq = .run (.init .e3) 0 0 ∧
      (standing (.receive .s2) 0 ready).seq = .run (.receive .s2) 0 0 ∧
      (standing (.abort .s1) 0 ready).seq = .run (.abort .s1) 0 0 ∧
      (standing (.transmit .s1) 0 ready).seq = .run (.transmit .s1) 0 0) ∧
    (standing (.abort .s1) 31 ready).turn = .engine ∧ (31 : Fin 32).val < (standing (.abort .s1) 31 ready).params.numMb ∧
    (initState .e3 0x51000000#32 0#32).turn = .engine ∧
    (0 : Fin 32).val < (initState .e3 0x51000000#32 0#32).work.headers.length := by decide

/-- `TRANSMIT` issued, mailboxes 0 to 3 with these control words. -/
def txIssued (c0 c1 c2 c3 : Word) : State :=
  { (((issued 0x50000000#32 ready).setMbWord 0 .cs c0).setMbWord 1 .cs c1).setMbWord 2 .cs c2 |>.setMbWord 3 .cs c3 with
    ops := { OperandPort.low with frame := p2Operand } }

theorem wit_TransmitChoosesLowestFree :
    (txIssued 0x0C000000#32 0x04000000#32 0x09000000#32 0x08000000#32).Inv ∧
    ((txIssued 0x0C000000#32 0x04000000#32 0x09000000#32 0x08000000#32).cmd = some 0x50000000#32 ∧
      decodeWord 0x50000000#32 = .ok .transmit ∧ checkFrame p2Operand = some p2Frame ∧
      3 ≤ (txIssued 0x0C000000#32 0x04000000#32 0x09000000#32 0x08000000#32).maxMailbox.toNat ∧
      (txIssued 0x0C000000#32 0x04000000#32 0x09000000#32 0x08000000#32).mbCode 3 = 0b1000#4 ∧
      ∀ k, k < 3 →
        (txIssued 0x0C000000#32 0x04000000#32 0x09000000#32 0x08000000#32).mbCode k ≠ 0b1000#4 ∧
        (txIssued 0x0C000000#32 0x04000000#32 0x09000000#32 0x08000000#32).mbCode k ≠ 0b1101#4 ∧
        (txIssued 0x0C000000#32 0x04000000#32 0x09000000#32 0x08000000#32).mbCode k ≠ 0b1111#4) :=
  ⟨idle_inv rfl (by decide) rfl rfl rfl rfl rfl rfl rfl rfl, by decide⟩

/-- L1-4. -/
theorem wit_TransmitBufferFull :
    (txIssued 0x0C000000#32 0x0C000000#32 0x0C000000#32 0x0C000000#32).Inv ∧
    ∀ k, k ≤ 3 →
      (txIssued 0x0C000000#32 0x0C000000#32 0x0C000000#32 0x0C000000#32).mbCode k ≠ 0b1000#4 ∧
      (txIssued 0x0C000000#32 0x0C000000#32 0x0C000000#32 0x0C000000#32).mbCode k ≠ 0b1101#4 ∧
      (txIssued 0x0C000000#32 0x0C000000#32 0x0C000000#32 0x0C000000#32).mbCode k ≠ 0b1111#4 :=
  ⟨idle_inv rfl (by decide) rfl rfl rfl rfl rfl rfl rfl rfl, by decide⟩

theorem wit_TransmitArmsChosen : txState.Inv ∧ txState.seq = .run (.transmit .s8) 1 0 := ⟨txState_inv, rfl⟩

theorem wit_ReceiveEmpty :
    ((standing (.receive .s1) 31 ready).seq = .run (.receive .s1) 31 0 ∧ (standing (.receive .s1) 31 ready).flag 31 = false) ∧
    (issued 0x60000003#32 ready).Inv ∧ decodeWord 0x60000003#32 = .ok (.receive 3) ∧
    3 ≤ (issued 0x60000003#32 ready).maxMailbox.toNat ∧ (issued 0x60000003#32 ready).flag 3 = false :=
  ⟨by decide, idle_inv rfl (by decide) rfl rfl rfl rfl rfl rfl rfl rfl, by decide, by decide, by decide⟩

/-- L2-5, second row. -/
def rxIssued : State :=
  { issued 0x60000001#32 (filled 1 0x02230042#32 0x1FFFFFFF#32 0xAABBCC00#32 0#32 ready) with iflag := 2#32 }

theorem wit_ReceiveReturnsFrame :
    rxIssued.Inv ∧ rxIssued.cmd = some 0x60000001#32 ∧ decodeWord 0x60000001#32 = .ok (.receive 1) ∧
    1 ≤ rxIssued.maxMailbox.toNat ∧ rxIssued.flag 1 = true ∧ codeValue (rxIssued.mbCode 1) = some (.receive .full false) ∧
    buildFrame (rxIssued.mbWord 1 .cs) (rxIssued.mbWord 1 .id) (rxIssued.mbWord 1 .d0) (rxIssued.mbWord 1 .d1) =
      some (.data (.extended 0x1FFFFFFF#29) [0xAA, 0xBB, 0xCC]) :=
  ⟨idle_inv rfl (by decide) rfl rfl rfl rfl rfl rfl rfl rfl, rfl, by decide, by decide, by decide, by decide, by decide⟩

theorem wit_ReceiveWholeFrame :
    rxState.Inv ∧ rxState.seq = .run (.receive .s9) 1 0 ∧ codeOf rxState.work.c = 0b0010#4 := ⟨rxState_inv, rfl, by decide⟩

/-- Length codes 8 and 9, and a remote frame with 15. -/
theorem wit_ReceiveDlcOutOfRange :
    (standing (.receive .s6) 0 ready).seq = .run (.receive .s6) 0 0 ∧
    ((0x02080000#32).getLsbD 20 = false ∧ ((0x02080000#32).extractLsb' 16 4).toNat ≤ 8) ∧
    ((0x02090000#32).getLsbD 20 = false ∧ 8 < ((0x02090000#32).extractLsb' 16 4).toNat) ∧
    (0x021F0000#32).getLsbD 20 = true := by decide

/-- P2 after row 1, then the controller's completion and the host's command. -/
def roundTrip : State :=
  { filled 0 0x0C080000#32 0x048C0000#32 0x01020304#32 0x05060708#32 ready with
    script := .mailbox 0 (.act false) :: .host 0x60000000#32 OperandPort.low :: (List.replicate 11 .engine ++ []) }

theorem wit_TransmitReceiveRoundTrip :
    roundTrip.Inv ∧ roundTrip.cmd = none ∧ 0 ≤ roundTrip.maxMailbox.toNat ∧ CanFrame.wf p2Frame = true ∧
    roundTrip.mbHolds 0 ⟨false, .transmit .dataOrRemotePending, 0#16, 0#3⟩ p2Frame ∧
    roundTrip.script = .mailbox 0 (.act false) :: .host (0x60000000#32 ||| BitVec.ofNat 32 0) OperandPort.low ::
      (List.replicate 11 .engine ++ []) :=
  ⟨idle_inv rfl (by decide) rfl rfl rfl rfl rfl rfl rfl rfl, rfl, by decide, by decide,
    ⟨by decide, by decide, by decide, by decide⟩, rfl⟩

theorem wit_AbortNotArmed :
    (issued 0x70000001#32 ready).Inv ∧ decodeWord 0x70000001#32 = .ok (.abort 1) ∧
    (issued 0x70000001#32 ready).mbCode 1 = 0b0000#4 :=
  ⟨idle_inv rfl (by decide) rfl rfl rfl rfl rfl rfl rfl rfl, by decide, by decide⟩

/-- `ABORT 0` issued on an armed mailbox, with these turns. -/
def abIssued (script : List Turn) : State :=
  { filled 0 0x0C080000#32 0#32 0#32 0#32 ready with cmd := some 0x70000000#32, script := script }

theorem abIssued_inv (script : List Turn) : (abIssued script).Inv :=
  idle_inv rfl (by decide : Memory.wf (filled 0 0x0C080000#32 0#32 0#32 0#32 ready).mem = true) rfl rfl rfl rfl rfl rfl rfl rfl

theorem wit_AbortOnArmed :
    (abIssued (List.replicate 5 .engine ++ .mailbox 0 (.act true) :: .engine :: [])).Inv ∧
    decodeWord 0x70000000#32 = .ok (.abort 0) ∧ (abIssued []).mbCode 0 = 0b1100#4 ∧
    ({ hangState with iflag := 1#32 } : State).seq = .run (.abort .s4) 0 0 ∧
    ({ hangState with iflag := 1#32 } : State).flag 0 = true :=
  ⟨abIssued_inv _, by decide, by decide, by decide, by decide⟩

theorem wit_AbortHangs :
    (abIssued (.engine :: .engine :: .engine :: .mailbox 0 (.act false) :: .engine :: .engine :: [])).Inv ∧
    (abIssued []).params.waitLimit = none ∧ hangState.Inv ∧ hangState.abortHang 0 ∧ ∃ t, step hangState = .next t :=
  ⟨abIssued_inv _, rfl, hangState_inv, ⟨⟨0, rfl⟩, by decide, by decide, by decide, rfl⟩, _, next_of_isNext (by decide)⟩

/-- The controller's turn on a mailbox with control word `cs`; `ready` uses mailboxes 0 to 3. -/
def moved (i : Nat) (cs : Word) (m : MbMove) : State := turning i m (filled i cs 0#32 0#32 0#32 ready)

theorem wit_TransmissionCompletes :
    (Memory.wf (moved 3 0x0C100000#32 (.act true)).mem = true ∧ (moved 3 0x0C100000#32 (.act true)).params.numMb ≤ 32 ∧
      (moved 3 0x0C100000#32 (.act true)).turn = .mailbox 3 (.act true) ∧
      (moved 3 0x0C100000#32 (.act true)).mbCode 3 = 0b1100#4 ∧ (moved 3 0x0C100000#32 (.act true)).active = true ∧
      3 ≤ (moved 3 0x0C100000#32 (.act true)).maxmb) ∧
    ¬(4 ≤ (moved 4 0x0C000000#32 (.act true)).maxmb) ∧ (moved 4 0x0C000000#32 (.act true)).mbCode 4 = 0b1100#4 := by decide

theorem wit_ReceptionBegins :
    (Memory.wf (moved 3 0x04000000#32 (.act true)).mem = true ∧
      (moved 3 0x04000000#32 (.act true)).turn = .mailbox 3 (.act true) ∧ (moved 3 0x04000000#32 (.act true)).mbCode 3 = 0b0100#4 ∧
      (moved 3 0x04000000#32 (.act true)).active = true ∧ 3 ≤ (moved 3 0x04000000#32 (.act true)).maxmb ∧
      (moved 3 0x04000000#32 (.act true)).lock ≠ some 3) ∧
    (moved 3 0x02000000#32 (.act true)).mbCode 3 = 0b0010#4 ∧ (moved 3 0x06000000#32 (.act true)).mbCode 3 = 0b0110#4 ∧
    ({ moved 3 0x06000000#32 (.act true) with lock := some 3 } : State).lock = some 3 ∧
    (moved 4 0x06000000#32 (.act true)).maxmb < 4 := by decide

theorem wit_ReceptionWrites : ∀ m ∈ [MbMove.writeId 1#32, .writeD0 1#32, .writeD1 1#32, .writeCsFields 1#32],
    Memory.wf (moved 3 0x05000000#32 m).mem = true ∧ (moved 3 0x05000000#32 m).active = true ∧
    3 ≤ (moved 3 0x05000000#32 m).maxmb ∧ 3 < (moved 3 0x05000000#32 m).params.numMb ∧
    (moved 3 0x05000000#32 m).turn = .mailbox 3 m := by decide

theorem wit_ReceptionEnds :
    (Memory.wf (moved 3 0x05000000#32 (.act true)).mem = true ∧ (moved 3 0x05000000#32 (.act true)).params.numMb ≤ 32 ∧
      (moved 3 0x05000000#32 (.act true)).turn = .mailbox 3 (.act true) ∧ (moved 3 0x05000000#32 (.act true)).active = true ∧
      3 ≤ (moved 3 0x05000000#32 (.act true)).maxmb) ∧
    3 ∈ ({ moved 3 0x05000000#32 (.act true) with rxBegun := [3], gcr := 0x50000003#32 } : State).rxBegun := by decide

theorem wit_AbortCompletes :
    (Memory.wf (moved 3 0x09000000#32 (.act true)).mem = true ∧ (moved 3 0x09000000#32 (.act true)).params.numMb ≤ 32 ∧
      (moved 3 0x09000000#32 (.act true)).turn = .mailbox 3 (.act true) ∧ (moved 3 0x09000000#32 (.act true)).active = true ∧
      3 ≤ (moved 3 0x09000000#32 (.act true)).maxmb ∧
      3 ∈ ({ moved 3 0x09000000#32 (.act true) with abortReq := [3] } : State).abortReq) ∧
    3 ∉ (moved 3 0x09000000#32 (.act true)).abortReq := by decide

theorem wit_UnexplainedCodes :
    Memory.wf (moved 3 0x0D000000#32 (.scramble 1#32 2#32 3#32 4#32 true)).mem = true ∧
    (moved 3 0x0D000000#32 (.scramble 1#32 2#32 3#32 4#32 true)).turn = .mailbox 3 (.scramble 1#32 2#32 3#32 4#32 true) ∧
    (moved 3 0x0D000000#32 (.scramble 1#32 2#32 3#32 4#32 true)).active = true ∧
    3 ≤ (moved 3 0x0D000000#32 (.scramble 1#32 2#32 3#32 4#32 true)).maxmb ∧
    3 ∉ (moved 3 0x05000000#32 (.scramble 1#32 2#32 3#32 4#32 true)).rxBegun ∧
    3 ∈ ({ moved 3 0x05000000#32 (.scramble 1#32 2#32 3#32 4#32 true) with rxBegun := [3] } : State).rxBegun := by decide

theorem wit_InertCodes :
    (moved 31 0x08000000#32 (.act true)).turn = .mailbox 31 (.act true) ∧ 31 < (moved 31 0x08000000#32 (.act true)).params.numMb ∧
    (moved 31 0x08000000#32 (.act true)).mbCode 31 = 0b1000#4 ∧ (moved 31 0x00000001#32 (.act true)).mbCode 31 = 0b0000#4 := by
  decide

theorem wit_ControllerConfined :
    Memory.wf (moved 3 0x0C000000#32 (.act false)).mem = true ∧
    (moved 3 0x0C000000#32 (.act false)).turn = .mailbox 3 (.act false) ∧
    (∃ t, exec (decodeCode ((moved 3 0x0C000000#32 (.act false)).mbCode 3)) (moved 3 0x0C000000#32 (.act false)) = .next t) ∧
    (moved 4 0x0C000000#32 (.act false)).maxmb < 4 ∧
    (({ moved 3 0x05000000#32 (.act false) with rxBegun := [3], gcr := 0x51000003#32 } : State).active = false ∧
      3 ∈ ({ moved 3 0x05000000#32 (.act false) with rxBegun := [3], gcr := 0x51000003#32 } : State).rxBegun ∧
      receptionCode (({ moved 3 0x05000000#32 (.act false) with rxBegun := [3], gcr := 0x51000003#32 } : State).mbCode 3)) ∧
    ((moved 4 0x0C000000#32 (.act false)).Inv ∧ (moved 4 0x0C000000#32 (.act false)).turn = .mailbox 4 (.act false)) ∧
    (initState .e3 0x51000000#32 0x08000000#32).Inv ∧ (initState .e3 0x51000000#32 0x08000000#32).frzack = true ∧
    (initState .e3 0x51000000#32 0x08000000#32).seq = .run (.init .e3) 0 0 :=
  ⟨by decide, by decide, ⟨_, next_of_isNext (by decide)⟩, by decide, ⟨by decide, by decide, .inr (.inl (by decide))⟩,
    ⟨idle_inv rfl (by decide) rfl rfl rfl rfl rfl rfl rfl rfl, by decide⟩, e3State_inv, by decide, by decide⟩

/-- The draw of FRZACK that ends receptions. -/
theorem wit_GlobalControllerMoves_draw :
    pausedState.turn = .freeze true ∧ pausedState.lpmack = true ∧ pausedState.Inv ∧ 1 ∈ pausedState.rxBegun :=
  ⟨by decide, by decide, pausedState_inv, by decide⟩

theorem wit_GlobalControllerMoves :
    ({ ready with script := [.lowPower] } : State).turn = .lowPower ∧
    ({ ready with script := [.softReset 1#32 2#32 3#32 4#32 5#32], gcr := 0x02000000#32 } : State).softrst = true ∧
    ({ ready with script := [.softReset 1#32 2#32 3#32 4#32 5#32], gcr := 0x02000000#32 } : State).lpmack = false ∧
    ({ ready with script := [.softReset 1#32 2#32 3#32 4#32 5#32] } : State).turn = .softReset 1#32 2#32 3#32 4#32 5#32 ∧
    ({ ready with script := [.softReset 1#32 2#32 3#32 4#32 5#32] } : State).softrst = false ∧
    ({ ready with script := [.freeze false], gcr := 0x50000000#32 } : State).turn = .freeze false ∧
    ({ ready with script := [.freeze false], gcr := 0x50000000#32 } : State).frz = true ∧
    ({ ready with script := [.freeze false], gcr := 0x50000000#32 } : State).halt = true ∧
    ({ ready with script := [.freeze false], gcr := 0x50000000#32 } : State).rxBegun = [] ∧
    ready.frz = false ∧ ready.halt = false ∧ ({ ready with gcr := 0x02000000#32 } : State).frz = ready.halt ∧
    ({ ready with gcr := 0x00100000#32 } : State).lpmack = true ∧ ({ ready with gcr := 0x40000000#32 } : State).frz ≠ ready.halt ∧
    ({ ready with rxBegun := [1] } : State).rxBegun ≠ [] ∧ ready.frzack = false ∧
    ({ ready with script := [.timer 7#32] } : State).turn = .timer 7#32 := by decide

theorem wit_StepsAnswerStructured : txState.Structural ∧ rxState.Structural :=
  ⟨txState_inv.structural, rxState_inv.structural⟩

theorem wit_InvariantKept :
    (txState.Inv ∧ ∃ t, step txState = .next t) ∧ (rxState.Inv ∧ ∃ t, step rxState = .next t) ∧
    (hangState.Inv ∧ ∃ t, step hangState = .next t) ∧
    (initState .e3 0x51000000#32 0x08000000#32).Inv ∧ ∃ t, step (initState .e3 0x51000000#32 0x08000000#32) = .next t :=
  ⟨⟨txState_inv, _, next_of_isNext (by decide)⟩, ⟨rxState_inv, _, next_of_isNext (by decide)⟩,
    ⟨hangState_inv, _, next_of_isNext (by decide)⟩, e3State_inv, _, next_of_isNext (by decide)⟩

theorem wit_PureCommandsFrame :
    isNext (exec .btcalc (clocks 8#32 1#32)) = true ∧ isNext (exec .encode (standing (.encode .s0) 0 ready)) = true ∧
    isNext (exec .decode (standing (.decode .s0) 0 ready)) = true ∧ isNext (exec .decode ready) = true := by decide

theorem wit_MailboxCommandsFrame :
    Memory.wf txState.mem = true ∧ isNext (exec .transmit txState) = true ∧ isNext (exec (.receive 1) rxState) = true ∧
    isNext (exec (.abort 0) hangState) = true ∧ isNext (exec .init (initState .e3 0x51000000#32 0x08000000#32)) = true := by
  decide

/-- `RECEIVE 4` at its admission, `max_mailbox` 3. -/
def refusedState : State := { standing (.receive .s0) 0 ready with cmd := some 0x60000004#32 }

theorem wit_RefusalKeepsAll :
    refusedState.cmd = some 0x60000004#32 ∧ isNext (exec (.receive 4) refusedState) = true ∧
    (out (exec (.receive 4) refusedState)).cmd = none ∧
    (out (exec (.receive 4) refusedState)).result = .refused .mailboxIndexOutOfRange ∧
    ({ ready with refusalMark := true, script := [.engine] } : State).refusalMark = true ∧
    isNext (step { ready with refusalMark := true, script := [.engine] }) = true := by decide

/-- An undecodable code at S2 of `RECEIVE`, and an empty mailbox at S1. -/
theorem wit_FailingStepWritesNothing :
    (out (exec (.receive 1) { rxReads 0x0F000000#32 with cmd := some 0x60000001#32 })).cmd = none ∧
    (out (exec (.receive 1) { rxReads 0x0F000000#32 with cmd := some 0x60000001#32 })).result =
      .fatal (.undecodableCode 0b1111#4 (some 1)) ∧
    isNext (exec (.receive 1) { standing (.receive .s1) 1 ready with cmd := some 0x60000001#32 }) = true ∧
    (out (exec (.receive 1) { standing (.receive .s1) 1 ready with cmd := some 0x60000001#32 })).result =
      .err .mailboxEmpty := by decide

end Sys2Proof.Tests
end

section
/-! SUPPORT. The waits (00_scope.md R13): one round of a wait whose read fails, the step each wait of `INIT` is, and the
busy loop of `RECEIVE`. -/

namespace Sys2Proof.Machine

open Sys2Proof

/-! ## The limit -/

theorem exceeds_none (n : Nat) : exceeds none n = false := rfl

theorem exceeds_some (l n : Nat) : exceeds (some l) n = true ↔ l < n := by
  simp only [exceeds, decide_eq_true_eq]

/-! ## One round whose read fails -/

/-- The read is kept and counted, or is one too many. The bound is that of the state before the read. -/
theorem waitUntil_failed {r : Reg} {b : Nat} {val : Bool} {p : Position} {i : Fin 32} {n : Nat} {done : State → Out}
    {s : State} (hr : Params.has s.params r = true) (hb : (s.peek r).getLsbD b ≠ val) :
    (exceeds s.params.waitLimit (n + 1) = false →
      waitUntil r b val p i n done s = .next ((s.afterRead r).stay p i (n + 1))) ∧
    (exceeds s.params.waitLimit (n + 1) = true →
      waitUntil r b val p i n done s = .next ((s.afterRead r).close (.fatal (.waitLimitExceeded p)) .faulted)) := by
  rw [waitUntil_again hr hb, ← State.afterRead_params r s]
  exact ⟨waitAgain_stay, waitAgain_exceeded⟩

/-! ## The waits of `INIT` -/

/-- Where a wait of `INIT` goes when its bit has its value: on to `next` at the same index, or, where a phase ends with it,
into that phase's mode and on at index 0 (42_controller_init.md R162 to R164). -/
def leaveWait (i : Fin 32) (next : InitStep) (mode : Option Mode) (s : State) : State :=
  match mode with
  | none => s.goto (.init next) i
  | some m => (s.setMode m).goto (.init next) 0

theorem leaveWait_seq (i : Fin 32) (next : InitStep) (mode : Option Mode) (s : State) :
    (leaveWait i next mode s).seq = .run (.init next) (if mode = none then i else 0) 0 := by
  cases mode <;> rfl

theorem leaveWait_mode (i : Fin 32) (next : InitStep) (mode : Option Mode) (s : State) :
    (leaveWait i next mode s).mode = mode.getD s.mode := by
  cases mode <;> rfl

theorem leaveWait_history (i : Fin 32) (next : InitStep) (mode : Option Mode) (s : State) :
    (leaveWait i next mode s).history = s.history := by
  cases mode <;> rfl

theorem sameBlock_leaveWait (i : Fin 32) (next : InitStep) (mode : Option Mode) (s : State) :
    sameBlock s (leaveWait i next mode s) := by
  cases mode <;> exact ⟨⟨rfl, rfl, rfl, rfl⟩, rfl, fun _ => rfl⟩

theorem sameHidden_leaveWait (i : Fin 32) (next : InitStep) (mode : Option Mode) (s : State) :
    sameHidden s (leaveWait i next mode s) := by
  cases mode <;> exact ⟨rfl, rfl, rfl⟩

/-- Each label of the table is a wait for the bit and the value its row names. -/
theorem initStep_of_mem_initWaits {row : InitStep × Nat × Bool × InitStep × Option Mode} (h : row ∈ initWaits)
    (i : Fin 32) (n : Nat) (s : State) :
    initStep row.1 i n s = waitUntil .gcr row.2.1 row.2.2.1 (.init row.1) i n
      (fun t => .next (leaveWait i row.2.2.2.1 row.2.2.2.2 t)) s := by
  simp only [initWaits, List.mem_cons, List.not_mem_nil, or_false] at h
  rcases h with rfl | rfl | rfl | rfl | rfl | rfl <;> rfl

/-- A wait of `INIT` whose bit has its value. -/
theorem exec_init_wait_ready {s : State} {i : Fin 32} {n : Nat} {row : InitStep × Nat × Bool × InitStep × Option Mode}
    (hrow : row ∈ initWaits) (hs : s.seq = .run (.init row.1) i n) (hb : s.gcr.getLsbD row.2.1 = row.2.2.1) :
    exec .init s = .next (leaveWait i row.2.2.2.1 row.2.2.2.2 (s.afterRead .gcr)) := by
  rw [exec_init_run hs, initStep_of_mem_initWaits hrow]
  exact waitUntil_ready rfl hb

/-! ## The busy loop of `RECEIVE` -/

/-- `RECEIVE` at S2 with the control word of mailbox `i` read and kept, and the lock engaged (44_receive.md R190). -/
def State.csReadAtS2 (i : Fin 32) (s : State) : State :=
  ((s.afterRead (.mb i .cs)).keep { s.work with c := s.mbWord i .cs }).engageLock i (s.mbWord i .cs)

theorem csReadAtS2_params (i : Fin 32) (s : State) : (s.csReadAtS2 i).params = s.params := by
  simp [State.csReadAtS2]

theorem csReadAtS2_history (i : Fin 32) (s : State) :
    (s.csReadAtS2 i).history = .read (.mb i .cs) (s.mbWord i .cs) :: s.history := by
  simp [State.csReadAtS2]

theorem sameBlock_csReadAtS2 (i : Fin 32) (s : State) : sameBlock s (s.csReadAtS2 i) := by
  simp [State.csReadAtS2, sameBlock, sameControl, sameBytes]

/-- A busy code read at S2 is a failing read of a wait. -/
theorem exec_receive_s2_busy {s : State} {i : Fin 32} {n m : Nat} {st : RxState} (hs : s.seq = .run (.receive .s2) i n)
    (hi : i.val < s.params.numMb) (hc : codeValue (s.mbCode i) = some (.receive st true)) :
    exec (.receive m) s = waitAgain (.receive .s2) i n (s.csReadAtS2 i) := by
  have hq : (s.csReadAtS2 i).seq = .run (.receive .s2) i n := by simp [State.csReadAtS2, hs]
  have hbusy : MessageBufferCode.isBusy (.receive st true) = true := by cases st <;> rfl
  calc exec (.receive m) s
      = engineOnCode (s.mbCode i) (s.csReadAtS2 i) := by
        rw [exec_receive_run hs, receiveStep, readReg_of_has (by simpa using hi)]
        simp only [State.afterRead_work, peek_mb, State.mbCode, State.csReadAtS2]
    _ = waitAgain (.receive .s2) i n (s.csReadAtS2 i) := by
        simp only [engineOnCode, hq, decodedAt, hc, busyTestOn, hbusy, if_true]

/-! ## The statement -/

/-- Settles O27: every wait is a `waitUntil` on its register (the busy loop of `RECEIVE` a `waitAgain`), so one lemma about
a failing round serves them all. -/
theorem waitsReadAgain : Obligations.WaitsReadAgain := by
  refine ⟨exceeds_none, exceeds_some, ?initWait, ?initEnd, ?abort, ?receive⟩
  case initWait =>
    intro s i n row hrow hs
    refine ⟨fun hb => ⟨_, exec_init_wait_ready hrow hs hb, ?_⟩, ?_⟩
    · exact ⟨leaveWait_seq .., leaveWait_mode .., leaveWait_history .., sameBlock_leaveWait .., sameHidden_leaveWait ..⟩
    · rw [exec_init_run hs, initStep_of_mem_initWaits hrow]
      exact ⟨fun hb => (waitUntil_failed (r := .gcr) rfl hb).1, fun hb => (waitUntil_failed (r := .gcr) rfl hb).2⟩
  case initEnd =>
    intro s i n hs hack
    have hb : (s.peek .gcr).getLsbD Gcr.frzack.lo ≠ false := by simpa [State.frzack, Field.bit] using hack
    rw [exec_init_run hs]
    exact waitUntil_failed rfl hb
  case abort =>
    intro s i n m hs hflag
    have hb : (s.peek .iflag).getLsbD i ≠ true := by simpa [State.flag] using hflag
    rw [exec_abort_run hs]
    exact waitUntil_failed rfl hb
  case receive =>
    intro s i n m st hs hi hc
    rw [exec_receive_s2_busy hs hi hc, ← csReadAtS2_params i s]
    have hh := csReadAtS2_history i s
    have hsame := sameBlock_csReadAtS2 i s
    exact ⟨fun hx => ⟨_, waitAgain_stay hx, rfl, hh, hsame⟩, fun hx => ⟨_, waitAgain_exceeded hx, rfl, rfl, hh, hsame⟩⟩

end Sys2Proof.Machine
end

section
/-! SUPPORT. The reset state, what a turn runs, that every turn of a structured state answers one, and what a command
leaves unchanged (10_state.md). -/

namespace Sys2Proof.Machine

/-! ## Reset -/

theorem structural_resetWith {p : Params} (hp : Params.wf p = true) : (State.resetWith p).Structural where
  params := hp
  mem := rfl
  maxMailbox := by
    simp only [Params.wf, Bool.and_eq_true, decide_eq_true_eq] at hp
    exact hp.1.1
  seq := rfl
  abortReq := List.Pairwise.nil
  rxBegun := List.Pairwise.nil

/-- No operation runs and the mode is not `Running`, so nothing is asked of the control registers. -/
theorem phaseOk_resetWith (p : Params) : (State.resetWith p).PhaseOk where
  running h := by cases h
  init l i n h := by cases h

/-- Nothing is locked, requested or begun. -/
theorem protocolOk_resetWith (p : Params) : (State.resetWith p).ProtocolOk where
  hidden :=
    { abort := fun _ hi => nomatch hi
      begun := fun _ hi => nomatch hi
      still := fun _ => rfl
      inUse := fun _ hi => nomatch hi
      fresh := fun _ => ⟨rfl, rfl⟩ }
  progress := trivial

/-- The invariant holds at power-on, whatever the parameters in range. -/
theorem inv_resetWith {p : Params} (hp : Params.wf p = true) : (State.resetWith p).Inv :=
  ⟨structural_resetWith hp, phaseOk_resetWith p, protocolOk_resetWith p⟩

/-- Settles O54: the reset state is one power-on state, with parameters in range. -/
theorem resetState : Obligations.ResetState :=
  ⟨rfl, rfl, rfl, rfl, inv_resetWith (by decide)⟩

/-! ## What a turn runs -/

/-- An instruction fetched is the command on the port on the engine's turn, or the code of an existing mailbox on the
controller's turn on it. -/
theorem fetch_eq_instr {s : State} {i : Instr} (h : fetch s = .instr i) :
    (s.turn = .engine ∧ fetchCommand s = .instr i) ∨
    (∃ j m, s.turn = .mailbox j m ∧ j < s.params.numMb ∧ i = decodeCode (s.mbCode j)) := by
  cases ht : s.turn with
  | engine => exact .inl ⟨rfl, by simpa only [fetch, ht] using h⟩
  | mailbox j m =>
    simp only [fetch, ht, fetchCode] at h
    split at h
    · cases h; exact .inr ⟨j, m, rfl, ‹_›, rfl⟩
    · cases h
  | _ => simp only [fetch, ht] at h; cases h

/-- With nothing fetched the step is the move of the environment. -/
theorem step_of_fetch_nothing {s : State} (h : fetch s = .nothing) : step s = .next s.environment.endTurn := by
  simp only [step, h]

/-- Only the engine's turn and a turn on a mailbox fetch anything. -/
theorem fetch_other {s : State} (he : s.turn ≠ .engine) (hm : ∀ i m, s.turn ≠ .mailbox i m) : fetch s = .nothing := by
  cases ht : s.turn with
  | engine => exact absurd ht he
  | mailbox i m => exact absurd ht (hm i m)
  | _ => simp only [fetch, ht]

theorem fetch_no_command {s : State} (ht : s.turn = .engine) (hc : s.cmd = none) : fetch s = .nothing := by
  simp only [fetch, ht, fetchCommand, hc]

/-- The engine's turn is no move of the environment. -/
theorem environment_engine {s : State} (ht : s.turn = .engine) : s.environment = s := by
  simp only [State.environment, ht]

/-- Settles O5: by what each agent's turn fetches. -/
theorem stepRunsFetched : Obligations.StepRunsFetched := by
  refine ⟨?command, ?mailbox, ?quiet, ?other, fun s => ⟨rfl, rfl⟩⟩
  case command => exact fun s w i ht hc hd => step_command ht hc hd
  case mailbox => exact fun s i m ht hi => step_mailbox ht hi
  case quiet =>
    intro s ht hc
    rw [step_of_fetch_nothing (fetch_no_command ht hc), environment_engine ht]
  case other => exact fun s he hm => step_of_fetch_nothing (fetch_other he hm)

/-! ## Every step answers a next state -/

theorem runs_afterTurn {o : Out} (h : Runs o) : Runs (afterTurn o) := by
  obtain ⟨t, rfl⟩ := h
  exact runs_next t.endTurn

/-- No step of a structured state stops: the engine's commands run, and so do the controller's moves on its mailboxes. -/
theorem runs_step {s : State} (hs : s.Structural) : Runs (step s) := by
  cases hf : fetch s with
  | illegal => simp only [step, hf]; exact runs_next _
  | nothing => rw [step_of_fetch_nothing hf]; exact runs_next _
  | instr i =>
    simp only [step, hf]
    refine runs_afterTurn ?_
    rcases fetch_eq_instr hf with ⟨-, hc⟩ | ⟨j, m, ht, -, rfl⟩
    · exact runs_command hs hc
    · obtain ⟨u, hx, -⟩ := exec_mailbox_turn hs.mem (numMb_le hs) ht
      exact ⟨u, hx⟩

/-- The structural layer is kept by every step. -/
theorem structural_step {s t : State} (hs : s.Structural) (h : step s = .next t) : t.Structural := by
  obtain ⟨u, hm, rfl⟩ := step_next h
  exact structural_endTurn (structural_moves hs hm)

/-- Settles O55: every step answers, and what it answers is structured again. -/
theorem stepsAnswerStructured : Obligations.StepsAnswerStructured := by
  intro s hs
  obtain ⟨t, ht⟩ := runs_step hs
  exact ⟨t, ht, structural_step hs ht⟩

/-! ## The commands without a register access -/

/-- A command that answers inside an operation is that operation's (notes/assumptions/18.md). -/
theorem op_of_exec_run {s t : State} {i : Instr} {op : Op} {p : Position} {j : Fin 32} {n : Nat}
    (ho : commandOp i = some op) (hq : s.seq = .run p j n) (hx : exec i s = .next t) : p.op = op := by
  obtain ⟨k, hk, hfault⟩ := exec_served ho s
  by_contra hne
  rw [hk, serve, hq] at hx
  simp only [hfault p j n hne] at hx
  cases hx

/-- What one step of a command without a register access can be: accepted, ended, or refused. -/
inductive PureStep (s : State) : State → Prop where
  | accepted (p : Position) (j : Fin 32) : PureStep s (s.goto p j)
  | ended (r : Result) (q : Seq) : PureStep s (s.close r q)
  | refused (r : Refused) : PureStep s (s.refuse r)

theorem endBtcalc_next {o : BtOutcome} {s t : State} (h : endBtcalc o s = .next t) : PureStep s t := by
  cases o <;> cases h
  case ok bt => exact .ended _ _
  case settingsError => exact .ended _ _
  case tqsOutOfRange tqs => exact .ended _ _
  case refused r => exact .refused _

theorem encodeStep_next {s t : State} (h : encodeStep s = .next t) : PureStep s t := by
  simp only [encodeStep] at h
  split at h <;> cases h
  · exact .ended _ _
  · exact .refused _

theorem decodeStep_next {s t : State} (h : decodeStep s = .next t) : PureStep s t := by
  simp only [decodeStep] at h
  split at h
  · split at h <;> cases h
    · exact .ended _ _
    · exact .ended _ _
  · cases h; exact .refused _

/-- Every step of those commands is one of these. -/
theorem pureStep_exec {s t : State} {i : Instr} (hi : i = .btcalc ∨ i = .encode ∨ i = .decode) (hx : exec i s = .next t) :
    PureStep s t := by
  obtain ⟨op, ho⟩ : ∃ op, commandOp i = some op := by rcases hi with rfl | rfl | rfl <;> exact ⟨_, rfl⟩
  cases hq : s.seq with
  | idle =>
    rw [exec_idle ho hq] at hx
    cases hx
    exact .accepted _ _
  | faulted =>
    rw [exec_faulted ho hq] at hx
    cases hx
    exact .refused _
  | run p j n =>
    have hp := op_of_exec_run ho hq hx
    subst hp
    cases p with
    | btcalc l => cases i <;> cases ho; exact endBtcalc_next (exec_btcalc_run hq ▸ hx)
    | encode l => cases i <;> cases ho; exact encodeStep_next (exec_encode_run hq ▸ hx)
    | decode l => cases i <;> cases ho; exact decodeStep_next (exec_decode_run hq ▸ hx)
    | init l | transmit l | receive l | abort l => rcases hi with rfl | rfl | rfl <;> cases ho

/-- Only the end of `TRANSMIT` publishes a report (10_state.md R29, 43_transmit.md R184). -/
theorem publishedReport_of_exec {s t : State} {i : Instr} {op : Op} (ho : commandOp i = some op) (hop : op ≠ .transmit)
    (hx : exec i s = .next t) : s.publishedReport = s.report := by
  simp only [State.publishedReport]
  split
  case h_1 hq => exact absurd (op_of_exec_run ho hq hx).symm hop
  all_goals rfl

/-- Settles O57: acceptance, the end of an operation and a refusal each touch no register, and none of the three commands
publishes a report. -/
theorem pureCommandsFrame : Obligations.PureCommandsFrame := by
  intro s t i hmem hx
  have hi : i = .btcalc ∨ i = .encode ∨ i = .decode := by simpa using hmem
  have hrep : s.publishedReport = s.report := by
    rcases hi with rfl | rfl | rfl <;> exact publishedReport_of_exec rfl (by decide) hx
  cases pureStep_exec hi hx with
  | accepted p j => exact ⟨untouched_start s.work p j s, rfl⟩
  | ended r q => exact ⟨untouched_close r q s, hrep⟩
  | refused r => exact ⟨untouched_refuse r s, rfl⟩

/-! ## The mailbox commands -/

/-- What one step of `INIT`, `TRANSMIT`, `RECEIVE` or `ABORT` can be, in any state. -/
inductive MailboxStep (s t : State) : Instr → Prop where
  | accepted (i : Instr) (op : Op) (ht : t = s.goto op.start 0) : MailboxStep s t i
  | refused (i : Instr) (ht : t = s.refuse .engineFaulted) : MailboxStep s t i
  | init (l : InitStep) (j : Fin 32) (n : Nat) (hq : s.seq = .run (.init l) j n) (hx : initStep l j n s = .next t) :
      MailboxStep s t .init
  | transmit (l : TransmitStep) (j : Fin 32) (n : Nat) (hq : s.seq = .run (.transmit l) j n)
      (hx : transmitStep l j s = .next t) : MailboxStep s t .transmit
  | receive (m : Nat) (l : ReceiveStep) (j : Fin 32) (n : Nat) (hq : s.seq = .run (.receive l) j n)
      (hx : receiveStep m l j s = .next t) : MailboxStep s t (.receive m)
  | abort (m : Nat) (l : AbortStep) (j : Fin 32) (n : Nat) (hq : s.seq = .run (.abort l) j n)
      (hx : abortStep m l j n s = .next t) : MailboxStep s t (.abort m)

/-- Every step of those commands is one of these. -/
theorem mailboxStep_exec {s t : State} {i : Instr}
    (hi : i = .init ∨ i = .transmit ∨ (∃ m, i = .receive m) ∨ ∃ m, i = .abort m) (hx : exec i s = .next t) :
    MailboxStep s t i := by
  obtain ⟨op, ho⟩ : ∃ op, commandOp i = some op := by
    rcases hi with rfl | rfl | ⟨m, rfl⟩ | ⟨m, rfl⟩ <;> exact ⟨_, rfl⟩
  cases hq : s.seq with
  | idle =>
    rw [exec_idle ho hq] at hx
    cases hx
    exact .accepted i op rfl
  | faulted =>
    rw [exec_faulted ho hq] at hx
    cases hx
    exact .refused i rfl
  | run p j n =>
    have hp := op_of_exec_run ho hq hx
    subst hp
    cases p with
    | init l => cases i <;> cases ho; exact .init l j n hq (exec_init_run hq ▸ hx)
    | transmit l => cases i <;> cases ho; exact .transmit l j n hq (exec_transmit_run hq ▸ hx)
    | receive l => cases i <;> cases ho; exact .receive _ l j n hq (exec_receive_run hq ▸ hx)
    | abort l => cases i <;> cases ho; exact .abort _ l j n hq (exec_abort_run hq ▸ hx)
    | btcalc l | encode l | decode l => rcases hi with rfl | rfl | ⟨m, rfl⟩ | ⟨m, rfl⟩ <;> cases ho

theorem frameOk_mailboxStep {s t : State} {i : Instr} (hwf : Memory.wf s.mem = true) (h : MailboxStep s t i) :
    FrameOk s t := by
  have hself : FrameOk s s := .same rfl rfl rfl rfl rfl ⟨rfl, rfl, rfl, rfl⟩ (.inl rfl)
  cases h with
  | accepted i op ht => subst ht; exact hself.goto _ _
  | refused i ht => subst ht; exact .same rfl rfl rfl rfl rfl ⟨rfl, rfl, rfl, rfl⟩ (.inl rfl)
  | init l j n hq hx => exact frame_init hwf hq hx
  | transmit l j n hq hx => exact frame_transmit hwf hq hx
  | receive m l j n hq hx => exact frame_receive hq hx
  | abort m l j n hq hx => exact frame_abort hwf hq hx

/-- The lock is engaged, and released by the engine, in `RECEIVE` only (20_memory.md R69, R71). -/
theorem lock_mailboxStep {s t : State} {i : Instr} (hi : ∀ m, i ≠ .receive m) (h : MailboxStep s t i) : t.lock = s.lock := by
  cases h with
  | accepted i op ht => subst ht; rfl
  | refused i ht => subst ht; rfl
  | init l j n hq hx => exact lock_init hx
  | transmit l j n hq hx => exact lock_transmit hx
  | receive m l j n hq hx => exact absurd rfl (hi m)
  | abort m l j n hq hx => exact lock_abort hx

/-- Settles O58: the frame of each operation's step, and that what every shared operation of the engine keeps, every command
but `INIT` keeps. -/
theorem mailboxCommandsFrame : Obligations.MailboxCommandsFrame := by
  intro s t i hi hwf hx
  have hstep := mailboxStep_exec hi hx
  obtain ⟨hstore, hflags, htimer, har, hrb, ⟨hparams, hops, hscript, htick⟩, hhist⟩ := frameOk_mailboxStep hwf hstep
  refine ⟨hstore, hflags, htimer, fun hne => ?_, fun hr => lock_mailboxStep hr hstep, har, hrb, hparams, hops, hscript,
    htick, hhist⟩
  have hcmd := hi.resolve_left hne
  obtain ⟨hgcr, hbtr, hrxmask, htm, hmode, hmax⟩ :=
    (ctl_closed s).command (i := i) (.inr (.inr (.inr hcmd))) ⟨rfl, rfl, rfl, rfl, rfl, rfl⟩ t hx
  exact ⟨⟨hgcr, hbtr, hrxmask, htm⟩, hmode, hmax⟩

end Sys2Proof.Machine
end

section
/-! SUPPORT. The register block (20_memory.md R61 to R72): where its registers stand, what an engine write changes in each of
them, and what a read changes. -/

namespace Sys2Proof.Machine

/-! ## Addresses -/

theorem regAddr_mod_four {b : Nat} (hb : b % 4 = 0) (r : Reg) : regAddr b r % 4 = 0 := by
  cases r <;> simp only [regAddr] <;> omega

theorem MbWord.index_injective : Function.Injective MbWord.index := by
  intro u w h
  cases u <;> cases w <;> first | rfl | cases h

/-- The global registers stand below the mailbox file. -/
theorem regAddr_lt_file {b : Nat} {r : Reg} (hr : ∀ i w, r ≠ .mb i w) : regAddr b r < b + 0x80 := by
  cases r with
  | mb i w => exact absurd rfl (hr i w)
  | _ => simp only [regAddr]; omega

/-- No two registers share an address. -/
theorem regAddr_injective (b : Nat) : Function.Injective (regAddr b) := by
  intro r q h
  cases r with
  | mb i w =>
    cases q with
    | mb j u =>
      have hw : w.index < 4 := by cases w <;> decide
      have hu : u.index < 4 := by cases u <;> decide
      simp only [regAddr] at h
      obtain rfl : i = j := by omega
      obtain rfl : w = u := MbWord.index_injective (by omega)
      rfl
    | _ => simp only [regAddr] at h; omega
  | _ =>
    cases q with
    | mb j u => simp only [regAddr] at h; omega
    | _ => first | rfl | (simp only [regAddr] at h; omega)

/-- Settles O18: addresses are multiples of 4 and no two are equal, so two different ones are 4 apart at least. -/
theorem registerAddresses : Obligations.RegisterAddresses := by
  intro p hp
  have hb : p.base % 4 = 0 := by
    simp only [Params.wf, Bool.and_eq_true, decide_eq_true_eq] at hp
    exact hp.2
  refine ⟨regAddr_mod_four hb, fun r q _ _ hne => ?_, rfl, rfl, rfl, rfl, rfl, fun i => ?_⟩
  · have hr := regAddr_mod_four hb r
    have hq := regAddr_mod_four hb q
    have hneq : regAddr p.base r ≠ regAddr p.base q := (regAddr_injective _).ne hne
    omega
  · simp only [regAddr, MbWord.index]
    omega

/-! ## A mailbox word -/

/-- A write to a mailbox word while the module is not disabled stores that word and nothing else in the mailbox file. -/
theorem afterWrite_mb_mem {s : State} (hl : s.lpmack = false) (i : Nat) (w : MbWord) (v : Word) :
    (s.afterWrite (.mb i w) v).mem = writeWord (s.mbAddr i w) v s.mem := by
  simp only [State.afterWrite_mem, State.poke, State.pokeMb, hl, Bool.false_eq_true, if_false]
  cases w <;> rfl

/-- It leaves every other register. -/
theorem peek_afterWrite_mb {s : State} (hm : Memory.wf s.mem = true) (hl : s.lpmack = false) {i : Nat} {w : MbWord}
    (v : Word) {r : Reg} (hr : r ≠ .mb i w) : (s.afterWrite (.mb i w) v).peek r = s.peek r := by
  cases r with
  | mb j u => rw [peek_mb, mbWord_afterWrite_mb hm hl, if_neg (by rintro ⟨rfl, rfl⟩; exact hr rfl), peek_mb]
  | _ => simp

/-- Settles O19: the write is `writeWord` at the word's own address. -/
theorem readAfterWrite : Obligations.ReadAfterWrite := by
  intro s i w v hm hl hi
  refine ⟨s.afterWrite (.mb i w) v, writeReg_of_has (by simpa using hi) v _, ?_, fun r hr => peek_afterWrite_mb hm hl v hr,
    sameBytesOutside_writeWord hm (afterWrite_mb_mem hl i w v), wf_afterWrite hm _ _, State.afterWrite_history _ _ _⟩
  rw [peek_mb, mbWord_afterWrite_mb hm hl, if_pos ⟨rfl, rfl⟩]

/-! ## IFLAG -/

/-- Write-one-to-clear (R68). -/
theorem flag_afterWrite_iflag (s : State) (v : Word) (j : Nat) :
    (s.afterWrite .iflag v).flag j = if v.getLsbD j then false else s.flag j := by
  simp only [State.flag, State.afterWrite_iflag, State.poke, clearFlags, BitVec.getLsbD_and, BitVec.getLsbD_not]
  by_cases hj : j < 32
  · cases v.getLsbD j <;> simp [hj]
  · simp [BitVec.getLsbD_of_ge _ j (Nat.le_of_not_lt hj)]

/-- Settles O20: `FlagClear(i)` is the write of the mask of bit `i`. -/
theorem flagClearClearsOneBit : Obligations.FlagClearClearsOneBit := by
  refine ⟨fun s i hi => ⟨s.afterWrite .iflag (flagMask i), rfl, fun j => ?_, ?_, fun a => ?_, ?_, rfl⟩,
    flag_afterWrite_iflag⟩
  · rw [flag_afterWrite_iflag, getLsbD_flagMask i j hi]
    simp only [decide_eq_true_eq]
  · exact ⟨rfl, rfl, rfl, State.afterWrite_timer _ _ _⟩
  · rfl
  · exact ⟨State.afterWrite_lock _ _ _, rfl, rfl⟩

/-! ## GCR, BTR and RXMASK -/

/-- The value of a field, from what a property of all its bits says; `f.get` looks at no other bit. -/
theorem get_eq_ite {f : Field} (hf : f.lo + f.width ≤ 32) {c : Bool} {a v w : Word}
    (h : ∀ k < 32, f.covers k = true → w.getLsbD k = if c then v.getLsbD k else a.getLsbD k) :
    f.get w = if c then f.get v else f.get a :=
  get_if fun k h1 h2 => h k (by omega) (by
    simp only [Field.covers, Bool.and_eq_true, decide_eq_true_eq]
    omega)

/-- A bit of GCR that is in no field an engine write changes keeps its value. -/
theorem gcrAfter_keptBit (s : State) (v : Word) {k : Nat}
    (ha : (Gcr.mdis.covers k || Gcr.frz.covers k || Gcr.halt.covers k) = false)
    (hf : (Gcr.rfen.covers k || Gcr.srxdis.covers k || Gcr.irmq.covers k || Gcr.dma.covers k || Gcr.maxmb.covers k) = false)
    (hs : Gcr.softrst.covers k = false) : (s.gcrAfter v).getLsbD k = s.gcr.getLsbD k := by
  simp only [getLsbD_gcrAfter, getLsbD_gcrMask, ha, hf, hs, Bool.and_false, Bool.or_false, Bool.false_eq_true, if_false]

/-- `MDIS`, `FRZ` and `HALT` are written in every mode. -/
theorem gcrAfter_alwaysBit (s : State) (v : Word) {k : Nat}
    (ha : (Gcr.mdis.covers k || Gcr.frz.covers k || Gcr.halt.covers k) = true) (hs : Gcr.softrst.covers k = false) :
    (s.gcrAfter v).getLsbD k = v.getLsbD k := by
  simp only [getLsbD_gcrAfter, getLsbD_gcrMask, ha, hs, Bool.true_or, Bool.and_false, Bool.or_false, if_true]

/-- The fields of GCR a write never changes. -/
theorem gcrAfter_ack (s : State) (v : Word) : ∀ f ∈ [Gcr.frzack, Gcr.lpmack], f.get (s.gcrAfter v) = f.get s.gcr := by
  intro f hf
  have hbits : ∀ f ∈ [Gcr.frzack, Gcr.lpmack], f.lo + f.width ≤ 32 ∧ ∀ k < 32, f.covers k = true →
      (Gcr.mdis.covers k || Gcr.frz.covers k || Gcr.halt.covers k) = false ∧
      (Gcr.rfen.covers k || Gcr.srxdis.covers k || Gcr.irmq.covers k || Gcr.dma.covers k || Gcr.maxmb.covers k) = false ∧
      Gcr.softrst.covers k = false := by decide
  obtain ⟨hw, hk⟩ := hbits f hf
  exact get_eq_ite (c := false) hw (v := v) fun k h32 hc =>
    have ⟨h1, h2, h3⟩ := hk k h32 hc
    gcrAfter_keptBit s v h1 h2 h3

/-- The fields of GCR a write always changes. -/
theorem gcrAfter_always (s : State) (v : Word) :
    ∀ f ∈ [Gcr.mdis, Gcr.frz, Gcr.halt], f.get (s.gcrAfter v) = f.get v := by
  intro f hf
  have hbits : ∀ f ∈ [Gcr.mdis, Gcr.frz, Gcr.halt], f.lo + f.width ≤ 32 ∧ ∀ k < 32, f.covers k = true →
      (Gcr.mdis.covers k || Gcr.frz.covers k || Gcr.halt.covers k) = true ∧ Gcr.softrst.covers k = false := by decide
  obtain ⟨hw, hk⟩ := hbits f hf
  exact get_eq_ite (c := true) hw (a := s.gcr) fun k h32 hc =>
    have ⟨h1, h2⟩ := hk k h32 hc
    gcrAfter_alwaysBit s v h1 h2

/-- The `Frozen`-only fields of GCR. -/
theorem gcrAfter_frozen (s : State) (v : Word) :
    ∀ f ∈ [Gcr.rfen, Gcr.srxdis, Gcr.irmq, Gcr.dma, Gcr.maxmb],
      f.get (s.gcrAfter v) = if s.frzack then f.get v else f.get s.gcr := by
  intro f hf
  have hbits : ∀ f ∈ [Gcr.rfen, Gcr.srxdis, Gcr.irmq, Gcr.dma, Gcr.maxmb], f.lo + f.width ≤ 32 ∧
      ∀ k < 32, f.covers k = true →
        (Gcr.rfen.covers k || Gcr.srxdis.covers k || Gcr.irmq.covers k || Gcr.dma.covers k || Gcr.maxmb.covers k) = true ∧
        (Gcr.mdis.covers k || Gcr.frz.covers k || Gcr.halt.covers k) = false ∧ Gcr.softrst.covers k = false := by decide
  obtain ⟨hw, hk⟩ := hbits f hf
  exact get_eq_ite hw fun k h32 hc =>
    have ⟨h1, h2, h3⟩ := hk k h32 hc
    gcrAfter_frozenBit s v h1 h2 h3

/-- The bits of GCR that 10_state.md R34 does not name. -/
theorem gcrAfter_unnamed (s : State) (v : Word) :
    ∀ k ∈ [27, 26, 23, 22, 21, 19, 18, 14, 13, 12, 11, 10, 9, 8, 7], (s.gcrAfter v).getLsbD k = s.gcr.getLsbD k := by
  intro k hk
  have hbits : ∀ k ∈ [27, 26, 23, 22, 21, 19, 18, 14, 13, 12, 11, 10, 9, 8, 7],
      (Gcr.mdis.covers k || Gcr.frz.covers k || Gcr.halt.covers k) = false ∧
      (Gcr.rfen.covers k || Gcr.srxdis.covers k || Gcr.irmq.covers k || Gcr.dma.covers k || Gcr.maxmb.covers k) = false ∧
      Gcr.softrst.covers k = false := by decide
  obtain ⟨h1, h2, h3⟩ := hbits k hk
  exact gcrAfter_keptBit s v h1 h2 h3

/-- Every bit of BTR after a write. -/
theorem getLsbD_btrAfter (s : State) (v : Word) (k : Nat) :
    (s.btrAfter v).getLsbD k =
      if (s.lpmack && Btr.clksrc.covers k) || (s.frzack && Btr.frozenMask.getLsbD k) then v.getLsbD k
      else s.btr.getLsbD k := by
  have hmask : s.btrMask.getLsbD k = ((s.lpmack && Btr.clksrc.covers k) || (s.frzack && Btr.frozenMask.getLsbD k)) := by
    rw [State.btrMask, BitVec.getLsbD_or]
    cases s.lpmack <;> cases s.frzack <;> simp [getLsbD_mask]
  rw [State.btrAfter, getLsbD_blend, hmask]

/-- `CLKSRC` is written only while `LPMACK = 1`. -/
theorem btrAfter_clksrc (s : State) (v : Word) :
    Btr.clksrc.get (s.btrAfter v) = if s.lpmack then Btr.clksrc.get v else Btr.clksrc.get s.btr := by
  have hbits : ∀ k < 32, Btr.clksrc.covers k = true → Btr.frozenMask.getLsbD k = false := by decide
  refine get_eq_ite (by decide) fun k h32 hc => ?_
  rw [getLsbD_btrAfter, hc, hbits k h32 hc, Bool.and_true, Bool.and_false, Bool.or_false]

/-- The `Frozen`-only fields of BTR. -/
theorem btrAfter_frozen (s : State) (v : Word) :
    ∀ f ∈ [Btr.presdiv, Btr.rjw, Btr.pseg1, Btr.pseg2, Btr.lpb, Btr.propseg],
      f.get (s.btrAfter v) = if s.frzack then f.get v else f.get s.btr := by
  intro f hf
  have hbits : ∀ f ∈ [Btr.presdiv, Btr.rjw, Btr.pseg1, Btr.pseg2, Btr.lpb, Btr.propseg], f.lo + f.width ≤ 32 ∧
      ∀ k < 32, f.covers k = true → Btr.frozenMask.getLsbD k = true ∧ Btr.clksrc.covers k = false := by decide
  obtain ⟨hw, hk⟩ := hbits f hf
  refine get_eq_ite hw fun k h32 hc => ?_
  obtain ⟨h1, h2⟩ := hk k h32 hc
  rw [getLsbD_btrAfter, h1, h2, Bool.and_true, Bool.and_false, Bool.false_or]

/-- The bits of BTR that 10_state.md R35 does not name. -/
theorem btrAfter_unnamed (s : State) (v : Word) :
    ∀ k ∈ [15, 14, 11, 10, 9, 8, 7, 6, 5, 4, 3], (s.btrAfter v).getLsbD k = s.btr.getLsbD k := by
  intro k hk
  have hbits : ∀ k ∈ [15, 14, 11, 10, 9, 8, 7, 6, 5, 4, 3],
      Btr.clksrc.covers k = false ∧ Btr.frozenMask.getLsbD k = false := by decide
  obtain ⟨h1, h2⟩ := hbits k hk
  simp [getLsbD_btrAfter, h1, h2]

theorem afterWrite_rxmask_rxmask (v : Word) (s : State) :
    (s.afterWrite .rxmask v).rxmask = if s.frzack then v else s.rxmask := by
  simp only [State.afterWrite_rxmask, State.poke]
  split <;> rfl

/-- Settles O21: every bit of the three registers falls under one of the laws above. -/
theorem writesThatDoNotTake : Obligations.WritesThatDoNotTake := by
  intro s v
  have hsoft : (s.afterWrite .gcr v).softrst = if Gcr.softrst.bit v then true else s.softrst := by
    rw [afterWrite_gcr_softrst]
    cases Gcr.softrst.bit v <;> simp
  exact ⟨gcrAfter_ack s v, gcrAfter_always s v, hsoft, gcrAfter_frozen s v, gcrAfter_unnamed s v, btrAfter_clksrc s v,
    btrAfter_frozen s v, btrAfter_unnamed s v, afterWrite_rxmask_rxmask v s, fun _ => rfl⟩

/-! ## Reads and the lock -/

/-- A read changes no register (R67). -/
theorem sameBlock_afterRead (r : Reg) (s : State) : sameBlock s (s.afterRead r) := by
  simp [sameBlock, sameControl, sameBytes]

theorem sameEngine_afterRead (r : Reg) (s : State) : sameEngine s (s.afterRead r) := by
  simp [sameEngine]

/-- Settles O22: a read is `State.afterRead` and what it read. -/
theorem timerReadReleasesLock : Obligations.TimerReadReleasesLock := by
  intro s r hr
  refine ⟨s.afterRead r, ?_, State.afterRead_lock r s, sameBlock_afterRead r s, State.afterRead_abortReq r s,
    State.afterRead_rxBegun r s, sameEngine_afterRead r s, State.afterRead_history r s⟩
  rw [readReg_of_has hr, if_pos rfl]

/-- R71: a receive code other than inactive engages the lock. -/
theorem engageLock_lock_receive {c : Word} {st : RxState} {b : Bool} (hc : codeValue (codeOf c) = some (.receive st b))
    (hst : st ≠ .inactive) (i : Nat) (s : State) : (s.engageLock i c).lock = some i := by
  cases st with
  | inactive => exact absurd rfl hst
  | _ => simp only [State.engageLock, hc]

theorem engageLock_of_inactive {c : Word} {b : Bool} (hc : codeValue (codeOf c) = some (.receive .inactive b)) (i : Nat)
    (s : State) : s.engageLock i c = s := by
  simp only [State.engageLock, hc]

theorem engageLock_of_transmit {c : Word} {st : TxState} (hc : codeValue (codeOf c) = some (.transmit st)) (i : Nat)
    (s : State) : s.engageLock i c = s := by
  simp only [State.engageLock, hc]

/-- `RECEIVE` at S2 leaves the lock as its read of the control word does. -/
theorem lock_receive_s2 {s t : State} {i : Fin 32} {n m : Nat} (hq : s.seq = .run (.receive .s2) i n)
    (hx : exec (.receive m) s = .next t) : t.lock = (s.csReadAtS2 i).lock := by
  rw [exec_receive_run hq, receiveStep] at hx
  have hread := (readReg_next hx).2
  rw [code_lock hread, State.afterRead_work, peek_mb, State.csReadAtS2]

theorem csReadAtS2_lock_receive {s : State} {i : Fin 32} {st : RxState} {b : Bool}
    (hc : codeValue (s.mbCode i) = some (.receive st b)) (hst : st ≠ .inactive) : (s.csReadAtS2 i).lock = some i.val :=
  engageLock_lock_receive hc hst _ _

theorem csReadAtS2_lock_inactive {s : State} {i : Fin 32} {b : Bool}
    (hc : codeValue (s.mbCode i) = some (.receive .inactive b)) : (s.csReadAtS2 i).lock = s.lock := by
  rw [State.csReadAtS2, engageLock_of_inactive hc]
  simp

theorem csReadAtS2_lock_transmit {s : State} {i : Fin 32} {st : TxState}
    (hc : codeValue (s.mbCode i) = some (.transmit st)) : (s.csReadAtS2 i).lock = s.lock := by
  rw [State.csReadAtS2, engageLock_of_transmit hc]
  simp

/-- Settles O23: at S2 of `RECEIVE` the lock is what `State.engageLock` makes it, and no other operation calls it. -/
theorem lockEngagedByReceiveOnly : Obligations.LockEngagedByReceiveOnly := by
  refine ⟨fun s t i n m hq hx => ?receive, fun s t i n hq hx => ?transmit, fun s t i n m hq hx => ?abort,
    fun s t i n hq hx => ?init⟩
  case receive =>
    rw [lock_receive_s2 hq hx]
    exact ⟨fun st b hc hst => csReadAtS2_lock_receive hc hst, fun b hc => csReadAtS2_lock_inactive hc,
      fun st hc => csReadAtS2_lock_transmit hc⟩
  case transmit => exact lock_transmit (exec_transmit_run hq ▸ hx)
  case abort => exact lock_abort (exec_abort_run hq ▸ hx)
  case init => rcases hq with hq | hq <;> exact lock_init (exec_init_run hq ▸ hx)

end Sys2Proof.Machine
end

section
/-! SUPPORT. The controller's moves on a mailbox, one by one (20_memory.md R83 to R89): the end of a transmission, of a
reception and of an abort are one update of the control word and the flag, `State.concludeMb`. -/

namespace Sys2Proof.Machine

/-! ## What such a move keeps -/

/-- The control registers, the lock, the engine and the history are outside a move on a mailbox. -/
theorem OnlyMailbox.frame {s t : State} (h : OnlyMailbox s t) :
    sameControl s t ∧ t.lock = s.lock ∧ sameEngine s t ∧ t.seq = s.seq ∧ t.history = s.history := by
  obtain ⟨mem, fl, ar, rb, rfl⟩ := h
  exact ⟨⟨rfl, rfl, rfl, rfl⟩, rfl, ⟨rfl, rfl, rfl, rfl, rfl, rfl⟩, rfl, rfl⟩

/-- A mailbox the controller may not change (R89). -/
theorem mbLive_eq_false {s : State} {i : Nat} (h : ¬(s.active = true ∧ i ≤ s.maxmb ∧ i < s.params.numMb)) :
    s.mbLive i = false := by
  rw [← Bool.not_eq_true, live_iff]
  exact h

/-! ## The end of a transmission, a reception or an abort -/

/-- The control word of mailbox `i` given code `v` and, where `b`, the timer's count, and the flag set: what R83, R85 and R86
have in common. -/
def State.concludeMb (i : Nat) (v : BitVec 4) (b : Bool) (s : State) : State :=
  ((s.setMbCode i v).stampIfSent i b).setFlag i

theorem concludeMb_eq (i : Nat) (v : BitVec 4) (b : Bool) (s : State) :
    ∃ mem, s.concludeMb i v b = { s with mem := mem, iflag := s.iflag ||| flagMask i } := by
  cases b <;> exact ⟨_, rfl⟩

@[simp] theorem State.concludeMb_abortReq (i : Nat) (v : BitVec 4) (b : Bool) (s : State) :
    (s.concludeMb i v b).abortReq = s.abortReq := by
  obtain ⟨mem, h⟩ := concludeMb_eq i v b s
  rw [h]

@[simp] theorem State.concludeMb_rxBegun (i : Nat) (v : BitVec 4) (b : Bool) (s : State) :
    (s.concludeMb i v b).rxBegun = s.rxBegun := by
  obtain ⟨mem, h⟩ := concludeMb_eq i v b s
  rw [h]

/-- What mailbox `i` shows in `t` after that update of `s`, and that nothing but it and its hidden state has changed. -/
structure Concluded (i : Nat) (v : BitVec 4) (b : Bool) (s t : State) : Prop where
  word : t.mbWord i .cs = csAfter (s.mbWord i .cs) s.timer v b
  flags : ∀ j, t.flag j = (s.flag j || decide (j = i))
  bytes : sameBytesOutside (s.mbAddr i .cs) 4 s t
  only : OnlyMailbox s t

theorem concluded_concludeMb {s : State} (hm : Memory.wf s.mem = true) {i : Nat} (hi : i < 32) (v : BitVec 4) (b : Bool) :
    Concluded i v b s (s.concludeMb i v b) where
  word := by
    simp only [State.concludeMb, State.setFlag_mbWord, mbWord_stampIfSent (wf_setMbCode hm i v), mbWord_setMbCode hm, and_self,
      if_true, State.setMbCode_timer, csAfter]
  flags j := by
    obtain ⟨mem, h⟩ := concludeMb_eq i v b s
    rw [h]
    exact flag_setFlag hi j s
  bytes := bytes_mem (bytes_ifSent hm i v b) rfl
  only := by
    obtain ⟨mem, h⟩ := concludeMb_eq i v b s
    exact ⟨mem, _, s.abortReq, s.rxBegun, h⟩

theorem Concluded.dropAbort {i : Nat} {v : BitVec 4} {b : Bool} {s t : State} (h : Concluded i v b s t) :
    Concluded i v b s (t.dropAbort i) :=
  ⟨h.word, h.flags, h.bytes, by obtain ⟨mem, fl, ar, rb, rfl⟩ := h.only; exact ⟨mem, fl, _, rb, rfl⟩⟩

theorem Concluded.markEnded {i : Nat} {v : BitVec 4} {b : Bool} {s t : State} (h : Concluded i v b s t) :
    Concluded i v b s (t.markEnded i) :=
  ⟨h.word, h.flags, h.bytes, by obtain ⟨mem, fl, ar, rb, rfl⟩ := h.only; exact ⟨mem, fl, ar, _, rfl⟩⟩

theorem Concluded.code {i : Nat} {v : BitVec 4} {b : Bool} {s t : State} (h : Concluded i v b s t) : t.mbCode i = v := by
  rw [State.mbCode, h.word, codeOf_csAfter]

/-- The fields of the control word beside the code. -/
theorem Concluded.fields {i : Nat} {v : BitVec 4} {b : Bool} {s t : State} (h : Concluded i v b s t) :
    (t.mbWord i .cs).extractLsb' 0 16 = (if b then s.timer else s.mbWord i .cs).extractLsb' 0 16 ∧
    (t.mbWord i .cs).extractLsb' 16 8 = (s.mbWord i .cs).extractLsb' 16 8 ∧
    (t.mbWord i .cs).extractLsb' 28 4 = (s.mbWord i .cs).extractLsb' 28 4 := by
  rw [h.word]
  exact extract_csAfter _ _ _ _

theorem Concluded.flag_same {i : Nat} {v : BitVec 4} {b : Bool} {s t : State} (h : Concluded i v b s t) :
    t.flag i = true := by
  simp [h.flags]

theorem Concluded.flag_other {i : Nat} {v : BitVec 4} {b : Bool} {s t : State} (h : Concluded i v b s t) :
    ∀ j, j ≠ i → t.flag j = s.flag j := by
  intro j hj
  simp [h.flags, hj]

/-- An abort request dropped, the others kept (10_state.md R43). -/
theorem mem_dropAbort (i : Nat) (s : State) :
    i ∉ (s.dropAbort i).abortReq ∧ ∀ j, j ≠ i → (j ∈ (s.dropAbort i).abortReq ↔ j ∈ s.abortReq) := by
  refine ⟨not_mem_removeIndex i s.abortReq, fun j hj => ?_⟩
  rw [State.dropAbort_abortReq, mem_removeIndex]
  exact and_iff_left hj

/-! ## Transmission complete (R83) -/

theorem sentCode_eq (rtr alt : Bool) : sentCode rtr alt = if rtr && alt then 0b0100#4 else 0b1000#4 := rfl

theorem exec_txPending_act {s : State} {i : Nat} {alt : Bool} (ht : s.turn = .mailbox i (.act alt))
    (hl : s.mbLive i = true) :
    exec .codeTxDataOrRemotePending s =
      .next ((s.concludeMb i (sentCode (Cs.rtr.bit (s.mbWord i .cs)) alt) true).dropAbort i) := by
  refine (codeRow_mailbox ht _ completeTransmission).trans ?_
  rw [completeTransmission, if_pos hl]
  rfl

/-- Settles O45: the move is `State.concludeMb` with the timestamp, and the abort request dropped. -/
theorem transmissionCompletes : Obligations.TransmissionCompletes := by
  intro s i alt hm hp ht _
  refine ⟨fun ha hmb hi => ?_, fun hn => ?_⟩
  · have hc := (concluded_concludeMb hm (by omega : i < 32) (sentCode (Cs.rtr.bit (s.mbWord i .cs)) alt) true).dropAbort
    obtain ⟨hstamp, hlow, hhigh⟩ := hc.fields
    obtain ⟨hctl, hlock, heng, hseq, hhist⟩ := hc.only.frame
    obtain ⟨hself, hrest⟩ := mem_dropAbort i (s.concludeMb i (sentCode (Cs.rtr.bit (s.mbWord i .cs)) alt) true)
    rw [State.concludeMb_abortReq] at hrest
    exact ⟨_, exec_txPending_act ht (live_iff.2 ⟨ha, hmb, hi⟩), hc.code.trans (sentCode_eq _ _), hstamp, hlow, hhigh,
      hc.flag_same, hself, hrest, hc.flag_other, hc.bytes, hctl, hlock, heng, hseq, hhist⟩
  · refine (codeRow_mailbox ht _ completeTransmission).trans ?_
    simp only [completeTransmission, mbLive_eq_false hn, Bool.false_eq_true, if_false]

/-! ## A reception begins (R84) -/

theorem codeBits_receive_busy (st : RxState) :
    codeBits (.receive st true) = codeBits (.receive st false) ||| 1#4 := by
  cases st <;> rfl

/-- The rows on which a reception begins, each with its receive state. -/
theorem exec_beginRow {row : Instr × BitVec 4}
    (hrow : row ∈ [(Instr.codeRxFull, 0b0010#4), (.codeRxEmpty, 0b0100#4), (.codeRxOverrun, 0b0110#4)]) :
    ∃ st, codeBits (.receive st false) = row.2 ∧ ∀ (s : State) (i : Nat) (m : MbMove), s.turn = .mailbox i m →
      exec row.1 s = .next (beginReception st i m s) := by
  simp only [List.mem_cons, List.not_mem_nil, or_false] at hrow
  rcases hrow with rfl | rfl | rfl
  · exact ⟨.full, rfl, fun s i m ht => codeRow_mailbox ht _ _⟩
  · exact ⟨.empty, rfl, fun s i m ht => codeRow_mailbox ht _ _⟩
  · exact ⟨.overrun, rfl, fun s i m ht => codeRow_mailbox ht _ _⟩

theorem beginReception_eq {st : RxState} {i : Nat} {alt : Bool} {s : State} (hl : s.mbLive i = true)
    (hk : s.lock ≠ some i) :
    beginReception st i (.act alt) s = (s.setMbCode i (codeBits (.receive st true))).markBegun i := by
  simp only [beginReception, hl, hk, ne_eq, not_false_eq_true, decide_true, Bool.and_self, if_true]

theorem beginReception_self {st : RxState} {i : Nat} {alt : Bool} {s : State}
    (h : s.mbLive i = false ∨ s.lock = some i) : beginReception st i (.act alt) s = s := by
  rw [beginReception, if_neg]
  rcases h with h | h <;> simp [h]

/-- Settles O46: the move sets the busy bit of the control word and notes the reception. -/
theorem receptionBegins : Obligations.ReceptionBegins := by
  intro s i alt hm ht row hrow hcode
  obtain ⟨st, hst, hexec⟩ := exec_beginRow hrow
  have hv : row.2 = 0b0010#4 ∨ row.2 = 0b0100#4 ∨ row.2 = 0b0110#4 := by
    simp only [List.mem_cons, List.not_mem_nil, or_false] at hrow
    rcases hrow with rfl | rfl | rfl <;> simp
  rw [hexec s i _ ht]
  refine ⟨fun ha hmb hi hk => ?_, fun hn => ?_⟩
  · have hbusy : codeBits (.receive st true) = row.2 ||| 1#4 := by rw [codeBits_receive_busy, hst]
    rw [beginReception_eq (live_iff.2 ⟨ha, hmb, hi⟩) hk, hbusy]
    refine ⟨_, rfl, ?_, mbCode_setMbCode hm i _, bytes_setMbWord hm i .cs _, rfl, ⟨rfl, rfl, rfl, rfl⟩, rfl, rfl, ?_,
      ⟨rfl, rfl, rfl, rfl, rfl, rfl⟩, rfl, rfl⟩
    · rw [State.markBegun_mbWord, mbWord_setMbCode hm, if_pos ⟨rfl, rfl⟩]
      exact or_bit_withCode _ _ hcode hv
    · exact (mem_insertIndex i i s.rxBegun).2 (.inl rfl)
  · rw [beginReception_self]
    rcases hn with hk | ha | hmb | hi
    · exact .inr hk
    · exact .inl (mbLive_eq_false (by simp [ha]))
    · exact .inl (mbLive_eq_false (by omega))
    · exact .inl (mbLive_eq_false (by omega))

/-! ## A reception in course and its end (R84, R85) -/

/-- The busy rows, each with the code its reception ends in. -/
def busyRows : List (Instr × BitVec 4) :=
  [(.codeRxEmptyBusy, 0b0010#4), (.codeRxFullBusy, 0b0110#4), (.codeRxOverrunBusy, 0b0110#4)]

theorem exec_busyRow {row : Instr × BitVec 4} (hrow : row ∈ busyRows) :
    ∃ st, codeBits (.receive st false) = row.2 ∧ ∀ (s : State) (i : Nat) (m : MbMove), s.turn = .mailbox i m →
      exec row.1 s = .next (receiving st i m s) := by
  simp only [busyRows, List.mem_cons, List.not_mem_nil, or_false] at hrow
  rcases hrow with rfl | rfl | rfl
  · exact ⟨.full, rfl, fun s i m ht => codeRow_mailbox ht _ _⟩
  · exact ⟨.overrun, rfl, fun s i m ht => codeRow_mailbox ht _ _⟩
  · exact ⟨.overrun, rfl, fun s i m ht => codeRow_mailbox ht _ _⟩

/-- The meaning of a busy row on the controller's turn is `receiving`. -/
theorem exec_busy {r : Instr} (hr : r ∈ [Instr.codeRxFullBusy, .codeRxEmptyBusy, .codeRxOverrunBusy]) {s : State} {i : Nat}
    {m : MbMove} (ht : s.turn = .mailbox i m) : ∃ st, exec r s = .next (receiving st i m s) := by
  have hrow : ∃ v, (r, v) ∈ busyRows := by
    simp only [List.mem_cons, List.not_mem_nil, or_false] at hr
    rcases hr with rfl | rfl | rfl <;> simp [busyRows]
  obtain ⟨v, hv⟩ := hrow
  obtain ⟨st, -, hexec⟩ := exec_busyRow hv
  exact ⟨st, hexec s i m ht⟩

/-- A move that writes one word of a busy mailbox. -/
theorem receiving_writeWord {st : RxState} {i : Nat} {v : Word} {s : State} (hl : s.mbLive i = true) :
    ∀ m ∈ [(MbMove.writeId v, MbWord.id), (.writeD0 v, .d0), (.writeD1 v, .d1)],
      receiving st i m.1 s = s.setMbWord i m.2 v := by
  simp [receiving, hl]

theorem receiving_writeCsFields {st : RxState} {i : Nat} {v : Word} {s : State} (hl : s.mbLive i = true) :
    receiving st i (.writeCsFields v) s = s.setMbWord i .cs (blend Cs.receptionMask (s.mbWord i .cs) v) := by
  simp only [receiving, hl, if_true]

/-- The control-word fields the controller writes during a reception are bits 29 and 21 to 0. -/
theorem getLsbD_receptionMask : ∀ k < 32, Cs.receptionMask.getLsbD k = decide (k = 29 ∨ k ≤ 21) := by decide

/-- Settles O47: each move writes one word, and of the control word only the bits of `Cs.receptionMask`. -/
theorem receptionWrites : Obligations.ReceptionWrites := by
  intro s i v hm ha hmb hi row hrow
  have hl := live_iff.2 ⟨ha, hmb, hi⟩
  refine ⟨fun m hmem ht => ?word, fun ht => ?control⟩
  case word =>
    obtain ⟨st, hexec⟩ := exec_busy hrow ht
    rw [hexec, receiving_writeWord hl m hmem]
    refine ⟨_, rfl, ?_, bytes_setMbWord hm i m.2 v, rfl, ⟨rfl, rfl, rfl, rfl⟩, ⟨rfl, rfl, rfl⟩,
      ⟨rfl, rfl, rfl, rfl, rfl, rfl⟩, rfl, rfl⟩
    rw [mbWord_setMbWord hm, if_pos ⟨rfl, rfl⟩]
  case control =>
    obtain ⟨st, hexec⟩ := exec_busy hrow ht
    rw [hexec, receiving_writeCsFields hl]
    refine ⟨_, rfl, ?_, fun k hk => ?_, bytes_setMbWord hm i .cs _, rfl, ⟨rfl, rfl, rfl, rfl⟩, ⟨rfl, rfl, rfl⟩,
      ⟨rfl, rfl, rfl, rfl, rfl, rfl⟩, rfl, rfl⟩
    · rw [mbCode_setMbWord hm, if_pos ⟨rfl, rfl⟩, codeOf_blend_reception, State.mbCode]
    · rw [mbWord_setMbWord hm, if_pos ⟨rfl, rfl⟩, getLsbD_blend, getLsbD_receptionMask k hk]
      simp only [decide_eq_true_eq]

theorem receiving_act_eq {st : RxState} {i : Nat} {alt : Bool} {s : State} (hi : i < s.params.numMb)
    (h : i ∈ s.rxBegun ∨ (s.active = true ∧ i ≤ s.maxmb)) :
    receiving st i (.act alt) s = (s.concludeMb i (codeBits (.receive st false)) true).markEnded i := by
  rw [receiving, if_pos]
  · rfl
  · rcases h with h | ⟨ha, hmb⟩
    · simp [h, hi]
    · simp [live_iff.2 ⟨ha, hmb, hi⟩]

/-- Settles O48: the move is `State.concludeMb` with the timestamp, and the reception no longer noted. -/
theorem receptionEnds : Obligations.ReceptionEnds := by
  intro s i alt hm hp ht hi hgo row hrow
  obtain ⟨st, hst, hexec⟩ := exec_busyRow hrow
  rw [hexec s i _ ht, receiving_act_eq hi hgo, hst]
  have hc := (concluded_concludeMb hm (by omega : i < 32) row.2 true).markEnded
  obtain ⟨hstamp, hlow, hhigh⟩ := hc.fields
  obtain ⟨hctl, hlock, heng, hseq, hhist⟩ := hc.only.frame
  exact ⟨_, rfl, hc.code, hstamp, hlow, hhigh, hc.flag_same, hc.flag_other, not_mem_removeIndex i _, hc.bytes, hctl, hlock,
    State.concludeMb_abortReq i row.2 true s, heng, hseq, hhist⟩

/-! ## Abort complete (R86) -/

theorem abortedCode_eq (alt : Bool) : abortedCode alt = if alt then 0b1000#4 else 0b1001#4 := rfl

theorem exec_txAbort_act {s : State} {i : Nat} {alt : Bool} (ht : s.turn = .mailbox i (.act alt)) (hl : s.mbLive i = true)
    (hr : i ∈ s.abortReq) :
    exec .codeTxAbort s = .next ((s.concludeMb i (abortedCode alt) alt).dropAbort i) := by
  refine (codeRow_mailbox ht _ completeAbort).trans ?_
  rw [completeAbort, if_pos (by simp [hl, hr])]
  rfl

/-- Settles O49: the move is `State.concludeMb`, stamped where the frame was sent, and the request dropped. -/
theorem abortCompletes : Obligations.AbortCompletes := by
  intro s i alt hm hp ht
  refine ⟨fun ha hmb hi hr => ?_, fun hr => ?_⟩
  · have hc := (concluded_concludeMb hm (by omega : i < 32) (abortedCode alt) alt).dropAbort
    obtain ⟨hstamp, hlow, hhigh⟩ := hc.fields
    obtain ⟨hctl, hlock, heng, hseq, hhist⟩ := hc.only.frame
    obtain ⟨hself, hrest⟩ := mem_dropAbort i (s.concludeMb i (abortedCode alt) alt)
    rw [State.concludeMb_abortReq] at hrest
    exact ⟨_, exec_txAbort_act ht (live_iff.2 ⟨ha, hmb, hi⟩) hr, hc.code.trans (abortedCode_eq alt), hstamp, hlow, hhigh,
      hc.flag_same, hc.flag_other, hself, hrest, hc.bytes, hctl, hlock, heng, hseq, hhist⟩
  · refine (codeRow_mailbox ht _ completeAbort).trans ?_
    simp only [completeAbort, hr, decide_false, Bool.and_false, Bool.false_eq_true, if_false]

/-! ## Codes nothing explains (R87) and codes nothing changes (R89) -/

theorem unconstrained_scramble {s : State} {i : Nat} (hl : s.mbLive i = true) (cs id d0 d1 : Word) (b : Bool) :
    unconstrained i (.scramble cs id d0 d1 b) s = s.scrambleMb i cs id d0 d1 b := by
  simp only [unconstrained, hl, if_true]

/-- A busy code that no reception produced is unexplained too. -/
theorem receiving_scramble {s : State} {i : Nat} (hl : s.mbLive i = true) (hr : i ∉ s.rxBegun) (st : RxState)
    (cs id d0 d1 : Word) (b : Bool) :
    receiving st i (.scramble cs id d0 d1 b) s = s.scrambleMb i cs id d0 d1 b := by
  simp only [receiving, hl, hr, not_false_eq_true, decide_true, Bool.and_self, if_true]

theorem receiving_scramble_begun {s : State} {i : Nat} (hr : i ∈ s.rxBegun) (st : RxState) (cs id d0 d1 : Word) (b : Bool) :
    receiving st i (.scramble cs id d0 d1 b) s = s := by
  simp only [receiving, hr, not_true, decide_false, Bool.and_false, Bool.false_eq_true, if_false]

/-- Under every code R87 names the four words and the flag take the drawn values. -/
theorem exec_unexplained {s : State} {i : Nat} {cs id d0 d1 : Word} {b : Bool}
    (ht : s.turn = .mailbox i (.scramble cs id d0 d1 b)) (hl : s.mbLive i = true) :
    ∀ row ∈ [(Instr.codeRxInactiveBusy, false), (.codeRxRemoteAnswer, false), (.codeRxRemoteAnswerBusy, false),
        (.codeUndecodable1101, false), (.codeTxRemoteAnswerPending, false), (.codeUndecodable1111, false),
        (.codeRxFullBusy, true), (.codeRxEmptyBusy, true), (.codeRxOverrunBusy, true)],
      (row.2 = true → i ∉ s.rxBegun) → exec row.1 s = .next (s.scrambleMb i cs id d0 d1 b) := by
  have hun : ∀ v, codeRow v unconstrained s = .next (s.scrambleMb i cs id d0 d1 b) := fun v => by
    rw [codeRow_mailbox ht, unconstrained_scramble hl]
  have hbusy : ∀ v st, i ∉ s.rxBegun → codeRow v (receiving st) s = .next (s.scrambleMb i cs id d0 d1 b) :=
    fun v st hr => by rw [codeRow_mailbox ht, receiving_scramble hl hr]
  intro row hrow hr
  simp only [List.mem_cons, List.not_mem_nil, or_false] at hrow
  rcases hrow with rfl | rfl | rfl | rfl | rfl | rfl | rfl | rfl | rfl
  · exact hun _
  · exact hun _
  · exact hun _
  · exact hun _
  · exact hun _
  · exact hun _
  · exact hbusy _ _ (hr rfl)
  · exact hbusy _ _ (hr rfl)
  · exact hbusy _ _ (hr rfl)

/-- Settles O50: such a turn is `State.scrambleMb`, and none exists in a reception in progress. -/
theorem unexplainedCodes : Obligations.UnexplainedCodes := by
  intro s i cs id d0 d1 b hm hp ht ha hmb hi
  have hl := live_iff.2 ⟨ha, hmb, hi⟩
  have hi32 : i < 32 := by omega
  refine ⟨fun row hrow hr => ?_, fun hr row hrow => ?_⟩
  · have hword := mbWord_scrambleMb hm i cs id d0 d1 b i
    obtain ⟨hctl, hlock, heng, hseq, hhist⟩ := (only_scramble i cs id d0 d1 b s).frame
    refine ⟨_, exec_unexplained ht hl row hrow hr, ?_, ?_, ?_, ?_, ?_, fun j hj => ?_, bytes_scramble hm i cs id d0 d1 b,
      hctl, ⟨hlock, ?_, ?_⟩, heng, hseq, hhist⟩
    · simpa using hword .cs
    · simpa using hword .id
    · simpa using hword .d0
    · simpa using hword .d1
    · rw [flag_scrambleMb hi32, if_pos rfl]
    · rw [flag_scrambleMb hi32, if_neg hj]
    · exact State.scrambleMb_abortReq ..
    · exact State.scrambleMb_rxBegun ..
  · obtain ⟨st, hexec⟩ := exec_busy hrow ht
    rw [hexec, receiving_scramble_begun hr]

/-- Settles O51: both inactive codes mean `inert`. -/
theorem inertCodes : Obligations.InertCodes := by
  intro s i m ht
  have hrx : exec .codeRxInactive s = .next s := codeRow_mailbox ht _ inert
  have htx : exec .codeTxInactive s = .next s := codeRow_mailbox ht _ inert
  refine ⟨hrx, htx, fun hi hc => ?_⟩
  rw [step_mailbox ht hi]
  rcases hc with hc | hc <;> rw [hc]
  · exact congrArg afterTurn hrx
  · exact congrArg afterTurn htx

end Sys2Proof.Machine
end

section
/-! SUPPORT. The controller's moves on its own registers (20_memory.md R80 to R82, R88), and how far its moves on a mailbox
reach (R89, 42_controller_init.md R164). -/

namespace Sys2Proof.Machine

/-! ## One bit of GCR -/

theorem covers_bit (lo k : Nat) (h : lo < 32) : (Field.mk lo 1).covers k = decide (k = lo) := by
  rw [covers_eq, Bool.eq_iff_iff]
  simp only [Bool.and_eq_true, decide_eq_true_eq]
  omega

/-- A one-bit field replaced by a truth value: that bit, and no other. -/
theorem getLsbD_set_bit {lo : Nat} (h : lo < 32) (w : Word) (b : Bool) (k : Nat) :
    ((Field.mk lo 1).set w b.toNat).getLsbD k = if k = lo then b else w.getLsbD k := by
  rw [getLsbD_set, covers_bit lo k h]
  by_cases hk : k = lo
  · cases b <;> simp [hk]
  · simp [hk]

theorem getLsbD_setFrzack (b : Bool) (s : State) {k : Nat} (hk : k ≠ 24) :
    (s.setFrzack b).gcr.getLsbD k = s.gcr.getLsbD k :=
  (getLsbD_set_bit (lo := 24) (by omega) s.gcr b k).trans (if_neg hk)

/-! ## Low-power acknowledgment (R80) -/

theorem ackLowPower_lpmack (s : State) : s.ackLowPower.lpmack = s.mdis :=
  (getLsbD_set_bit (lo := 20) (by omega) s.gcr s.mdis 20).trans (if_pos rfl)

theorem getLsbD_ackLowPower (s : State) {k : Nat} (hk : k ≠ 20) : s.ackLowPower.gcr.getLsbD k = s.gcr.getLsbD k :=
  (getLsbD_set_bit (lo := 20) (by omega) s.gcr s.mdis k).trans (if_neg hk)

/-! ## Soft reset (R81) -/

/-- Without `SOFTRST`, or with the module disabled, there is no soft reset. -/
theorem softReset_self {s : State} (h : s.softrst = false ∨ s.lpmack = true) (g b r f tm : Word) :
    s.softReset g b r f tm = s := by
  rw [State.softReset, if_neg]
  rcases h with h | h <;> simp [h]

/-- GCR after a soft reset. -/
def State.gcrReset (s : State) (g : Word) : Word := Gcr.softrst.set (Gcr.mdis.set g s.mdis.toNat) 0

theorem getLsbD_gcrReset (s : State) (g : Word) (k : Nat) :
    (s.gcrReset g).getLsbD k = if k = 25 then false else if k = 31 then s.mdis else g.getLsbD k := by
  refine (getLsbD_set_bit (lo := 25) (by omega) _ false k).trans ?_
  rw [Gcr.mdis, getLsbD_set_bit (by omega)]

/-- BTR after a soft reset: `CLKSRC` kept. -/
def State.btrReset (s : State) (b : Word) : Word := Btr.clksrc.set b (Btr.clksrc.bit s.btr).toNat

theorem getLsbD_btrReset (s : State) (b : Word) (k : Nat) :
    (s.btrReset b).getLsbD k = if k = 13 then Btr.clksrc.bit s.btr else b.getLsbD k :=
  getLsbD_set_bit (lo := 13) (by omega) b _ k

theorem softReset_eq {s : State} (hs : s.softrst = true) (hl : s.lpmack = false) (g b r f tm : Word) :
    s.softReset g b r f tm =
      { s with
        gcr := s.gcrReset g, btr := s.btrReset b, rxmask := r, iflag := f, timer := tm
        lock := none, abortReq := [], rxBegun := [] } := by
  rw [State.softReset, if_pos (by simp [hs, hl])]
  rfl

/-- Soft or not, the mailbox file and the engine's registers are kept. -/
theorem softReset_keeps (g b r f tm : Word) (s : State) :
    (s.softReset g b r f tm).mem = s.mem ∧ (s.softReset g b r f tm).seq = s.seq ∧
    (s.softReset g b r f tm).mode = s.mode ∧ (s.softReset g b r f tm).maxMailbox = s.maxMailbox := by
  rw [State.softReset]
  split <;> exact ⟨rfl, rfl, rfl, rfl⟩

/-! ## Freeze acknowledgment (R82) -/

/-- Where R82 calls `FRZACK` unspecified it is drawn. -/
theorem ackFreeze_unspecified {s : State} (h : s.lpmack = true ∨ s.frz ≠ s.halt) (d : Bool) :
    s.ackFreeze d = s.drawFrzack d := by
  rw [State.ackFreeze]
  rcases h with h | h
  · rw [if_pos h]
  · rw [if_pos h, ite_self]

theorem ackFreeze_softrst {s : State} (hl : s.lpmack = false) (hs : s.softrst = true) (h : s.frz = s.halt) (d : Bool) :
    s.ackFreeze d = s := by
  simp only [State.ackFreeze, hl, hs, h, ne_eq, not_true, if_false, if_true, Bool.false_eq_true]

theorem ackFreeze_entering {s : State} (hl : s.lpmack = false) (hs : s.softrst = false) (hf : s.frz = true)
    (hh : s.halt = true) (d : Bool) : s.ackFreeze d = s.setFrzack (s.frzack || s.rxBegun.isEmpty) := by
  simp only [State.ackFreeze, hl, hs, hf, hh, ne_eq, not_true, if_false, if_true, Bool.false_eq_true]

theorem ackFreeze_leaving {s : State} (hl : s.lpmack = false) (hs : s.softrst = false) (hf : s.frz = false)
    (hh : s.halt = false) (d : Bool) : s.ackFreeze d = s.setFrzack false := by
  simp only [State.ackFreeze, hl, hs, hf, hh, ne_eq, not_true, if_false, Bool.false_eq_true]

theorem drawFrzack_frzack (d : Bool) (s : State) : (s.drawFrzack d).frzack = d := by
  cases d <;> exact setFrzack_frzack _ _

/-- It changes no bit of GCR but `FRZACK`. -/
theorem getLsbD_ackFreeze (d : Bool) (s : State) {k : Nat} (hk : k ≠ 24) :
    (s.ackFreeze d).gcr.getLsbD k = s.gcr.getLsbD k := by
  rcases ackFreeze_cases d s with h | ⟨b, h⟩ | h <;> rw [h]
  · exact getLsbD_setFrzack b s hk
  · rw [getLsbD_setFrzack true _ hk, finishReceptions_gcr]

/-- Where no reception has to end first, it changes nothing but GCR. -/
theorem ackFreeze_quiet {s : State} {d : Bool}
    (h : d = false ∨ s.rxBegun = [] ∨ (s.lpmack = false ∧ s.frz = s.halt)) :
    s.ackFreeze d = s ∨ ∃ b, s.ackFreeze d = s.setFrzack b := by
  by_cases hsp : s.lpmack = false ∧ s.frz = s.halt
  · exact ackFreeze_specified hsp.1 hsp.2 d
  · rw [ackFreeze_unspecified (by rw [← Bool.not_eq_false]; exact not_and_or.1 hsp)]
    refine .inr ⟨d, ?_⟩
    rcases h with rfl | h | h
    · rfl
    · cases d
      · rfl
      · rw [State.drawFrzack, if_pos rfl, finishReceptions_nil h]
    · exact absurd h hsp

/-- Every reception begun ended, from the invariant (R85). -/
theorem finishReceptions_shows {s : State} (h : s.Inv) :
    (∀ i ∈ s.rxBegun, s.finishReceptions.mbWord i .cs = csAfter (s.mbWord i .cs) s.timer (receivedCode (s.mbCode i)) true) ∧
    (∀ j, s.finishReceptions.flag j = (s.flag j || decide (j ∈ s.rxBegun))) ∧
    (∀ a, (∀ i ∈ s.rxBegun, a < s.mbAddr i .cs ∨ s.mbAddr i .cs + 4 ≤ a) →
      readByte s.finishReceptions.mem a = readByte s.mem a) := by
  obtain ⟨hword, hflag, hbyte, -⟩ := finish_all h.structural.mem (numMb_le h.structural) s.rxBegun h.structural.rxBegun
    fun i hi => ⟨hi, h.protocol.hidden.begun i hi⟩
  exact ⟨hword, hflag, hbyte⟩

/-! ## The statement on those moves -/

/-- Such a turn is the move of the environment, and the turn is over. -/
theorem step_environment {s : State} {t : Turn} (ht : s.turn = t) (he : t ≠ .engine) (hm : ∀ i m, t ≠ .mailbox i m) :
    step s = .next s.environment.endTurn :=
  step_of_fetch_nothing (fetch_other (ht ▸ he) fun i m => ht ▸ hm i m)

theorem step_lowPower {s : State} (ht : s.turn = .lowPower) : step s = .next s.ackLowPower.endTurn := by
  rw [step_environment ht (by simp) (by simp), State.environment, ht]

theorem step_softReset {s : State} {g b r f tm : Word} (ht : s.turn = .softReset g b r f tm) :
    step s = .next (s.softReset g b r f tm).endTurn := by
  rw [step_environment ht (by simp) (by simp), State.environment, ht]

theorem step_freeze {s : State} {d : Bool} (ht : s.turn = .freeze d) : step s = .next (s.ackFreeze d).endTurn := by
  rw [step_environment ht (by simp) (by simp), State.environment, ht]

theorem step_timer {s : State} {v : Word} (ht : s.turn = .timer v) : step s = .next (s.tickTimer v).endTurn := by
  rw [step_environment ht (by simp) (by simp), State.environment, ht]

/-- What `FRZACK` is after the turn, by the clauses of R82. -/
theorem ackFreeze_frzack (d : Bool) (s : State) :
    (s.lpmack = false → s.softrst = false → s.frz = true → s.halt = true → s.rxBegun = [] → (s.ackFreeze d).frzack = true) ∧
    (s.lpmack = false → s.softrst = false → s.frz = false → s.halt = false → (s.ackFreeze d).frzack = false) ∧
    (s.lpmack = false → s.softrst = false → s.frz = true → s.halt = true → s.rxBegun ≠ [] →
      (s.ackFreeze d).frzack = s.frzack) ∧
    (s.lpmack = false → s.softrst = true → s.frz = s.halt → (s.ackFreeze d).frzack = s.frzack) ∧
    (s.lpmack = true ∨ s.frz ≠ s.halt → (s.ackFreeze d).frzack = d) := by
  refine ⟨fun hl hs hf hh hr => ?_, fun hl hs hf hh => ?_, fun hl hs hf hh hr => ?_, fun hl hs he => ?_, fun hu => ?_⟩
  · simp [ackFreeze_entering hl hs hf hh, setFrzack_frzack, hr]
  · rw [ackFreeze_leaving hl hs hf hh, setFrzack_frzack]
  · simp [ackFreeze_entering hl hs hf hh, setFrzack_frzack, hr]
  · rw [ackFreeze_softrst hl hs he]
  · rw [ackFreeze_unspecified hu, drawFrzack_frzack]

/-- Settles O53: one law per clause of R80 to R82 and R88. -/
theorem globalControllerMoves : Obligations.GlobalControllerMoves := by
  refine ⟨fun s ht => ?lowPower, fun s g b r f tm ht => ?softReset, fun s d ht => ?freeze, fun s v ht => ?timer⟩
  case lowPower =>
    exact ⟨_, step_lowPower ht, ackLowPower_lpmack s, fun k hk => getLsbD_ackLowPower s hk, rfl, rfl, rfl, rfl, rfl,
      ⟨rfl, rfl, rfl⟩, rfl⟩
  case softReset =>
    obtain ⟨hmem, hseq, hmode, hmax⟩ := softReset_keeps g b r f tm s
    refine ⟨_, step_softReset ht, hmem, hseq, hmode, hmax, fun hs hl => ?_, fun hn => ?_⟩
    · rw [softReset_eq hs hl]
      refine ⟨?_, ?_, ?_, fun k h31 h25 => ?_, fun k h13 => ?_, rfl, rfl, rfl, rfl, rfl, rfl⟩
      · exact (getLsbD_gcrReset s g 25).trans (if_pos rfl)
      · exact getLsbD_gcrReset s g 31
      · exact (getLsbD_btrReset s b 13).trans (if_pos rfl)
      · exact (getLsbD_gcrReset s g k).trans (by rw [if_neg h25, if_neg h31])
      · exact (getLsbD_btrReset s b k).trans (if_neg h13)
    · rw [softReset_self hn]
      exact ⟨⟨rfl, rfl, rfl, rfl⟩, rfl, rfl, rfl, rfl⟩
  case freeze =>
    obtain ⟨henter, hleave, hbusy, hreset, hdraw⟩ := ackFreeze_frzack d s
    obtain ⟨hbtr, hrxmask, htimer, hlock, har, hseq⟩ : (s.ackFreeze d).btr = s.btr ∧ (s.ackFreeze d).rxmask = s.rxmask ∧
        (s.ackFreeze d).timer = s.timer ∧ (s.ackFreeze d).lock = s.lock ∧ (s.ackFreeze d).abortReq = s.abortReq ∧
        (s.ackFreeze d).seq = s.seq := by
      obtain ⟨g, mem, fl, rb, h⟩ := ackFreeze_only d s
      rw [h]
      exact ⟨rfl, rfl, rfl, rfl, rfl, rfl⟩
    refine ⟨_, step_freeze ht, fun k hk => getLsbD_ackFreeze d s hk, hbtr, hrxmask, htimer, hlock, har, hseq, fun hq => ?_,
      henter, hleave, hbusy, hreset, hdraw, fun hu hd hinv => ?_⟩
    · rcases ackFreeze_quiet hq with h | ⟨b, h⟩ <;> rw [h] <;> exact ⟨rfl, rfl, rfl⟩
    · subst hd
      rw [ackFreeze_unspecified hu]
      obtain ⟨hword, hflag, hbyte⟩ := finishReceptions_shows hinv
      refine ⟨rfl, fun i hi => ⟨?_, ?_⟩, hflag, hbyte⟩
      · exact (congrArg codeOf (hword i hi)).trans (codeOf_csAfter _ _ _ _)
      · have hfields := extract_csAfter (s.mbWord i .cs) s.timer (receivedCode (s.mbCode i)) true
        rw [← hword i hi] at hfields
        exact hfields
  case timer =>
    exact ⟨_, step_timer ht, rfl, rfl, rfl, rfl, rfl, rfl, ⟨rfl, rfl, rfl⟩, rfl⟩

/-! ## How far the controller reaches -/

theorem active_of_frozen {s : State} (h : s.frozen) : s.active = false := by
  simp [State.active, h.2]

/-- In freeze mode a turn of the controller on a mailbox only ends. -/
theorem step_mailbox_frozen {s : State} (h : s.Inv) (hf : s.frzack = true) {j : Nat} {m : MbMove}
    (ht : s.turn = .mailbox j m) : step s = .next s.endTurn := by
  by_cases hj : j < s.params.numMb
  · obtain ⟨u, hx, -⟩ := exec_mailbox_turn h.structural.mem (numMb_le h.structural) ht
    obtain rfl : u = s := still_of_inv h ht (.inl hf) hx
    rw [step_mailbox ht hj, hx, afterTurn]
  · have hfetch : fetch s = .nothing := by simp only [fetch, ht, fetchCode, if_neg hj]
    rw [step_of_fetch_nothing hfetch, State.environment, ht]

/-- The IFLAG bits of no mailbox may float; those of a mailbox stay (10_state.md R37). -/
theorem flag_floatFlags {s : State} (v : Word) {j : Nat} (hj : j < s.params.numMb) :
    (s.floatFlags v).flag j = s.flag j := by
  simp only [State.flag, State.floatFlags, getLsbD_blend, flagBits, BitVec.getLsbD_not, BitVec.getLsbD_ofNat,
    Nat.testBit_two_pow_sub_one, hj]
  by_cases h32 : j < 32 <;> simp [h32]

/-- In freeze mode no move but the engine's changes a mailbox or its flag. -/
theorem frozen_move_keeps {s u : State} (h : s.Inv) (hfz : s.frozen) (ht : s.turn ≠ .engine) (hm : Moves s u) :
    u.mem = s.mem ∧ ∀ j, j < s.params.numMb → u.flag j = s.flag j := by
  obtain ⟨⟨⟨-, hsoft, hlp⟩, hfrz, hhalt⟩, hack⟩ := hfz
  cases hm with
  | command w i u he hc hd hx => exact absurd he ht
  | illegal w e he hc hd => exact absurd he ht
  | quiet he hc => exact absurd he ht
  | mailbox i m u hmb hi hx =>
    obtain rfl : u = s := still_of_inv h hmb (.inl hack) hx
    exact ⟨rfl, fun _ _ => rfl⟩
  | noMailbox i m hmb hi => exact ⟨rfl, fun _ _ => rfl⟩
  | host w ops hh =>
    simp only [State.issue]
    split <;> exact ⟨rfl, fun _ _ => rfl⟩
  | lowPower hh => exact ⟨rfl, fun _ _ => rfl⟩
  | softReset g b r f tm hh =>
    rw [softReset_self (.inl hsoft)]
    exact ⟨rfl, fun _ _ => rfl⟩
  | freeze d hh =>
    rcases ackFreeze_specified hlp (hfrz.trans hhalt.symm) d with e | ⟨b, e⟩ <;> rw [e] <;> exact ⟨rfl, fun _ _ => rfl⟩
  | timer v hh => exact ⟨rfl, fun _ _ => rfl⟩
  | floating v hh => exact ⟨rfl, fun j hj => flag_floatFlags v hj⟩

/-- Settles O52: the first part is `confined` with what the invariant adds; at the labels from D1 to F1 freeze mode is in
force. -/
theorem controllerConfined : Obligations.ControllerConfined := by
  refine ⟨fun s t i m hm hp ht hi hx => ?move, fun s l i n h hq hl => ?frozen⟩
  case move =>
    obtain ⟨hctl, heng, hseq, hresult, hreport, hwork, hcmd, hhist, hlock, hbytes, hflags, hsets, hdormant⟩ :=
      confined hm hp ht hx
    exact ⟨hctl, heng, hseq, hresult, hreport, hwork, hcmd, hhist, hlock, hbytes, hflags, hsets, hdormant,
      fun hinv hb => still_of_inv hinv ht hb hx⟩
  case frozen =>
    have hfz := frozen_of_label h hq hl
    refine ⟨active_of_frozen hfz, h.protocol.hidden.still hfz.2, fun j m ht => step_mailbox_frozen h hfz.2 ht,
      fun t ht hx => ?_⟩
    obtain ⟨u, hmove, rfl⟩ := step_next hx
    obtain ⟨hmem, hflag⟩ := frozen_move_keeps h hfz ht hmove
    exact ⟨hmem, hflag⟩

end Sys2Proof.Machine
end

section
/-! SUPPORT. The command word and the mailbox code decoded and encoded (30_encoding.md R90, R93, R118), and the round trips
of the control word, the ID word and the data words (R102, R106, R110). -/

namespace Sys2Proof.Machine

/-! ## Decoding an encoding -/

/-- The two commands with a mailbox index decode to it, whatever its eight bits are. -/
theorem decodeWord_indexed {m : Nat} (hm : m < 256) :
    decodeWord (commandWord 0x6#4 m) = .ok (.receive m) ∧ decodeWord (commandWord 0x7#4 m) = .ok (.abort m) := by
  have hmbx : (BitVec.ofNat 8 m).toNat = m := Nat.mod_eq_of_lt hm
  rw [word_split _ _ hm, word_split _ _ hm]
  simp [decodeSelector, hmbx]

/-- Settles O1: a row with a mailbox index is `decodeWord_indexed`; every other row is one word or one code. -/
theorem decodeOfEncode : Obligations.DecodeOfEncode := by
  intro i hi
  cases i with
  | receive m => exact (decodeWord_indexed (of_decide_eq_true hi)).1
  | abort m => exact (decodeWord_indexed (of_decide_eq_true hi)).2
  | _ => rfl

/-! ## Encoding what was decoded -/

theorem withoutMailbox_eq_ok {i j : Instr} {mbx : BitVec 8} : withoutMailbox i mbx = .ok j ↔ mbx = 0#8 ∧ i = j := by
  by_cases h : mbx = 0#8 <;> simp [withoutMailbox, h]

theorem withoutMailbox_eq_error {i : Instr} {mbx : BitVec 8} :
    (∃ e, withoutMailbox i mbx = .error e) ↔ mbx ≠ 0#8 := by
  by_cases h : mbx = 0#8 <;> simp [withoutMailbox, h]

theorem decodeWord_eq_ok {w : Word} {i : Instr} :
    decodeWord w = .ok i ↔
      w.extractLsb' 8 20 = 0#20 ∧ decodeSelector (w.extractLsb' 28 4) (w.extractLsb' 0 8) = .ok i := by
  by_cases h : w.extractLsb' 8 20 = 0#20 <;> simp [decodeWord, h]

theorem decodeWord_eq_error {w : Word} :
    (∃ e, decodeWord w = .error e) ↔
      w.extractLsb' 8 20 ≠ 0#20 ∨ ∃ e, decodeSelector (w.extractLsb' 28 4) (w.extractLsb' 0 8) = .error e := by
  by_cases h : w.extractLsb' 8 20 = 0#20 <;> simp [decodeWord, h]

/-- The operation a selector and an index name is encoded with that selector and that index. -/
theorem encode_of_decodeSelector {op : BitVec 4} {mbx : BitVec 8} {i : Instr} (h : decodeSelector op mbx = .ok i) :
    encode i = .command (commandWord op mbx.toNat) ∧ Instr.wf i = true := by
  have hnum (n : Nat) (hop : op.toNat = n) : op = BitVec.ofNat 4 n := by
    rw [← hop, BitVec.ofNat_toNat, BitVec.setWidth_eq]
  simp only [decodeSelector] at h
  split at h
  case h_1 hop | h_2 hop | h_3 hop | h_4 hop | h_5 hop =>
    obtain rfl := hnum _ hop
    obtain ⟨rfl, rfl⟩ := withoutMailbox_eq_ok.1 h
    exact ⟨rfl, rfl⟩
  case h_6 hop | h_7 hop =>
    obtain rfl := hnum _ hop
    cases h
    exact ⟨rfl, decide_eq_true mbx.isLt⟩
  case h_8 => cases h

theorem encode_decodeCode (v : BitVec 4) : encode (decodeCode v) = .code v ∧ Instr.wf (decodeCode v) = true := by
  revert v; decide

/-- Settles O2: a command word is put together again from its selector and its index, and the sixteen codes are rows. -/
theorem encodeOfDecode : Obligations.EncodeOfDecode := by
  intro e i h
  cases e with
  | command w =>
    obtain ⟨hzero, hsel⟩ := decodeWord_eq_ok.1 h
    have henc := encode_of_decodeSelector hsel
    rwa [word_join w hzero] at henc
  | code v =>
    cases h
    exact encode_decodeCode v

/-- Settles O3: each is one evaluation of the decoder. -/
theorem writtenWordsDecode : Obligations.WrittenWordsDecode :=
  ⟨rfl, rfl, rfl, rfl, rfl, rfl, rfl, rfl, rfl, rfl, rfl, rfl⟩

/-! ## A word that is no command (R118) -/

theorem decodeSelector_eq_error {op : BitVec 4} {mbx : BitVec 8} :
    (∃ e, decodeSelector op mbx = .error e) ↔
      (op = 0#4 ∨ 8 ≤ op.toNat) ∨ (op.toNat ≤ 5 ∧ mbx ≠ 0#8) := by
  have hop0 : op = 0#4 ↔ op.toNat = 0 := BitVec.toNat_inj.symm
  rw [hop0]
  simp only [decodeSelector]
  split
  case h_1 hop | h_2 hop | h_3 hop | h_4 hop | h_5 hop => simp [withoutMailbox_eq_error, hop]
  case h_6 hop | h_7 hop => simp [hop]
  case h_8 h1 h2 h3 h4 h5 h6 h7 =>
    simp only [imp_false] at h1 h2 h3 h4 h5 h6 h7
    have hres : op.toNat = 0 ∨ 8 ≤ op.toNat := by omega
    simp [hres]

/-- The engine's turn on a word that is no command. -/
theorem step_illegal {s : State} {w : Word} {e : DecodeReject} (ht : s.turn = .engine) (hc : s.cmd = some w)
    (hd : decodeWord w = .error e) : step s = .next s.rejectWord.endTurn := by
  simp only [step, fetch, ht, fetchCommand, hc, hd]

theorem rejectWord_idle {s : State} (hq : s.seq = .idle) : s.rejectWord = s.refuse .illegalCommand := by
  simp only [State.rejectWord, hq]

/-- Settles O4: `decodeSelector_eq_error` under the test of bits 27:8; and the refusal at `Idle` is `State.refuse`. -/
theorem illegalCommandRefused : Obligations.IllegalCommandRefused := by
  refine ⟨fun w => ?words, fun s w e hq ht hc hd => ?refused⟩
  case words =>
    rw [decodeWord_eq_error, decodeSelector_eq_error]
    exact or_left_comm
  case refused =>
    rw [step_illegal ht hc hd, rejectWord_idle hq]
    refine ⟨_, rfl, rfl, ?_, rfl, rfl, rfl, rfl, ⟨⟨rfl, rfl, rfl, rfl⟩, rfl, fun _ => rfl⟩, ⟨rfl, rfl, rfl⟩, rfl⟩
    simp [hq, afterRefusal]

/-! ## The control word (R100 to R102) -/

/-- The reserved bits of R100: 31, 30, 28, 23 and 22. -/
theorem getLsbD_csReserved :
    ∀ k < 32, (0xD0C00000#32).getLsbD k = decide (k = 22 ∨ k = 23 ∨ k = 28 ∨ k = 30 ∨ k = 31) := by decide

/-- Two words that agree on a slice's bits have the same slice. -/
theorem extractLsb'_congr {a b : Word} {lo len : Nat}
    (h : ∀ k, lo ≤ k → k < lo + len → a.getLsbD k = b.getLsbD k) : a.extractLsb' lo len = b.extractLsb' lo len := by
  apply BitVec.eq_of_getLsbD_eq
  intro i hi
  simp only [BitVec.getLsbD_extractLsb', h (lo + i) (by omega) (by omega)]

/-- The reserved bits are ignored. -/
theorem unpackCs_blend_reserved (c v : Word) : unpackCs (blend 0xD0C00000#32 c v) = unpackCs c := by
  have hbit : ∀ k < 32, ¬(k = 22 ∨ k = 23 ∨ k = 28 ∨ k = 30 ∨ k = 31) →
      (blend 0xD0C00000#32 c v).getLsbD k = c.getLsbD k := by
    intro k hk hfield
    simp [getLsbD_blend, getLsbD_csReserved k hk, hfield]
  rw [unpackCs, unpackCs, hbit 29 (by omega) (by omega), hbit 21 (by omega) (by omega), hbit 20 (by omega) (by omega),
    extractLsb'_congr (lo := 24) (len := 4) fun k _ _ => hbit k (by omega) (by omega),
    extractLsb'_congr (lo := 16) (len := 4) fun k _ _ => hbit k (by omega) (by omega),
    extractLsb'_congr (lo := 0) (len := 16) fun k _ _ => hbit k (by omega) (by omega)]

theorem packCs_reserved (h : MailboxHeader) {f : CanFrame} (hf : CanFrame.wf f = true) :
    packCs h f &&& 0xD0C00000#32 = 0#32 := by
  apply BitVec.eq_of_getLsbD_eq
  intro k hk
  rw [BitVec.getLsbD_and, getLsbD_csReserved k hk, getLsbD_packCs h hf]
  by_cases hres : k = 22 ∨ k = 23 ∨ k = 28 ∨ k = 30 ∨ k = 31
  · rcases hres with rfl | rfl | rfl | rfl | rfl <;> rfl
  · simp [hres]

theorem packCs_dlc (h : MailboxHeader) {f : CanFrame} (hf : CanFrame.wf f = true) :
    (packCs h f).extractLsb' 16 4 = BitVec.ofNat 4 (dlcOf f) := by
  apply BitVec.eq_of_getLsbD_eq
  intro i hi
  rw [BitVec.getLsbD_extractLsb', BitVec.getLsbD_ofNat, getLsbD_packCs h hf]
  simp [hi, show 16 + i < 20 by omega]

theorem packCs_timestamp (h : MailboxHeader) {f : CanFrame} (hf : CanFrame.wf f = true) :
    (packCs h f).extractLsb' 0 16 = h.timestamp := by
  apply BitVec.eq_of_getLsbD_eq
  intro i hi
  simp [getLsbD_packCs h hf, hi]

/-- `unpack_cs` of `pack_cs`, field by field. -/
theorem unpackCs_packCs (h : MailboxHeader) {f : CanFrame} (hf : CanFrame.wf f = true) :
    unpackCs (packCs h f) =
      ⟨h.errorStateIndicator, codeBits h.code, isExtended f.id, isRemote f, BitVec.ofNat 4 (dlcOf f), h.timestamp⟩ := by
  have hcode : (packCs h f).extractLsb' 24 4 = codeBits h.code := codeOf_packCs hf
  rw [unpackCs, hcode, packCs_dlc h hf, packCs_timestamp h hf]
  simp only [getLsbD_packCs h hf]
  rfl

/-- Settles O15: by the bits of the packed word; the fields are read by definition. -/
theorem controlWordRoundTrip : Obligations.ControlWordRoundTrip :=
  ⟨fun h _ hf => ⟨unpackCs_packCs h hf, packCs_reserved h hf⟩, unpackCs_blend_reserved,
    fun _ => ⟨rfl, rfl, rfl, rfl, rfl, rfl⟩⟩

/-! ## The ID word (R104 to R106) -/

theorem getLsbD_packId_base (p : BitVec 3) (b : BitVec 11) (k : Nat) : (packId p (.base b)).getLsbD k =
    if k < 18 then false else if k < 29 then b.getLsbD (k - 18) else p.getLsbD (k - 29) := by
  simp only [packId, BitVec.getLsbD_or, BitVec.getLsbD_shiftLeft, BitVec.getLsbD_setWidth]
  by_cases h18 : k < 18
  · simp [h18, show k < 29 by omega]
  · by_cases h29 : k < 29
    · simp [h18, h29, show k < 32 by omega, show k - 18 < 32 by omega]
    · have hb : b.getLsbD (k - 18) = false := BitVec.getLsbD_of_ge _ _ (by omega)
      by_cases h32 : k < 32
      · simp [h18, h29, hb, h32, show k - 29 < 32 by omega]
      · simp [h18, h29, hb, h32, BitVec.getLsbD_of_ge p (k - 29) (by omega)]

theorem getLsbD_packId_extended (p : BitVec 3) (e : BitVec 29) (k : Nat) : (packId p (.extended e)).getLsbD k =
    if k < 29 then e.getLsbD k else p.getLsbD (k - 29) := by
  simp only [packId, BitVec.getLsbD_or, BitVec.getLsbD_shiftLeft, BitVec.getLsbD_setWidth]
  by_cases h29 : k < 29
  · simp [h29, show k < 32 by omega]
  · have he : e.getLsbD k = false := BitVec.getLsbD_of_ge _ _ (by omega)
    by_cases h32 : k < 32
    · simp [h29, he, h32, show k - 29 < 32 by omega]
    · simp [h29, he, h32, BitVec.getLsbD_of_ge p (k - 29) (by omega)]

theorem unpackId_packId_base (p : BitVec 3) (b : BitVec 11) : unpackId false (packId p (.base b)) = .base b := by
  refine congrArg CanIdentifier.base (BitVec.eq_of_getLsbD_eq fun i hi => ?_)
  simp [getLsbD_packId_base, hi, show 18 + i < 29 by omega]

/-- Read with the wrong flag, a base identifier is the extended one shifted by 18. -/
theorem unpackId_packId_wrongFlag (p : BitVec 3) (b : BitVec 11) :
    unpackId true (packId p (.base b)) = .extended (b.setWidth 29 <<< 18) := by
  refine congrArg CanIdentifier.extended (BitVec.eq_of_getLsbD_eq fun i hi => ?_)
  by_cases h18 : i < 18 <;> simp [getLsbD_packId_base, hi, h18]

theorem unpackId_packId_extended (p : BitVec 3) (e : BitVec 29) :
    unpackId true (packId p (.extended e)) = .extended e := by
  refine congrArg CanIdentifier.extended (BitVec.eq_of_getLsbD_eq fun i hi => ?_)
  simp [getLsbD_packId_extended, hi]

theorem priorityOf_packId (p : BitVec 3) (id : CanIdentifier) : priorityOf (packId p id) = p := by
  apply BitVec.eq_of_getLsbD_eq
  intro i hi
  cases id with
  | base b =>
    simp [priorityOf, getLsbD_packId_base, hi, show ¬ 29 + i < 18 by omega]
  | extended e => simp [priorityOf, getLsbD_packId_extended, hi]

/-- Settles O16: by the bits of the packed word. -/
theorem identifierRoundTrip : Obligations.IdentifierRoundTrip :=
  ⟨fun _ => ⟨rfl, rfl, rfl⟩, fun p b => ⟨unpackId_packId_base p b, unpackId_packId_wrongFlag p b⟩,
    unpackId_packId_extended, priorityOf_packId⟩

/-! ## The data words (R108 to R110) -/

theorem length_unpackData (d0 d1 : Word) (n : Nat) : (unpackData d0 d1 n).length = n := by
  simp [unpackData]

theorem getElem?_unpackData (d0 d1 : Word) {n k : Nat} (hk : k < n) :
    (unpackData d0 d1 n)[k]? = some (laneAt d0 d1 k) := by
  simp [unpackData, hk]

/-- Lanes 0 to 3 are in the first data word, the others in the second. -/
theorem laneAt_eq (d0 d1 : Word) (k : Nat) :
    laneAt d0 d1 k = (if k < 4 then d0 else d1).extractLsb' (24 - 8 * (k % 4)) 8 := by
  have hword : k / 4 = 0 ↔ k < 4 := by omega
  simp only [laneAt, hword]

/-- Lanes at or beyond the length are ignored. -/
theorem unpackData_congr {d0 d1 e0 e1 : Word} {n : Nat} (h : ∀ k, k < n → laneAt d0 d1 k = laneAt e0 e1 k) :
    unpackData d0 d1 n = unpackData e0 e1 n :=
  List.map_congr_left fun k hk => h k (List.mem_range.1 hk)

theorem unpackData_packData (id : CanIdentifier) {p : List Byte} (hp : p.length ≤ 8) :
    unpackData (packData (.data id p) 0) (packData (.data id p) 1) p.length = p := by
  refine List.ext_getElem? fun k => ?_
  by_cases hk : k < p.length
  · rw [getElem?_unpackData _ _ hk, laneAt_pack _ k (by omega), laneOf_data, List.getD_eq_getElem _ _ hk,
      List.getElem?_eq_getElem hk]
  · rw [List.getElem?_eq_none (by rw [length_unpackData]; omega), List.getElem?_eq_none (by omega)]

/-- Settles O17: byte `k` of what is unpacked is lane `k`, and lane `k` of what is packed is byte `k`. -/
theorem payloadRoundTrip : Obligations.PayloadRoundTrip := by
  refine ⟨fun id p hp => unpackData_packData id hp, fun d0 d1 n _ => ⟨length_unpackData d0 d1 n, fun k hk => ?_⟩,
    fun d0 d1 e0 e1 n _ h => unpackData_congr h⟩
  rw [getElem?_unpackData d0 d1 hk, laneAt_eq]

end Sys2Proof.Machine
end

section
/-! SUPPORT. The end of `BTCALC` for each clock ratio `S div C` (40_bit_timing.md R130, R131), and the segments of each
number of time quanta (R132, R134). -/

namespace Sys2Proof.Machine

/-! ## The table of segments (R132) -/

theorem tqTable_eq_some {q pseg2 rjw : Nat} : tqTable q = some (pseg2, rjw) ↔
    (8 ≤ q ∧ q ≤ 9 ∧ pseg2 = 1 ∧ rjw = 1) ∨ (10 ≤ q ∧ q ≤ 14 ∧ pseg2 = 3 ∧ rjw = 2) ∨
    (15 ≤ q ∧ q ≤ 19 ∧ pseg2 = 6 ∧ rjw = 2) ∨ (20 ≤ q ∧ q ≤ 25 ∧ pseg2 = 7 ∧ rjw = 3) := by
  rw [tqTable]
  split_ifs <;> simp only [Option.some.injEq, Prod.mk.injEq, false_iff] <;> omega

theorem tqTable_eq_none {q : Nat} : tqTable q = none ↔ q < 8 ∨ 25 < q := by
  rw [tqTable]
  split_ifs <;> simp only [false_iff, true_iff] <;> omega

theorem tqTable_isSome {q : Nat} (h8 : 8 ≤ q) (h25 : q ≤ 25) : ∃ pseg2 rjw, tqTable q = some (pseg2, rjw) := by
  cases h : tqTable q with
  | none => have := tqTable_eq_none.1 h; omega
  | some row => exact ⟨row.1, row.2, rfl⟩

/-- In every row the segments use all the quanta, and each fits its field (R134 (b), (c)). -/
theorem segments_of_tqTable {presdiv q pseg2 rjw : Nat} {bt : BitTiming} (hrow : tqTable q = some (pseg2, rjw))
    (hbt : segments presdiv q pseg2 rjw = bt) :
    bt.pseg1 + 1 = (q - (bt.pseg2 + 1)) / 2 ∧ bt.propseg + (bt.pseg2 + 1) + (bt.pseg1 + 1) + 2 = q ∧
    bt.propseg ≤ 7 ∧ bt.pseg1 ≤ 7 := by
  subst hbt
  simp only [segments]
  rcases tqTable_eq_some.1 hrow with ⟨_, _, rfl, _⟩ | ⟨_, _, rfl, _⟩ | ⟨_, _, rfl, _⟩ | ⟨_, _, rfl, _⟩ <;> omega

/-- The rows of R134 (a), as the table and the segments compute them. -/
theorem segmentTable_computed : ∀ row ∈ segmentTable, match row with
    | (q, propseg, pseg1, pseg2, rjw) => tqTable q = some (pseg2, rjw) ∧
      segments 0 q pseg2 rjw = ⟨0, propseg, pseg1, pseg2, rjw⟩ ∧ propseg + pseg1 + pseg2 + 4 = q := by decide

theorem segmentTable_quanta : segmentTable.map Prod.fst = List.range' 8 18 := rfl

/-! ## The outcome of the calculation, by the clock ratio -/

theorem btcalc_zero (S : Nat) : btcalc S 0 = .refused .canFrequencyZero := rfl

theorem btcalc_settingsError {S C : Nat} (hC : 0 < C) (h : S % C ≠ 0 ∨ S < 5 * C) : btcalc S C = .settingsError := by
  rw [btcalc, if_neg hC.ne', if_pos h]

theorem btcalc_presdivOutOfRange {S C : Nat} (hC : 0 < C) (hm : S % C = 0) (h : 6400 ≤ S / C) :
    btcalc S C = .refused .presdivOutOfRange := by
  rw [bt_unfold hC hm, if_neg (by omega), if_pos (by omega)]

theorem btcalc_tqsOutOfRange {S C : Nat} (hC : 0 < C) (hm : S % C = 0) (h5 : 5 ≤ S / C) (h8 : S / C < 8) :
    btcalc S C = .tqsOutOfRange (S / C) := by
  have hpresdiv : S / C / 25 = 0 := Nat.div_eq_of_lt (by omega)
  have hrow : tqTable (S / C) = none := tqTable_eq_none.2 (.inl h8)
  simp [bt_unfold hC hm, hpresdiv, hrow, Nat.not_lt.2 h5]

theorem btcalc_ok {S C : Nat} (hC : 0 < C) (hm : S % C = 0) (h8 : 8 ≤ S / C) (hq : S / C < 6400) :
    ∃ pseg2 rjw, tqTable (S / C / (S / C / 25 + 1)) = some (pseg2, rjw) ∧
      btcalc S C = .ok (segments (S / C / 25) (S / C / (S / C / 25 + 1)) pseg2 rjw) := by
  obtain ⟨hlow, hhigh⟩ := tq_range h8 hq
  obtain ⟨pseg2, rjw, hrow⟩ := tqTable_isSome hlow (by omega)
  refine ⟨pseg2, rjw, hrow, ?_⟩
  rw [bt_unfold hC hm, if_neg (by omega), if_neg (by omega), hrow]

/-- Which of these ends the calculation has. -/
theorem btcalc_cases (S C : Nat) :
    (C = 0 ∧ btcalc S C = .refused .canFrequencyZero) ∨
    (0 < C ∧ (S % C ≠ 0 ∨ S < 5 * C) ∧ btcalc S C = .settingsError) ∨
    (0 < C ∧ S % C = 0 ∧ 6400 ≤ S / C ∧ btcalc S C = .refused .presdivOutOfRange) ∨
    (0 < C ∧ S % C = 0 ∧ (S / C = 5 ∨ S / C = 6 ∨ S / C = 7) ∧ btcalc S C = .tqsOutOfRange (S / C)) ∨
    (0 < C ∧ S % C = 0 ∧ 8 ≤ S / C ∧ S / C < 6400 ∧ ∃ bt, btcalc S C = .ok bt) := by
  rcases Nat.eq_zero_or_pos C with rfl | hC
  · exact .inl ⟨rfl, btcalc_zero S⟩
  by_cases hs : S % C ≠ 0 ∨ S < 5 * C
  · exact .inr (.inl ⟨hC, hs, btcalc_settingsError hC hs⟩)
  obtain ⟨hm, h5⟩ : S % C = 0 ∧ 5 ≤ S / C := by
    rw [Nat.le_div_iff_mul_le hC]; omega
  refine .inr (.inr ?_)
  by_cases hhigh : 6400 ≤ S / C
  · exact .inl ⟨hC, hm, hhigh, btcalc_presdivOutOfRange hC hm hhigh⟩
  by_cases hlow : S / C < 8
  · exact .inr (.inl ⟨hC, hm, by omega, btcalc_tqsOutOfRange hC hm h5 hlow⟩)
  · obtain ⟨pseg2, rjw, -, hok⟩ := btcalc_ok hC hm (Nat.not_lt.1 hlow) (Nat.not_le.1 hhigh)
    exact .inr (.inr ⟨hC, hm, Nat.not_lt.1 hlow, Nat.not_le.1 hhigh, _, hok⟩)

theorem btcalc_eq_tqsOutOfRange {S C q : Nat} : btcalc S C = .tqsOutOfRange q ↔
    0 < C ∧ S % C = 0 ∧ (S / C = 5 ∨ S / C = 6 ∨ S / C = 7) ∧ q = S / C := by
  constructor
  · intro h
    rcases btcalc_cases S C with ⟨-, e⟩ | ⟨-, -, e⟩ | ⟨-, -, -, e⟩ | ⟨hC, hm, hq, e⟩ | ⟨-, -, -, -, bt, e⟩ <;>
      rw [e] at h <;> cases h
    exact ⟨hC, hm, hq, rfl⟩
  · rintro ⟨hC, hm, hq, rfl⟩
    exact btcalc_tqsOutOfRange hC hm (by omega) (by omega)

theorem ratio_of_btcalc_ok {S C : Nat} {bt : BitTiming} (h : btcalc S C = .ok bt) :
    0 < C ∧ S % C = 0 ∧ 8 ≤ S / C ∧ S / C < 6400 := by
  rcases btcalc_cases S C with ⟨-, e⟩ | ⟨-, -, e⟩ | ⟨-, -, -, e⟩ | ⟨-, -, -, e⟩ | ⟨hC, hm, hlow, hhigh, -⟩
  case inr.inr.inr.inr => exact ⟨hC, hm, hlow, hhigh⟩
  all_goals rw [e] at h; cases h

/-- The number of time quanta against the clock ratio (R134 (d)). -/
theorem quanta_of_ratio {q : Nat} (h8 : 8 ≤ q) (hq : q < 6400) :
    q / (q / 25 + 1) ≤ 24 ∧ (q < 25 → q / (q / 25 + 1) = q) ∧ (25 ≤ q → 12 ≤ q / (q / 25 + 1)) :=
  ⟨(tq_range h8 hq).2, fun h => by rw [Nat.div_eq_of_lt h, Nat.div_one], fun h => (tq_small h hq).1⟩

/-! ## The statements -/

/-- Settles O8: the table's row by `btcalc_ok`, the segments by `segments_of_tqTable`, the frame by O57. -/
theorem btcalcComputes : Obligations.BtcalcComputes := by
  rintro s i n S C hq rfl rfl hC hm hlow hhigh
  obtain ⟨pseg2, rjw, hrow, hok⟩ := btcalc_ok hC hm hlow hhigh
  have hx := exec_btcalc_run hq
  rw [hok] at hx
  obtain ⟨hframe, hreport⟩ := pureCommandsFrame s _ .btcalc (by simp) hx
  obtain ⟨hpseg1, hsum, -⟩ := segments_of_tqTable hrow rfl
  exact ⟨_, _, _, hx, rfl, rfl, rfl, rfl, Nat.div_right_comm _ _ _, tqTable_eq_some.1 hrow, hpseg1, hsum, hreport, hframe⟩

/-- Settles O9: each end by its law, and the last part by `btcalc_eq_tqsOutOfRange`. -/
theorem btcalcRejects : Obligations.BtcalcRejects := by
  rintro s i n S C hq rfl rfl
  rw [exec_btcalc_run hq]
  refine ⟨fun h0 => ?zero, fun hC h => ?settings, fun hC h0 => ?noSource, fun hC hm hhigh => ?presdiv,
    fun hC hm hratio => ?tqs, fun t q hx hr => ?only⟩
  case zero => rw [h0, btcalc_zero]; rfl
  case settings => rw [btcalc_settingsError hC h]; rfl
  case noSource => rw [btcalc_settingsError hC (.inr (by omega))]; rfl
  case presdiv => rw [btcalc_presdivOutOfRange hC hm hhigh]; rfl
  case tqs => rw [btcalc_eq_tqsOutOfRange.2 ⟨hC, hm, hratio, rfl⟩]; rfl
  case only =>
    rw [← btcalc_eq_tqsOutOfRange]
    generalize btcalc s.ops.sourceFrequency.toNat s.ops.canFrequency.toNat = o at hx
    cases o <;> cases hx <;> cases hr
    rfl

/-- Settles O10: the table is finite; a result's fields are those of its row, and its quanta are bounded by the ratio. -/
theorem btcalcDerivedFacts : Obligations.BtcalcDerivedFacts := by
  refine ⟨fun tqs propseg pseg1 pseg2 rjw presdiv hmem => ?table, fun tqs => ?rows, fun S C bt hok => ?ranges,
    fun S C q => btcalc_eq_tqsOutOfRange⟩
  case table =>
    obtain ⟨hrow, hseg, hsum⟩ := segmentTable_computed _ hmem
    exact ⟨hrow, congrArg ({ · with presdiv }) hseg, hsum⟩
  case rows =>
    rw [← List.mem_map, segmentTable_quanta, List.mem_range'_1, Nat.lt_succ_iff]
  case ranges =>
    obtain ⟨hC, hm, hlow, hhigh⟩ := ratio_of_btcalc_ok hok
    obtain ⟨pseg2, rjw, hrow, hbt⟩ := btcalc_ok hC hm hlow hhigh
    obtain rfl := BtOutcome.ok.inj (hok.symm.trans hbt)
    obtain ⟨-, hsum, hpropseg, hpseg1⟩ := segments_of_tqTable hrow rfl
    obtain ⟨hpseg2Low, hpseg2High, hrjwLow, hrjwHigh⟩ : 1 ≤ pseg2 ∧ pseg2 ≤ 7 ∧ 1 ≤ rjw ∧ rjw ≤ 3 := by
      have := tqTable_eq_some.1 hrow; omega
    have hpresdiv : S / C / 25 ≤ 255 := by omega
    obtain ⟨hmost, hbelow, hfrom⟩ := quanta_of_ratio hlow hhigh
    exact ⟨hpropseg, hpseg1, hpseg2Low, hpseg2High, hrjwLow, hrjwHigh, hpresdiv, Eq.trans (by omega) hsum,
      Nat.div_right_comm _ _ _, hmost, hbelow, hfrom⟩

end Sys2Proof.Machine
end

section
/-! SUPPORT. `ENCODE` and `DECODE` (41_mailbox_codec.md R142, R143, R154), and what the engine does on each of the sixteen
codes at the labels where its rules decode one (R144 to R153). -/

namespace Sys2Proof.Machine

/-! ## The codec -/

theorem codeBits_injective : Function.Injective codeBits := by
  intro c d h
  have hv := congrArg codeValue h
  rw [codeValue_codeBits, codeValue_codeBits] at hv
  exact Option.some.inj hv

theorem codeBits_ne_undecodable (c : MessageBufferCode) : codeBits c ≠ 0b1101#4 ∧ codeBits c ≠ 0b1111#4 := by
  rw [← not_or, ← codeValue_eq_none, codeValue_codeBits]
  exact Option.some_ne_none c

/-- Every value stands in the table, with its pattern. -/
theorem codeBits_mem_codeTable (c : MessageBufferCode) : (codeBits c, c) ∈ codeTable := by
  rcases c with ⟨st, b⟩ | st
  · cases st <;> cases b <;> decide
  · cases st <;> decide

theorem mem_codeTable_or_undecodable (v : BitVec 4) : (∃ c, (v, c) ∈ codeTable) ∨ v = 0b1101#4 ∨ v = 0b1111#4 := by
  cases hv : codeValue v with
  | none => exact .inr ((codeValue_eq_none v).1 hv)
  | some c => exact .inl ⟨c, codeBits_of_codeValue hv ▸ codeBits_mem_codeTable c⟩

/-- The busy receive codes. -/
theorem codeValue_busy_iff (v : BitVec 4) : (∃ st, codeValue v = some (.receive st true)) ↔
    v = 0b0001#4 ∨ v = 0b0011#4 ∨ v = 0b0101#4 ∨ v = 0b0111#4 ∨ v = 0b1011#4 := by
  simp only [codeValue_eq_some]
  constructor
  · rintro ⟨st, rfl⟩
    cases st <;> decide
  · rintro (rfl | rfl | rfl | rfl | rfl)
    exacts [⟨.inactive, rfl⟩, ⟨.full, rfl⟩, ⟨.empty, rfl⟩, ⟨.overrun, rfl⟩, ⟨.remoteAnswer, rfl⟩]

/-- Settles O13: each value has its own pattern, so the two classes of codes are lists of patterns. -/
theorem codecLaws : Obligations.CodecLaws :=
  ⟨codeValue_codeBits, fun _ _ => codeBits_of_codeValue, fun _ _ h => codeBits_injective h, codeValue_busy_iff,
    fun v => or_congr (codeValue_eq_some v _) (codeValue_eq_some v _)⟩

/-! ## `ENCODE` and `DECODE` -/

theorem checkBits4_toNat (v : BitVec 4) : checkBits4 v.toNat = some v := by
  rw [checkBits4, if_pos (Nat.le_of_lt_succ v.isLt), BitVec.ofNat_toNat, BitVec.setWidth_eq]

theorem exec_encode_value {s : State} {i : Fin 32} {n : Nat} {c : MessageBufferCode} (hs : s.seq = .run (.encode .s0) i n)
    (hc : s.ops.code = .value c) : exec .encode s = .next (s.close (.ok (.code4 (codeBits c))) .idle) := by
  rw [exec_encode_run hs, encodeStep, hc]
  rfl

theorem exec_decode_value {s : State} {i : Fin 32} {n : Nat} {v : BitVec 4} {c : MessageBufferCode}
    (hs : s.seq = .run (.decode .s0) i n) (hv : s.ops.bits4 = v.toNat) (hc : codeValue v = some c) :
    exec .decode s = .next (s.close (.ok (.code c)) .idle) := by
  simp only [exec_decode_run hs, decodeStep, hv, checkBits4_toNat, hc, finish]

theorem exec_decode_undecodable {s : State} {i : Fin 32} {n : Nat} {v : BitVec 4}
    (hs : s.seq = .run (.decode .s0) i n) (hv : s.ops.bits4 = v.toNat) (hc : codeValue v = none) :
    exec .decode s = .next (s.close (.fatal (.undecodableCode v none)) .faulted) := by
  simp only [exec_decode_run hs, decodeStep, hv, checkBits4_toNat, hc, raiseFatal]

/-- Settles O11: the pattern of a table row is `codeBits` of its value, and the step ends with that result. -/
theorem encodeGivesCode : Obligations.EncodeGivesCode := by
  refine ⟨?step, fun c => ⟨_, codeBits_mem_codeTable c, codeBits_ne_undecodable c⟩, fun _ _ h => codeBits_injective h,
    rfl, rfl⟩
  intro s i n v c hs hc hrow
  obtain ⟨-, rfl⟩ := codeTable_iff v c hrow
  have hx := exec_encode_value hs hc
  exact ⟨_, hx, rfl, rfl, rfl, publishedReport_of_exec rfl (by decide) hx, untouched_close _ _ s⟩

/-- Settles O12: `codeValue` of a pattern is its value in the table, or none, and the step ends either way. -/
theorem decodeGivesValue : Obligations.DecodeGivesValue := by
  refine ⟨?value, ?fatal, mem_codeTable_or_undecodable, rfl⟩
  case value =>
    intro s i n v c hs hv hrow
    have hx := exec_decode_value hs hv (codeTable_iff v c hrow).1
    exact ⟨_, hx, rfl, rfl, rfl, publishedReport_of_exec rfl (by decide) hx, untouched_close _ _ s⟩
  case fatal =>
    intro s i n v hs hv hcode
    have hx := exec_decode_undecodable hs hv ((codeValue_eq_none v).2 hcode)
    exact ⟨_, hx, rfl, rfl, rfl, publishedReport_of_exec rfl (by decide) hx, untouched_close _ _ s⟩

/-! ## The engine on the row of a value

The row of value `c` is `decodeCode (codeBits c)`; on the engine's turn it is executed where the sequencer stands. -/

section Rows

variable {s : State} {i : Fin 32} {n : Nat}

theorem decodedAt_codeBits (j : Nat) (c : MessageBufferCode) (k : MessageBufferCode → Out) :
    decodedAt j (codeBits c) k s = k c := by
  simp only [decodedAt, codeValue_codeBits]

theorem exec_row_scan (ht : s.turn = .engine) (hs : s.seq = .run (.transmit .s2) i n) (c : MessageBufferCode) :
    exec (decodeCode (codeBits c)) s = scanOn i c s := by
  simp only [exec_code_engine ht, engineOnCode, hs, decodedAt_codeBits]

theorem exec_row_writeCheck (ht : s.turn = .engine) (hs : s.seq = .run (.init .e3) i n) (c : MessageBufferCode) :
    exec (decodeCode (codeBits c)) s = writeCheckOn i c s := by
  simp only [exec_code_engine ht, engineOnCode, hs, decodedAt_codeBits]

theorem exec_row_busyTest (ht : s.turn = .engine) (hs : s.seq = .run (.receive .s2) i n) (c : MessageBufferCode) :
    exec (decodeCode (codeBits c)) s = busyTestOn i n c s := by
  simp only [exec_code_engine ht, engineOnCode, hs, decodedAt_codeBits]

theorem exec_row_abortTest (ht : s.turn = .engine) (hs : s.seq = .run (.abort .s1) i n) (c : MessageBufferCode) :
    exec (decodeCode (codeBits c)) s = abortTestOn i c s := by
  simp only [exec_code_engine ht, engineOnCode, hs, decodedAt_codeBits]

/-- The labels at which `engineOnCode` looks at a code (41_mailbox_codec.md section 3); at S7 of `RECEIVE` the code is one
that S2 has decoded already. -/
def codePositions : List Position := [.init .e3, .transmit .s1, .transmit .s2, .receive .s2, .abort .s1]

/-- An undecodable pattern is fatal wherever the engine decodes a code. -/
theorem engineOnCode_undecodable {v : BitVec 4} {p : Position} (hv : codeValue v = none) (hp : p ∈ codePositions)
    (hs : s.seq = .run p i n) :
    engineOnCode v s = .next (s.close (.fatal (.undecodableCode v (some i.val))) .faulted) := by
  simp only [codePositions, List.mem_cons, List.not_mem_nil, or_false] at hp
  rcases hp with rfl | rfl | rfl | rfl | rfl <;> simp only [engineOnCode, hs, decodedAt, hv, raiseFatal]

theorem mem_codePositions {p : Position} (hp : p = .init .e3 ∨ p = .transmit .s1 ∨ p = .receive .s2 ∨ p = .abort .s1) :
    p ∈ codePositions := by
  rcases hp with rfl | rfl | rfl | rfl <;> decide

theorem exec_undecodable_rows {p : Position} (ht : s.turn = .engine) (hp : p ∈ codePositions)
    (hs : s.seq = .run p i n) :
    exec .codeUndecodable1101 s = .next (s.close (.fatal (.undecodableCode 0b1101#4 (some i.val))) .faulted) ∧
    exec .codeUndecodable1111 s = .next (s.close (.fatal (.undecodableCode 0b1111#4 (some i.val))) .faulted) :=
  ⟨(exec_code_engine ht 0b1101#4).trans (engineOnCode_undecodable rfl hp hs),
    (exec_code_engine ht 0b1111#4).trans (engineOnCode_undecodable rfl hp hs)⟩

/-- What holds of the row of every value with `p` holds of rows that are each the row of such a value. -/
theorem forall_rows_of_values {rows : List Instr} {p : MessageBufferCode → Prop} {P : Instr → Prop}
    (hrows : ∀ row ∈ rows, ∃ e ∈ codeTable, p e.2 ∧ decodeCode (codeBits e.2) = row)
    (h : ∀ c, p c → P (decodeCode (codeBits c))) : ∀ row ∈ rows, P row := by
  intro row hmem
  obtain ⟨e, -, hpe, rfl⟩ := hrows row hmem
  exact h e.2 hpe

end Rows

/-! ## A command's own step where it reads a code -/

section Reads

variable {s : State} {i : Fin 32} {n m : Nat}

/-- The state after the control word of mailbox `i` is read and kept: S1 of `TRANSMIT` and of `ABORT`. -/
def State.csKept (i : Fin 32) (s : State) : State := (s.afterRead (.mb i .cs)).keep { s.work with c := s.mbWord i .cs }

theorem csKept_turn (i : Fin 32) (s : State) : (s.csKept i).turn = s.turn := by
  apply turn_congr <;> simp [State.csKept]

theorem csReadAtS2_turn (i : Fin 32) (s : State) : (s.csReadAtS2 i).turn = s.turn := by
  apply turn_congr <;> simp [State.csReadAtS2]

theorem afterRead_turn (r : Reg) (s : State) : (s.afterRead r).turn = s.turn := by
  apply turn_congr <;> simp

theorem withHeader_of_lt {j : Nat} (h : j < s.work.headers.length) (k : MailboxHeader → Out) :
    withHeader j k s = k s.work.headers[j] := by
  simp only [withHeader, List.getElem?_eq_getElem h]

theorem exec_init_e3 (ht : s.turn = .engine) (hi : i.val < s.params.numMb) (hs : s.seq = .run (.init .e3) i n)
    (hlen : i.val < s.work.headers.length) :
    exec .init s = exec (decodeCode (s.mbCode i)) (s.afterRead (.mb i .cs)) := by
  rw [exec_init_run hs, initStep, withHeader_of_lt hlen, readReg_of_has (by simpa using hi),
    exec_code_engine ((afterRead_turn _ s).trans ht)]
  rfl

theorem exec_transmit_s1 (ht : s.turn = .engine) (hi : i.val < s.params.numMb) (hs : s.seq = .run (.transmit .s1) i n) :
    exec .transmit s = exec (decodeCode (s.mbCode i)) (s.csKept i) := by
  rw [exec_transmit_run hs, transmitStep, readReg_of_has (by simpa using hi), exec_code_engine ((csKept_turn i s).trans ht),
    State.afterRead_work]
  rfl

theorem exec_transmit_s2 (ht : s.turn = .engine) (hs : s.seq = .run (.transmit .s2) i n) :
    exec .transmit s = exec (decodeCode (codeOf s.work.c)) s := by
  rw [exec_transmit_run hs, transmitStep, exec_code_engine ht]

theorem exec_receive_s2 (ht : s.turn = .engine) (hi : i.val < s.params.numMb) (hs : s.seq = .run (.receive .s2) i n) :
    exec (.receive m) s = exec (decodeCode (s.mbCode i)) (s.csReadAtS2 i) := by
  rw [exec_receive_run hs, receiveStep, readReg_of_has (by simpa using hi),
    exec_code_engine ((csReadAtS2_turn i s).trans ht), State.afterRead_work]
  rfl

theorem exec_abort_s1 (ht : s.turn = .engine) (hi : i.val < s.params.numMb) (hs : s.seq = .run (.abort .s1) i n) :
    exec (.abort m) s = exec (decodeCode (s.mbCode i)) (s.csKept i) := by
  rw [exec_abort_run hs, abortStep, readReg_of_has (by simpa using hi), exec_code_engine ((csKept_turn i s).trans ht),
    State.afterRead_work]
  rfl

end Reads

/-! ## The statements on the codes -/

theorem scanNext_of_lt {i : Fin 32} {s : State} (h : i.val < s.maxMailbox.toNat) :
    scanNext i s = .next (s.goto (.transmit .s1) (i + 1)) := if_pos h

theorem scanNext_of_le {i : Fin 32} {s : State} (h : s.maxMailbox.toNat ≤ i.val) :
    scanNext i s = .next (s.close (.err (.bufferFull s.work.report)) .idle) := if_neg (Nat.not_lt.2 h)

/-- Settles O32: at S2 the row of a value is `scanOn`, whose three ends are those of `mbVerdict false`. -/
theorem scanVerdicts : Obligations.ScanVerdicts := by
  intro s i n ht hs
  obtain ⟨h1101, h1111⟩ := exec_undecodable_rows ht (p := .transmit .s2) (by decide) hs
  refine ⟨exec_row_scan ht hs (.transmit .inactive), exec_row_scan ht hs (.transmit .dataOrRemotePending), ?mismatch,
    h1101, h1111, exec_transmit_s2 ht hs, fun u => ⟨fun hlt => ⟨scanNext_of_lt hlt, succ_val_of_lt hlt⟩, scanNext_of_le⟩⟩
  refine forall_rows_of_values (p := (mbVerdict false · = .mismatch)) (by decide) fun c hc => ?_
  rw [exec_row_scan ht hs, scanOn, hc]

/-- Settles O33: at each label the row of a value is that label's test (`writeCheckOn`, `busyTestOn`, `abortTestOn`), and
the command's own step is the row it read. -/
theorem otherVerdicts : Obligations.OtherVerdicts := by
  refine ⟨fun s i n ht hs => ?writeCheck, fun s i n ht hs => ?receive, fun s i n ht hs => ?abort,
    fun s i n p hp ht hs => exec_undecodable_rows ht (mem_codePositions hp) hs, fun s i n m ht hi => ?own⟩
  case writeCheck =>
    refine ⟨exec_row_writeCheck ht hs (.transmit .inactive), exec_row_writeCheck ht hs (.receive .inactive false),
      exec_row_writeCheck ht hs (.transmit .dataOrRemotePending), ?_⟩
    refine forall_rows_of_values (p := (mbVerdict true · = .mismatch)) (by decide) fun c hc => ?_
    rw [exec_row_writeCheck ht hs, writeCheckOn, hc]
    rfl
  case receive =>
    constructor
    · refine forall_rows_of_values (p := (MessageBufferCode.isBusy · = true)) (by decide) fun c hc => ?_
      rw [exec_row_busyTest ht hs, busyTestOn, if_pos hc]
    · refine forall_rows_of_values (p := (¬MessageBufferCode.isBusy · = true)) (by decide) fun c hc => ?_
      rw [exec_row_busyTest ht hs, busyTestOn, if_neg hc]
  case abort =>
    refine ⟨exec_row_abortTest ht hs (.transmit .dataOrRemotePending), ?_⟩
    refine forall_rows_of_values (p := (· ≠ .transmit .dataOrRemotePending)) (by decide) fun c hc => ?_
    rw [exec_row_abortTest ht hs, abortTestOn, if_neg hc, finish]
  case own =>
    exact ⟨exec_init_e3 ht hi, exec_transmit_s1 ht hi, exec_receive_s2 ht hi, exec_abort_s1 ht hi⟩

end Sys2Proof.Machine
end

section
/-! SUPPORT. `INIT` label by label (42_controller_init.md R161 to R168): the ends of its validation, its accesses to the
global registers, the accesses of its mailbox loop, and its write check. -/

namespace Sys2Proof.Machine

open Sys2Proof

/-! ## Validation (R161) -/

theorem validateAdmission_running {s : State} (hm : s.mode = .running) :
    validateAdmission s = .next (s.refuse .alreadyInitialised) := if_pos hm

theorem validateAdmission_invalid {s : State} (hm : s.mode ≠ .running)
    (hh : checkHeaderSequence s.params.numMb s.ops.headers = none) :
    validateAdmission s = .next (s.refuse .invalidOperand) := by
  simp only [validateAdmission, if_neg hm, hh, refuse]

theorem validateAdmission_ok {s : State} {hs : List MailboxHeader} (hm : s.mode ≠ .running)
    (hh : checkHeaderSequence s.params.numMb s.ops.headers = some hs) :
    validateAdmission s =
      .next ((s.keep { Work.empty with settings := s.ops.settings, headers := hs }).goto (.init .v1) 0) := by
  simp only [validateAdmission, if_neg hm, hh]

theorem validateDma_rejects {s : State} (i : Fin 32) (hd : s.work.settings.dmaEnable = true)
    (hf : s.work.settings.fifoEnabled = false) : validateDma i s = .next (s.close (.err .settingsError) .idle) := by
  simp [validateDma, hd, hf, finish]

theorem validateDma_ok {s : State} (i : Fin 32)
    (h : s.work.settings.dmaEnable = false ∨ s.work.settings.fifoEnabled = true) :
    validateDma i s = .next (s.goto (.init .v2) i) := by
  rcases h with hd | hf
  · simp [validateDma, hd]
  · simp [validateDma, hf]

/-- Where V2 goes on outcome `o` of the calculation it calls. -/
def State.afterTiming (i : Fin 32) (o : BtOutcome) (s : State) : State :=
  match o with
  | .settingsError => s.close (.err .settingsError) .idle
  | .tqsOutOfRange q => s.close (.fatal (.tqsOutOfRange q)) .faulted
  | .refused r => s.refuse r
  | .ok bt => (s.keep { s.work with bt := bt }).goto (.init .v3) i

theorem validateTiming_of_btcalc {s : State} {o : BtOutcome} (i : Fin 32)
    (h : btcalc s.work.settings.sourceFrequency.toNat s.work.settings.canFrequency.toNat = o) :
    validateTiming i s = .next (s.afterTiming i o) := by
  simp only [validateTiming, h]
  cases o <;> rfl

theorem validateFifo_refuses {s : State} (i : Fin 32) (hf : s.work.settings.fifoEnabled = true) :
    validateFifo i s = .next (s.refuse .fifoNotModelled) := if_pos hf

theorem validateFifo_ok {s : State} (i : Fin 32) (hf : s.work.settings.fifoEnabled = false) :
    validateFifo i s = .next (s.goto (.init .a1r) i) := by
  simp only [validateFifo, hf, Bool.false_eq_true, if_false]

/-- Settles O24: the label of each test by `exec_init_run`, its ends by the laws above. -/
theorem initValidates : Obligations.InitValidates := by
  refine ⟨fun s i n hq => ?v0, fun s i n st hq hst => ?v1, fun s i n st hq hst => ?v2, fun s i n hq => ?v3⟩ <;>
    rw [exec_init_run hq, initStep]
  case v0 =>
    exact ⟨validateAdmission_running, validateAdmission_invalid, fun hs hm hh =>
      ⟨_, validateAdmission_ok hm hh, rfl, rfl, rfl, samePorts_start .., untouched_start ..⟩⟩
  case v1 =>
    subst hst
    exact ⟨validateDma_rejects i, validateDma_ok i⟩
  case v2 =>
    subst hst
    exact ⟨validateTiming_of_btcalc i, fun _ => validateTiming_of_btcalc i, fun _ => validateTiming_of_btcalc i,
      fun bt hbt => ⟨_, validateTiming_of_btcalc i hbt, rfl, rfl, samePorts_start .., untouched_start ..⟩⟩
  case v3 => exact ⟨validateFifo_refuses i, validateFifo_ok i⟩

/-! ## The global registers (R162 to R165, R168) -/

/-- The first halves of the field updates: the label, the register read and the label of the second half. -/
def initGlobalReads : List (InitStep × Reg × InitStep) :=
  [(.a1r, .gcr, .a1w), (.a3r, .btr, .a3w), (.a4r, .gcr, .a4w), (.a6r, .gcr, .a6w), (.a8r, .gcr, .a8w),
   (.b1r, .gcr, .b1w), (.c1r, .gcr, .c1w), (.d1r, .gcr, .d1w), (.d2r, .btr, .d2w), (.f1r, .gcr, .f1w)]

/-- The second halves on GCR: the label, the word written and the label that follows. -/
def initGcrWrites (s : State) : List (InitStep × Word × InitStep) :=
  [(.a1w, Gcr.mdis.set s.work.t 1, .a2), (.a4w, Gcr.mdis.set s.work.t 0, .a5), (.a6w, Gcr.softrst.set s.work.t 1, .a7),
   (.a8w, Gcr.mdis.set s.work.t 1, .a9), (.b1w, Gcr.mdis.set s.work.t 0, .b2),
   (.c1w, Gcr.halt.set (Gcr.frz.set s.work.t 1) 1, .c2),
   (.d1w, configureGcr s.work.settings s.work.headers.length s.work.t, .d2r),
   (.f1w, Gcr.halt.set (Gcr.frz.set s.work.t 0) 0, .f2)]

/-- The second halves on BTR. -/
def initBtrWrites (s : State) : List (InitStep × Word × InitStep) :=
  [(.a3w, Btr.clksrc.set s.work.t s.work.settings.clockSource.toNat, .a4r),
   (.d2w, configureBtr s.work.settings s.work.bt s.work.t, .d3)]

/-- D1 latches `max_mailbox` in the step of its write (R165); no other label does. -/
def State.latchedAt (l : InitStep) (s : State) : State :=
  { s with maxMailbox := if l = .d1w then BitVec.ofNat 5 (s.work.headers.length - 1) else s.maxMailbox }

theorem initStep_of_mem_initGlobalReads {row : InitStep × Reg × InitStep} (h : row ∈ initGlobalReads) (i : Fin 32)
    (n : Nat) (s : State) :
    initStep row.1 i n s =
      .next (((s.afterRead row.2.1).keep { s.work with t := s.peek row.2.1 }).goto (.init row.2.2) i) := by
  simp only [initGlobalReads, List.mem_cons, List.not_mem_nil, or_false] at h
  rcases h with rfl | rfl | rfl | rfl | rfl | rfl | rfl | rfl | rfl | rfl <;> rfl

theorem initStep_of_mem_initGcrWrites {row : InitStep × Word × InitStep} {s : State} (h : row ∈ initGcrWrites s)
    (i : Fin 32) (n : Nat) :
    initStep row.1 i n s = .next (((s.latchedAt row.1).afterWrite .gcr row.2.1).goto (.init row.2.2) i) := by
  simp only [initGcrWrites, List.mem_cons, List.not_mem_nil, or_false] at h
  rcases h with rfl | rfl | rfl | rfl | rfl | rfl | rfl | rfl <;> rfl

theorem initStep_of_mem_initBtrWrites {row : InitStep × Word × InitStep} {s : State} (h : row ∈ initBtrWrites s)
    (i : Fin 32) (n : Nat) : initStep row.1 i n s = .next ((s.afterWrite .btr row.2.1).goto (.init row.2.2) i) := by
  simp only [initBtrWrites, List.mem_cons, List.not_mem_nil, or_false] at h
  rcases h with rfl | rfl <;> rfl

/-- The global registers `INIT` reads are none whose read has an effect (20_memory.md R69). -/
theorem ne_timer_of_mem_initGlobalReads {row : InitStep × Reg × InitStep} (h : row ∈ initGlobalReads) :
    row.2.1 ≠ .timer := by
  revert row; decide

/-- A read of a register other than TIMER leaves the lock (20_memory.md R67). -/
theorem sameHidden_afterRead {r : Reg} (hr : r ≠ .timer) (s : State) : sameHidden s (s.afterRead r) := by
  simp [sameHidden, hr]

/-- Settles O25: the step of each row by the law of its table, and what it leaves by the laws of one access. -/
theorem initGlobalAccesses : Obligations.InitGlobalAccesses := by
  refine ⟨fun s i n row hrow hq => ?read, fun s i n row hrow hq => ?gcr, fun s i n row hrow hq => ?btr,
    fun s i n hq => ?rxmask⟩
  case read =>
    refine ⟨_, (exec_init_run hq).trans (initStep_of_mem_initGlobalReads hrow i n s), rfl, rfl, ?_⟩
    exact ⟨State.afterRead_history .., sameBlock_afterRead .., sameHidden_afterRead (ne_timer_of_mem_initGlobalReads hrow) s,
      sameEngine_afterRead .., by simp [samePorts]⟩
  case gcr =>
    refine ⟨_, (exec_init_run hq).trans (initStep_of_mem_initGcrWrites hrow i n), rfl, rfl, rfl, ?_⟩
    exact ⟨rfl, rfl, rfl, rfl, fun _ => rfl, ⟨rfl, rfl, rfl⟩, rfl, rfl, rfl, rfl, rfl, rfl, rfl, ⟨rfl, rfl, rfl, rfl⟩⟩
  case btr =>
    refine ⟨_, (exec_init_run hq).trans (initStep_of_mem_initBtrWrites hrow i n), rfl, rfl, rfl, ?_⟩
    exact ⟨rfl, rfl, rfl, rfl, fun _ => rfl, ⟨rfl, rfl, rfl⟩, ⟨rfl, rfl, rfl, rfl, rfl, rfl⟩, rfl, ⟨rfl, rfl, rfl, rfl⟩⟩
  case rxmask =>
    refine ⟨((s.afterWrite .rxmask acceptAllMask).goto (.init .e1) 0), exec_init_run hq, rfl, rfl, rfl, ?_⟩
    simp [sameBytes, sameHidden, sameEngine, samePorts]

/-! ## The mailbox loop (R166, R167) -/

theorem has_mb_of_lt {p : Params} {j : Nat} (h : j < p.numMb) (w : MbWord) : Params.has p (.mb j w) = true :=
  decide_eq_true h

theorem withHeader_of_some {j : Nat} {h : MailboxHeader} {s : State} (hh : s.work.headers[j]? = some h)
    (k : MailboxHeader → Out) : withHeader j k s = k h := by
  simp only [withHeader, hh]

/-- The writes of a mailbox word between two labels of the loop: the label, the word's place, the word, and the label that
follows. -/
def initMbWrites (h : MailboxHeader) (s : State) : List (InitStep × MbWord × Word × InitStep) :=
  [(.e2, .cs, withCode s.work.c (inactiveBits h.code), .e3), (.w2, .id, packId h.priority fillerFrame.id, .w3),
   (.w3, .d0, packData fillerFrame 0, .w4), (.w4, .d1, packData fillerFrame 1, .w5)]

theorem initStep_of_mem_initMbWrites {h : MailboxHeader} {s : State} {i : Fin 32} (hi : i.val < s.params.numMb)
    (hh : s.work.headers[i.val]? = some h) {row : InitStep × MbWord × Word × InitStep} (hrow : row ∈ initMbWrites h s)
    (n : Nat) :
    initStep row.1 i n s = .next ((s.afterWrite (.mb i row.2.1) row.2.2.1).goto (.init row.2.2.2) i) := by
  simp only [initMbWrites, List.mem_cons, List.not_mem_nil, or_false] at hrow
  rcases hrow with rfl | rfl | rfl | rfl <;> exact (withHeader_of_some hh _).trans (writeReg_of_has (has_mb_of_lt hi _) _ _)

/-- The write of a mailbox word touches no control register (20_memory.md R70). -/
theorem sameControl_afterWrite_mb (i : Nat) (w : MbWord) (v : Word) (s : State) :
    sameControl s (s.afterWrite (.mb i w) v) := by
  simp [sameControl]

/-- `s` where the loop goes after mailbox `i` (R166). -/
def State.afterMailbox (i : Fin 32) (s : State) : State :=
  { s with seq := if i.val + 1 < s.work.headers.length then .run (.init .e1) (i + 1) 0 else .run (.init .f1r) 0 0 }

theorem nextMailbox_eq (i : Fin 32) (s : State) : nextMailbox i s = .next (s.afterMailbox i) := by
  simp only [nextMailbox, State.afterMailbox]
  split <;> rfl

/-- Settles O26: each label is one access to mailbox `i`, which exists and has a header. -/
theorem initMailboxAccesses : Obligations.InitMailboxAccesses := by
  intro s i n h hi hh
  refine ⟨fun hq => ?e1, fun hq => ?w1, fun row hrow hq => ?write, fun hq => ?w5⟩
  case e1 =>
    refine ⟨(s.csKept i).goto (.init .e2) i, ?_, rfl, rfl, rfl, sameBlock_afterRead ..⟩
    rw [exec_init_run hq, initStep, withHeader_of_some hh, readReg_of_has (has_mb_of_lt hi _)]
    rfl
  case w1 =>
    refine ⟨(s.afterWrite .iflag (flagMask i)).goto (.init .w2) i, ?_, rfl, rfl, rfl, ⟨rfl, rfl, rfl, rfl⟩, fun _ => rfl⟩
    rw [exec_init_run hq, initStep, withHeader_of_some hh]
    rfl
  case write =>
    exact ⟨_, (exec_init_run hq).trans (initStep_of_mem_initMbWrites hi hh hrow n), rfl, rfl, rfl,
      sameControl_afterWrite_mb .., State.poke_mb_iflag ..⟩
  case w5 =>
    refine ⟨(s.afterWrite (.mb i .cs) (packCs h fillerFrame)).afterMailbox i, ?_, ?_, rfl, rfl,
      sameControl_afterWrite_mb .., State.poke_mb_iflag ..⟩
    · rw [exec_init_run hq, initStep, withHeader_of_some hh, mbWriteCs, writeReg_of_has (has_mb_of_lt hi _), nextMailbox_eq]
    · rw [State.afterMailbox, State.afterWrite_work]

/-! ## The write check (R166) -/

/-- Both inactive codes are free for the check of `INIT` (43_transmit.md R180). -/
theorem inactiveBits_free (c : MessageBufferCode) :
    ∃ d, codeValue (inactiveBits c) = some d ∧ mbVerdict true d = .free := by
  cases c with
  | receive st b => exact ⟨_, codeValue_codeBits (.receive .inactive false), rfl⟩
  | transmit st => exact ⟨_, codeValue_codeBits (.transmit .inactive), rfl⟩

theorem engineOnCode_e3_inactive {s : State} {i : Fin 32} {n : Nat} (hq : s.seq = .run (.init .e3) i n)
    (c : MessageBufferCode) : engineOnCode (inactiveBits c) s = .next (s.goto (.init .w1) i) := by
  obtain ⟨d, hd, hfree⟩ := inactiveBits_free c
  simp only [engineOnCode, hq, decodedAt, hd, writeCheckOn, hfree]

/-- Past V0 the mailbox `INIT` stands at exists and has a header. -/
theorem State.Structural.initHeader {s : State} (hs : s.Structural) {l : InitStep} {i : Fin 32} {n : Nat}
    (hq : s.seq = .run (.init l) i n) (hl : l ≠ .v0) :
    i.val < s.params.numMb ∧ ∃ h, s.work.headers[i.val]? = some h := by
  have hseq := hs.seq
  simp only [State.seqOk, hq] at hseq
  obtain ⟨-, -, hkept⟩ := hseq
  obtain ⟨-, hlt, hle⟩ := hkept hl
  exact ⟨Nat.lt_of_lt_of_le hlt hle, _, List.getElem?_eq_getElem hlt⟩

/-- At E3 the mailbox still holds the code E2 wrote. -/
theorem State.ProtocolOk.codeAtE3 {s : State} (hp : s.ProtocolOk) {i : Fin 32} {n : Nat}
    (hq : s.seq = .run (.init .e3) i n) {h : MailboxHeader} (hh : s.work.headers[i.val]? = some h) :
    s.mbCode i = inactiveBits h.code := by
  have hprog := hp.progress
  simp only [State.progress, hq, State.initMailboxes] at hprog
  exact hprog.2 h hh

/-- Settles O28: by the invariant the code read is the inactive one E2 wrote, for which the check is free. -/
theorem initCheckAlwaysFree : Obligations.InitCheckAlwaysFree := by
  intro s i n hinv hq
  obtain ⟨hi, h, hh⟩ := hinv.structural.initHeader hq (by decide)
  have hcode : codeOf (s.peek (.mb i .cs)) = inactiveBits h.code := hinv.protocol.codeAtE3 hq hh
  rw [exec_init_run hq, initStep, withHeader_of_some hh, readReg_of_has (has_mb_of_lt hi _), hcode]
  exact engineOnCode_e3_inactive ((State.afterRead_seq ..).trans hq) h.code

end Sys2Proof.Machine
end

section
/-! SUPPORT. `MbWrite`, the five writes of 43_transmit.md R181, as one change of the register block; the steps of `TRANSMIT`
that make them in the mailbox its scan has chosen (R183), and its last write under every interleaving (R185). -/

namespace Sys2Proof.Machine

/-! ## A write of a mailbox word and the hidden state -/

/-- A write of a word other than the control word leaves the hidden state. -/
theorem sameHidden_afterWrite_mb {w : MbWord} (hw : w ≠ .cs) (i : Nat) (v : Word) (s : State) :
    sameHidden s (s.afterWrite (.mb i w) v) := by
  simp only [sameHidden, State.afterWrite_lock, State.afterWrite_abortReq, State.afterWrite_rxBegun, State.poke,
    State.pokeMb, true_and]
  split
  · exact ⟨rfl, rfl⟩
  · cases w with
    | cs => exact absurd rfl hw
    | _ => exact ⟨rfl, rfl⟩

/-- A control word whose code is not `Transmit{Abort}`, written where no reception is in progress, leaves it too. -/
theorem sameHidden_afterWrite_cs {s : State} {i : Nat} {v : Word} (hv : codeValue (codeOf v) ≠ some (.transmit .abort))
    (hi : i ∉ s.rxBegun) : sameHidden s (s.afterWrite (.mb i .cs) v) := by
  have hbegun : removeIndex i s.rxBegun = s.rxBegun :=
    List.filter_eq_self.2 fun j hj => decide_eq_true (ne_of_mem_of_not_mem hj hi)
  simp only [sameHidden, State.afterWrite_lock, State.afterWrite_abortReq, State.afterWrite_rxBegun, State.poke,
    State.pokeMb, true_and]
  split
  · exact ⟨rfl, rfl⟩
  · simp [State.noteCsWrite, hv, hbegun]

theorem sameHidden_trans {s t u : State} (h1 : sameHidden s t) (h2 : sameHidden t u) : sameHidden s u := by
  obtain ⟨hl1, ha1, hb1⟩ := h1
  obtain ⟨hl2, ha2, hb2⟩ := h2
  exact ⟨hl2.trans hl1, ha2.trans ha1, hb2.trans hb1⟩

theorem sameControl_trans {s t u : State} (h1 : sameControl s t) (h2 : sameControl t u) : sameControl s u := by
  obtain ⟨hg1, hb1, hr1, ht1⟩ := h1
  obtain ⟨hg2, hb2, hr2, ht2⟩ := h2
  exact ⟨hg2.trans hg1, hb2.trans hb1, hr2.trans hr1, ht2.trans ht1⟩

/-! ## The five writes (R181) -/

/-- The words of header `h` and frame `f` but for the control word, written to mailbox `i` with its flag cleared: W1 to
W4. -/
def State.mbFilled (i : Nat) (h : MailboxHeader) (f : CanFrame) (s : State) : State :=
  (((s.afterWrite .iflag (flagMask i)).afterWrite (.mb i .id) (packId h.priority f.id)).afterWrite
    (.mb i .d0) (packData f 0)).afterWrite (.mb i .d1) (packData f 1)

/-- `MbWrite(i, h, f)`: W5 after the others. -/
def State.mbWritten (i : Nat) (h : MailboxHeader) (f : CanFrame) (s : State) : State :=
  (s.mbFilled i h f).afterWrite (.mb i .cs) (packCs h f)

section Writes

variable {s : State} {i : Nat} (h : MailboxHeader) (f : CanFrame)

theorem wf_mbFilled (hm : Memory.wf s.mem = true) : Memory.wf (s.mbFilled i h f).mem = true :=
  wf_afterWrite (wf_afterWrite (wf_afterWrite (wf_afterWrite hm _ _) _ _) _ _) _ _

theorem mbFilled_lpmack : (s.mbFilled i h f).lpmack = s.lpmack := by
  simp [State.mbFilled]

/-- A word of the mailbox file after W1 to W4. -/
theorem mbWord_mbFilled (hm : Memory.wf s.mem = true) (hl : s.lpmack = false) (j : Nat) (u : MbWord) :
    (s.mbFilled i h f).mbWord j u =
      if j = i ∧ u = .d1 then packData f 1 else if j = i ∧ u = .d0 then packData f 0
      else if j = i ∧ u = .id then packId h.priority f.id else s.mbWord j u := by
  have hm1 := wf_afterWrite hm .iflag (flagMask i)
  have hm2 := wf_afterWrite hm1 (.mb i .id) (packId h.priority f.id)
  have hm3 := wf_afterWrite hm2 (.mb i .d0) (packData f 0)
  rw [State.mbFilled, mbWord_afterWrite_mb hm3 (by simpa using hl), mbWord_afterWrite_mb hm2 (by simpa using hl),
    mbWord_afterWrite_mb hm1 (by simpa using hl), State.afterWrite_iflag_mbWord]

theorem mbWord_mbWritten (hm : Memory.wf s.mem = true) (hl : s.lpmack = false) (j : Nat) (u : MbWord) :
    (s.mbWritten i h f).mbWord j u = if j = i ∧ u = .cs then packCs h f else (s.mbFilled i h f).mbWord j u :=
  mbWord_afterWrite_mb (wf_mbFilled h f hm) ((mbFilled_lpmack h f).trans hl) i .cs _ j u

/-- The mailbox holds what was written. -/
theorem mbHolds_mbWritten (hm : Memory.wf s.mem = true) (hl : s.lpmack = false) : (s.mbWritten i h f).mbHolds i h f := by
  simp [State.mbHolds, mbWord_mbWritten h f hm hl, mbWord_mbFilled h f hm hl]

/-- Every other mailbox is as it was. -/
theorem mbWord_mbWritten_other (hm : Memory.wf s.mem = true) (hl : s.lpmack = false) {j : Nat} (hj : j ≠ i) (u : MbWord) :
    (s.mbWritten i h f).mbWord j u = s.mbWord j u := by
  simp [mbWord_mbWritten h f hm hl, mbWord_mbFilled h f hm hl, hj]

theorem flag_mbWritten (hi : i < 32) (j : Nat) : (s.mbWritten i h f).flag j = (s.flag j && !decide (j = i)) := by
  simp [State.mbWritten, State.mbFilled, flag_clear hi]

theorem sameControl_mbWritten : sameControl s (s.mbWritten i h f) := by
  simp [sameControl, State.mbWritten, State.mbFilled]

/-- No reception in progress and no abort written: the hidden state is as it was. -/
theorem sameHidden_mbWritten (hf : CanFrame.wf f = true) (hc : h.code ≠ .transmit .abort) (hi : i ∉ s.rxBegun) :
    sameHidden s (s.mbWritten i h f) := by
  have hfilled : sameHidden s (s.mbFilled i h f) :=
    sameHidden_trans (sameHidden_trans (sameHidden_trans (t := s.afterWrite .iflag (flagMask i)) ⟨rfl, rfl, rfl⟩
      (sameHidden_afterWrite_mb (by simp) ..)) (sameHidden_afterWrite_mb (by simp) ..))
      (sameHidden_afterWrite_mb (by simp) ..)
  have ⟨_, _, hbegun⟩ := hfilled
  refine sameHidden_trans hfilled (sameHidden_afterWrite_cs ?_ (hbegun ▸ hi))
  rw [codeOf_packCs hf, codeValue_codeBits]
  exact fun e => hc (Option.some.inj e)

@[simp] theorem State.mbWritten_mode : (s.mbWritten i h f).mode = s.mode := by
  simp [State.mbWritten, State.mbFilled]
@[simp] theorem State.mbWritten_maxMailbox : (s.mbWritten i h f).maxMailbox = s.maxMailbox := by
  simp [State.mbWritten, State.mbFilled]
@[simp] theorem State.mbWritten_work : (s.mbWritten i h f).work = s.work := by
  simp [State.mbWritten, State.mbFilled]

theorem counts_mbWritten : readCount (s.mbWritten i h f).history = readCount s.history ∧
    writeCount (s.mbWritten i h f).history = writeCount s.history + 5 := by
  simp [State.mbWritten, State.mbFilled, readCount, writeCount]

end Writes

/-! ## `TRANSMIT` with the controller silent -/

/-- `s` with the sequencer, the script and the turn count replaced: what no register access looks at. -/
def State.turnedTo (q : Seq) (rest : List Turn) (n : Nat) (s : State) : State :=
  { s with seq := q, script := rest, tick := n }

section TurnedTo

variable (q : Seq) (rest : List Turn) (n : Nat) (s : State)

theorem turnedTo_lpmack : (s.turnedTo q rest n).lpmack = s.lpmack := rfl
theorem turnedTo_frzack : (s.turnedTo q rest n).frzack = s.frzack := rfl

theorem noteCsWrite_turnedTo (i : Nat) (v : Word) :
    (s.turnedTo q rest n).noteCsWrite i v = (s.noteCsWrite i v).turnedTo q rest n := rfl

theorem setMbWord_turnedTo (i : Nat) (w : MbWord) (v : Word) :
    (s.turnedTo q rest n).setMbWord i w v = (s.setMbWord i w v).turnedTo q rest n := rfl

theorem pokeMb_turnedTo (i : Nat) (w : MbWord) (v : Word) :
    (s.turnedTo q rest n).pokeMb i w v = (s.pokeMb i w v).turnedTo q rest n := by
  cases w <;> simp only [State.pokeMb, turnedTo_lpmack, noteCsWrite_turnedTo, setMbWord_turnedTo,
    apply_ite (State.turnedTo q rest n)] <;> rfl

theorem poke_turnedTo (r : Reg) (v : Word) : (s.turnedTo q rest n).poke r v = (s.poke r v).turnedTo q rest n := by
  cases r with
  | mb i w => exact pokeMb_turnedTo q rest n s i w v
  | rxmask => simp only [State.poke, turnedTo_frzack, apply_ite (State.turnedTo q rest n)]; rfl
  | _ => rfl

/-- So a write commutes with that replacement. -/
theorem afterWrite_turnedTo (r : Reg) (v : Word) :
    (s.turnedTo q rest n).afterWrite r v = (s.afterWrite r v).turnedTo q rest n := by
  rw [State.afterWrite, poke_turnedTo]
  rfl

end TurnedTo

/-- S4 to S7 for header `h` and frame `f` in mailbox `i`: the label, the register, the word and the label that follows
(R183). -/
def transmitWrites (i : Fin 32) (h : MailboxHeader) (f : CanFrame) : List (TransmitStep × Reg × Word × TransmitStep) :=
  [(.s4, .iflag, flagMask i, .s5), (.s5, .mb i .id, packId h.priority f.id, .s6), (.s6, .mb i .d0, packData f 0, .s7),
   (.s7, .mb i .d1, packData f 1, .s8)]

theorem transmitStep_of_mem_transmitWrites {s : State} {i : Fin 32} (hi : i.val < s.params.numMb)
    {row : TransmitStep × Reg × Word × TransmitStep} (hrow : row ∈ transmitWrites i s.txHeader s.work.frame) :
    transmitStep row.1 i s = .next ((s.afterWrite row.2.1 row.2.2.1).goto (.transmit row.2.2.2) i) := by
  simp only [transmitWrites, List.mem_cons, List.not_mem_nil, or_false] at hrow
  rcases hrow with rfl | rfl | rfl | rfl
  · rfl
  all_goals
    simp only [transmitStep, mbWriteId, mbWriteD0, mbWriteD1]
    exact writeReg_of_has (has_mb_of_lt hi _) _ _

/-- S8: the last write ends the operation. -/
theorem exec_transmit_s8 {s : State} {i : Fin 32} {n : Nat} (hq : s.seq = .run (.transmit .s8) i n)
    (hi : i.val < s.params.numMb) :
    exec .transmit s = .next ((s.afterWrite (.mb i .cs) (packCs s.txHeader s.work.frame)).close (.ok .unit) .idle) := by
  rw [exec_transmit_run hq, transmitStep, mbWriteCs, writeReg_of_has (has_mb_of_lt hi _)]
  rfl

/-- `s` at the end of a `TRANSMIT`: its ports written, the command served. -/
def State.sent (rest : List Turn) (n : Nat) (s : State) : State :=
  { s with
    seq := .idle, result := .ok .unit, report := s.work.report, work := Work.empty, cmd := none, script := rest, tick := n }

theorem close_turnedTo (l : TransmitStep) (i : Fin 32) (rest : List Turn) (n : Nat) (s : State) :
    ((s.turnedTo (.run (.transmit l) i 0) (.engine :: rest) n).close (.ok .unit) .idle).endTurn = s.sent rest (n + 1) := rfl

section Run

variable {s : State} {w : Word} {i : Fin 32} {h : MailboxHeader} {f : CanFrame}

/-- What S4 to S8 need and each of S4 to S7 leaves: the command, the mailbox, and the header and the frame to write. -/
def State.sending (w : Word) (i : Fin 32) (h : MailboxHeader) (f : CanFrame) (s : State) : Prop :=
  s.cmd = some w ∧ i.val < s.params.numMb ∧ s.txHeader = h ∧ s.work.frame = f

theorem sending_afterWrite (hs : s.sending w i h f) (r : Reg) (v : Word) : (s.afterWrite r v).sending w i h f := by
  simpa [State.sending, State.txHeader] using hs

/-- A step of S4 to S7. -/
theorem step_transmit_write (hd : decodeWord w = .ok .transmit) (hs : s.sending w i h f)
    {row : TransmitStep × Reg × Word × TransmitStep} (hrow : row ∈ transmitWrites i h f) (rest : List Turn) (n : Nat) :
    step (s.turnedTo (.run (.transmit row.1) i 0) (.engine :: rest) n) =
      .next ((s.afterWrite row.2.1 row.2.2.1).turnedTo (.run (.transmit row.2.2.2) i 0) rest (n + 1)) := by
  obtain ⟨hc, hi, rfl, rfl⟩ := hs
  have hx := transmitStep_of_mem_transmitWrites (s := s.turnedTo (.run (.transmit row.1) i 0) (.engine :: rest) n) hi hrow
  rw [afterWrite_turnedTo, ← exec_transmit_run (n := 0) rfl] at hx
  exact engine_step (s := s.turnedTo _ _ n) rfl hc hd hx

/-- The step at S8. -/
theorem step_transmit_last (hd : decodeWord w = .ok .transmit) (hs : s.sending w i h f) (rest : List Turn) (n : Nat) :
    step (s.turnedTo (.run (.transmit .s8) i 0) (.engine :: rest) n) =
      .next ((s.afterWrite (.mb i .cs) (packCs h f)).sent rest (n + 1)) := by
  obtain ⟨hc, hi, rfl, rfl⟩ := hs
  have hx := exec_transmit_s8 (s := s.turnedTo (.run (.transmit .s8) i 0) (.engine :: rest) n) rfl hi
  rw [afterWrite_turnedTo] at hx
  exact (engine_step (s := s.turnedTo _ _ n) rfl hc hd hx).trans (congrArg _ (close_turnedTo .s8 i rest n _))

/-- S4 to S8 are `MbWrite` of the header and the frame kept, and the end of the operation. -/
theorem run_transmit_writes (hd : decodeWord w = .ok .transmit) (hs : s.sending w i h f) (rest : List Turn) (n : Nat) :
    runSteps 5 (s.turnedTo (.run (.transmit .s4) i 0) (List.replicate 5 .engine ++ rest) n) =
      .next ((s.mbWritten i h f).sent rest (n + 5)) := by
  have h5 := sending_afterWrite hs .iflag (flagMask i)
  have h6 := sending_afterWrite h5 (.mb i .id) (packId h.priority f.id)
  have h7 := sending_afterWrite h6 (.mb i .d0) (packData f 0)
  have h8 := sending_afterWrite h7 (.mb i .d1) (packData f 1)
  have hturns : List.replicate 5 Turn.engine ++ rest = .engine :: .engine :: .engine :: .engine :: .engine :: rest := rfl
  rw [hturns, runSteps_succ 4 (step_transmit_write hd hs (.head _) _ n),
    runSteps_succ 3 (step_transmit_write hd h5 (.tail _ (.head _)) _ _),
    runSteps_succ 2 (step_transmit_write hd h6 (.tail _ (.tail _ (.head _))) _ _),
    runSteps_succ 1 (step_transmit_write hd h7 (.tail _ (.tail _ (.tail _ (.head _)))) _ _),
    runSteps_succ 0 (step_transmit_last hd h8 _ _)]
  rfl

end Run

/-! ## The scan's last mailbox -/

/-- The state after the ID word of mailbox `i` is read and kept: S3 of `TRANSMIT`. -/
def State.idKept (i : Fin 32) (s : State) : State := (s.afterRead (.mb i .id)).keep { s.work with w := s.mbWord i .id }

theorem exec_transmit_s3 {s : State} {i : Fin 32} {n : Nat} (hq : s.seq = .run (.transmit .s3) i n)
    (hi : i.val < s.params.numMb) : exec .transmit s = .next ((s.idKept i).goto (.transmit .s4) i) := by
  rw [exec_transmit_run hq, transmitStep, readReg_of_has (has_mb_of_lt hi _), State.afterRead_work]
  rfl

/-- The free mailbox `i` as `TRANSMIT` leaves it: both words read, then `MbWrite`. -/
def State.armed (i : Fin 32) (s : State) : State :=
  ((s.csKept i).idKept i).mbWritten i (transmitHeader (s.mbWord i .cs) (s.mbWord i .id)) s.work.frame

/-- From S1 on a free mailbox `TRANSMIT` arms it in eight steps. -/
theorem run_transmit_free {s u : State} {w : Word} {f : CanFrame} {i : Fin 32} {rest : List Turn}
    (hd : decodeWord w = .ok .transmit) (hscan : ScanAt s w f i (List.replicate 8 .engine ++ rest) u)
    (hi : i.val < s.params.numMb) (hfree : s.mbCode i = 0b1000#4) :
    runSteps 8 u = .next ((u.armed i).sent rest (u.tick + 8)) := by
  have hiu : i.val < u.params.numMb := hscan.params ▸ hi
  have hchosen : runSteps 2 u =
      .next ((u.csKept i).turnedTo (.run (.transmit .s3) i 0) (List.replicate 6 .engine ++ rest) (u.tick + 2)) := by
    have hturns : u.script.tail.tail = List.replicate 6 .engine ++ rest := by rw [hscan.script]; rfl
    refine (scan_two hd hscan hi (code := .transmit .inactive) ((codeValue_eq_some _ _).2 hfree) rfl).trans ?_
    rw [← hturns, State.csKept, mbWord_of hscan.mem hscan.params i .cs]
    rfl
  have hread := engine_step (rest := List.replicate 5 .engine ++ rest)
    (s := (u.csKept i).turnedTo (.run (.transmit .s3) i 0) (List.replicate 6 .engine ++ rest) (u.tick + 2))
    rfl hscan.cmd hd (exec_transmit_s3 rfl hiu)
  have hsending : ((u.csKept i).idKept i).sending w i (transmitHeader (u.mbWord i .cs) (u.mbWord i .id)) u.work.frame :=
    ⟨hscan.cmd, hiu, rfl, rfl⟩
  rw [runSteps_add 2 6, hchosen]
  exact (runSteps_succ 5 hread).trans (run_transmit_writes hd hsending rest (u.tick + 3))

theorem armed_engine (i : Fin 32) (s : State) :
    (s.armed i).mode = s.mode ∧ (s.armed i).maxMailbox = s.maxMailbox ∧ (s.armed i).work.report = s.work.report := by
  simp [State.armed, State.idKept, State.csKept]

/-- `t` is `s` with mailbox `i` armed with frame `f`, its flag clear, and nothing else of the register block or of the hidden
state changed, after `i + 2` reads and 5 writes (R183 to R185). -/
structure ArmedFrom (s : State) (i : Fin 32) (f : CanFrame) (t : State) : Prop where
  holds : t.mbHolds i (transmitHeader (s.mbWord i .cs) (s.mbWord i .id)) f
  words : ∀ j u, j ≠ i.val → t.mbWord j u = s.mbWord j u
  flags : ∀ j, t.flag j = (s.flag j && !decide (j = i.val))
  control : sameControl s t
  hidden : sameHidden s t
  reads : readCount t.history = readCount s.history + (i.val + 2)
  writes : writeCount t.history = writeCount s.history + 5

/-- The scan changes nothing, so arming where it stands is arming in the state it began in. -/
theorem armedFrom_armed {s u : State} {w : Word} {f : CanFrame} {i : Fin 32} {rest : List Turn}
    (hm : Memory.wf s.mem = true) (hl : s.lpmack = false) (hf : CanFrame.wf f = true) (hi : i.val ∉ s.rxBegun)
    (hscan : ScanAt s w f i rest u) : ArmedFrom s i f (u.armed i) := by
  have hword := mbWord_of hscan.mem hscan.params
  have hheader : transmitHeader (u.mbWord i .cs) (u.mbWord i .id) = transmitHeader (s.mbWord i .cs) (s.mbWord i .id) := by
    rw [hword, hword]
  have hmem : Memory.wf ((u.csKept i).idKept i).mem = true := (congrArg Memory.wf hscan.mem).trans hm
  have hlp : ((u.csKept i).idKept i).lpmack = false := (congrArg Gcr.lpmack.bit hscan.ctl.1).trans hl
  have hflag (j : Nat) : ((u.csKept i).idKept i).flag j = s.flag j := congrArg (·.getLsbD j) hscan.ifl
  have hcontrol : sameControl s ((u.csKept i).idKept i) := hscan.ctl
  have hhidden : sameHidden s ((u.csKept i).idKept i) := hscan.hid
  have ⟨_, _, hbegun⟩ := hhidden
  have hreads : readCount ((u.csKept i).idKept i).history = readCount u.history + 2 := rfl
  have hwrites : writeCount ((u.csKept i).idKept i).history = writeCount u.history := rfl
  rw [State.armed, hheader, hscan.frame]
  refine ⟨mbHolds_mbWritten _ _ hmem hlp, fun j v hj => ?_, fun j => ?_, ?_, ?_, ?_, ?_⟩
  · exact (mbWord_mbWritten_other _ _ hmem hlp hj v).trans (hword j v)
  · rw [flag_mbWritten _ _ i.isLt, hflag]
  · exact sameControl_trans hcontrol (sameControl_mbWritten ..)
  · exact sameHidden_trans hhidden (sameHidden_mbWritten _ _ hf (by simp [transmitHeader]) (hbegun ▸ hi))
  · rw [(counts_mbWritten ..).1, hreads, hscan.reads, Nat.add_assoc]
  · rw [(counts_mbWritten ..).2, hwrites, hscan.writes]

/-! ## The statements -/

/-- Past S0 a `TRANSMIT` stands at a mailbox in use, with a well-formed frame. -/
theorem State.Structural.transmitting {s : State} (hs : s.Structural) {l : TransmitStep} {i : Fin 32} {n : Nat}
    (hq : s.seq = .run (.transmit l) i n) (hl : l ≠ .s0) :
    s.mode = .running ∧ i.val ≤ s.maxMailbox.toNat ∧ CanFrame.wf s.work.frame = true := by
  have hseq := hs.seq
  simp only [State.seqOk, hq] at hseq
  obtain ⟨-, -, hkept⟩ := hseq
  obtain ⟨hmode, hle, hwf, -⟩ := hkept hl
  exact ⟨hmode, hle, hwf⟩

theorem publishedReport_transmit {s : State} {l : TransmitStep} {i : Fin 32} {n : Nat}
    (hq : s.seq = .run (.transmit l) i n) : s.publishedReport = s.work.report := by
  simp only [State.publishedReport, hq]

/-- The progress the invariant records at S8. -/
theorem State.ProtocolOk.progressAtS8 {s : State} (hp : s.ProtocolOk) {i : Fin 32} {n : Nat}
    (hq : s.seq = .run (.transmit .s8) i n) :
    s.reportUpTo i ∧ s.mbWord i .cs = s.work.c ∧ s.flag i = false ∧
      s.mbWord i .id = packId s.txHeader.priority s.work.frame.id ∧
      s.mbWord i .d0 = packData s.work.frame 0 ∧ s.mbWord i .d1 = packData s.work.frame 1 := by
  have hprog := hp.progress
  simp only [State.progress, hq, State.transmitProgress] at hprog
  obtain ⟨hreport, ⟨-, hcs⟩, hrest⟩ := hprog
  exact ⟨hreport (by decide), hcs, hrest⟩

/-- Settles O36: by the invariant the words written before S8 are still in the mailbox, and S8 writes the last. -/
theorem transmitArmsChosen : Obligations.TransmitArmsChosen := by
  intro s i n hinv hq
  obtain ⟨hmode, hle, hwf⟩ := hinv.structural.transmitting hq (by decide)
  have hi := Nat.lt_of_le_of_lt hle hinv.structural.maxMailbox
  obtain ⟨hreport, hcs, hflag, hid, hd0, hd1⟩ := hinv.protocol.progressAtS8 hq
  have hm := hinv.structural.mem
  have hl := awake_of_phase hinv.phase hmode
  have hword := mbWord_afterWrite_mb hm hl i .cs (packCs s.txHeader s.work.frame) i
  have hpub : (s.afterWrite (.mb i .cs) (packCs s.txHeader s.work.frame)).publishedReport = s.work.report := by
    rw [publishedReport_transmit ((State.afterWrite_seq ..).trans hq), State.afterWrite_work]
  refine ⟨_, s.txHeader, exec_transmit_s8 hq hi, rfl, rfl, rfl, ⟨?cs, ?id, ?d0, ?d1⟩, rfl, ?esi, ?timestamp, ?priority,
    ?code, ?flag, ?bytes, ?below, ?above⟩
  case cs => exact (hword .cs).trans (if_pos ⟨rfl, rfl⟩)
  case id => exact (hword .id).trans ((if_neg (by simp)).trans hid)
  case d0 => exact (hword .d0).trans ((if_neg (by simp)).trans hd0)
  case d1 => exact (hword .d1).trans ((if_neg (by simp)).trans hd1)
  case esi => rw [hcs]; rfl
  case timestamp => rw [hcs]; rfl
  case priority => rw [hid]; exact (priorityOf_packId _ _).symm
  case code => exact (congrArg codeOf ((hword .cs).trans (if_pos ⟨rfl, rfl⟩))).trans (codeOf_packCs hwf)
  case flag => exact (State.afterWrite_mb_flag ..).trans hflag
  case bytes => exact sameBytesOutside_writeWord hm (afterWrite_mb_mem hl i .cs _)
  case below =>
    intro k hk
    obtain ⟨hskipped, -⟩ := hreport k (by omega)
    exact (congrArg (fun r => r[k]? = _ ∨ r[k]? = _) hpub).mpr (hskipped hk)
  case above =>
    intro k hk hmax
    obtain ⟨-, hopen⟩ := hreport k hmax
    exact (congrArg (·[k]?) hpub).trans (hopen hk)

/-- Settles O34: the scan skips to mailbox `i`, and what follows is `MbWrite` there. -/
theorem transmitChoosesLowestFree : Obligations.TransmitChoosesLowestFree := by
  intro s w f i hinv hq hc hd hmode hf hle hfree hbelow
  have hmax := hinv.structural.maxMailbox
  obtain ⟨u₀, hstart, hscan₀⟩ := scan_start (N := 2 * i + 8) hq hc hd hmode hf
  rw [List.replicate_add, List.append_assoc] at hscan₀
  obtain ⟨u, hskip, i, rfl, hscan⟩ := scan_many hd hmax i _ u₀ hle hbelow hscan₀
  have hrun : runSteps (2 + 2 * (i.val + 1) + 6) (s.alone (2 + 2 * (i.val + 1) + 6)) =
      .next ((u.armed i).sent s.script (u.tick + 8)) := by
    rw [show 2 + 2 * (i.val + 1) + 6 = 2 + (2 * i.val + 8) by omega, runSteps_add, hstart]
    refine (runSteps_add (2 * i.val) 8 u₀).trans ?_
    rw [hskip]
    exact run_transmit_free hd hscan (Nat.lt_of_le_of_lt hle hmax) hfree
  have hwf := checkFrame_wf hf
  have hidle : i.val ∉ s.rxBegun := by
    intro hmem
    obtain ⟨-, hbusy⟩ := hinv.protocol.hidden.begun _ hmem
    rw [hfree] at hbusy
    exact not_receptionCode_inactive (.transmit .inactive) hbusy
  have harmed := armedFrom_armed hinv.structural.mem (awake_of_phase hinv.phase hmode) hwf hidle hscan
  obtain ⟨hlock, habort, hbegun⟩ := harmed.hidden
  have ⟨hcs, _⟩ := harmed.holds
  obtain ⟨hmodeT, hmaxT, hworkT⟩ := armed_engine i u
  refine ⟨_, hrun, rfl, rfl, rfl, harmed.holds, ?code, ?flag, harmed.words, ?flags, harmed.control, hlock, habort, hbegun,
    hmodeT.trans hscan.mode, hmaxT.trans hscan.mm, ?length, ?below, ?above, harmed.reads, harmed.writes, rfl⟩
  case code => exact (congrArg codeOf hcs).trans (codeOf_packCs hwf)
  case flag => exact (harmed.flags i).trans (by simp)
  case flags => exact fun j hj => (harmed.flags j).trans (by simp [hj])
  case length => exact (congrArg List.length hworkT).trans hscan.len
  case below => exact fun k hk => (congrArg (·[k]?) hworkT).trans (hscan.below k hk)
  case above => exact fun k hk hkmax => (congrArg (·[k]?) hworkT).trans (hscan.above k hk hkmax)

end Sys2Proof.Machine
end

section
/-! SUPPORT. `RECEIVE` label by label (44_receive.md R190, R191): its last step under every interleaving, the whole operation
with the controller silent as one change of the state (R192), and the frame that comes back after a transmission. -/

namespace Sys2Proof.Machine

/-! ## The labels of `RECEIVE` (R190) -/

/-- Word `u` of the mailbox kept by the operation. -/
def Work.latch (u : MbWord) (v : Word) (k : Work) : Work :=
  match u with
  | .cs => { k with c := v }
  | .id => { k with w := v }
  | .d0 => { k with d0 := v }
  | .d1 => { k with d1 := v }

/-- S3 to S5: the label, the word read and kept, and the label that follows. -/
def receiveReads : List (ReceiveStep × MbWord × ReceiveStep) := [(.s3, .id, .s4), (.s4, .d0, .s5), (.s5, .d1, .s6)]

section Labels

variable {s : State} {i : Fin 32} {n m : Nat}

/-- S0: a mailbox in use is admitted. -/
theorem exec_receive_s0 (hq : s.seq = .run (.receive .s0) 0 n) (hmode : s.mode = .running)
    (hle : i.val ≤ s.maxMailbox.toNat) :
    exec (.receive i.val) s = .next ((s.keep Work.empty).goto (.receive .s1) i) := by
  rw [exec_receive_run hq, receiveStep, startReceive, if_neg (not_not_intro hmode), if_neg (Nat.not_lt.2 hle), ofNat_self]

/-- S1: the flag of the mailbox is set. -/
theorem exec_receive_s1_set (hq : s.seq = .run (.receive .s1) i n) (hf : s.flag i = true) :
    exec (.receive m) s = .next ((s.afterRead .iflag).goto (.receive .s2) i) := by
  rw [exec_receive_run hq, receiveStep, readReg_of_has rfl]
  exact if_pos hf

/-- S2: a code that is not busy ends the loop. -/
theorem exec_receive_s2_settled (hq : s.seq = .run (.receive .s2) i n) (hi : i.val < s.params.numMb)
    {code : MessageBufferCode} (hc : codeValue (s.mbCode i) = some code) (hbusy : MessageBufferCode.isBusy code = false) :
    exec (.receive m) s = .next ((s.csReadAtS2 i).goto (.receive .s3) i) := by
  have hqr : (s.csReadAtS2 i).seq = .run (.receive .s2) i n := by simp [State.csReadAtS2, hq]
  calc exec (.receive m) s
      = engineOnCode (s.mbCode i) (s.csReadAtS2 i) := by
        rw [exec_receive_run hq, receiveStep, readReg_of_has (has_mb_of_lt hi _), State.afterRead_work]
        rfl
    _ = .next ((s.csReadAtS2 i).goto (.receive .s3) i) := by
        simp only [engineOnCode, hqr, decodedAt, hc, busyTestOn, hbusy, Bool.false_eq_true, if_false]

theorem exec_receive_read {row : ReceiveStep × MbWord × ReceiveStep} (hrow : row ∈ receiveReads)
    (hq : s.seq = .run (.receive row.1) i n) (hi : i.val < s.params.numMb) :
    exec (.receive m) s = .next (((s.afterRead (.mb i row.2.1)).keep
      (s.work.latch row.2.1 (s.mbWord i row.2.1))).goto (.receive row.2.2) i) := by
  rw [exec_receive_run hq]
  simp only [receiveReads, List.mem_cons, List.not_mem_nil, or_false] at hrow
  rcases hrow with rfl | rfl | rfl
  all_goals
    simp only [receiveStep]
    exact readReg_of_has (has_mb_of_lt hi _) _

/-- S6: the words read make a frame. -/
theorem exec_receive_s6_frame (hq : s.seq = .run (.receive .s6) i n) {f : CanFrame}
    (hf : buildFrame s.work.c s.work.w s.work.d0 s.work.d1 = some f) :
    exec (.receive m) s = .next ((s.keep { s.work with frame := f }).goto (.receive .s7) i) := by
  simp only [exec_receive_run hq, receiveStep, hf]

/-- S7: the header of a code that decodes. -/
theorem exec_receive_s7_header (hq : s.seq = .run (.receive .s7) i n) {code : MessageBufferCode}
    (hc : codeValue (codeOf s.work.c) = some code) :
    exec (.receive m) s =
      .next ((s.keep { s.work with header := receivedHeader code s.work.c s.work.w }).goto (.receive .s8) i) := by
  simp only [exec_receive_run hq, receiveStep, decodedAt, hc]

theorem exec_receive_s8 (hq : s.seq = .run (.receive .s8) i n) :
    exec (.receive m) s = .next ((s.afterWrite .iflag (flagMask i)).goto (.receive .s9) i) := by
  rw [exec_receive_run hq]
  rfl

theorem exec_receive_s9 (hq : s.seq = .run (.receive .s9) i n) :
    exec (.receive m) s =
      .next ((s.afterRead .timer).close (.ok (.received s.work.header s.work.frame)) .idle) := by
  rw [exec_receive_run hq]
  rfl

end Labels

/-! ## A frame returned is one whole frame (R192 (b)) -/

/-- The progress the invariant records at S9. -/
theorem State.ProtocolOk.progressAtS9 {s : State} (hp : s.ProtocolOk) {i : Fin 32} {n : Nat}
    (hq : s.seq = .run (.receive .s9) i n) : s.receiveProgress .s9 i := by
  have hprog := hp.progress
  simpa only [State.progress, hq] using hprog

/-- Settles O39: the invariant at S9 records what the pair was built from and, for a whole frame, that the lock has kept the
mailbox's words since. -/
theorem receiveWholeFrame : Obligations.ReceiveWholeFrame := by
  intro s i n m hinv hq
  obtain ⟨⟨code', hcode', hbusy⟩, hframe, ⟨code, hcode, hheader⟩, hwhole⟩ := hinv.protocol.progressAtS9 hq
  obtain rfl : code' = code := Option.some.inj (hcode'.symm.trans hcode)
  refine ⟨_, _, _, exec_receive_s9 hq, rfl, rfl, rfl, rfl, fun _ => rfl, hframe, ⟨code', hcode, hbusy, hheader⟩,
    fun hc => ?_⟩
  obtain ⟨hlock, hcs, hid, hd0, hd1⟩ := hwhole hc
  refine ⟨hlock, hcs, ?_, code', ?_, ?_⟩
  · rw [hcs, hid, hd0, hd1, hframe]
  · rw [State.mbCode, hcs, hcode]
  · rw [hcs, hid, hheader]

/-! ## `RECEIVE` with the controller silent -/

/-- The accesses of a `RECEIVE` of mailbox `i`, the latest first (R190, 70_reset_and_hazards.md R262). -/
def receiveAccesses (i : Fin 32) (s : State) : List Event :=
  [.read .timer s.timer, .write .iflag (flagMask i), .read (.mb i .d1) (s.mbWord i .d1), .read (.mb i .d0) (s.mbWord i .d0),
   .read (.mb i .id) (s.mbWord i .id), .read (.mb i .cs) (s.mbWord i .cs), .read .iflag s.iflag]

/-- `s` inside a `RECEIVE` of mailbox `i`, at label `l`, with `k` kept, the lock and the history as given, the turns `rest` to
come and `n` turns taken. -/
def State.inReceive (l : ReceiveStep) (i : Fin 32) (k : Work) (lock : Option Nat) (h : List Event) (rest : List Turn)
    (n : Nat) (s : State) : State :=
  { s with seq := .run (.receive l) i 0, work := k, lock := lock, history := h, script := rest, tick := n }

/-- `s` at the end of a `RECEIVE` of mailbox `i` that answered `r`. -/
def State.received (i : Fin 32) (r : Result) (h : List Event) (rest : List Turn) (n : Nat) (s : State) : State :=
  { s with
    seq := .idle, result := r, work := Work.empty, cmd := none, iflag := clearFlags s.iflag (flagMask i), lock := none,
    history := h, script := rest, tick := n }

section Run

variable {s : State} {w : Word} {i : Fin 32} {k : Work} {lock : Option Nat} {h : List Event} {rest : List Turn} {n : Nat}
  {code : MessageBufferCode} {f : CanFrame}
  (hd : decodeWord w = .ok (.receive i.val)) (hc : s.cmd = some w)

include hd hc

/-- Acceptance and S0. -/
theorem run_receive_admitted (hmode : s.mode = .running) (hle : i.val ≤ s.maxMailbox.toNat) :
    runSteps 2 (s.turnedTo .idle (.engine :: .engine :: rest) n) =
      .next (s.inReceive .s1 i Work.empty s.lock s.history rest (n + 2)) := by
  have haccept : exec (.receive i.val) (s.turnedTo .idle (.engine :: .engine :: rest) n) = _ := exec_idle rfl rfl
  have hadmit := exec_receive_s0 (s := s.turnedTo (.run (.receive .s0) 0 0) (.engine :: rest) (n + 1)) rfl hmode hle
  exact (runSteps_succ 1 (engine_step (s := s.turnedTo _ _ n) rfl hc hd haccept)).trans
    (runSteps_succ 0 (engine_step (s := s.turnedTo _ _ (n + 1)) rfl hc hd hadmit))

/-- A step of `RECEIVE` to the label that follows. -/
theorem step_receive {l l' : ReceiveStep} {k' : Work} {lock' : Option Nat} {h' : List Event}
    (hx : exec (.receive i.val) (s.inReceive l i k lock h (.engine :: rest) n) =
      .next ((s.inReceive l i k' lock' h' (.engine :: rest) n).goto (.receive l') i)) :
    step (s.inReceive l i k lock h (.engine :: rest) n) = .next (s.inReceive l' i k' lock' h' rest (n + 1)) :=
  engine_step (s := s.inReceive ..) rfl hc hd hx

theorem step_receive_s1 (hf : s.flag i = true) :
    step (s.inReceive .s1 i k lock h (.engine :: rest) n) =
      .next (s.inReceive .s2 i k lock (.read .iflag s.iflag :: h) rest (n + 1)) :=
  step_receive hd hc (exec_receive_s1_set rfl hf)

/-- S2 reads and keeps the control word; the lock is as that read leaves it. -/
theorem step_receive_s2 (hi : i.val < s.params.numMb)
    (hcode : codeValue (s.mbCode i) = some code) (hbusy : MessageBufferCode.isBusy code = false) :
    ∃ lock', step (s.inReceive .s2 i k lock h (.engine :: rest) n) =
      .next (s.inReceive .s3 i (k.latch .cs (s.mbWord i .cs)) lock' (.read (.mb i .cs) (s.mbWord i .cs) :: h) rest
        (n + 1)) := by
  have hx := exec_receive_s2_settled (s := s.inReceive .s2 i k lock h (.engine :: rest) n) (m := i.val) rfl hi hcode
    hbusy
  rw [State.csReadAtS2, engage_eq] at hx
  exact ⟨_, step_receive hd hc hx⟩

theorem step_receive_read {row : ReceiveStep × MbWord × ReceiveStep} (hrow : row ∈ receiveReads)
    (hi : i.val < s.params.numMb) :
    step (s.inReceive row.1 i k lock h (.engine :: rest) n) =
      .next (s.inReceive row.2.2 i (k.latch row.2.1 (s.mbWord i row.2.1)) lock
        (.read (.mb i row.2.1) (s.mbWord i row.2.1) :: h) rest (n + 1)) :=
  step_receive hd hc (exec_receive_read hrow rfl hi)

theorem step_receive_s6 (hf : buildFrame k.c k.w k.d0 k.d1 = some f) :
    step (s.inReceive .s6 i k lock h (.engine :: rest) n) =
      .next (s.inReceive .s7 i { k with frame := f } lock h rest (n + 1)) :=
  step_receive hd hc (exec_receive_s6_frame rfl hf)

theorem step_receive_s7 (hcode : codeValue (codeOf k.c) = some code) :
    step (s.inReceive .s7 i k lock h (.engine :: rest) n) =
      .next (s.inReceive .s8 i { k with header := receivedHeader code k.c k.w } lock h rest (n + 1)) :=
  step_receive hd hc (exec_receive_s7_header rfl hcode)

/-- S8 and S9: the flag is cleared, the lock released, the pair answered. -/
theorem run_receive_answer :
    runSteps 2 (s.inReceive .s8 i k lock h (.engine :: .engine :: rest) n) =
      .next (s.received i (.ok (.received k.header k.frame)) (.read .timer s.timer :: .write .iflag (flagMask i) :: h)
        rest (n + 2)) := by
  refine Eq.trans (runSteps_succ 1 (engine_step rfl hc hd (exec_receive_s8 rfl))) ?_
  exact Eq.trans (runSteps_succ 0 (engine_step rfl hc hd (exec_receive_s9 rfl))) rfl

/-- A whole `RECEIVE` of a mailbox whose flag is set, whose code decodes and is not busy, and whose words make a frame. -/
theorem run_receive (hmode : s.mode = .running) (hle : i.val ≤ s.maxMailbox.toNat) (hi : i.val < s.params.numMb)
    (hflag : s.flag i = true) (hcode : codeValue (s.mbCode i) = some code)
    (hbusy : MessageBufferCode.isBusy code = false)
    (hf : buildFrame (s.mbWord i .cs) (s.mbWord i .id) (s.mbWord i .d0) (s.mbWord i .d1) = some f) :
    runSteps 11 (s.turnedTo .idle (List.replicate 11 .engine ++ rest) n) =
      .next (s.received i (.ok (.received (receivedHeader code (s.mbWord i .cs) (s.mbWord i .id)) f))
        (receiveAccesses i s ++ s.history) rest (n + 11)) := by
  have hturns : List.replicate 11 Turn.engine ++ rest = .engine :: .engine :: (List.replicate 9 .engine ++ rest) := rfl
  obtain ⟨lock, hs2⟩ := step_receive_s2 (rest := List.replicate 7 .engine ++ rest) (n := n + 3) (lock := s.lock)
    (k := Work.empty) (h := .read .iflag s.iflag :: s.history) hd hc hi hcode hbusy
  rw [hturns, runSteps_add 2 9, run_receive_admitted hd hc hmode hle]
  refine Eq.trans (runSteps_succ 8 (step_receive_s1 hd hc hflag)) ?_
  refine Eq.trans (runSteps_succ 7 hs2) ?_
  refine Eq.trans (runSteps_succ 6 (step_receive_read (row := (.s3, .id, .s4)) hd hc (.head _) hi)) ?_
  refine Eq.trans (runSteps_succ 5 (step_receive_read (row := (.s4, .d0, .s5)) hd hc (.tail _ (.head _)) hi)) ?_
  refine Eq.trans (runSteps_succ 4 (step_receive_read (row := (.s5, .d1, .s6)) hd hc (.tail _ (.tail _ (.head _))) hi)) ?_
  refine Eq.trans (runSteps_succ 3 (step_receive_s6 hd hc hf)) ?_
  refine Eq.trans (runSteps_succ 2 (step_receive_s7 hd hc hcode)) ?_
  exact run_receive_answer hd hc

end Run

/-- A mailbox in use exists, and its index is one the sequencer can hold (10_state.md R24, R26). -/
theorem State.Structural.inUse {s : State} (hs : s.Structural) {i : Nat} (hle : i ≤ s.maxMailbox.toNat) :
    i < s.params.numMb ∧ ∃ k : Fin 32, k.val = i :=
  have hi := Nat.lt_of_le_of_lt hle hs.maxMailbox
  ⟨hi, ⟨i, Nat.lt_of_lt_of_le hi (numMb_le hs)⟩, rfl⟩

/-- The flags after `RECEIVE` cleared its own. -/
theorem flag_received (i : Fin 32) (r : Result) (h : List Event) (rest : List Turn) (n : Nat) (s : State) (j : Nat) :
    (s.received i r h rest n).flag j = if j = i.val then false else s.flag j := by
  have hclear : (s.received i r h rest n).flag j = (s.flag j && !decide (j = i.val)) := flag_clear i.isLt j s
  rw [hclear]
  by_cases hj : j = i.val <;> simp [hj]

/-- An idle engine with the next `k` turns its own. -/
theorem alone_eq_turnedTo {s : State} (hq : s.seq = .idle) (k : Nat) :
    s.alone k = s.turnedTo .idle (List.replicate k .engine ++ s.script) s.tick := by
  rw [← hq]
  rfl

/-- Settles O38: the run is `run_receive`, and what it leaves is read off its last state. -/
theorem receiveReturnsFrame : Obligations.ReceiveReturnsFrame := by
  intro s w i code f hinv hq hc hd hmode hle hflag hcode hbusy hf
  obtain ⟨hi, i, rfl⟩ := hinv.structural.inUse hle
  have hrun := run_receive (rest := s.script) (n := s.tick) hd hc hmode hle hi hflag hcode hbusy hf
  exact ⟨_, (congrArg (runSteps 11) (alone_eq_turnedTo hq 11)).trans hrun, rfl, rfl, rfl, rfl, flag_received _ _ _ _ _ _,
    ⟨rfl, rfl, rfl, rfl⟩, fun _ => rfl, rfl, rfl, rfl⟩

/-! ## What was written comes back (R192 (f), (g)) -/

/-- `BuildFrame` of a packed frame needs of the control word the three fields it looks at. -/
theorem buildFrame_packed {c : Word} {f : CanFrame} (hwf : CanFrame.wf f = true) (p : BitVec 3)
    (hide : (unpackCs c).ide = isExtended f.id) (hrtr : (unpackCs c).rtr = isRemote f)
    (hdlc : (unpackCs c).dlc = BitVec.ofNat 4 (dlcOf f)) :
    buildFrame c (packId p f.id) (packData f 0) (packData f 1) = some f := by
  have hid : unpackId (isExtended f.id) (packId p f.id) = f.id := by
    cases f.id with
    | base b => exact unpackId_packId_base p b
    | extended e => exact unpackId_packId_extended p e
  simp only [buildFrame, hide, hrtr, hdlc, hid]
  cases f with
  | remote id => rfl
  | data id payload =>
    have hlen : payload.length ≤ 8 := of_decide_eq_true hwf
    have hdlcNat : (BitVec.ofNat 4 payload.length).toNat = payload.length := Nat.mod_eq_of_lt (by omega)
    simp only [isRemote, dlcOf, hdlcNat, Bool.false_eq_true, if_false, if_neg (Nat.not_lt.2 hlen), CanFrame.id,
      unpackData_packData id hlen]

/-- The controller's stamp and code leave the other fields of the control word. -/
theorem unpackCs_csAfter (c t : Word) (v : BitVec 4) :
    unpackCs (csAfter c t v true) = { unpackCs c with code4 := v, timestamp := t.extractLsb' 0 16 } := by
  have hbit : ∀ k, 16 ≤ k → ¬(24 ≤ k ∧ k < 28) → (csAfter c t v true).getLsbD k = c.getLsbD k := by
    intro k hk hcode
    simp only [csAfter, if_true, getLsbD_stamp, getLsbD_withCode, if_neg (Nat.not_lt.2 hk), if_neg hcode]
  have hcode : (csAfter c t v true).extractLsb' 24 4 = v := codeOf_csAfter c t v true
  obtain ⟨htime, -, -⟩ := extract_csAfter c t v true
  rw [unpackCs, hcode, htime, hbit 29 (by omega) (by omega), hbit 21 (by omega) (by omega), hbit 20 (by omega) (by omega),
    extractLsb'_congr (lo := 16) (len := 4) fun k _ _ => hbit k (by omega) (by omega)]
  rfl

/-- The words of a packed frame with the controller's stamp and code on the control word make that frame. -/
theorem buildFrame_sent (h : MailboxHeader) {f : CanFrame} (hwf : CanFrame.wf f = true) (t : Word) (v : BitVec 4) :
    buildFrame (csAfter (packCs h f) t v true) (packId h.priority f.id) (packData f 0) (packData f 1) = some f := by
  apply buildFrame_packed hwf <;> rw [unpackCs_csAfter, unpackCs_packCs h hwf]

theorem receivedHeader_sent (h : MailboxHeader) {f : CanFrame} (hwf : CanFrame.wf f = true) (t : Word)
    (code : MessageBufferCode) :
    receivedHeader code (csAfter (packCs h f) t (codeBits code) true) (packId h.priority f.id) =
      ⟨h.errorStateIndicator, code, t.extractLsb' 0 16, h.priority⟩ := by
  rw [receivedHeader, unpackCs_csAfter, unpackCs_packCs h hwf, priorityOf_packId]

/-- The code a completed transmission leaves (20_memory.md R83). -/
def sentValue (rtr alt : Bool) : MessageBufferCode := if rtr && alt then .receive .empty false else .transmit .inactive

theorem sentCode_eq_codeBits (rtr alt : Bool) : sentCode rtr alt = codeBits (sentValue rtr alt) := by
  cases rtr <;> cases alt <;> rfl

theorem isBusy_sentValue (rtr alt : Bool) : MessageBufferCode.isBusy (sentValue rtr alt) = false := by
  cases rtr <;> cases alt <;> rfl

theorem sentValue_cases (rtr alt : Bool) :
    sentValue rtr alt = .transmit .inactive ∨ (rtr = true ∧ alt = true ∧ sentValue rtr alt = .receive .empty false) := by
  cases rtr <;> cases alt <;> decide

/-- A word of the mailbox file after the controller's end of a transmission, a reception or an abort. -/
theorem mbWord_concludeMb {s : State} (hm : Memory.wf s.mem = true) (i : Nat) (v : BitVec 4) (b : Bool) (j : Nat)
    (u : MbWord) :
    (s.concludeMb i v b).mbWord j u = if j = i ∧ u = .cs then csAfter (s.mbWord i .cs) s.timer v b else s.mbWord j u := by
  simp only [State.concludeMb, State.setFlag_mbWord, mbWord_stampIfSent (wf_setMbCode hm i v), mbWord_setMbCode hm,
    and_self, if_true, State.setMbCode_timer, csAfter]
  split <;> rfl

/-- The host's word for `RECEIVE i` (30_encoding.md R90). -/
theorem decodeWord_receive : ∀ i : Fin 32, decodeWord (0x60000000#32 ||| BitVec.ofNat 32 i) = .ok (.receive i) := by
  have hword : ∀ i : Fin 32, 0x60000000#32 ||| BitVec.ofNat 32 i = commandWord 0x6#4 i := by decide
  intro i
  rw [hword]
  exact (decodeWord_indexed (by omega)).1

/-- The host's turn on an idle engine with no command pending. -/
theorem step_host {s : State} {w : Word} {ops : OperandPort} {rest : List Turn} (hs : s.script = .host w ops :: rest)
    (hq : s.seq = .idle) (hc : s.cmd = none) :
    step s = .next ({ s with cmd := some w, ops := ops }.turnedTo .idle rest (s.tick + 1)) := by
  have ht := turn_of_script hs
  have hfetch : fetch s = .nothing := fetch_other (by simp [ht]) (by simp [ht])
  rw [step_of_fetch_nothing hfetch]
  simp only [State.environment, ht, State.issue, hq, hc]
  simp [State.endTurn, State.turnedTo, hs]

/-- The state after the controller has completed the transmission of mailbox `i` with the code of value `c` (R83). -/
def State.completed (i : Nat) (c : MessageBufferCode) (s : State) : State :=
  ((s.concludeMb i (codeBits c) true).dropAbort i).endTurn

/-- The controller completes the transmission of an armed mailbox in use. -/
theorem step_completes {s : State} {i : Nat} {h : MailboxHeader} {f : CanFrame} {alt : Bool} {rest : List Turn}
    (hs : s.script = .mailbox i (.act alt) :: rest) (hl : s.mbLive i = true) (hwf : CanFrame.wf f = true)
    (hcs : s.mbWord i .cs = packCs h f) (harmed : h.code = .transmit .dataOrRemotePending) :
    step s = .next (s.completed i (sentValue (isRemote f) alt)) := by
  have ht := turn_of_script hs
  have hcode : s.mbCode i = codeBits (.transmit .dataOrRemotePending) := by
    rw [State.mbCode, hcs, codeOf_packCs hwf, harmed]
  have hrtr : Cs.rtr.bit (s.mbWord i .cs) = isRemote f := by
    rw [hcs]
    exact congrArg CsFields.rtr (unpackCs_packCs h hwf)
  rw [step_mailbox ht (mbLive_lt hl), hcode, State.completed, ← sentCode_eq_codeBits, ← hrtr]
  exact congrArg afterTurn (exec_txPending_act ht hl)

theorem completed_engine (i : Nat) (c : MessageBufferCode) (s : State) :
    (s.completed i c).script = s.script.tail ∧ (s.completed i c).seq = s.seq ∧ (s.completed i c).cmd = s.cmd ∧
      (s.completed i c).mode = s.mode ∧ (s.completed i c).maxMailbox = s.maxMailbox ∧
      (s.completed i c).params = s.params := by
  obtain ⟨mem, hconclude⟩ := concludeMb_eq i (codeBits c) true s
  rw [State.completed, hconclude]
  exact ⟨rfl, rfl, rfl, rfl, rfl, rfl⟩

theorem mbWord_completed {s : State} (hm : Memory.wf s.mem = true) (i : Nat) (c : MessageBufferCode) (u : MbWord) :
    (s.completed i c).mbWord i u =
      if u = .cs then csAfter (s.mbWord i .cs) s.timer (codeBits c) true else s.mbWord i u := by
  rw [State.completed, State.endTurn_mbWord, State.dropAbort_mbWord, mbWord_concludeMb hm]
  simp only [true_and]

/-- Mailbox `i` of `t` shows header `h` and frame `f` after the transmission was completed at the timer's count `tm`, with the
code of value `c`. -/
structure SentIn (i : Nat) (h : MailboxHeader) (f : CanFrame) (tm : Word) (c : MessageBufferCode) (t : State) : Prop where
  cs : t.mbWord i .cs = csAfter (packCs h f) tm (codeBits c) true
  id : t.mbWord i .id = packId h.priority f.id
  d0 : t.mbWord i .d0 = packData f 0
  d1 : t.mbWord i .d1 = packData f 1
  flag : t.flag i = true

theorem sentIn_completed {s : State} {i : Nat} {h : MailboxHeader} {f : CanFrame} (hm : Memory.wf s.mem = true)
    (hi : i < 32) (hh : s.mbHolds i h f) (c : MessageBufferCode) : SentIn i h f s.timer c (s.completed i c) := by
  obtain ⟨hcs, hid, hd0, hd1⟩ := hh
  have hword := mbWord_completed hm i c
  refine ⟨?_, ?_, ?_, ?_, (concluded_concludeMb hm hi (codeBits c) true).flag_same⟩
  · rw [hword, if_pos rfl, hcs]
  · rw [hword, if_neg (by decide), hid]
  · rw [hword, if_neg (by decide), hd0]
  · rw [hword, if_neg (by decide), hd1]

theorem run_receive_sent {t : State} {w : Word} {i : Fin 32} {h : MailboxHeader} {f : CanFrame} {tm : Word}
    {c : MessageBufferCode} {rest : List Turn} {n : Nat} (hs : SentIn i h f tm c t) (hwf : CanFrame.wf f = true)
    (hbusy : MessageBufferCode.isBusy c = false) (hd : decodeWord w = .ok (.receive i.val)) (hc : t.cmd = some w)
    (hmode : t.mode = .running) (hle : i.val ≤ t.maxMailbox.toNat) (hi : i.val < t.params.numMb) :
    runSteps 11 (t.turnedTo .idle (List.replicate 11 .engine ++ rest) n) =
      .next (t.received i (.ok (.received ⟨h.errorStateIndicator, c, tm.extractLsb' 0 16, h.priority⟩ f))
        (receiveAccesses i t ++ t.history) rest (n + 11)) := by
  have hcode : codeValue (t.mbCode i) = some c := by rw [State.mbCode, hs.cs, codeOf_csAfter, codeValue_codeBits]
  have hframe : buildFrame (t.mbWord i .cs) (t.mbWord i .id) (t.mbWord i .d0) (t.mbWord i .d1) = some f := by
    rw [hs.cs, hs.id, hs.d0, hs.d1, buildFrame_sent h hwf]
  rw [run_receive hd hc hmode hle hi hs.flag hcode hbusy hframe, hs.cs, hs.id, receivedHeader_sent h hwf]

/-- Settles O41: the completion move keeps the fields and words a frame is built from (`unpackCs_csAfter`,
`buildFrame_packed`), so the `RECEIVE` that follows is `run_receive`. -/
theorem transmitReceiveRoundTrip : Obligations.TransmitReceiveRoundTrip := by
  intro s i h f ops alt rest hinv hq hc hmode hle hwf harmed hh hscript
  have ⟨hcs, _⟩ := hh
  obtain ⟨hi, i, rfl⟩ := hinv.structural.inUse hle
  have hcomplete := step_completes hscript (mbLive_of_inv hinv hmode hle) hwf hcs harmed
  have hsent := sentIn_completed hinv.structural.mem i.isLt hh (sentValue (isRemote f) alt)
  obtain ⟨hscript', hq', hc', hmode', hmax, hparams⟩ := completed_engine i (sentValue (isRemote f) alt) s
  generalize s.completed i (sentValue (isRemote f) alt) = t at *
  have hissue := step_host (hscript'.trans (congrArg List.tail hscript)) (hq'.trans hq) (hc'.trans hc)
  have hreceive := run_receive_sent (rest := rest) (n := t.tick + 1) (t := { t with cmd := some _, ops := ops })
    ⟨hsent.cs, hsent.id, hsent.d0, hsent.d1, hsent.flag⟩ hwf (isBusy_sentValue _ _) (decodeWord_receive i) rfl
    (hmode'.trans hmode) (hmax ▸ hle) (hparams ▸ hi)
  have hrun := (runSteps_succ 12 hcomplete).trans ((runSteps_succ 11 hissue).trans hreceive)
  exact ⟨_, _, hrun, rfl, sentValue_cases (isRemote f) alt, rfl, rfl, (flag_received ..).trans (if_pos rfl), rfl⟩

end Sys2Proof.Machine
end

section
/-! SUPPORT. `ABORT` (45_abort.md R200, R201): its labels and their runs with the controller silent, the controller's answer
before its first read of the flag, and the hang. -/

namespace Sys2Proof.Machine

/-! ## The labels of `ABORT` (R200) -/

section Labels

variable {s : State} {i : Fin 32} {n m : Nat}

/-- S1 reads the control word and tests the code it shows. -/
theorem exec_abort_s1_value (ht : s.turn = .engine) (hi : i.val < s.params.numMb) (hq : s.seq = .run (.abort .s1) i n)
    {c : MessageBufferCode} (hc : codeValue (s.mbCode i) = some c) :
    exec (.abort m) s = abortTestOn i c (s.csKept i) := by
  rw [exec_abort_s1 ht hi hq, ← codeBits_of_codeValue hc]
  exact exec_row_abortTest ((csKept_turn i s).trans ht) hq c

theorem exec_abort_s2 (hq : s.seq = .run (.abort .s2) i n) :
    exec (.abort m) s = .next ((s.afterWrite .iflag (flagMask i)).goto (.abort .s3) i) := by
  rw [exec_abort_run hq]
  rfl

theorem exec_abort_s3 (hq : s.seq = .run (.abort .s3) i n) (hi : i.val < s.params.numMb) :
    exec (.abort m) s =
      .next ((s.afterWrite (.mb i .cs) (withCode s.work.c 0b1001#4)).goto (.abort .s4) i) := by
  rw [exec_abort_run hq, abortStep, writeReg_of_has (has_mb_of_lt hi _)]
  rfl

theorem exec_abort_s4_set (hq : s.seq = .run (.abort .s4) i n) (hf : s.flag i = true) :
    exec (.abort m) s = .next ((s.afterRead .iflag).close (.ok (.optionalFrame none)) .idle) := by
  rw [exec_abort_run hq]
  exact waitUntil_ready rfl hf

theorem exec_abort_s4_clear (hq : s.seq = .run (.abort .s4) i n) (hf : s.flag i = false)
    (hw : s.params.waitLimit = none) :
    exec (.abort m) s = .next ((s.afterRead .iflag).stay (.abort .s4) i (n + 1)) := by
  have hb : (s.peek .iflag).getLsbD i.val ≠ true := fun h => Bool.false_ne_true (hf.symm.trans h)
  have hlimit : exceeds (s.afterRead .iflag).params.waitLimit (n + 1) = false := by
    rw [State.afterRead_params, hw]
    rfl
  rw [exec_abort_run hq]
  exact (waitUntil_again rfl hb).trans (waitAgain_stay hlimit)

end Labels

/-! ## Runs of `ABORT` -/

theorem runSteps_then {a b : Nat} {s t : State} {o : Out} (h1 : runSteps a s = .next t) (h2 : runSteps b t = o) :
    runSteps (a + b) s = o := by
  rw [runSteps_add, h1]
  exact h2

/-- An idle engine keeps nothing. -/
theorem State.Structural.work_of_idle {s : State} (hs : s.Structural) (hq : s.seq = .idle) : s.work = Work.empty := by
  have hseq := hs.seq
  simpa only [State.seqOk, hq] using hseq

/-- S2 and S3 in mailbox `i`: its flag cleared, `Transmit{Abort}` written over the control word read at S1. -/
def State.abortWritten (i : Nat) (s : State) : State :=
  (s.afterWrite .iflag (flagMask i)).afterWrite (.mb i .cs) (withCode s.work.c 0b1001#4)

section Run

variable {s : State} {w : Word} {i : Fin 32} {rest : List Turn}
  (hd : decodeWord w = .ok (.abort i.val)) (hc : s.cmd = some w)

include hd hc

/-- Acceptance and S0 of a mailbox in use. -/
theorem run_abort_admitted (hk : s.work = Work.empty) (hq : s.seq = .idle) (hmode : s.mode = .running)
    (hle : i.val ≤ s.maxMailbox.toNat) (hscript : s.script = .engine :: .engine :: rest) :
    ∃ n, runSteps 2 s = .next (s.turnedTo (.run (.abort .s1) i 0) rest n) := by
  obtain ⟨u, hrun, hu⟩ := abort_begins hscript hq hc hd hmode hle
  rw [← hk] at hu
  exact ⟨u.tick, hrun.trans (congrArg _ hu)⟩

/-- Acceptance, S0, and S1 on an armed mailbox. -/
theorem run_abort_armed (hk : s.work = Work.empty) (hq : s.seq = .idle) (hmode : s.mode = .running)
    (hle : i.val ≤ s.maxMailbox.toNat) (hi : i.val < s.params.numMb) (harmed : s.mbCode i = 0b1100#4)
    (hscript : s.script = .engine :: .engine :: .engine :: rest) :
    ∃ n, runSteps 3 s = .next ((s.csKept i).turnedTo (.run (.abort .s2) i 0) rest n) := by
  obtain ⟨n, hrun⟩ := run_abort_admitted hd hc hk hq hmode hle hscript
  have hx := exec_abort_s1_value (s := s.turnedTo (.run (.abort .s1) i 0) (.engine :: rest) n) (m := i.val) rfl
    hi rfl (congrArg codeValue harmed)
  exact ⟨n + 1, runSteps_then hrun (runSteps_succ 0 (engine_step (s := s.turnedTo ..) rfl hc hd hx))⟩

theorem step_abort_s2 (n : Nat) :
    step (s.turnedTo (.run (.abort .s2) i 0) (.engine :: rest) n) =
      .next ((s.afterWrite .iflag (flagMask i)).turnedTo (.run (.abort .s3) i 0) rest (n + 1)) := by
  have hx := exec_abort_s2 (s := s.turnedTo (.run (.abort .s2) i 0) (.engine :: rest) n) (m := i.val) rfl
  rw [afterWrite_turnedTo] at hx
  exact engine_step (s := s.turnedTo ..) rfl hc hd hx

theorem step_abort_s3 (hi : i.val < s.params.numMb) (n : Nat) :
    step (s.turnedTo (.run (.abort .s3) i 0) (.engine :: rest) n) =
      .next ((s.afterWrite (.mb i .cs) (withCode s.work.c 0b1001#4)).turnedTo (.run (.abort .s4) i 0) rest (n + 1)) := by
  have hx := exec_abort_s3 (s := s.turnedTo (.run (.abort .s3) i 0) (.engine :: rest) n) (m := i.val) rfl hi
  rw [afterWrite_turnedTo] at hx
  exact engine_step (s := s.turnedTo ..) rfl hc hd hx

/-- S2 and S3. -/
theorem run_abort_writes (hi : i.val < s.params.numMb) (n : Nat) :
    runSteps 2 (s.turnedTo (.run (.abort .s2) i 0) (.engine :: .engine :: rest) n) =
      .next ((s.abortWritten i).turnedTo (.run (.abort .s4) i 0) rest (n + 2)) := by
  have hs3 := step_abort_s3 (s := s.afterWrite .iflag (flagMask i)) (rest := rest) hd hc hi (n + 1)
  rw [runSteps_succ 1 (step_abort_s2 hd hc n), runSteps_succ 0 hs3]
  rfl

end Run

/-! ## What S2 and S3 leave -/

section Written

variable {s : State} {i : Nat}

theorem mbWord_abortWritten (hm : Memory.wf s.mem = true) (hl : s.lpmack = false) (j : Nat) (u : MbWord) :
    (s.abortWritten i).mbWord j u =
      if j = i ∧ u = .cs then withCode s.work.c 0b1001#4 else s.mbWord j u := by
  rw [State.abortWritten, mbWord_afterWrite_mb (wf_afterWrite hm _ _) (by simpa using hl),
    State.afterWrite_iflag_mbWord]

theorem mbCode_abortWritten (hm : Memory.wf s.mem = true) (hl : s.lpmack = false) :
    (s.abortWritten i).mbCode i = 0b1001#4 := by
  rw [State.mbCode, mbWord_abortWritten hm hl, if_pos ⟨rfl, rfl⟩, codeOf_withCode]

theorem wf_abortWritten (hm : Memory.wf s.mem = true) : Memory.wf (s.abortWritten i).mem = true :=
  wf_afterWrite (wf_afterWrite hm _ _) _ _

theorem flag_abortWritten (hi : i < 32) (j : Nat) : (s.abortWritten i).flag j = (s.flag j && !decide (j = i)) := by
  rw [State.abortWritten, State.afterWrite_mb_flag, flag_clear hi]

/-- An abort is requested only when the mailbox is still armed (10_state.md R43). -/
theorem mem_abortReq_abortWritten (hl : s.lpmack = false) :
    i ∈ (s.abortWritten i).abortReq ↔ s.mbCode i = 0b1100#4 ∨ i ∈ s.abortReq := by
  have harmed : codeValue (s.mbCode i) = some (.transmit .dataOrRemotePending) ↔ s.mbCode i = 0b1100#4 :=
    codeValue_eq_some _ _
  have hwritten : codeValue (codeOf (withCode s.work.c 0b1001#4)) = some (.transmit .abort) := by
    rw [codeOf_withCode]
    rfl
  simp only [State.abortWritten, State.afterWrite_abortReq, State.poke, State.pokeMb, State.afterWrite_iflag_lpmack, hl,
    Bool.false_eq_true, if_false, State.setMbWord_abortReq, State.noteCsWrite, hwritten, true_and,
    State.afterWrite_iflag_mbCode, harmed]
  split <;> simp [*, mem_insertIndex]

theorem sameControl_abortWritten : sameControl s (s.abortWritten i) := by
  simp [sameControl, State.abortWritten]

theorem mbLive_abortWritten (j : Nat) : (s.abortWritten i).mbLive j = s.mbLive j := by
  simp [State.mbLive, State.abortWritten]

theorem abortWritten_params : (s.abortWritten i).params = s.params := by
  simp [State.abortWritten]

theorem abortWritten_timer : (s.abortWritten i).timer = s.timer := by
  simp [State.abortWritten]

theorem abortWritten_cmd : (s.abortWritten i).cmd = s.cmd := by
  simp [State.abortWritten]

end Written

/-! ## `ABORT` on a mailbox that is not armed (R201 (e)) -/

/-- Settles O42: acceptance, S0, and S1, whose test of any code but the armed one ends the operation. -/
theorem abortNotArmed : Obligations.AbortNotArmed := by
  intro s w i hinv hq hc hd hmode hle harmed h1101 h1111
  obtain ⟨hi, i, rfl⟩ := hinv.structural.inUse hle
  obtain ⟨c, hcode⟩ : ∃ c, codeValue (s.mbCode i) = some c :=
    Option.ne_none_iff_exists'.1 fun h => ((codeValue_eq_none _).1 h).elim h1101 h1111
  have hother : c ≠ .transmit .dataOrRemotePending := by
    rintro rfl
    exact harmed ((codeValue_eq_some _ _).1 hcode)
  obtain ⟨n, hadmit⟩ := run_abort_admitted (s := s.alone 3) (rest := .engine :: s.script) hd hc
    (hinv.structural.work_of_idle hq) hq hmode hle rfl
  have hx := exec_abort_s1_value (s := (s.alone 3).turnedTo (.run (.abort .s1) i 0) (.engine :: s.script) n) (m := i.val)
    rfl hi rfl hcode
  rw [abortTestOn, if_neg hother] at hx
  have hrun := runSteps_then hadmit (runSteps_succ 0 (engine_step (s := (s.alone 3).turnedTo ..) rfl hc hd hx))
  exact ⟨_, hrun, rfl, rfl, rfl, ⟨⟨rfl, rfl, rfl, rfl⟩, rfl, fun _ => rfl⟩, ⟨rfl, rfl, rfl⟩, rfl, rfl⟩

/-! ## `ABORT` on an armed mailbox (R201 (a), (f)) -/

theorem concludeMb_turnedTo (i : Nat) (v : BitVec 4) (b : Bool) (q : Seq) (rest : List Turn) (n : Nat) (s : State) :
    (s.turnedTo q rest n).concludeMb i v b = (s.concludeMb i v b).turnedTo q rest n := by
  cases b <;> rfl

/-- The controller's turn on a mailbox that exists and shows code `v`. -/
theorem mailbox_step {s u : State} {i : Nat} {m : MbMove} {rest : List Turn} {v : BitVec 4}
    (hscript : s.script = .mailbox i m :: rest) (hi : i < s.params.numMb) (hcode : s.mbCode i = v)
    (hx : exec (decodeCode v) s = .next u) : step s = .next u.endTurn := by
  rw [step_mailbox (turn_of_script hscript) hi, hcode, hx]
  rfl

/-- The controller's answer to a requested abort of mailbox `i` (20_memory.md R86). -/
def State.abortAnswered (i : Nat) (alt : Bool) (s : State) : State :=
  (s.concludeMb i (abortedCode alt) alt).dropAbort i

theorem step_txAbort {s : State} {i : Nat} {alt : Bool} (hl : s.mbLive i = true) (hcode : s.mbCode i = 0b1001#4)
    (hr : i ∈ s.abortReq) (q : Seq) (rest : List Turn) (n : Nat) :
    step (s.turnedTo q (.mailbox i (.act alt) :: rest) n) = .next ((s.abortAnswered i alt).turnedTo q rest (n + 1)) := by
  have hx := exec_txAbort_act (s := s.turnedTo q (.mailbox i (.act alt) :: rest) n) rfl hl hr
  rw [concludeMb_turnedTo] at hx
  exact mailbox_step (s := s.turnedTo ..) rfl (mbLive_lt hl) hcode hx

/-- The end of an `ABORT` of mailbox `i` whose flag was read set. -/
def State.abortEnded (i : Fin 32) (rest : List Turn) (n : Nat) (s : State) : State :=
  ((s.turnedTo (.run (.abort .s4) i 0) rest n).afterRead .iflag).close (.ok (.optionalFrame none)) .idle

theorem step_abort_s4_set {s : State} {w : Word} {i : Fin 32} (hd : decodeWord w = .ok (.abort i.val)) (hc : s.cmd = some w)
    (hf : s.flag i = true) (rest : List Turn) (n : Nat) :
    step (s.turnedTo (.run (.abort .s4) i 0) (.engine :: rest) n) = .next (s.abortEnded i rest (n + 1)) :=
  engine_step (s := s.turnedTo ..) rfl hc hd (exec_abort_s4_set rfl hf)

section Answered

variable {s : State} {i : Nat} {alt : Bool}

/-- What the mailbox file shows after S2, S3 and the controller's answer, where the control word kept is the mailbox's. -/
theorem mbWord_abortAnswered (hm : Memory.wf s.mem = true) (hl : s.lpmack = false) (hk : s.work.c = s.mbWord i .cs)
    (j : Nat) (u : MbWord) :
    ((s.abortWritten i).abortAnswered i alt).mbWord j u =
      if j = i ∧ u = .cs then csAfter (s.mbWord i .cs) s.timer (abortedCode alt) alt else s.mbWord j u := by
  rw [State.abortAnswered, State.dropAbort_mbWord, mbWord_concludeMb (wf_abortWritten hm)]
  split
  · rw [mbWord_abortWritten hm hl, if_pos ⟨rfl, rfl⟩, hk, abortWritten_timer]
    simp only [csAfter, withCode_withCode]
  · rw [mbWord_abortWritten hm hl, if_neg ‹_›]

theorem concluded_abortAnswered (hm : Memory.wf s.mem = true) (hi : i < 32) :
    Concluded i (abortedCode alt) alt s (s.abortAnswered i alt) :=
  (concluded_concludeMb hm hi (abortedCode alt) alt).dropAbort

theorem flag_abortAnswered (hm : Memory.wf s.mem = true) (hi : i < 32) (j : Nat) :
    ((s.abortWritten i).abortAnswered i alt).flag j = (s.flag j || decide (j = i)) := by
  rw [(concluded_abortAnswered (wf_abortWritten hm) hi).flags, flag_abortWritten hi]
  by_cases hj : j = i <;> simp [hj]

theorem cmd_abortAnswered (s : State) (i : Nat) (alt : Bool) : ((s.abortWritten i).abortAnswered i alt).cmd = s.cmd := by
  obtain ⟨mem, h⟩ := concludeMb_eq i (abortedCode alt) alt (s.abortWritten i)
  rw [State.abortAnswered, h]
  exact abortWritten_cmd

theorem sameControl_abortAnswered (hm : Memory.wf s.mem = true) (hi : i < 32) :
    sameControl s ((s.abortWritten i).abortAnswered i alt) := by
  obtain ⟨hctl, -⟩ := (concluded_abortAnswered (alt := alt) (wf_abortWritten hm) hi).only.frame
  exact sameControl_trans sameControl_abortWritten hctl

end Answered

section Run

variable {s : State} {w : Word} {i : Fin 32} {rest : List Turn} (hinv : s.Inv) (hq : s.seq = .idle) (hc : s.cmd = some w)
  (hd : decodeWord w = .ok (.abort i.val)) (hmode : s.mode = .running) (hle : i.val ≤ s.maxMailbox.toNat)
  (harmed : s.mbCode i = 0b1100#4)

include hinv hq hc hd hmode hle harmed

/-- `ABORT` on an armed mailbox up to its wait for the flag. -/
theorem run_abort_waiting (hscript : s.script = List.replicate 5 .engine ++ rest) :
    ∃ n, runSteps 5 s = .next (((s.csKept i).abortWritten i).turnedTo (.run (.abort .s4) i 0) rest n) := by
  obtain ⟨hi, -⟩ := hinv.structural.inUse hle
  obtain ⟨n, hread⟩ := run_abort_armed hd hc (hinv.structural.work_of_idle hq) hq hmode hle hi harmed hscript
  exact ⟨n + 2, runSteps_then hread (run_abort_writes (s := s.csKept i) hd hc hi n)⟩

/-- The same with the controller's answer and the read of the flag after it. -/
theorem run_abort_ended {alt : Bool}
    (hscript : s.script = List.replicate 5 .engine ++ .mailbox i (.act alt) :: .engine :: rest) :
    ∃ n, runSteps 7 s = .next ((((s.csKept i).abortWritten i).abortAnswered i alt).abortEnded i rest n) := by
  have hm := hinv.structural.mem
  have hl := awake_of_phase hinv.phase hmode
  obtain ⟨n, hwait⟩ := run_abort_waiting hinv hq hc hd hmode hle harmed hscript
  have hlive := (mbLive_abortWritten (s := s.csKept i) (i := i) i).trans (mbLive_of_inv hinv hmode hle)
  have hanswer := step_txAbort (alt := alt) hlive (mbCode_abortWritten (s := s.csKept i) hm hl)
    ((mem_abortReq_abortWritten (s := s.csKept i) hl).2 (.inl harmed)) (.run (.abort .s4) i 0) (.engine :: rest) n
  have hflag : (((s.csKept i).abortWritten i).abortAnswered i alt).flag i = true := by
    simp [flag_abortAnswered (s := s.csKept i) hm i.isLt]
  have hend := step_abort_s4_set hd ((cmd_abortAnswered (s.csKept i) i alt).trans hc) hflag rest (n + 1)
  exact ⟨n + 2, runSteps_then hwait ((runSteps_succ 1 hanswer).trans (runSteps_succ 0 hend))⟩

end Run

/-- What an `ABORT` of mailbox `i`, armed in `s` and answered by the controller, leaves in `t`. -/
structure Aborted (i : Nat) (alt : Bool) (s t : State) : Prop where
  result : t.result = .ok (.optionalFrame none)
  seq : t.seq = .idle
  cmd : t.cmd = none
  word : ∀ j u, t.mbWord j u =
    if j = i ∧ u = .cs then csAfter (s.mbWord i .cs) s.timer (abortedCode alt) alt else s.mbWord j u
  flags : ∀ j, t.flag j = (s.flag j || decide (j = i))
  request : i ∉ t.abortReq
  control : sameControl s t

theorem aborted_abortEnded {s : State} {i : Fin 32} (hm : Memory.wf s.mem = true) (hl : s.lpmack = false) (alt : Bool)
    (rest : List Turn) (n : Nat) :
    Aborted i alt s ((((s.csKept i).abortWritten i).abortAnswered i alt).abortEnded i rest n) where
  result := rfl
  seq := rfl
  cmd := rfl
  word := mbWord_abortAnswered (s := s.csKept i) hm hl rfl
  flags := flag_abortAnswered (s := s.csKept i) hm i.isLt
  request := not_mem_removeIndex _ _
  control := sameControl_abortAnswered (s := s.csKept i) hm i.isLt

/-- Settles O43: S2 and S3 leave the abort requested (`mem_abortReq_abortWritten`), so the controller answers it and sets the
flag (`flag_abortAnswered`), which the read of S4 sees. -/
theorem abortOnArmed : Obligations.AbortOnArmed := by
  refine ⟨fun s i n m hq hf => exec_abort_s4_set hq hf, fun s w i alt rest hinv hq hc hd hmode hle harmed hscript =>
    ⟨?waiting, ?ended⟩⟩
  case waiting =>
    have hm : Memory.wf (s.csKept i).mem = true := hinv.structural.mem
    have hl : (s.csKept i).lpmack = false := awake_of_phase (s := s) hinv.phase hmode
    obtain ⟨n, hrun⟩ := run_abort_waiting hinv hq hc hd hmode hle harmed hscript
    refine ⟨_, hrun, rfl, ?_, (mem_abortReq_abortWritten hl).2 (.inl harmed),
      (mbWord_abortWritten hm hl i .cs).trans (if_pos ⟨rfl, rfl⟩)⟩
    exact (flag_abortWritten i.isLt i).trans (by simp)
  case ended =>
    obtain ⟨n, hrun⟩ := run_abort_ended hinv hq hc hd hmode hle harmed hscript
    obtain ⟨hresult, hseq, hcmd, hword, hflag, hreq, hctl⟩ :=
      aborted_abortEnded (i := i) hinv.structural.mem (awake_of_phase hinv.phase hmode) alt rest n
    have hcs := (hword i .cs).trans (if_pos ⟨rfl, rfl⟩)
    obtain ⟨hstamp, hlow, hhigh⟩ := extract_csAfter (s.mbWord i .cs) s.timer (abortedCode alt) alt
    rw [← hcs] at hstamp hlow hhigh
    refine ⟨_, hrun, hresult, hseq, hcmd, by simp [hflag], hreq, ?code, hstamp, hlow, hhigh, by simp [hword],
      by simp [hword], by simp [hword], fun j u hj => by simp [hword, hj], fun j hj => by simp [hflag, hj], hctl⟩
    rw [State.mbCode, hcs, codeOf_csAfter, abortedCode_eq]

/-! ## The hang (R201 (b), 70_reset_and_hazards.md R268) -/

/-- `ABORT` at S4 of mailbox `i`, in a state with the invariant: the command served, and the mailbox in use in `Running`. -/
theorem State.Structural.abortServed {s : State} (hs : s.Structural) {i : Fin 32} {n : Nat}
    (hq : s.seq = .run (.abort .s4) i n) :
    fetchCommand s = .instr (.abort i.val) ∧ s.mode = .running ∧ i.val ≤ s.maxMailbox.toNat := by
  have hseq := hs.seq
  simp only [State.seqOk, hq] at hseq
  obtain ⟨m, hfetch, -, hrun⟩ := hseq
  obtain ⟨rfl, hmode, hle⟩ := hrun (by decide)
  exact ⟨hfetch, hmode, hle⟩

/-- What the hang rests on, kept by a move that touches neither mailbox `i` nor its flag and requests no abort of it. -/
theorem State.abortHang.congr {s u : State} {i : Fin 32} (h : s.abortHang i) (hq : u.seq = s.seq)
    (hf : u.flag i = s.flag i) (hw : u.mbWord i .cs = s.mbWord i .cs) (hr : i.val ∈ u.abortReq → i.val ∈ s.abortReq)
    (hp : u.params = s.params) : u.abortHang i := by
  obtain ⟨⟨n, hseq⟩, hflag, hcode, hreq, hlimit⟩ := h
  exact ⟨⟨n, hq.trans hseq⟩, hf.trans hflag, (congrArg codeOf hw).trans hcode, fun h => hreq (hr h),
    (congrArg Params.waitLimit hp).trans hlimit⟩

/-- The engine reads the flag clear and waits on. -/
theorem abortHang_engine {s u : State} {i : Fin 32} {m : Nat} (h : s.abortHang i) (hx : exec (.abort m) s = .next u) :
    u.abortHang i := by
  obtain ⟨⟨n, hq⟩, hflag, hcode, hreq, hlimit⟩ := h
  cases (exec_abort_s4_clear hq hflag hlimit).symm.trans hx
  exact ⟨⟨n + 1, rfl⟩, hflag, hcode, hreq, hlimit⟩

/-- The controller may not change mailbox `i`: `Transmit{Abort}` without a request (20_memory.md R89). -/
theorem abortHang_mailboxMove {s u : State} {i : Fin 32} {j : Nat} (h : s.abortHang i) (hm : MailboxMove j s u) :
    u.abortHang i := by
  have ⟨_, _, hcode, hreq, _⟩ := h
  have hij : i.val ≠ j := by
    rintro rfl
    exact hreq (hm.requested hcode)
  obtain ⟨mem, fl, ar, rb, hu⟩ := hm.only
  refine h.congr (by rw [hu]; rfl) (hm.flags i hij) (hm.words i .cs hij) (fun hi => ?_) (by rw [hu]; rfl)
  rcases hm.abortReq with e | e <;> rw [e] at hi
  · exact hi
  · exact ((mem_removeIndex _ _ _).1 hi).1

/-- No turn of any agent ends the hang. -/
theorem abortHang_moves {s u : State} {i : Fin 32} (hinv : s.Inv) (h : s.abortHang i) (hm : Moves s u) : u.abortHang i := by
  have ⟨⟨n, hq⟩, _⟩ := h
  obtain ⟨hfetch, hmode, hle⟩ := hinv.structural.abortServed hq
  obtain ⟨⟨⟨-, hsoft, hlp⟩, hfrz, hhalt⟩, -⟩ := hinv.phase.running hmode
  cases hm with
  | command w j u ht hc hd hx =>
    simp only [fetchCommand, hc, hd, Fetched.instr.injEq] at hfetch
    subst hfetch
    exact abortHang_engine h hx
  | illegal w e ht hc hd => simp [fetchCommand, hc, hd] at hfetch
  | quiet ht hc => exact h
  | mailbox j m u ht hj hx =>
    obtain ⟨v, hv, hmove⟩ := exec_mailbox_turn hinv.structural.mem (numMb_le hinv.structural) ht
    cases hv.symm.trans hx
    rcases hmove with rfl | hmove
    · exact h
    · exact abortHang_mailboxMove h hmove
  | noMailbox j m ht hj => exact h
  | host w ops ht => rwa [issue_run hq]
  | lowPower ht => exact h.congr rfl rfl rfl id rfl
  | softReset g b r f tm ht => rwa [softReset_self (.inl hsoft)]
  | freeze d ht =>
    rcases ackFreeze_specified hlp (hfrz.trans hhalt.symm) d with e | ⟨b, e⟩ <;> rw [e]
    · exact h
    · exact h.congr rfl rfl rfl id rfl
  | timer v ht => exact h.congr rfl rfl rfl id rfl
  | floating v ht => exact h.congr rfl (flag_floatFlags v (hinv.structural.inUse hle).1) rfl id rfl

/-- The transmission of mailbox `i` completed, its code inactive (R83). -/
def State.frameSent (i : Nat) (s : State) : State := (s.concludeMb i 0b1000#4 true).dropAbort i

/-- The controller completes the transmission of an armed mailbox in use. -/
theorem step_txPending {s : State} {i : Nat} (hl : s.mbLive i = true) (hcode : s.mbCode i = 0b1100#4) (q : Seq)
    (rest : List Turn) (n : Nat) :
    step (s.turnedTo q (.mailbox i (.act false) :: rest) n) =
      .next ((s.frameSent i).turnedTo q rest (n + 1)) := by
  have hx := exec_txPending_act (s := s.turnedTo q (.mailbox i (.act false) :: rest) n) rfl hl
  rw [concludeMb_turnedTo, sentCode_eq, Bool.and_false, if_neg Bool.false_ne_true] at hx
  exact mailbox_step (s := s.turnedTo ..) rfl (mbLive_lt hl) hcode hx

theorem wf_frameSent {s : State} (hm : Memory.wf s.mem = true) (i : Nat) : Memory.wf (s.frameSent i).mem = true :=
  wf_stampIfSent (wf_setMbCode hm i _) i true

theorem concluded_frameSent {s : State} (hm : Memory.wf s.mem = true) {i : Nat} (hi : i < 32) :
    Concluded i 0b1000#4 true s (s.frameSent i) :=
  (concluded_concludeMb hm hi _ _).dropAbort

/-- S2 and S3 on a mailbox no longer armed leave the flag clear and request nothing. -/
theorem abortHang_abortWritten {s : State} {i : Fin 32} (hm : Memory.wf s.mem = true) (hl : s.lpmack = false)
    (hcode : s.mbCode i ≠ 0b1100#4) (hreq : i.val ∉ s.abortReq) (hlimit : s.params.waitLimit = none) (rest : List Turn)
    (n : Nat) : ((s.abortWritten i).turnedTo (.run (.abort .s4) i 0) rest n).abortHang i := by
  refine ⟨⟨0, rfl⟩, ?_, mbCode_abortWritten hm hl, fun h => ?_, ?_⟩
  · exact (flag_abortWritten i.isLt i).trans (by simp)
  · exact ((mem_abortReq_abortWritten hl).1 h).elim hcode hreq
  · exact (congrArg Params.waitLimit abortWritten_params).trans hlimit

/-- Settles O44: the transmission completed after S1 leaves the mailbox unarmed, so S2 and S3 lead into the hang
(`abortHang_abortWritten`), which every move keeps (`abortHang_moves`). -/
theorem abortHangs : Obligations.AbortHangs := by
  refine ⟨?race, ?hang⟩
  case race =>
    intro s w i rest hinv hq hc hd hmode hle harmed hlimit hscript
    obtain ⟨hi, -⟩ := hinv.structural.inUse hle
    obtain ⟨n, hread⟩ := run_abort_armed hd hc (hinv.structural.work_of_idle hq) hq hmode hle hi harmed hscript
    have hsent := step_txPending (s := s.csKept i) (mbLive_of_inv hinv hmode hle) harmed (.run (.abort .s2) i 0)
      (.engine :: .engine :: rest) n
    have hm : Memory.wf (s.csKept i).mem = true := hinv.structural.mem
    have hconc := concluded_frameSent hm i.isLt
    obtain ⟨mem, fl, ar, rb, honly⟩ := hconc.only
    have hwrites := run_abort_writes (s := (s.csKept i).frameSent i) (rest := rest) hd
      ((congrArg State.cmd honly).trans hc) (by rw [honly]; exact hi) (n + 1)
    refine ⟨_, runSteps_then hread ((runSteps_succ 2 hsent).trans hwrites), ?_⟩
    refine abortHang_abortWritten (wf_frameSent hm i) ?_ ?_ (not_mem_removeIndex _ _) ?_ _ _
    · rw [honly]
      exact awake_of_phase (s := s) hinv.phase hmode
    · rw [hconc.code]
      decide
    · rw [honly]
      exact hlimit
  case hang =>
    intro s t i hinv h hstep
    obtain ⟨u, hm, rfl⟩ := step_next hstep
    exact (abortHang_moves hinv h hm).congr rfl rfl rfl id rfl

end Sys2Proof.Machine
end

section
/-! SUPPORT. What one turn can be, by the agent that takes it: the whole invariant and the mode along every step, the faulted
engine, the host's command (60_exceptions.md R223, R224, R230, R231, R239), and the ends of a command that are refusals or
failures (R216, R224, R225). -/

namespace Sys2Proof.Machine

/-! ## The engine's turn, and every other -/

/-- A word that is no command is refused. -/
theorem rejectWord_eq_refuse (s : State) : ∃ r, s.rejectWord = s.refuse r := by
  cases hq : s.seq <;> simp only [State.rejectWord, hq] <;> exact ⟨_, rfl⟩

/-- The engine serves a command, refuses the word on the port, or has none. -/
inductive EngineTurn (s : State) : State → Prop where
  | command (w : Word) (i : Instr) (u : State) (hc : s.cmd = some w) (hd : decodeWord w = .ok i)
      (hx : exec i s = .next u) : EngineTurn s u
  | refused (r : Refused) : EngineTurn s (s.refuse r)
  | quiet : EngineTurn s s

theorem Moves.engineTurn {s u : State} (hm : Moves s u) (ht : s.turn = .engine) : EngineTurn s u := by
  cases hm with
  | command w i u _ hc hd hx => exact .command w i u hc hd hx
  | illegal w e _ hc hd =>
    obtain ⟨r, hr⟩ := rejectWord_eq_refuse s
    exact hr ▸ .refused r
  | quiet _ hc => exact .quiet
  | mailbox i m u h => cases ht.symm.trans h
  | noMailbox i m h => cases ht.symm.trans h
  | host w ops h => cases ht.symm.trans h
  | lowPower h => cases ht.symm.trans h
  | softReset g b r f tm h => cases ht.symm.trans h
  | freeze d h => cases ht.symm.trans h
  | timer v h => cases ht.symm.trans h
  | floating v h => cases ht.symm.trans h

/-- What a turn of the host or of the controller never changes; the ports while an operation runs (30_encoding.md R91). -/
def State.keepsEngine (s u : State) : Prop :=
  u.seq = s.seq ∧ u.refusalMark = s.refusalMark ∧ ((∃ p i n, s.seq = .run p i n) → u.ops = s.ops ∧ u.cmd = s.cmd)

theorem keepsEngine_issue (w : Word) (ops : OperandPort) (s : State) : s.keepsEngine (s.issue w ops) := by
  refine ⟨?_, ?_, fun ⟨p, i, n, hq⟩ => by rw [issue_run hq]; exact ⟨rfl, rfl⟩⟩ <;>
    (simp only [State.issue]; split <;> rfl)

theorem Moves.keepsEngine {s u : State} (hm : Moves s u) (ht : s.turn ≠ .engine) : s.keepsEngine u := by
  have hself : s.keepsEngine s := ⟨rfl, rfl, fun _ => ⟨rfl, rfl⟩⟩
  cases hm with
  | command w i u h hc hd hx => exact absurd h ht
  | illegal w e h hc hd => exact absurd h ht
  | quiet h hc => exact absurd h ht
  | mailbox i m u h hi hx =>
    obtain ⟨_, _, _, _, rfl⟩ := only_mailbox h hx
    exact hself
  | noMailbox i m h hi => exact hself
  | host w ops h => exact keepsEngine_issue w ops s
  | softReset g b r f tm h =>
    simp only [State.softReset]
    split <;> exact hself
  | freeze d h =>
    obtain ⟨_, _, _, _, hfrz⟩ := ackFreeze_only d s
    rw [hfrz]
    exact hself
  | lowPower h => exact hself
  | timer v h => exact hself
  | floating v h => exact hself

/-! ## The invariant -/

/-- A refusal ends whatever ran. -/
theorem afterRefusal_ended (q : Seq) : afterRefusal q = .idle ∨ afterRefusal q = .faulted := by
  cases q <;> simp

theorem protocol_moves {s u : State} (h : s.Inv) (hm : Moves s u) : u.ProtocolOk := by
  obtain ⟨hs, hph, hp⟩ := h
  by_cases ht : s.turn = .engine
  · cases hm.engineTurn ht with
    | command w i u hc hd hx => exact protocol_command hs hph hp hc hd hx
    | refused r => exact protocol_ended (hidden_refuse r hp.hidden) (afterRefusal_ended s.seq)
    | quiet => exact hp
  · exact protocol_env_moves hs hph hp hm ht

theorem inv_moves {s u : State} (h : s.Inv) (hm : Moves s u) : u.Inv :=
  ⟨structural_moves h.structural hm, phase_moves h.structural h.phase hm, protocol_moves h hm⟩

/-- The end of the turn changes the script and the turn count, which no layer looks at. -/
theorem inv_endTurn {s : State} (h : s.Inv) : s.endTurn.Inv where
  structural := structural_endTurn h.structural
  phase := phase_congr (s := s) rfl rfl rfl rfl rfl rfl rfl h.phase
  protocol :=
    protocol_env h.structural h.protocol rfl rfl rfl rfl rfl rfl rfl rfl rfl rfl rfl fun _ _ => rfl

/-- Settles O56: each layer is kept by every move, and by the end of the turn. -/
theorem invariantKept : Obligations.InvariantKept := by
  intro s t h hstep
  obtain ⟨u, hm, rfl⟩ := step_next hstep
  exact inv_endTurn (inv_moves h hm)

/-! ## The mode (R231) -/

/-- Past V0 an `INIT` does not run in `Running` (R232). -/
theorem State.Structural.mode_init {s : State} (hs : s.Structural) {l : InitStep} {i : Fin 32} {n : Nat}
    (hq : s.seq = .run (.init l) i n) (hl : l ≠ .v0) : s.mode ≠ .running := by
  have hseq := hs.seq
  simp only [State.seqOk, hq] at hseq
  obtain ⟨-, -, hkept⟩ := hseq
  exact (hkept hl).1

/-- Settles O30: a change of mode is one of the phase ends of `INIT`, which `Running` shuts out. -/
theorem modeTransitions : Obligations.ModeTransitions := by
  refine ⟨fun s t hstep => ?ends, fun s t hs hmode hstep => ?running⟩ <;> obtain ⟨u, hm, rfl⟩ := step_next hstep
  case ends => exact (mode_moves hm :)
  case running =>
    rcases mode_moves hm with h | ⟨-, -, i, n, ⟨hq, -⟩ | ⟨hq, -⟩ | ⟨hq, -⟩ | ⟨-, h⟩⟩
    · exact h.trans hmode
    · exact absurd hmode (hs.mode_init hq (by decide))
    · exact absurd hmode (hs.mode_init hq (by decide))
    · exact absurd hmode (hs.mode_init hq (by decide))
    · exact h

/-! ## `Faulted` (R223, R224) -/

/-- A faulted engine refuses every word. -/
theorem step_faulted {s : State} {w : Word} (hq : s.seq = .faulted) (ht : s.turn = .engine) (hc : s.cmd = some w) :
    step s = .next (s.refuse .engineFaulted).endTurn := by
  cases hd : decodeWord w with
  | ok i =>
    obtain ⟨op, ho⟩ := commandOp_of_decode hd
    rw [step_command ht hc hd, exec_faulted ho hq]
    rfl
  | error e => simp only [step_illegal ht hc hd, State.rejectWord, hq]

theorem seq_moves_faulted {s u : State} (hq : s.seq = .faulted) (hm : Moves s u) : u.seq = .faulted := by
  by_cases ht : s.turn = .engine
  · cases hm.engineTurn ht with
    | command w i u hc hd hx =>
      obtain ⟨op, ho⟩ := commandOp_of_decode hd
      obtain rfl : s.refuse .engineFaulted = u := Host.Outcome.next.inj ((exec_faulted ho hq).symm.trans hx)
      exact congrArg afterRefusal hq
    | refused r => exact congrArg afterRefusal hq
    | quiet => exact hq
  · exact (hm.keepsEngine ht).1.trans hq

/-- Settles O6: the engine's own turn refuses the word, and no other agent moves the sequencer. -/
theorem faultedIsFinal : Obligations.FaultedIsFinal := by
  refine fun s hq => ⟨fun t hstep => ?_, fun w ht hc => ⟨_, step_faulted hq ht hc, ?_⟩⟩
  · obtain ⟨u, hm, rfl⟩ := step_next hstep
    exact (seq_moves_faulted hq hm :)
  · obtain ⟨hblock, hhidden, -, hhistory⟩ := untouched_refuse .engineFaulted s
    exact ⟨rfl, congrArg afterRefusal hq, rfl, rfl, rfl, rfl, rfl, hblock, hhidden, hhistory⟩

/-! ## The two input ports (R239, 30_encoding.md R91) -/

/-- The operands as they were, and the refusal mark not taken back (R216). -/
def State.keepsInputs (s t : State) : Prop := t.ops = s.ops ∧ (s.refusalMark = true → t.refusalMark = true)

theorem keepsInputs_closed (s : State) : InitClosed s.keepsInputs where
  read r t h := by simpa [State.keepsInputs] using h
  writeFlag v t h := by simpa [State.keepsInputs] using h
  writeMb i w v t h := by simpa [State.keepsInputs] using h
  writeGlobal r v t h := by simpa [State.keepsInputs] using h
  keep w t h := h
  goto p i t h := h
  stay p i n t h := h
  close r q t h := h
  refuse r t h := ⟨h.1, fun _ => rfl⟩
  setMode m t h := h
  engageLock i c t h := by simpa [State.keepsInputs] using h
  latch t h := h

theorem keepsInputs_exec {s t : State} {w : Word} {i : Instr} (hd : decodeWord w = .ok i) (hx : exec i s = .next t) :
    s.keepsInputs t :=
  (keepsInputs_closed s).command (decodeWord_command hd) ⟨rfl, id⟩ t hx

/-- A fatal result with the sequencer `Faulted`, or a recoverable one with it `Idle` (R224, R225). -/
def failsWith (r : Result) (q : Seq) : Prop := (∃ f, r = .fatal f ∧ q = .faulted) ∨ ∃ e, r = .err e ∧ q = .idle

theorem failsWith_ended {r : Result} {q : Seq} (h : failsWith r q) : q = .idle ∨ q = .faulted := by
  rcases h with ⟨_, _, rfl⟩ | ⟨_, _, rfl⟩ <;> simp

theorem failsWith_ne_refused {r : Result} {q : Seq} (h : failsWith r q) (c : Refused) : r ≠ .refused c := by
  rcases h with ⟨_, rfl, _⟩ | ⟨_, rfl, _⟩ <;> simp

/-- Served, a command leaves the engine `Idle` or `Faulted`; until then it stays on the port. -/
theorem cmd_of_ends {s t : State} (h : Ends s t) :
    t.cmd = s.cmd ∨ (t.cmd = none ∧ (t.seq = .idle ∨ t.seq = .faulted)) := by
  cases h with
  | goes h => exact .inl h
  | refused r h hq => subst h; exact .inr ⟨rfl, afterRefusal_ended s.seq⟩
  | ok v h hc hs => exact .inr ⟨hc, .inl hs⟩
  | failNow r q h hr => subst h; exact .inr ⟨rfl, failsWith_ended hr⟩
  | failRead rg w L r q hL ht h hr => subst h; exact .inr ⟨rfl, failsWith_ended hr⟩
  | failScan w r q h hr => subst h; exact .inr ⟨rfl, failsWith_ended hr⟩

theorem step_host_turn {s : State} {w : Word} {ops : OperandPort} (ht : s.turn = .host w ops) :
    step s = .next (s.issue w ops).endTurn := by
  rw [step_of_fetch_nothing (by simp only [fetch, ht]), State.environment, ht]

theorem step_accepts {s : State} {w : Word} {i : Instr} {op : Op} (ht : s.turn = .engine) (hq : s.seq = .idle)
    (hc : s.cmd = some w) (hd : decodeWord w = .ok i) (ho : commandOp i = some op) :
    step s = .next (s.goto op.start 0).endTurn := by
  rw [step_command ht hc hd, exec_idle ho hq]
  rfl

theorem ports_moves {s u : State} (hq : ∃ p i n, s.seq = .run p i n) (hm : Moves s u) :
    u.ops = s.ops ∧ (u.cmd = s.cmd ∨ (u.cmd = none ∧ (u.seq = .idle ∨ u.seq = .faulted))) := by
  by_cases ht : s.turn = .engine
  · cases hm.engineTurn ht with
    | command w i u hc hd hx => exact ⟨(keepsInputs_exec hd hx).1, cmd_of_ends (ends_all i hx)⟩
    | refused r => exact ⟨rfl, .inr ⟨rfl, afterRefusal_ended s.seq⟩⟩
    | quiet => exact ⟨rfl, .inl rfl⟩
  · obtain ⟨-, -, hports⟩ := hm.keepsEngine ht
    exact ⟨(hports hq).1, .inl (hports hq).2⟩

/-- Settles O7: the host's turn is `State.issue`, acceptance is `State.goto` the first label, and while an operation runs
only its end takes the command off the port. -/
theorem hostIssuesEngineAccepts : Obligations.HostIssuesEngineAccepts := by
  refine ⟨fun s w ops ht hq hc => ?issues, fun s w ops ht hbusy => ?waits, fun s w m ht hq hc row hrow hd => ?accepts,
    fun s t hq hstep => ?holds⟩
  case issues =>
    rw [step_host_turn ht]
    rcases hq with hq | hq <;> simp only [State.issue, hq, hc]
  case waits =>
    rw [step_host_turn ht]
    rcases hbusy with ⟨p, i, n, hq⟩ | hc
    · rw [issue_run hq]
    · obtain ⟨c, hc⟩ := Option.ne_none_iff_exists'.1 hc
      cases hq : s.seq <;> simp only [State.issue, hq, hc]
  case accepts =>
    obtain ⟨op, ho, hstart⟩ : ∃ op, commandOp row.1 = some op ∧ op.start = row.2 := by
      simp only [List.mem_cons, List.not_mem_nil, or_false] at hrow
      rcases hrow with rfl | rfl | rfl | rfl | rfl | rfl | rfl <;> exact ⟨_, rfl, rfl⟩
    rw [step_accepts ht hq hc hd ho, hstart]
    rfl
  case holds =>
    obtain ⟨u, hm, rfl⟩ := step_next hstep
    exact (ports_moves hq hm :)

/-! ## Refusals (R216) -/

/-- A command served with a refusal was refused where it stood. -/
theorem refuse_of_ends {s t : State} {w : Word} {r : Refused} (h : Ends s t) (hc : s.cmd = some w) (ht : t.cmd = none)
    (hr : t.result = .refused r) :
    t = s.refuse r ∧ (s.seq = .faulted ∨ ∃ p j n, s.seq = .run p j n ∧ p ∈ refusingLabels) := by
  cases h with
  | goes h => cases (h.trans hc).symm.trans ht
  | refused r' h hq => subst h; cases hr; exact ⟨rfl, hq⟩
  | ok v h _ _ => cases h.symm.trans hr
  | failNow r' q h hr' => subst h; exact absurd hr (failsWith_ne_refused hr' r)
  | failRead rg w L r' q hL _ h hr' => subst h; exact absurd hr (failsWith_ne_refused hr' r)
  | failScan w r' q h hr' => subst h; exact absurd hr (failsWith_ne_refused hr' r)

theorem refusalMark_moves {s u : State} (hmark : s.refusalMark = true) (hm : Moves s u) : u.refusalMark = true := by
  by_cases ht : s.turn = .engine
  · cases hm.engineTurn ht with
    | command w i u hc hd hx => exact (keepsInputs_exec hd hx).2 hmark
    | refused r => rfl
    | quiet => exact hmark
  · exact (hm.keepsEngine ht).2.1.trans hmark

/-- Settles O59: every refusal is `State.refuse` at a refusing label or of a faulted engine, and no move clears the mark. -/
theorem refusalKeepsAll : Obligations.RefusalKeepsAll := by
  refine ⟨fun s t w i r hc hx ht hr => ?refusal, fun s t hmark hstep => ?mark⟩
  case refusal =>
    obtain ⟨rfl, hq⟩ := refuse_of_ends (ends_all i hx) hc ht hr
    refine ⟨untouched_refuse r s, ?_, rfl, rfl, by cases r <;> simp [resultCode, refusedCode]⟩
    rcases hq with hq | ⟨p, j, n, hq, hp⟩
    · exact .inl ⟨hq, congrArg afterRefusal hq⟩
    · exact .inr ⟨congrArg afterRefusal hq, p, j, n, hq, hp⟩
  case mark =>
    obtain ⟨u, hm, rfl⟩ := step_next hstep
    exact (refusalMark_moves hmark hm :)

/-! ## Failures (R224, R225) -/

/-- `u` is `s` with no register written: the lock is as it was, or engaged by the read at S2 of `RECEIVE`. -/
def State.unwritten (s u : State) : Prop :=
  sameBlock s u ∧ u.mode = s.mode ∧ u.maxMailbox = s.maxMailbox ∧ u.abortReq = s.abortReq ∧ u.rxBegun = s.rxBegun ∧
    (u.lock = s.lock ∨ ∃ j n, s.seq = .run (.receive .s2) j n ∧ u.lock = some j.val)

/-- A command served with a fatal or a recoverable result is closed in a state that differs by a read at most. -/
theorem close_of_ends {s t : State} {w : Word} (h : Ends s t) (hc : s.cmd = some w) (ht : t.cmd = none)
    (hr : (∃ f, t.result = .fatal f) ∨ (∃ e, t.result = .err e)) :
    ∃ u r q, t = u.close r q ∧ s.unwritten u ∧ failsWith r q := by
  have hself : s.unwritten s := ⟨⟨⟨rfl, rfl, rfl, rfl⟩, rfl, fun _ => rfl⟩, rfl, rfl, rfl, rfl, .inl rfl⟩
  cases h with
  | goes h => cases (h.trans hc).symm.trans ht
  | refused r h hq => subst h; rcases hr with ⟨_, hr⟩ | ⟨_, hr⟩ <;> cases hr
  | ok v h _ _ => rcases hr with ⟨_, hr⟩ | ⟨_, hr⟩ <;> cases h.symm.trans hr
  | failNow r q h hr' => exact ⟨_, r, q, h, hself, hr'⟩
  | failRead rg k L r q hL _ h hr' =>
    refine ⟨_, r, q, h, ⟨sameBlock_afterRead rg s, ?_, ?_, ?_, ?_, hL⟩, hr'⟩ <;> simp
  | failScan k r q h hr' => exact ⟨_, r, q, h, hself, hr'⟩

/-- Settles O60: such an end is `State.close` after a read at most, with the sequencer its result asks for. -/
theorem failingStepWritesNothing : Obligations.FailingStepWritesNothing := by
  intro s t w i hc hx ht hr
  obtain ⟨u, r, q, rfl, ⟨hblock, hmode, hmax, habort, hbegun, hlock⟩, hend⟩ := close_of_ends (ends_all i hx) hc ht hr
  refine ⟨hblock, hmode, hmax, habort, hbegun, hlock, ?_, ?_⟩
  all_goals
    rintro ⟨c, rfl : r = _⟩
    rcases hend with ⟨_, ⟨⟩, rfl⟩ | ⟨_, ⟨⟩, rfl⟩
    rfl

end Sys2Proof.Machine
end

section
/-! SUPPORT. Admission (60_exceptions.md R217, R227, R232): the operands each validating label refuses, and who is admitted in
which mode; then the length code of a received frame (R222), and the two runs that end without a frame (R213, R215). -/

namespace Sys2Proof.Machine

/-! ## Operands that are none (R217) -/

/-- The number exceeds the bound of its kind (10_state.md R45). -/
def idTooLarge (id : IdOperand) : Prop :=
  (∃ v, id = .base v ∧ 0x7FF < v) ∨ ∃ v, id = .extended v ∧ 0x1FFFFFFF < v

theorem checkId_tooLarge {id : IdOperand} (h : idTooLarge id) : checkId id = none := by
  rcases h with ⟨v, rfl, hv⟩ | ⟨v, rfl, hv⟩ <;> exact if_neg (Nat.not_le.2 hv)

theorem checkFrame_tooLong (id : IdOperand) {p : List Byte} (h : 8 < p.length) : checkFrame (.data id p) = none :=
  if_neg (Nat.not_le.2 h)

theorem checkFrame_badId {id : IdOperand} (h : checkId id = none) (p : List Byte) :
    checkFrame (.data id p) = none ∧ checkFrame (.remote id) = none := by
  simp [checkFrame, h]

/-- The header breaks an invariant of 10_state.md R48. -/
def headerBroken (h : HeaderOperand) : Prop :=
  7 < h.priority ∨ (∃ st, h.code = .value (.receive st true)) ∨ ∃ raw, h.code = .malformed raw

theorem checkHeader_broken {h : HeaderOperand} (hb : headerBroken h) : checkHeader h = none := by
  rcases hb with hp | ⟨st, hc⟩ | ⟨raw, hc⟩
  · have hp' : ¬h.priority ≤ 7 := Nat.not_le.2 hp
    cases hc : checkCode h.code <;> simp [checkHeader, hc, hp']
  · simp [checkHeader, hc, checkCode, MessageBufferCode.isBusy]
  · simp [checkHeader, hc, checkCode]

/-- One header that does not pass fails the sequence. -/
theorem checkHeaders_of_mem {hs : List HeaderOperand} {h : HeaderOperand} (hmem : h ∈ hs) (hh : checkHeader h = none) :
    checkHeaders hs = none := by
  induction hs with
  | nil => cases hmem
  | cons a as ih =>
    rcases List.mem_cons.1 hmem with rfl | hmem
    · simp only [checkHeaders, hh]
    · simp [checkHeaders, ih hmem]

theorem checkHeaderSequence_broken {numMb : Nat} {hs : List HeaderOperand}
    (h : hs = [] ∨ numMb < hs.length ∨ ∃ h ∈ hs, headerBroken h) : checkHeaderSequence numMb hs = none := by
  rw [checkHeaderSequence]
  rcases h with rfl | hlen | ⟨a, hmem, hb⟩
  · rfl
  · exact if_neg fun hbounds => absurd hlen (Nat.not_lt.2 hbounds.2)
  · rw [checkHeaders_of_mem hmem (checkHeader_broken hb), ite_self]

/-! ## The S0 of `TRANSMIT`, `RECEIVE` and `ABORT` (R227) -/

section Start

variable {s : State} {m : Nat}

theorem startTransmit_notRunning (hm : s.mode ≠ .running) : startTransmit s = .next (s.refuse .notInitialised) :=
  if_pos hm

theorem startReceive_notRunning (hm : s.mode ≠ .running) : startReceive m s = .next (s.refuse .notInitialised) :=
  if_pos hm

theorem startAbort_notRunning (hm : s.mode ≠ .running) : startAbort m s = .next (s.refuse .notInitialised) :=
  if_pos hm

theorem startTransmit_invalid (hm : s.mode = .running) (hf : checkFrame s.ops.frame = none) :
    startTransmit s = .next (s.refuse .invalidOperand) := by
  simp only [startTransmit, if_neg (not_not_intro hm), hf, refuse]

theorem startTransmit_admits (hm : s.mode = .running) {f : CanFrame} (hf : checkFrame s.ops.frame = some f) :
    startTransmit s = .next ((s.keep { Work.empty with
      frame := f, report := List.replicate (s.maxMailbox.toNat + 1) .none }).goto (.transmit .s1) 0) := by
  simp only [startTransmit, if_neg (not_not_intro hm), hf]

theorem startReceive_outOfRange (hm : s.mode = .running) (h : s.maxMailbox.toNat < m) :
    startReceive m s = .next (s.refuse .mailboxIndexOutOfRange) := by
  rw [startReceive, if_neg (not_not_intro hm), if_pos h, refuse]

theorem startAbort_outOfRange (hm : s.mode = .running) (h : s.maxMailbox.toNat < m) :
    startAbort m s = .next (s.refuse .mailboxIndexOutOfRange) := by
  rw [startAbort, if_neg (not_not_intro hm), if_pos h, refuse]

theorem startReceive_admits {k : Fin 32} (hm : s.mode = .running) (h : k.val ≤ s.maxMailbox.toNat) :
    startReceive k.val s = .next ((s.keep Work.empty).goto (.receive .s1) k) := by
  rw [startReceive, if_neg (not_not_intro hm), if_neg (Nat.not_lt.2 h), ofNat_self]

theorem startAbort_admits {k : Fin 32} (hm : s.mode = .running) (h : k.val ≤ s.maxMailbox.toNat) :
    startAbort k.val s = .next ((s.keep Work.empty).goto (.abort .s1) k) := by
  rw [startAbort, if_neg (not_not_intro hm), if_neg (Nat.not_lt.2 h), ofNat_self]

end Start

/-- Settles O14: each validating label asks a check of Machine/Operands.lean, which answers none. -/
theorem invalidOperandRefused : Obligations.InvalidOperandRefused := by
  refine ⟨fun s i n hq hbits => ?decode, fun s i n raw hq hcode => ?encode, fun s i n id p hq hm hf => ?transmit,
    fun s i n hq hm hh => ?init⟩
  case decode =>
    have hnone : checkBits4 s.ops.bits4 = none := if_neg (Nat.not_le.2 hbits)
    simp only [exec_decode_run hq, decodeStep, hnone, refuse]
  case encode => simp only [exec_encode_run hq, encodeStep, hcode, checkCode, refuse]
  case transmit =>
    rw [exec_transmit_run hq]
    refine startTransmit_invalid hm ?_
    rcases hf with ⟨hf, hlen⟩ | ⟨hf, hid⟩
    · exact hf ▸ checkFrame_tooLong id hlen
    · obtain ⟨hdata, hremote⟩ := checkFrame_badId (checkId_tooLarge hid) p
      rcases hf with hf | hf <;> rw [hf] <;> assumption
  case init =>
    rw [exec_init_run hq]
    exact validateAdmission_invalid hm (checkHeaderSequence_broken hh)

/-- Settles O31: what S0 of each operation and V0 of `INIT` answer, and that admission is `State.keep` and `State.goto`. -/
theorem admissionByMode : Obligations.AdmissionByMode := by
  refine ⟨fun s i n m hm => ⟨fun hq => ?_, fun hq => ?_, fun hq => ?_⟩, fun s i n m hm => ⟨fun hq => ?_, fun hmax =>
    ⟨fun hq => ?_, fun hq => ?_⟩, fun k hk hle => ?enters, fun f hq hf => ?transmits⟩⟩
  · exact (exec_transmit_run hq).trans (startTransmit_notRunning hm)
  · exact (exec_receive_run hq).trans (startReceive_notRunning hm)
  · exact (exec_abort_run hq).trans (startAbort_notRunning hm)
  · exact (exec_init_run hq).trans (validateAdmission_running hm)
  · exact (exec_receive_run hq).trans (startReceive_outOfRange hm hmax)
  · exact (exec_abort_run hq).trans (startAbort_outOfRange hm hmax)
  case enters =>
    subst hk
    refine ⟨fun hq => ⟨_, (exec_receive_run hq).trans (startReceive_admits hm hle), rfl, ?_⟩,
      fun hq => ⟨_, (exec_abort_run hq).trans (startAbort_admits hm hle), rfl, ?_⟩⟩ <;>
      exact ⟨samePorts_start .., untouched_start ..⟩
  case transmits =>
    exact ⟨_, (exec_transmit_run hq).trans (startTransmit_admits hm hf), rfl, rfl, rfl, samePorts_start ..,
      untouched_start ..⟩

/-! ## `BuildFrame` (44_receive.md R191, R222) -/

theorem buildFrame_remote {c : Word} (hr : (unpackCs c).rtr = true) (w d0 d1 : Word) :
    buildFrame c w d0 d1 = some (.remote (unpackId (unpackCs c).ide w)) := by
  simp only [buildFrame, hr, if_true]

theorem buildFrame_tooLong {c : Word} (hr : (unpackCs c).rtr = false) (hl : 8 < (unpackCs c).dlc.toNat) (w d0 d1 : Word) :
    buildFrame c w d0 d1 = none := by
  simp only [buildFrame, hr, hl, Bool.false_eq_true, if_false, if_true]

theorem buildFrame_data {c : Word} (hr : (unpackCs c).rtr = false) (hl : (unpackCs c).dlc.toNat ≤ 8) (w d0 d1 : Word) :
    buildFrame c w d0 d1 =
      some (.data (unpackId (unpackCs c).ide w) (unpackData d0 d1 (unpackCs c).dlc.toNat)) := by
  simp only [buildFrame, hr, Nat.not_lt.2 hl, Bool.false_eq_true, if_false]

/-- S6: the words read make no frame. -/
theorem exec_receive_s6_fatal {s : State} {i : Fin 32} {n m : Nat} (hq : s.seq = .run (.receive .s6) i n)
    (hf : buildFrame s.work.c s.work.w s.work.d0 s.work.d1 = none) :
    exec (.receive m) s = .next (s.close (.fatal (.dlcOutOfRange (unpackCs s.work.c).dlc)) .faulted) := by
  simp only [exec_receive_run hq, receiveStep, hf, raiseFatal]

/-- Settles O40: S6 by the answer of `buildFrame`. -/
theorem receiveDlcOutOfRange : Obligations.ReceiveDlcOutOfRange := by
  refine fun s i n m hq => ⟨fun hr hl => ?_, fun hr => ?_, fun hr hl => ?_⟩
  · exact ⟨_, exec_receive_s6_fatal hq (buildFrame_tooLong hr hl ..), rfl, rfl, untouched_close ..⟩
  · exact ⟨_, exec_receive_s6_frame hq (buildFrame_remote hr ..), rfl, rfl, untouched_start ..⟩
  · exact ⟨_, exec_receive_s6_frame hq (buildFrame_data hr hl ..), rfl, rfl, untouched_start ..⟩

/-! ## `RECEIVE` of an empty mailbox (R215) -/

/-- S1: the flag of the mailbox is clear. -/
theorem exec_receive_s1_clear {s : State} {i : Fin 32} {n m : Nat} (hq : s.seq = .run (.receive .s1) i n)
    (hf : s.flag i = false) :
    exec (.receive m) s = .next ((s.afterRead .iflag).close (.err .mailboxEmpty) .idle) := by
  have hbit : ¬s.iflag.getLsbD i = true := Bool.not_eq_true _ ▸ hf
  rw [exec_receive_run hq, receiveStep, readReg_of_has rfl]
  exact if_neg hbit

/-- Settles O37: S1 ends the operation after its one read; the whole run is acceptance, S0, and that. -/
theorem receiveEmpty : Obligations.ReceiveEmpty := by
  refine ⟨fun s i n m hq hflag => ?label, fun s w i hinv hq hc hd hmode hle hflag => ?whole⟩
  case label =>
    have hx := exec_receive_s1_clear (m := m) hq hflag
    have hreport : s.publishedReport = s.report := publishedReport_of_exec rfl (by decide) hx
    exact ⟨_, hx, rfl, rfl, rfl, sameBlock_afterRead .iflag s, sameHidden_afterRead (by simp) s,
      sameEngine_afterRead .iflag s, hreport, rfl⟩
  case whole =>
    obtain ⟨hi, i, rfl⟩ := hinv.structural.inUse hle
    have hadmit := run_receive_admitted (rest := .engine :: s.script) (n := s.tick) hd hc hmode hle
    have hread := engine_step (s := s.inReceive .s1 i Work.empty s.lock s.history (.engine :: s.script) (s.tick + 2)) rfl
      hc hd (exec_receive_s1_clear (m := i.val) rfl hflag)
    have hrun := runSteps_then hadmit (runSteps_succ 0 hread)
    exact ⟨_, (congrArg (runSteps 3) (alone_eq_turnedTo hq 3)).trans hrun, rfl, rfl, rfl,
      ⟨⟨rfl, rfl, rfl, rfl⟩, rfl, fun _ => rfl⟩, ⟨rfl, rfl, rfl⟩, rfl, rfl⟩

/-! ## `TRANSMIT` with no free mailbox (R213) -/

/-- Settles O35: the scan skips every mailbox below `max_mailbox`, and at the last one ends with the report. -/
theorem transmitBufferFull : Obligations.TransmitBufferFull := by
  intro s w f hinv hq hc hd hmode hf hnone
  have hmax := hinv.structural.maxMailbox
  obtain ⟨u₀, hstart, hscan₀⟩ := scan_start (N := 2 * (s.maxMailbox.toNat + 1)) hq hc hd hmode hf
  rw [Nat.mul_succ, List.replicate_add, List.append_assoc] at hscan₀
  obtain ⟨u, hskip, i, hi, hscan⟩ := scan_many hd hmax s.maxMailbox.toNat _ u₀ (Nat.le_refl _)
    (fun k hk => hnone k (Nat.le_of_lt hk)) hscan₀
  obtain ⟨h1000, h1101, h1111⟩ := hnone i (Nat.le_of_eq hi)
  obtain ⟨t, hlast, -, hend⟩ := scanAt_skip hd hscan hmax (Nat.le_of_eq hi) h1000 h1101 h1111
  obtain ⟨hresult, hidle, hcmd, hblock, hhidden, hlength, hentries, hreads, hwrites⟩ := hend hi
  exact ⟨t, runSteps_then hstart (runSteps_then hskip hlast), hresult, hidle, hcmd, hblock, hhidden, hlength,
    fun k hk => hentries k (hi ▸ hk), hi ▸ hreads, hwrites⟩

end Sys2Proof.Machine
end

section
/-! SUPPORT. The end of `INIT` (42_controller_init.md R168): its last read with freeze mode left, and the configuration in
force after it (70_reset_and_hazards.md R253). -/

namespace Sys2Proof.Machine

open Sys2Proof

/-! ## The last step -/

/-- `s` after the read that ends the wait of F2. -/
def State.initDone (s : State) : State := ((s.afterRead .gcr).setMode .running).close (.ok .unit) .idle

theorem exec_init_f2_ready {s : State} {i : Fin 32} {n : Nat} (hq : s.seq = .run (.init .f2) i n)
    (hack : s.frzack = false) : exec .init s = .next s.initDone := by
  rw [exec_init_run hq]
  exact waitUntil_ready rfl hack

/-! ## The operands admitted (R161) -/

/-- No FIFO is configured past V3, so no DMA either. -/
theorem State.initOperands.no_dma {s : State} {l : InitStep} (h : s.initOperands l)
    (hl : l ∉ [InitStep.v0, .v1, .v2, .v3]) : s.work.settings.dmaEnable = false := by
  obtain ⟨-, hdma, -, hfifo⟩ := h
  refine Bool.eq_false_iff.2 fun hd => ?_
  have hon : s.work.settings.fifoEnabled = true := hdma (fun hm => hl (List.mem_append_left [InitStep.v2, InitStep.v3] hm)) hd
  exact Bool.false_ne_true ((hfifo hl).symm.trans hon)

/-! ## A mailbox with the filler frame (30_encoding.md R105, R109) -/

theorem packId_filler (prio : BitVec 3) : packId prio fillerFrame.id = (prio.setWidth 32 : Word) <<< 29 := by
  simp [packId, fillerFrame, CanFrame.id]

theorem packData_filler (j : Nat) : packData fillerFrame j = 0#32 := by
  simp only [packData, laneOf, payloadOf, fillerFrame, List.getD_nil]
  rfl

theorem inertCode_of_inactive {c : MessageBufferCode} (h : c = .transmit .inactive ∨ c = .receive .inactive false) :
    inertCode (codeBits c) := by
  rcases h with rfl | rfl
  · exact .inr rfl
  · exact .inl rfl

/-- The mailbox row of R253. -/
theorem mbConfigured_iff {s : State} {j : Nat} {h : MailboxHeader} :
    s.mbConfigured j h ↔ s.flag j = false ∧ s.mbWord j .id = (h.priority.setWidth 32 : Word) <<< 29 ∧
      s.mbWord j .d0 = 0#32 ∧ s.mbWord j .d1 = 0#32 ∧ s.mbWord j .cs = packCs h fillerFrame := by
  simp only [State.mbConfigured, State.mbHolds, packId_filler, packData_filler]
  exact ⟨fun ⟨⟨hcs, hid, hd0, hd1⟩, hflag⟩ => ⟨hflag, hid, hd0, hd1, hcs⟩,
    fun ⟨hflag, hid, hd0, hd1, hcs⟩ => ⟨⟨hcs, hid, hd0, hd1⟩, hflag⟩⟩

/-- At F2 a mailbox whose header has an inactive code is as the configure loop left it. -/
theorem State.ProtocolOk.configuredAtF2 {s : State} (hp : s.ProtocolOk) {i : Fin 32} {n : Nat}
    (hq : s.seq = .run (.init .f2) i n) {j : Nat} {h : MailboxHeader} (hh : s.work.headers[j]? = some h)
    (hc : inertCode (codeBits h.code)) : s.mbConfigured j h := by
  have hprog := hp.progress
  simp only [State.progress, hq, State.initMailboxes] at hprog
  exact hprog j h hh hc

/-! ## The statement -/

/-- Settles O29: the step keeps the register block, the lock and the abort requests, so each row of the table is what the
invariant says at F2. -/
theorem initLeavesConfigured : Obligations.InitLeavesConfigured := by
  intro s i n hinv hq hack
  obtain ⟨hoperands, hmode, ⟨⟨hmdis, hsoftrst, hlpmack⟩, hfrz, hhalt⟩, hclksrc, hgcr, hbtr, hrxmask⟩ :=
    hinv.phase.init _ _ _ hq
  obtain ⟨hrfen, hsrxdis, hirmq, hdma, hmaxmb, hmax⟩ := hgcr
  obtain ⟨hpresdiv, hrjw, hpseg1, hpseg2, hpropseg, hlpb⟩ := hbtr
  obtain ⟨hlock, habort⟩ := hinv.protocol.hidden.fresh (by rw [hmode]; decide)
  have hnoDma := hdma.trans (hoperands.no_dma (by decide))
  obtain ⟨-, -, hbt, hfifo⟩ := hoperands
  have hnoFifo := hrfen.trans (hfifo (by decide))
  exact ⟨s.initDone, exec_init_f2_ready hq hack, rfl, rfl, rfl, hmax, hlock, habort,
    hmdis, hfrz, hhalt, hsoftrst, hack, hlpmack, hnoFifo, hnoDma, hsrxdis, hirmq, hmaxmb, hbt (by decide),
    hpresdiv, hrjw, hpseg1, hpseg2, hpropseg, hlpb, hclksrc, hrxmask,
    fun j h hh hc => mbConfigured_iff.1 (hinv.protocol.configuredAtF2 hq hh (inertCode_of_inactive hc))⟩

end Sys2Proof.Machine
end
